-- ==== Sys2Proof/Word.lean ====
section
/-! DEFINITION. The word types of HFC: 00_scope.md R7 gives every width. All values are unsigned (R8). -/

namespace Sys2Proof

/-- A byte of SRC, SNK, of a symbol, and the command word (CMD_W = 8). -/
abbrev Byte := BitVec 8

/-- SRC_LEN, SRC_POS, TOTAL_IN, a histogram counter, a header integer (LEN_W = HIST_W = HDR_INT_W = 32). -/
abbrev Word32 := BitVec 32

/-- A node frequency, TOTAL_SYM, DEC_CNT (FREQ_W = 40). -/
abbrev Freq := BitVec 40

/-- A node reference (REF_W = 9), also K, NODE_CNT and HEAP_SIZE, which have the same width. -/
abbrev Ref := BitVec 9

/-- A CODE_BITS word (CODE_MAX = 255 bits). -/
abbrev CodeWord := BitVec 255

/-- What the register transport carries: the width of the widest register (10_state.md R25; log 9). -/
abbrev BusWord := BitVec 40

end Sys2Proof
end

