-- ==== Sys2Proof/Machine/HostAction.lean ====
section
/-! DEFINITION. What the outside world does to HFC, one action at a time (10_state.md R25, R41, 30_encoding.md R99,
70_reset_and_hazards.md R255; logs 4 and 5). -/

namespace Sys2Proof.Machine

/-- An action of the host. -/
inductive HostAction where
  /-- `CMD` of 30_encoding.md R99: the opcode is written to register 0 and, where the write is acted on, the command runs
  to its end within the same step (00_scope.md R6). -/
  | command (opcode : Byte)
  /-- A bare register write (10_state.md R28, R29, R43). A command it starts runs afterwards, one stage a step. -/
  | write (reg : Nat) (value : BusWord)
  /-- A register read (10_state.md R43); what it returns is left in `rdata`. -/
  | read (reg : Nat)
  /-- `SRC = <bytes>` of 30_encoding.md R99: the host makes the source hold these bytes, from address 0. -/
  | placeSource (bytes : List Byte)
  /-- The host takes the oldest `n` bytes out of SNK (10_state.md R41: "drain or empty SNK"; 20_memory.md R70). -/
  | drainSink (n : Nat)
  /-- A pulse on the reset input (70_reset_and_hazards.md R255). -/
  | reset
  /-- The host does nothing while the running command goes on by one stage. -/
  | letRun
deriving DecidableEq, Repr

end Sys2Proof.Machine
end

