-- ==== Sys2Proof/Syntax.lean ====
section
/-! DEFINITION. The command set: one constructor per row of spec/opcode_table.json (30_encoding.md R91).
No command has an operand (R93). -/

namespace Sys2Proof

/-- The twelve commands of HFC. -/
inductive Instr where
  /-- 0x00: acknowledge (40_sequencer.md R125). -/
  | nop
  /-- 0x01: soft reset (40_sequencer.md R126). -/
  | clear
  /-- 0x10: count the source (41_frequency_counter.md R140). -/
  | hist
  /-- 0x11: extract the entry list (41_frequency_counter.md R141). -/
  | alpha
  /-- 0x20: build the tree (43_tree_builder.md R167). -/
  | build
  /-- 0x30: fill the code table (44_code_table.md R180). -/
  | codegen
  /-- 0x40: write the header (45_serializer.md R190). -/
  | wrhdr
  /-- 0x41: write the packed bitstream (45_serializer.md R193). -/
  | pack
  /-- 0x50: read the header (46_deserializer.md R205). -/
  | rdhdr
  /-- 0x60: decode the bitstream (46_deserializer.md R207). -/
  | decode
  /-- 0x80: HIST, ALPHA, BUILD, CODEGEN, WRHDR, PACK (40_sequencer.md R127). -/
  | compress
  /-- 0x81: RDHDR, BUILD, DECODE (40_sequencer.md R128). -/
  | decompress
deriving DecidableEq, Repr

end Sys2Proof
end

