-- ==== Sys2Proof/WellFormed.lean ====
section
/-! DEFINITION. What may be given to the machine: commands, and host actions that keep the host's side of the contract
(20_memory.md R73, 10_state.md R25, R29). -/

namespace Sys2Proof

/-- A command has no operand field, no immediate and no register specifier (30_encoding.md R93), so there is nothing to
check in one. -/
def Instr.wf : Instr → Bool
  | .nop | .clear | .hist | .alpha | .build | .codegen | .wrhdr | .pack | .rdhdr | .decode
  | .compress | .decompress => true

/-- The static checks of a host action: a source has at most 2^32 − 1 bytes (10_state.md R29), and a write carries no more
than the register's width (8 bits for CMD, 32 for SRC_LEN; 10_state.md R25). -/
def Machine.HostAction.wf : Machine.HostAction → Bool
  | .command _ => true
  | .write n v =>
    if n = 0 then decide (v.toNat < 2 ^ 8) else if n = 3 then decide (v.toNat < 2 ^ 32) else true
  | .read _ => true
  | .placeSource bytes => decide (bytes.length < 2 ^ 32)
  | .drainSink _ => true
  | .reset => true
  | .letRun => true

end Sys2Proof
end

