-- ==== Sys2Proof/Decode.lean ====
section
/-! DEFINITION. Decoding and encoding of the command word (30_encoding.md R90 to R93, R101). -/

namespace Sys2Proof

/-- Why bytes decode to no command. -/
inductive DecodeError where
  /-- One of the 244 values 30_encoding.md R91 does not list (R92). -/
  | illegalOpcode (word : Byte)
  /-- There is no byte to decode. -/
  | noWord
deriving DecidableEq, Repr

/-- The opcode map of 30_encoding.md R91, compared on all 8 bits (R90). -/
def decodeOpcode (w : Byte) : Except DecodeError Instr :=
  if w = 0x00#8 then .ok .nop
  else if w = 0x01#8 then .ok .clear
  else if w = 0x10#8 then .ok .hist
  else if w = 0x11#8 then .ok .alpha
  else if w = 0x20#8 then .ok .build
  else if w = 0x30#8 then .ok .codegen
  else if w = 0x40#8 then .ok .wrhdr
  else if w = 0x41#8 then .ok .pack
  else if w = 0x50#8 then .ok .rdhdr
  else if w = 0x60#8 then .ok .decode
  else if w = 0x80#8 then .ok .compress
  else if w = 0x81#8 then .ok .decompress
  else .error (.illegalOpcode w)

/-- One command from a list of bytes, and the bytes after it: the word has one length (30_encoding.md R101). -/
def decode : List Byte → Except DecodeError (Instr × List Byte)
  | [] => .error .noWord
  | w :: rest =>
    match decodeOpcode w with
    | .ok i => .ok (i, rest)
    | .error e => .error e

/-- The UNIT field, bits 7:4 (30_encoding.md R90). -/
def Instr.unit : Instr → BitVec 4
  | .nop | .clear => 0
  | .hist | .alpha => 1
  | .build => 2
  | .codegen => 3
  | .wrhdr | .pack => 4
  | .rdhdr => 5
  | .decode => 6
  | .compress | .decompress => 8

/-- The FUNC field, bits 3:0 (30_encoding.md R91). -/
def Instr.func : Instr → BitVec 4
  | .nop | .hist | .build | .codegen | .wrhdr | .rdhdr | .decode | .compress => 0
  | .clear | .alpha | .pack | .decompress => 1

/-- The command word, `UNIT` in the high half and `FUNC` in the low half. -/
def Instr.opcode (i : Instr) : Byte := i.unit ++ i.func

/-- The bytes of a command. -/
def encode (i : Instr) : List Byte := [i.opcode]

/-- The command the decoder reads from a table row's bits: CMD8 is the one format (30_encoding.md R90), so a word has
8 bits. -/
def decodeTableWord (nbits w : Nat) : Option Instr :=
  if nbits = 8 then
    match decode [BitVec.ofNat 8 w] with
    | .ok (i, _) => some i
    | .error _ => none
  else none

end Sys2Proof
end

