-- ==== Sys2Proof/Config.lean ====
section
/-! DEFINITION. The parameters of 00_scope.md R7 that are not word widths, and the free values of the model. -/

namespace Sys2Proof.Config

/-- ALPHABET, K_MAX, HEAP_MAX: 256 byte values, entries, heap slots. -/
abbrev alphabet : Nat := 256

/-- NODE_MAX: node slots 0 to 510. -/
abbrev nodeMax : Nat := 511

/-- NIL: the absent child, no node. -/
abbrev nil : Ref := 511#9

/-- FREE VALUE (10_state.md R43, 93_implementation_defined.md U13, log 7): what the n-th host read of register r
returns when it is made while BUSY is 1 and the spec leaves the value open. -/
opaque busyRead : Nat → Nat → BusWord

/-- FREE VALUE (log 6): the byte that SRC holds at an address below SRC_LEN where the host placed none;
the first argument counts how often the host has replaced SRC. -/
opaque unplacedByte : Nat → Nat → Byte

end Sys2Proof.Config
end

