-- ==== Sys2Proof/Machine/State.lean ====
section
/-! DEFINITION. The architectural state of HFC (10_state.md R20), the reasons a step can stop, and the state after reset
(10_state.md R42). -/

namespace Sys2Proof.Machine

/-- The eight stages (10_state.md R22). -/
inductive Stage where
  | hist | alpha | build | codegen | wrhdr | pack | rdhdr | decode
deriving DecidableEq, Repr

/-- PHASE: IDLE, or the stage that is executing. The codes 9 to 15 are never held (10_state.md R22). -/
inductive Phase where
  | idle
  | stage (s : Stage)
deriving DecidableEq, Repr

/-- MACRO: the kind of command that is executing. The code 3 is never held (10_state.md R23). -/
inductive CommandKind where
  /-- 0: none, or a single stage command. -/
  | single
  /-- 1. -/
  | compress
  /-- 2. -/
  | decompress
deriving DecidableEq, Repr

/-- ERR_KIND (60_exceptions.md R225). The code 7 is never held. -/
inductive ErrKind where
  | none
  | emptyInput
  /-- Kept for the numbering, raised by no rule (60_exceptions.md R227). -/
  | allocationFailure
  | corruptHeader
  | corruptStream
  | unexpectedEOF
  | invariantViolation
deriving DecidableEq, Repr

/-- The table memories that are indexed by something wider than the memory (20_memory.md R67). -/
inductive TableMem where
  | ent | node | heap
deriving DecidableEq, Repr

/-- Why the machine stops. No fault is an error of the spec: those are next states (60_exceptions.md R232). -/
inductive Fault where
  /-- Raised by a table access at an index outside the memory, which 20_memory.md R67 says never occurs. Safe: no value
  is made up. -/
  | tableIndex (m : TableMem)
  /-- Raised by a loop of a stage that has made as many turns as 00_scope.md R6 and the stage's rule allow and would go on
  (a walk of a NODE memory that is no tree). Safe. -/
  | loopBound
  /-- Raised by the sequencer for a (MACRO, PHASE) pair that 40_sequencer.md R122 says never occurs. Safe. -/
  | noNextStage
  /-- Raised by a host action that replaces SRC while BUSY is 1, which 20_memory.md R73 forbids the host. Safe. -/
  | sourceReplacedWhileBusy
deriving DecidableEq, Repr

/-- Why an instruction has no meaning. -/
inductive Refusal where
  /-- Raised by an arm of `exec` whose instruction has no meaning yet. Safe. No arm is left so. -/
  | notModelled (mnemonic : String)
deriving DecidableEq, Repr

/-- A byte space as (address, byte) pairs with strictly rising addresses; an unlisted address holds no byte. -/
abbrev Memory := List Host.Cell

/-- The canonical form: addresses strictly rising. An unlisted address reads as no byte, so no entry can equal it. -/
def Memory.wf : Memory → Bool
  | [] => true
  | [_] => true
  | x :: y :: rest => decide (x.1 < y.1) && Memory.wf (y :: rest)

/-- All of HFC's state (10_state.md R20), its environment SRC and SNK (R41), and four fields of the model (logs 4, 6, 7,
9). Equality is decidable, so two states can be compared. -/
structure State where
  /-- PHASE (R22). -/
  phase : Phase
  /-- MACRO (R23). -/
  kind : CommandKind
  /-- BUSY, DONE, ERR (R44). -/
  busy : Bool
  done : Bool
  err : Bool
  /-- HIST_V, ENT_V, TREE_V, CODE_V (R24). -/
  histV : Bool
  entV : Bool
  treeV : Bool
  codeV : Bool
  /-- ERR_KIND, ERR_STAGE (R27). -/
  errKind : ErrKind
  errStage : Phase
  /-- SRC_LEN (R29). -/
  srcLen : Word32
  /-- SRC_POS (R30). -/
  srcPos : Word32
  /-- TOTAL_IN, K, TOTAL_SYM, DEC_CNT (R31). -/
  totalIn : Word32
  k : Ref
  totalSym : Freq
  decCnt : Freq
  /-- HIST (R32). -/
  hist : Vector Word32 256
  /-- ENT_SYM, ENT_FREQ (R33). -/
  entSym : Vector Byte 256
  entFreq : Vector Word32 256
  /-- NODE_FREQ, NODE_SYM, NODE_LEFT, NODE_RIGHT (R34). -/
  nodeFreq : Vector Freq 511
  nodeSym : Vector Byte 511
  nodeLeft : Vector Ref 511
  nodeRight : Vector Ref 511
  /-- NODE_CNT, ROOT (R35). -/
  nodeCnt : Ref
  root : Ref
  /-- HEAP, HEAP_SIZE (R36). -/
  heap : Vector Ref 256
  heapSize : Ref
  /-- CODE_LEN, CODE_BITS (R37); bit i of a word is the code's bit i. -/
  codeLen : Vector Byte 256
  codeBits : Vector CodeWord 256
  /-- BITBUF, BITCNT (R38). -/
  bitBuf : Byte
  bitCnt : BitVec 3
  /-- CURSOR (R39). -/
  cursor : Ref
  /-- SRC (R41). -/
  src : Memory
  /-- SNK (R41), oldest byte first; a byte's address is its position. -/
  snk : List Byte
  /-- The host actions still to come (log 4). -/
  host : List HostAction
  /-- What the last host read returned (log 9). -/
  rdata : BusWord
  /-- Counts the host reads whose value was free (log 7). -/
  freeReads : Nat
  /-- Counts the host's replacements of SRC (log 6). -/
  srcEpoch : Nat
deriving DecidableEq, Repr

/-- HFC right after reset (10_state.md R42, 70_reset_and_hazards.md R255). The table memories are unspecified there: zero
is the model's choice (log 1). SRC, SNK and the host actions are the environment's: empty (log 3). -/
def State.reset : State where
  phase := .idle
  kind := .single
  busy := false
  done := false
  err := false
  histV := false
  entV := false
  treeV := false
  codeV := false
  errKind := .none
  errStage := .idle
  srcLen := 0
  srcPos := 0
  totalIn := 0
  k := 0
  totalSym := 0
  decCnt := 0
  hist := Vector.replicate 256 0
  entSym := Vector.replicate 256 0
  entFreq := Vector.replicate 256 0
  nodeFreq := Vector.replicate 511 0
  nodeSym := Vector.replicate 511 0
  nodeLeft := Vector.replicate 511 0
  nodeRight := Vector.replicate 511 0
  nodeCnt := 0
  root := Config.nil
  heap := Vector.replicate 256 0
  heapSize := 0
  codeLen := Vector.replicate 256 0
  codeBits := Vector.replicate 256 0
  bitBuf := 0
  bitCnt := 0
  cursor := Config.nil
  src := []
  snk := []
  host := []
  rdata := 0
  freeReads := 0
  srcEpoch := 0

end Sys2Proof.Machine
end

