-- ==== Sys2Proof/Machine/Operands.lean ====
section
/-! DEFINITION. The implicit operands of the commands (30_encoding.md R93): the byte source, the memory form they are read
through, and the register views of the host port. -/

namespace Sys2Proof.Machine

/-- The byte the host placed at an address, if it placed one. -/
def Memory.read : Memory → Nat → Option Byte
  | [], _ => none
  | (x, b) :: rest, a => if x = a then some b else Memory.read rest a

/-- The cells of `bytes` laid from address `a` on. -/
def Memory.layFrom (a : Nat) : List Byte → Memory
  | [] => []
  | b :: rest => (a, b) :: Memory.layFrom (a + 1) rest

/-- A source that holds exactly these bytes, from address 0 (10_state.md R41). -/
def Memory.ofBytes (bytes : List Byte) : Memory := Memory.layFrom 0 bytes

/-- SRC[a] (20_memory.md R61: "the byte the host placed there"); where the host placed none, a free value (log 6). -/
def sourceByte (s : State) (a : Nat) : Byte :=
  (s.src.read a).getD (Config.unplacedByte s.srcEpoch a)

/-- HIST[b]: a byte never indexes outside the 256 counters (20_memory.md R67). -/
def histAt (b : Byte) (s : State) : Word32 := s.hist[b.toNat]'b.isLt

/-- CODE_LEN[b]. -/
def codeLenAt (b : Byte) (s : State) : Byte := s.codeLen[b.toNat]'b.isLt

/-- CODE_BITS[b]. -/
def codeBitsAt (b : Byte) (s : State) : CodeWord := s.codeBits[b.toNat]'b.isLt

/-- The byte values 0 to 255 in ascending order: the scan of the alphabet space (41_frequency_counter.md R141). -/
def allBytes : List Byte := (List.range 256).map (BitVec.ofNat 8)

/-- The stage codes of 10_state.md R22. -/
def Stage.code : Stage → BitVec 4
  | .hist => 1
  | .alpha => 2
  | .build => 3
  | .codegen => 4
  | .wrhdr => 5
  | .pack => 6
  | .rdhdr => 7
  | .decode => 8

/-- The value of PHASE (10_state.md R22). -/
def Phase.code : Phase → BitVec 4
  | .idle => 0
  | .stage s => s.code

/-- The value of MACRO (10_state.md R23). -/
def CommandKind.code : CommandKind → BitVec 2
  | .single => 0
  | .compress => 1
  | .decompress => 2

/-- The value of ERR_KIND (60_exceptions.md R225). -/
def ErrKind.code : ErrKind → BitVec 3
  | .none => 0
  | .emptyInput => 1
  | .allocationFailure => 2
  | .corruptHeader => 3
  | .corruptStream => 4
  | .unexpectedEOF => 5
  | .invariantViolation => 6

end Sys2Proof.Machine
end

