-- ==== Sys2Proof/Machine/Flags.lean ====
section
/-! DEFINITION. The flags: what each stage tests, clears and sets (40_sequencer.md R121, 10_state.md R24), and the
registers the host sees them through (10_state.md R26, R27; 60_exceptions.md R236). -/

namespace Sys2Proof.Machine

/-- Pre(s) of 40_sequencer.md R121. -/
def Stage.pre : Stage → State → Bool
  | .hist, _ => true
  | .alpha, s => s.histV
  | .build, s => s.entV
  | .codegen, s => s.treeV
  | .wrhdr, s => s.entV
  | .pack, s => s.codeV
  | .rdhdr, _ => true
  | .decode, s => s.entV && s.treeV

/-- Casc(s) of 40_sequencer.md R121: the flags cleared when the stage starts. -/
def Stage.cascade : Stage → State → State
  | .hist, s => { s with histV := false, entV := false, treeV := false, codeV := false }
  | .alpha, s => { s with entV := false, treeV := false, codeV := false }
  | .build, s => { s with treeV := false, codeV := false }
  | .codegen, s => { s with codeV := false }
  | .wrhdr, s => s
  | .pack, s => s
  | .rdhdr, s => { s with entV := false, treeV := false, codeV := false }
  | .decode, s => s

/-- Prod(s) of 40_sequencer.md R121: the flag set when the stage's body has succeeded. -/
def Stage.produce : Stage → State → State
  | .hist, s => { s with histV := true }
  | .alpha, s => { s with entV := true }
  | .build, s => { s with treeV := true }
  | .codegen, s => { s with codeV := true }
  | .wrhdr, s => s
  | .pack, s => s
  | .rdhdr, s => { s with entV := true }
  | .decode, s => s

/-- One flag as one bit. -/
def bit (b : Bool) : BitVec 1 := BitVec.ofBool b

/-- STATUS (10_state.md R26), bit 15 on the left. -/
def statusWord (s : State) : BitVec 16 :=
  0#2 ++ s.kind.code ++ bit s.codeV ++ bit s.treeV ++ bit s.entV ++ bit s.histV ++ s.phase.code ++ 0#1 ++
    bit s.err ++ bit s.done ++ bit s.busy

/-- ERRINFO (10_state.md R27), bit 7 on the left. -/
def errInfoWord (s : State) : BitVec 8 := s.errStage.code ++ 0#1 ++ s.errKind.code

/-- The level outputs `busy`, `done` and `err` (60_exceptions.md R236). -/
def statusOutputs (s : State) : Bool × Bool × Bool := (s.busy, s.done, s.err)

end Sys2Proof.Machine
end

