-- ==== Sys2Proof/Machine/Ops.lean ====
section
/-! DEFINITION. The operations every stage is written over: the outcome of a piece of a stage, error entry
(60_exceptions.md R232), the loops of the pseudocode (00_scope.md R9), the table accesses (20_memory.md R67) and the stream
primitives (20_memory.md R61 to R64). -/

namespace Sys2Proof.Machine

/-- How a piece of a stage ends. -/
inductive Res (α : Type) where
  /-- It ran to its end. -/
  | ok (a : α) (s : State)
  /-- A `raise` in it ended the command; `s` is the state after error entry. -/
  | stop (s : State)
  /-- The model stops. -/
  | fault (f : Fault)
deriving DecidableEq, Repr

/-- What follows runs only if the piece before ran to its end: "Nothing after a `raise` in the same pseudocode runs"
(00_scope.md R9, 40_sequencer.md R124). -/
def Res.bind {α β : Type} (r : Res α) (next : α → State → Res β) : Res β :=
  match r with
  | .ok a s => next a s
  | .stop s => .stop s
  | .fault f => .fault f

/-- The end of a command, as the outcome of a step: an error of the spec is a next state. -/
def Res.toOutcome {α : Type} (r : Res α) : Host.Outcome State Fault Refusal :=
  match r with
  | .ok _ s => .next s
  | .stop s => .next s
  | .fault f => .fault f

/-! ### Error entry and the end of a command -/

/-- Error entry, the effect of `raise` (60_exceptions.md R232). Everything written before keeps its value. -/
def errorEntry (kind : ErrKind) (s : State) : State :=
  { s with
    errKind := kind
    errStage := s.phase
    err := true
    busy := false
    done := true
    kind := .single
    phase := .idle }

/-- `raise Kind`. -/
def raise {α : Type} (kind : ErrKind) (s : State) : Res α := .stop (errorEntry kind s)

/-- The first line of Accept: the error record stands until the next command is accepted (40_sequencer.md R120,
60_exceptions.md R234). -/
def clearRecord (s : State) : State :=
  { s with done := false, err := false, errKind := .none, errStage := .idle }

/-- Complete() (40_sequencer.md R123). -/
def complete (s : State) : State :=
  { s with busy := false, done := true, kind := .single, phase := .idle }

/-- Every register and flag takes its reset value; the table memories, SRC, SNK and the host's side stay
(40_sequencer.md R126, 70_reset_and_hazards.md R255, R256). -/
def resetRegisters (s : State) : State :=
  { s with
    phase := .idle
    kind := .single
    busy := false
    done := false
    err := false
    histV := false
    entV := false
    treeV := false
    codeV := false
    errKind := .none
    errStage := .idle
    srcLen := 0
    srcPos := 0
    totalIn := 0
    k := 0
    totalSym := 0
    decCnt := 0
    nodeCnt := 0
    root := Config.nil
    heapSize := 0
    bitBuf := 0
    bitCnt := 0
    cursor := Config.nil }

/-! ### Loops -/

/-- `for x in xs: turn x`. -/
def forEach {α : Type} (turn : α → State → Res Unit) : List α → State → Res Unit
  | [], s => .ok () s
  | x :: xs, s => (turn x s).bind fun _ s => forEach turn xs s

/-- `while cond: turn`, with the bound of 00_scope.md R6 on the number of turns. -/
def whileLoop (cond : State → Bool) (turn : State → Res Unit) : Nat → State → Res Unit
  | 0, s => if cond s then .fault .loopBound else .ok () s
  | n + 1, s => if cond s then (turn s).bind fun _ s => whileLoop cond turn n s else .ok () s

/-! ### Table accesses -/

/-- Word `i` of a table memory. -/
def fetchWord {α : Type} {n : Nat} (m : TableMem) (v : Vector α n) (i : Nat) (s : State) : Res α :=
  if h : i < n then .ok v[i] s else .fault (.tableIndex m)

/-- ENT_SYM[i]. -/
def entSymAt (i : Nat) (s : State) : Res Byte := fetchWord .ent s.entSym i s

/-- ENT_FREQ[i]. -/
def entFreqAt (i : Nat) (s : State) : Res Word32 := fetchWord .ent s.entFreq i s

/-- NODE_FREQ[n]. -/
def nodeFreqAt (n : Ref) (s : State) : Res Freq := fetchWord .node s.nodeFreq n.toNat s

/-- NODE_SYM[n]. -/
def nodeSymAt (n : Ref) (s : State) : Res Byte := fetchWord .node s.nodeSym n.toNat s

/-- NODE_LEFT[n]. -/
def nodeLeftAt (n : Ref) (s : State) : Res Ref := fetchWord .node s.nodeLeft n.toNat s

/-- NODE_RIGHT[n]. -/
def nodeRightAt (n : Ref) (s : State) : Res Ref := fetchWord .node s.nodeRight n.toNat s

/-- HEAP[i]. -/
def heapAt (i : Nat) (s : State) : Res Ref := fetchWord .heap s.heap i s

/-- `ENT_SYM[i] <- sym; ENT_FREQ[i] <- freq`. -/
def putEntry (i : Nat) (sym : Byte) (freq : Word32) (s : State) : Res Unit :=
  if h : i < 256 then
    .ok () { s with entSym := s.entSym.set i sym, entFreq := s.entFreq.set i freq }
  else .fault (.tableIndex .ent)

/-- The four NODE words of index `n`. -/
def putNode (n : Nat) (freq : Freq) (sym : Byte) (left right : Ref) (s : State) : Res Unit :=
  if h : n < 511 then
    .ok ()
      { s with
        nodeFreq := s.nodeFreq.set n freq
        nodeSym := s.nodeSym.set n sym
        nodeLeft := s.nodeLeft.set n left
        nodeRight := s.nodeRight.set n right }
  else .fault (.tableIndex .node)

/-- `HEAP[i] <- n`. -/
def putHeap (i : Nat) (n : Ref) (s : State) : Res Unit :=
  if h : i < 256 then .ok () { s with heap := s.heap.set i n } else .fault (.tableIndex .heap)

/-- `swap HEAP[i], HEAP[j]`. -/
def swapHeap (i j : Nat) (s : State) : Res Unit :=
  (heapAt i s).bind fun a s =>
  (heapAt j s).bind fun b s =>
  (putHeap i b s).bind fun _ s =>
  putHeap j a s

/-- key(i) of 42_priority_queue.md. -/
def keyAt (i : Nat) (s : State) : Res Freq :=
  (heapAt i s).bind fun n s => nodeFreqAt n s

/-- IsLeaf(n) of 10_state.md R34. -/
def isLeaf (n : Ref) (s : State) : Res Bool :=
  (nodeLeftAt n s).bind fun l s =>
  (nodeRightAt n s).bind fun r s =>
  .ok (decide (l = Config.nil) && decide (r = Config.nil)) s

/-! ### Streams -/

/-- SrcRewind() (20_memory.md R62). -/
def srcRewind (s : State) : State := { s with srcPos := 0 }

/-- SrcGet() (20_memory.md R61); `none` is EOF. -/
def srcGet (s : State) : Option Byte × State :=
  if s.srcPos < s.srcLen then
    (some (sourceByte s s.srcPos.toNat), { s with srcPos := s.srcPos + 1 })
  else (none, s)

/-- SrcGet32() (20_memory.md R64): least significant byte first; the bytes read before EOF stay consumed. -/
def srcGet32 (s : State) : Option Word32 × State :=
  match srcGet s with
  | (none, s) => (none, s)
  | (some b0, s) =>
    match srcGet s with
    | (none, s) => (none, s)
    | (some b1, s) =>
      match srcGet s with
      | (none, s) => (none, s)
      | (some b2, s) =>
        match srcGet s with
        | (none, s) => (none, s)
        | (some b3, s) => (some (b3 ++ b2 ++ b1 ++ b0), s)

/-- SnkPut(b) (20_memory.md R63). -/
def snkPut (b : Byte) (s : State) : State := { s with snk := s.snk ++ [b] }

/-- SnkPut32(v) (20_memory.md R64): least significant byte first. -/
def snkPut32 (v : Word32) (s : State) : State :=
  snkPut (v.extractLsb' 24 8) (snkPut (v.extractLsb' 16 8) (snkPut (v.extractLsb' 8 8) (snkPut (v.extractLsb' 0 8) s)))

end Sys2Proof.Machine
end

