-- ==== Sys2Proof/Machine/CodeTable.lean ====
section
/-! DEFINITION. The code-table generator: SetCode, Walk and the body of the stage CODEGEN (44_code_table.md). -/

namespace Sys2Proof.Machine

/-- SetCode(s, path) (44_code_table.md R180): bit i of the word is `path[i]`, the bits above are 0. -/
def setCode (sym : Byte) (path : List Bool) (s : State) : State :=
  { s with
    codeLen := s.codeLen.set sym.toNat (BitVec.ofNat 8 path.length) sym.isLt
    codeBits := s.codeBits.set sym.toNat ((BitVec.ofBoolListLE path).setWidth 255) sym.isLt }

/-- Walk(n, path) (44_code_table.md R181): left subtree first. The first argument bounds the depth: a path has at most
255 bits (R183). -/
def walk : Nat → Ref → List Bool → State → Res Unit
  | 0, _, _, _ => .fault .loopBound
  | bound + 1, n, path, s =>
    (isLeaf n s).bind fun leaf s =>
    if leaf then (nodeSymAt n s).bind fun sym s => .ok () (setCode sym path s)
    else
      (nodeLeftAt n s).bind fun l s =>
      (walk bound l (path ++ [false]) s).bind fun _ s =>
      (nodeRightAt n s).bind fun r s =>
      walk bound r (path ++ [true]) s

/-- CODEGEN body (44_code_table.md R180, and R182 for the single leaf). -/
def bodyCodegen (s : State) : Res Unit :=
  let s := { s with codeLen := Vector.replicate 256 0, codeBits := Vector.replicate 256 0 }
  (isLeaf s.root s).bind fun leaf s =>
  if leaf then (nodeSymAt s.root s).bind fun sym s => .ok () (setCode sym [false] s)
  else walk 256 s.root [] s

end Sys2Proof.Machine
end

