-- ==== Sys2Proof/Machine/Counter.lean ====
section
/-! DEFINITION. The frequency counter: the bodies of the stages HIST and ALPHA (41_frequency_counter.md). -/

namespace Sys2Proof.Machine

/-- One turn of the counting loop (41_frequency_counter.md R140): the byte read is credited to its counter. -/
def histTurn (s : State) : Res Unit :=
  match srcGet s with
  | (none, s) => .ok () s
  | (some b, s) =>
    .ok () { s with hist := s.hist.set b.toNat (histAt b s + 1) b.isLt, totalIn := s.totalIn + 1 }

/-- HIST body (41_frequency_counter.md R140). -/
def bodyHist (s : State) : Res Unit :=
  if s.srcLen = 0 then raise .emptyInput s
  else
    whileLoop (fun s => decide (s.srcPos < s.srcLen)) histTurn s.srcLen.toNat
      (srcRewind { s with hist := Vector.replicate 256 0, totalIn := 0 })

/-- One turn of the alphabet scan (41_frequency_counter.md R141). -/
def alphaTurn (b : Byte) (s : State) : Res Unit :=
  if histAt b s ≠ 0 then
    (putEntry s.k.toNat b (histAt b s) s).bind fun _ s => .ok () { s with k := s.k + 1 }
  else .ok () s

/-- ALPHA body (41_frequency_counter.md R141). -/
def bodyAlpha (s : State) : Res Unit := forEach alphaTurn allBytes { s with k := 0 }

end Sys2Proof.Machine
end

