-- ==== Sys2Proof/Machine/Deserializer.lean ====
section
/-! DEFINITION. The deserializer: the bodies of the stages RDHDR and DECODE, and BitStep (46_deserializer.md). -/

namespace Sys2Proof.Machine

/-- One entry of the header (46_deserializer.md R205). -/
def entryTurn (i : Nat) (s : State) : Res Unit :=
  match srcGet s with
  | (none, s) => raise .corruptHeader s
  | (some sym, s) =>
    match srcGet32 s with
    | (none, s) => raise .corruptHeader s
    | (some freq, s) => putEntry i sym freq s

/-- RDHDR body (46_deserializer.md R205). -/
def bodyRdhdr (s : State) : Res Unit :=
  match srcGet32 (srcRewind s) with
  | (none, s) => raise .corruptHeader s
  | (some k, s) =>
    if k = 0#32 ∨ 256#32 < k then raise .corruptHeader s
    else forEach entryTurn (List.range k.toNat) { s with k := k.extractLsb' 0 9 }

/-- A leaf is reached: its symbol goes out, the cursor returns to the root, the count advances
(46_deserializer.md R208). -/
def emitLeaf (n : Ref) (s : State) : Res Unit :=
  (nodeSymAt n s).bind fun sym s =>
  .ok () { snkPut sym s with cursor := s.root, decCnt := s.decCnt + 1 }

/-- BitStep(v) for a tree whose root is an internal node (46_deserializer.md R208). -/
def bitStepInner (v : Bool) (s : State) : Res Unit :=
  (if v then nodeRightAt s.cursor s else nodeLeftAt s.cursor s).bind fun child s =>
  if child = Config.nil then raise .corruptStream s
  else
    (isLeaf child { s with cursor := child }).bind fun leaf s =>
    if leaf then emitLeaf child s else .ok () s

/-- BitStep(v) for the single-leaf tree (46_deserializer.md R209): CURSOR is not written. -/
def bitStepLeaf (v : Bool) (s : State) : Res Unit :=
  if v then raise .corruptStream s
  else
    (nodeSymAt s.root s).bind fun sym s =>
    .ok () { snkPut sym s with decCnt := s.decCnt + 1 }

/-- BitStep(v) (46_deserializer.md R208, R209). -/
def bitStep (v : Bool) (s : State) : Res Unit :=
  (isLeaf s.root s).bind fun leaf s => if leaf then bitStepLeaf v s else bitStepInner v s

/-- Bit `j` of a stream byte; past the last symbol it is padding and is not examined (46_deserializer.md R207, R210). -/
def bitTurn (byte : Byte) (j : Nat) (s : State) : Res Unit :=
  if s.decCnt = s.totalSym then .ok () s else bitStep (byte.getLsbD j) s

/-- One turn of the decode loop (46_deserializer.md R207): one stream byte, low bit first. -/
def decodeTurn (s : State) : Res Unit :=
  match srcGet s with
  | (none, s) => raise .unexpectedEOF s
  | (some byte, s) => forEach (bitTurn byte) (List.range 8) s

/-- One turn of the sum over the header frequencies (46_deserializer.md R207). -/
def sumTurn (i : Nat) (s : State) : Res Unit :=
  (entFreqAt i s).bind fun f s => .ok () { s with totalSym := s.totalSym + f.setWidth 40 }

/-- DECODE body (46_deserializer.md R207). Every turn reads a byte or raises, so the bytes left and one more bound the
loop. -/
def bodyDecode (s : State) : Res Unit :=
  (forEach sumTurn (List.range s.k.toNat) { s with totalSym := 0 }).bind fun _ s =>
  whileLoop (fun s => decide (s.decCnt < s.totalSym)) decodeTurn (s.srcLen.toNat - s.srcPos.toNat + 1)
    { s with decCnt := 0, cursor := s.root }

end Sys2Proof.Machine
end

