-- ==== Sys2Proof/Machine/Serializer.lean ====
section
/-! DEFINITION. The serializer: PUTBIT, FLUSH and the bodies of the stages WRHDR and PACK (45_serializer.md). -/

namespace Sys2Proof.Machine

/-- One entry of the header (45_serializer.md R190). -/
def headerTurn (i : Nat) (s : State) : Res Unit :=
  (entSymAt i s).bind fun sym s =>
  (entFreqAt i s).bind fun freq s =>
  .ok () (snkPut32 freq (snkPut sym s))

/-- WRHDR body (45_serializer.md R190). -/
def bodyWrhdr (s : State) : Res Unit :=
  forEach headerTurn (List.range s.k.toNat) (snkPut32 (s.k.setWidth 32) s)

/-- A byte with bit `i` replaced by `v`. -/
def setBit (w : Byte) (i : Nat) (v : Bool) : Byte :=
  (w &&& ~~~(1#8 <<< i)) ||| ((BitVec.ofBool v).setWidth 8 <<< i)

/-- PUTBIT(v) (45_serializer.md R191). -/
def putBit (v : Bool) (s : State) : State :=
  let buf := setBit s.bitBuf s.bitCnt.toNat v
  if s.bitCnt = 7#3 then { snkPut buf s with bitBuf := 0, bitCnt := 0 }
  else { s with bitBuf := buf, bitCnt := s.bitCnt + 1 }

/-- FLUSH() (45_serializer.md R192). -/
def flushBits (s : State) : State :=
  if s.bitCnt ≠ 0#3 then { snkPut s.bitBuf s with bitBuf := 0, bitCnt := 0 } else s

/-- One turn of the packing loop (45_serializer.md R193): the code of one source byte, first bit first. -/
def packTurn (s : State) : Res Unit :=
  match srcGet s with
  | (none, s) => .ok () s
  | (some b, s) =>
    if codeLenAt b s = 0 then raise .invariantViolation s
    else
      forEach (fun i s => .ok () (putBit ((codeBitsAt b s).getLsbD i) s)) (List.range (codeLenAt b s).toNat) s

/-- PACK body (45_serializer.md R193). -/
def bodyPack (s : State) : Res Unit :=
  (whileLoop (fun s => decide (s.srcPos < s.srcLen)) packTurn s.srcLen.toNat
      (srcRewind { s with bitBuf := 0, bitCnt := 0 })).bind fun _ s =>
  .ok () (flushBits s)

end Sys2Proof.Machine
end

