-- ==== Sys2Proof/Machine/Queue.lean ====
section
/-! DEFINITION. The min-heap priority queue: its four unit operations (42_priority_queue.md R150 to R153). -/

namespace Sys2Proof.Machine

/-- PQ_CLEAR (42_priority_queue.md R150). -/
def pqClear (s : State) : State := { s with heapSize := 0 }

/-- The sift-up loop of PQ_INSERT (42_priority_queue.md R151) from slot `i`: an entry moves up past a strictly greater
parent only. -/
def siftUp : Nat → Nat → State → Res Unit
  | 0, _, _ => .fault .loopBound
  | bound + 1, i, s =>
    if i = 0 then .ok () s
    else
      (keyAt i s).bind fun ki s =>
      (keyAt ((i - 1) >>> 1) s).bind fun kp s =>
      if ki < kp then (swapHeap i ((i - 1) >>> 1) s).bind fun _ s => siftUp bound ((i - 1) >>> 1) s
      else .ok () s

/-- PQ_INSERT(n) (42_priority_queue.md R151). -/
def pqInsert (n : Ref) (s : State) : Res Unit :=
  if s.heapSize = 256#9 then raise .invariantViolation s
  else
    (putHeap s.heapSize.toNat n s).bind fun _ s =>
    siftUp (s.heapSize.toNat + 1) s.heapSize.toNat { s with heapSize := s.heapSize + 1 }

/-- `c` if it is a slot of the heap whose key is strictly less than that of slot `m`, else `m` (42_priority_queue.md
R152). -/
def smallerSlot (c m : Nat) (s : State) : Res Nat :=
  if c < s.heapSize.toNat then
    (keyAt c s).bind fun kc s =>
    (keyAt m s).bind fun km s =>
    .ok (if kc < km then c else m) s
  else .ok m s

/-- The sift-down loop of PQ_EXTRACT_MIN (42_priority_queue.md R152) from slot `i`: the left child is examined first. -/
def siftDown : Nat → Nat → State → Res Unit
  | 0, _, _ => .fault .loopBound
  | bound + 1, i, s =>
    (smallerSlot (2 * i + 1) i s).bind fun m s =>
    (smallerSlot (2 * i + 2) m s).bind fun m s =>
    if m = i then .ok () s
    else (swapHeap i m s).bind fun _ s => siftDown bound m s

/-- PQ_EXTRACT_MIN() (42_priority_queue.md R152). -/
def pqExtractMin (s : State) : Res Ref :=
  if s.heapSize = 0#9 then raise .invariantViolation s
  else
    (heapAt 0 s).bind fun r s =>
    let s := { s with heapSize := s.heapSize - 1 }
    if s.heapSize = 0#9 then .ok r s
    else
      (heapAt s.heapSize.toNat s).bind fun last s =>
      (putHeap 0 last s).bind fun _ s =>
      (siftDown s.heapSize.toNat 0 s).bind fun _ s =>
      .ok r s

/-- PQ_IS_SINGLETON() (42_priority_queue.md R153). -/
def pqIsSingleton (s : State) : Bool := decide (s.heapSize = 1#9)

end Sys2Proof.Machine
end

