-- ==== Sys2Proof/Machine/Tree.lean ====
section
/-! DEFINITION. The binary-tree builder: NODE_NEWLEAF, NODE_MERGE and the body of the stage BUILD (43_tree_builder.md). It is
the one definition both pipelines use (70_reset_and_hazards.md R260). -/

namespace Sys2Proof.Machine

/-- NODE_NEWLEAF(sym, freq) (43_tree_builder.md R165). -/
def nodeNewLeaf (sym : Byte) (freq : Word32) (s : State) : Res Ref :=
  (putNode s.nodeCnt.toNat (freq.setWidth 40) sym Config.nil Config.nil s).bind fun _ s =>
  .ok s.nodeCnt { s with nodeCnt := s.nodeCnt + 1 }

/-- NODE_MERGE(a, b) (43_tree_builder.md R166). -/
def nodeMerge (a b : Ref) (s : State) : Res Ref :=
  (nodeFreqAt a s).bind fun fa s =>
  (nodeFreqAt b s).bind fun fb s =>
  (putNode s.nodeCnt.toNat (fa + fb) 0 a b s).bind fun _ s =>
  .ok s.nodeCnt { s with nodeCnt := s.nodeCnt + 1 }

/-- One turn of the load loop of BUILD (43_tree_builder.md R167). -/
def loadTurn (i : Nat) (s : State) : Res Unit :=
  (entSymAt i s).bind fun sym s =>
  (entFreqAt i s).bind fun freq s =>
  (nodeNewLeaf sym freq s).bind fun n s =>
  pqInsert n s

/-- One turn of the merge loop of BUILD (43_tree_builder.md R167): left = first extracted, right = second. -/
def mergeTurn (s : State) : Res Unit :=
  (pqExtractMin s).bind fun a s =>
  (pqExtractMin s).bind fun b s =>
  (nodeMerge a b s).bind fun m s =>
  pqInsert m s

/-- BUILD body (43_tree_builder.md R167). The merge loop makes K − 1 turns, so 256 bound it. -/
def bodyBuild (s : State) : Res Unit :=
  (forEach loadTurn (List.range s.k.toNat) { pqClear s with nodeCnt := 0, root := Config.nil }).bind fun _ s =>
  (whileLoop (fun s => !pqIsSingleton s) mergeTurn 256 s).bind fun _ s =>
  (heapAt 0 s).bind fun r s =>
  .ok () { s with root := r }

end Sys2Proof.Machine
end

