-- ==== Sys2Proof/Machine/Sequencer.lean ====
section
/-! DEFINITION. The sequencer: stage frame, next-stage function, acceptance, the command loop (40_sequencer.md R120 to R124)
and the housekeeping effects (R125, R126, R129). -/

namespace Sys2Proof.Machine

/-- Body(s) of 40_sequencer.md R121. -/
def Stage.body : Stage → State → Res Unit
  | .hist => bodyHist
  | .alpha => bodyAlpha
  | .build => bodyBuild
  | .codegen => bodyCodegen
  | .wrhdr => bodyWrhdr
  | .pack => bodyPack
  | .rdhdr => bodyRdhdr
  | .decode => bodyDecode

/-- RunStage(s) (40_sequencer.md R121). -/
def runStage (st : Stage) (s : State) : Res Unit :=
  if st.pre s then (st.body (st.cascade s)).bind fun _ s => .ok () (st.produce s)
  else raise .invariantViolation s

/-- Next(MACRO, PHASE) (40_sequencer.md R122); "No other (MACRO, PHASE) pair occurs". -/
def nextStage : CommandKind → Stage → Option Phase
  | .single, _ => some .idle
  | .compress, .hist => some (.stage .alpha)
  | .compress, .alpha => some (.stage .build)
  | .compress, .build => some (.stage .codegen)
  | .compress, .codegen => some (.stage .wrhdr)
  | .compress, .wrhdr => some (.stage .pack)
  | .compress, .pack => some .idle
  | .compress, .rdhdr => none
  | .compress, .decode => none
  | .decompress, .rdhdr => some (.stage .build)
  | .decompress, .build => some (.stage .decode)
  | .decompress, .decode => some .idle
  | .decompress, .hist => none
  | .decompress, .alpha => none
  | .decompress, .codegen => none
  | .decompress, .wrhdr => none
  | .decompress, .pack => none

/-- One turn of the loop of Accept (40_sequencer.md R120): `RunStage(PHASE); PHASE <- Next(MACRO, PHASE)`. -/
def stageTurn (st : Stage) (s : State) : Res Unit :=
  (runStage st s).bind fun _ s =>
  match nextStage s.kind st with
  | some p => .ok () { s with phase := p }
  | none => .fault .noNextStage

/-- The loop of Accept and Complete() (40_sequencer.md R120, R123). -/
def commandLoop : Nat → State → Res Unit
  | 0, s =>
    match s.phase with
    | .idle => .ok () (complete s)
    | .stage _ => .fault .loopBound
  | n + 1, s =>
    match s.phase with
    | .idle => .ok () (complete s)
    | .stage st => (stageTurn st s).bind fun _ s => commandLoop n s

/-- The lines of Accept before the loop (40_sequencer.md R120). -/
def accept (kind : CommandKind) (first : Stage) (s : State) : State :=
  { clearRecord s with busy := true, kind := kind, phase := .stage first }

/-- A command of stages, from acceptance to its end (40_sequencer.md R120); ignored while BUSY (10_state.md R28). The
longest command has six stages (R127). -/
def runCommand (kind : CommandKind) (first : Stage) (s : State) : Host.Outcome State Fault Refusal :=
  if s.busy then .next s else (commandLoop 6 (accept kind first s)).toOutcome

/-- NOP, after the first line of Accept (40_sequencer.md R125). -/
def nopEffect (s : State) : State := { clearRecord s with done := true }

/-- CLEAR (40_sequencer.md R126). -/
def clearEffect (s : State) : State := resetRegisters (clearRecord s)

/-- An illegal opcode (40_sequencer.md R129). -/
def illegalEffect (s : State) : State :=
  { clearRecord s with err := true, errKind := .invariantViolation, errStage := .idle, done := true }

/-- What a command needs of the sequencer when its stages are run one a step: the effect at the write itself
(40_sequencer.md R120). -/
def startCommand (i : Instr) (s : State) : State :=
  match i with
  | .nop => nopEffect s
  | .clear => clearEffect s
  | .hist => accept .single .hist s
  | .alpha => accept .single .alpha s
  | .build => accept .single .build s
  | .codegen => accept .single .codegen s
  | .wrhdr => accept .single .wrhdr s
  | .pack => accept .single .pack s
  | .rdhdr => accept .single .rdhdr s
  | .decode => accept .single .decode s
  | .compress => accept .compress .hist s
  | .decompress => accept .decompress .rdhdr s

/-- One stage of the running command, and Complete() after the last (40_sequencer.md R120, R123). -/
def stageStep (s : State) : Res Unit :=
  match s.phase with
  | .idle => .ok () (complete s)
  | .stage st =>
    (stageTurn st s).bind fun _ s =>
    match s.phase with
    | .idle => .ok () (complete s)
    | .stage _ => .ok () s

end Sys2Proof.Machine
end

