-- ==== Sys2Proof/Machine/Commands.lean ====
section
/-! DEFINITION. The meaning of every command (30_encoding.md R91), one definition each. A command written while BUSY is 1 is
ignored (10_state.md R28). -/

namespace Sys2Proof.Machine

/-- NOP (40_sequencer.md R125). -/
def execNop (s : State) : Host.Outcome State Fault Refusal :=
  if s.busy then .next s else .next (nopEffect s)

/-- CLEAR (40_sequencer.md R126). -/
def execClear (s : State) : Host.Outcome State Fault Refusal :=
  if s.busy then .next s else .next (clearEffect s)

/-- HIST (41_frequency_counter.md R140). -/
def execHist (s : State) : Host.Outcome State Fault Refusal := runCommand .single .hist s

/-- ALPHA (41_frequency_counter.md R141). -/
def execAlpha (s : State) : Host.Outcome State Fault Refusal := runCommand .single .alpha s

/-- BUILD (43_tree_builder.md R167). -/
def execBuild (s : State) : Host.Outcome State Fault Refusal := runCommand .single .build s

/-- CODEGEN (44_code_table.md R180). -/
def execCodegen (s : State) : Host.Outcome State Fault Refusal := runCommand .single .codegen s

/-- WRHDR (45_serializer.md R190). -/
def execWrhdr (s : State) : Host.Outcome State Fault Refusal := runCommand .single .wrhdr s

/-- PACK (45_serializer.md R193). -/
def execPack (s : State) : Host.Outcome State Fault Refusal := runCommand .single .pack s

/-- RDHDR (46_deserializer.md R205). -/
def execRdhdr (s : State) : Host.Outcome State Fault Refusal := runCommand .single .rdhdr s

/-- DECODE (46_deserializer.md R207). -/
def execDecode (s : State) : Host.Outcome State Fault Refusal := runCommand .single .decode s

/-- COMPRESS (40_sequencer.md R127). -/
def execCompress (s : State) : Host.Outcome State Fault Refusal := runCommand .compress .hist s

/-- DECOMPRESS (40_sequencer.md R128). -/
def execDecompress (s : State) : Host.Outcome State Fault Refusal := runCommand .decompress .rdhdr s

end Sys2Proof.Machine
end

