-- ==== Sys2Proof/Machine/HostPort.lean ====
section
/-! DEFINITION. What each host action does: register reads and writes (10_state.md R25 to R31, R43), the environment
(R41), the reset input (70_reset_and_hazards.md R255), and the progress of a running command. -/

namespace Sys2Proof.Machine

/-- Whether the value of a register is specified only when BUSY is 0 (10_state.md R43,
93_implementation_defined.md U13; log 8). -/
def openWhileBusy (reg : Nat) : Bool :=
  decide (reg = 2) || decide (reg = 5) || decide (reg = 6) || decide (reg = 7) || decide (reg = 8)

/-- The current value of a register, zero-extended (10_state.md R25, R28, R43). -/
def regValue (reg : Nat) (s : State) : BusWord :=
  if reg = 1 then (statusWord s).setWidth 40
  else if reg = 2 then (errInfoWord s).setWidth 40
  else if reg = 3 then s.srcLen.setWidth 40
  else if reg = 4 then s.srcPos.setWidth 40
  else if reg = 5 then s.k.setWidth 40
  else if reg = 6 then s.totalIn.setWidth 40
  else if reg = 7 then s.totalSym
  else if reg = 8 then s.decCnt
  else 0

/-- A host read (10_state.md R43): a free value where the spec leaves it open (log 7). -/
def hostRead (reg : Nat) (s : State) : State :=
  if s.busy && openWhileBusy reg then
    { s with rdata := Config.busyRead s.freeReads reg, freeReads := s.freeReads + 1 }
  else { s with rdata := regValue reg s }

/-- A host write to CMD (10_state.md R28, 40_sequencer.md R120): acted on only when BUSY is 0. The stages of the command
run afterwards. -/
def writeCmd (v : Byte) (s : State) : State :=
  if s.busy then s
  else
    match decodeOpcode v with
    | .ok i => startCommand i s
    | .error _ => illegalEffect s

/-- A host write (10_state.md R28, R29, R43): every register but CMD and SRC_LEN ignores it, and so does every register
while BUSY is 1. The low bits of the bus are the register's (log 9). -/
def hostWrite (reg : Nat) (v : BusWord) (s : State) : State :=
  if reg = 0 then writeCmd (v.setWidth 8) s
  else if reg = 3 then (if s.busy then s else { s with srcLen := v.setWidth 32 })
  else s

/-- A command line of 30_encoding.md R99: the command runs to its end (00_scope.md R6). -/
def hostCommand (opcode : Byte) (s : State) : Host.Outcome State Fault Refusal :=
  match decodeOpcode opcode with
  | .ok i => exec i s
  | .error _ => if s.busy then .next s else .next (illegalEffect s)

/-- The host replaces SRC (10_state.md R41), which it must not do while BUSY is 1 (20_memory.md R73; log 10). -/
def hostPlaceSource (bytes : List Byte) (s : State) : Host.Outcome State Fault Refusal :=
  if s.busy then .fault .sourceReplacedWhileBusy
  else .next { s with src := Memory.ofBytes bytes, srcEpoch := s.srcEpoch + 1 }

/-- The host takes the oldest bytes out of SNK (10_state.md R41). A host that does so while BUSY is 1 gets a prefix of what
the command appends (20_memory.md R70; log 10). -/
def hostDrainSink (n : Nat) (s : State) : State := { s with snk := s.snk.drop n }

/-- The running command goes on by one stage; an idle HFC waits for a command (70_reset_and_hazards.md R255). -/
def advance (s : State) : Host.Outcome State Fault Refusal :=
  if s.busy then (stageStep s).toOutcome else .next s

/-- One host action. -/
def perform (a : HostAction) (s : State) : Host.Outcome State Fault Refusal :=
  match a with
  | .command opcode => hostCommand opcode s
  | .write reg v => .next (hostWrite reg v s)
  | .read reg => .next (hostRead reg s)
  | .placeSource bytes => hostPlaceSource bytes s
  | .drainSink n => .next (hostDrainSink n s)
  | .reset => .next (resetRegisters s)
  | .letRun => advance s

/-- The next host action, taken off the list; with none left, HFC goes on by itself. -/
def hostTurn (s : State) : Host.Outcome State Fault Refusal :=
  match s.host with
  | [] => advance s
  | a :: rest => perform a { s with host := rest }

/-- The host's next action is the command line of this word. -/
def placeCommand (w : Nat) (s : State) : State := { s with host := .command (BitVec.ofNat 8 w) :: s.host }

end Sys2Proof.Machine
end

