-- ==== Sys2Proof/Machine/Step.lean ====
section
/-! DEFINITION. One step of HFC and its host: the host's next action, or with none left one stage of the running command
(logs 4 and 5). -/

namespace Sys2Proof.Machine

/-- One step. -/
def step (s : State) : Host.Outcome State Fault Refusal := hostTurn s

/-- Commands arrive through CMD (20_memory.md R71): the word stands where the next step takes it from, at the head of the
host's actions. The one format has 8 bits (30_encoding.md R90). -/
def State.withFetchWord (s : State) (_nbits w : Nat) : State := placeCommand w s

end Sys2Proof.Machine
end

