-- ==== Sys2Proof/Safety.lean ====
section
/-! DEFINITION. What a safe state is, and the terms claims are stated in: the bytes of a source, the entry list, code bit
strings, the artifact's layout, paths in the tree. Nothing here is used by the machine. -/

namespace Sys2Proof.Machine

/-! ### Data seen as lists -/

/-- SRC[0], …, SRC[SRC_LEN − 1] (10_state.md R41). -/
def sourceBytes (s : State) : List Byte := (List.range s.srcLen.toNat).map (sourceByte s)

/-- ENT[0..K − 1] (10_state.md R33). -/
def entryList (s : State) : List (Byte × Word32) :=
  (s.entSym.toList.zip s.entFreq.toList).take s.k.toNat

/-- The sum of the entries' frequencies, not reduced to any width. -/
def freqSum (es : List (Byte × Word32)) : Nat := (es.map fun e => e.2.toNat).sum

/-- The code of a byte value as a bit string, first bit first (10_state.md R37). -/
def codeOf (b : Byte) (s : State) : List Bool :=
  (List.range (codeLenAt b s).toNat).map (codeBitsAt b s).getLsbD

/-- A u32 field: four bytes, least significant first (20_memory.md R64). -/
def le32 (v : Word32) : List Byte :=
  [BitVec.ofNat 8 v.toNat, BitVec.ofNat 8 (v.toNat / 2 ^ 8), BitVec.ofNat 8 (v.toNat / 2 ^ 16),
    BitVec.ofNat 8 (v.toNat / 2 ^ 24)]

/-- The header of an artifact (30_encoding.md R94). -/
def headerBytes (es : List (Byte × Word32)) : List Byte :=
  le32 (BitVec.ofNat 32 es.length) ++ es.flatMap fun e => e.1 :: le32 e.2

/-- Eight bits as a byte, the first in bit 0 (20_memory.md R65); missing bits are 0 (30_encoding.md R96). -/
def byteOfBits (bits : List Bool) : Byte := (BitVec.ofBoolListLE (bits.take 8)).setWidth 8

/-- Code bits packed into ceil(B / 8) bytes: bit n stands in bit n mod 8 of byte n / 8 (30_encoding.md R95). -/
def packBytes (bits : List Bool) : List Byte :=
  (List.range ((bits.length + 7) / 8)).map fun j => byteOfBits (bits.drop (8 * j))

/-- The bits of a byte, low bit first (20_memory.md R65). -/
def byteBits (b : Byte) : List Bool := (List.range 8).map b.getLsbD

/-- The bits of SRC from SRC_POS to the end, in the order the decoder reads them. -/
def streamBits (s : State) : List Bool := ((sourceBytes s).drop s.srcPos.toNat).flatMap byteBits

/-! ### The tree -/

/-- IsLeaf(n) as a property of NODE (10_state.md R34). -/
def leafNode (s : State) (n : Ref) : Bool :=
  decide (s.nodeLeft[n.toNat]? = some Config.nil) && decide (s.nodeRight[n.toNat]? = some Config.nil)

/-- The node a bit string leads to: left on 0, right on 1 (44_code_table.md R181). -/
def follow (s : State) : Ref → List Bool → Option Ref
  | n, [] => some n
  | n, b :: path =>
    match if b then s.nodeRight[n.toNat]? else s.nodeLeft[n.toNat]? with
    | none => none
    | some c => if c = Config.nil then none else follow s c path

/-- `path` leads from ROOT to a leaf that carries `sym`. -/
def LeafPath (s : State) (path : List Bool) (sym : Byte) : Prop :=
  ∃ n, follow s s.root path = some n ∧ leafNode s n = true ∧ s.nodeSym[n.toNat]? = some sym

/-- `p` lies to the left of `q`: at the first difference `p` goes left. -/
def leftOf : List Bool → List Bool → Bool
  | false :: _, true :: _ => true
  | false :: p, false :: q => leftOf p q
  | true :: p, true :: q => leftOf p q
  | _, _ => false

/-- The tree of the current entry list (43_tree_builder.md R170, R172). -/
structure TreeOk (s : State) : Prop where
  /-- 1 ≤ K ≤ 256. -/
  kRange : 1 ≤ s.k.toNat ∧ s.k.toNat ≤ 256
  /-- NODE_CNT = 2·K − 1. -/
  count : s.nodeCnt.toNat = 2 * s.k.toNat - 1
  /-- ROOT = NODE_CNT − 1. -/
  root : s.root.toNat = 2 * s.k.toNat - 2
  /-- Nodes 0 to K − 1 are leaves; node i carries ENT_SYM[i] and ENT_FREQ[i]. -/
  leaves : ∀ i, i < s.k.toNat →
    s.nodeFreq[i]? = s.entFreq[i]?.map (BitVec.setWidth 40) ∧ s.nodeSym[i]? = s.entSym[i]? ∧
      s.nodeLeft[i]? = some Config.nil ∧ s.nodeRight[i]? = some Config.nil
  /-- Nodes K to 2K − 2 are internal: two different children with smaller indices, the sum of their frequencies, no
  symbol. -/
  inner : ∀ i, s.k.toNat ≤ i → i < 2 * s.k.toNat - 1 →
    ∃ l r fl fr fi, s.nodeLeft[i]? = some l ∧ s.nodeRight[i]? = some r ∧ l.toNat < i ∧ r.toNat < i ∧ l ≠ r ∧
      s.nodeSym[i]? = some 0 ∧ s.nodeFreq[l.toNat]? = some fl ∧ s.nodeFreq[r.toNat]? = some fr ∧
      s.nodeFreq[i]? = some fi ∧ fi.toNat = fl.toNat + fr.toNat
  /-- Every node except ROOT is the child of exactly one node. -/
  parent : ∀ c : Ref, c.toNat < 2 * s.k.toNat - 2 →
    ∃ i, i < 2 * s.k.toNat - 1 ∧ (s.nodeLeft[i]? = some c ∨ s.nodeRight[i]? = some c) ∧
      ∀ j, j < 2 * s.k.toNat - 1 → (s.nodeLeft[j]? = some c ∨ s.nodeRight[j]? = some c) → j = i

/-- CODE is the table of 44_code_table.md R180 to R182 and R186 for the current tree: the one-bit code "0" for a single
leaf; otherwise the path to the symbol's rightmost leaf, and no code where no leaf carries the symbol. Bits at and above
the length are 0 (10_state.md R37). -/
structure CodeTableOk (s : State) : Prop where
  above : ∀ b i, (codeLenAt b s).toNat ≤ i → (codeBitsAt b s).getLsbD i = false
  single : leafNode s s.root = true →
    ∀ b, codeOf b s = if s.nodeSym[s.root.toNat]? = some b then [false] else []
  paths : leafNode s s.root = false →
    ∀ b, (codeOf b s = [] ∧ ∀ p, ¬ LeafPath s p b) ∨
      (LeafPath s (codeOf b s) b ∧ ∀ p, LeafPath s p b → p = codeOf b s ∨ leftOf p (codeOf b s) = true)

/-! ### The priority queue -/

/-- The references in slots 0 to HEAP_SIZE − 1. -/
def heapList (s : State) : List Ref := s.heap.toList.take s.heapSize.toNat

/-- The key of a node, as a number. -/
def keyOf (s : State) (n : Ref) : Nat := (s.nodeFreq[n.toNat]?.getD 0).toNat

/-- HEAP holds node references and no more than its slots, and a parent's key is at most its children's
(10_state.md R36, 42_priority_queue.md R154). -/
structure HeapOk (s : State) : Prop where
  size : s.heapSize.toNat ≤ 256
  refs : ∀ n ∈ heapList s, n.toNat < 511
  order : ∀ i (h : i < (heapList s).length), 0 < i →
    keyOf s ((heapList s)[(i - 1) / 2]'(by omega)) ≤ keyOf s (heapList s)[i]

/-! ### The sequencer -/

/-- The error kinds and the stages they are recorded with (60_exceptions.md R225). -/
def errorAllowed : ErrKind → Phase → Bool
  | .none, .idle => true
  | .emptyInput, .stage .hist => true
  | .corruptHeader, .stage .rdhdr => true
  | .corruptStream, .stage .decode => true
  | .unexpectedEOF, .stage .decode => true
  | .invariantViolation, .idle => true
  | .invariantViolation, .stage .alpha => true
  | .invariantViolation, .stage .build => true
  | .invariantViolation, .stage .codegen => true
  | .invariantViolation, .stage .wrhdr => true
  | .invariantViolation, .stage .pack => true
  | .invariantViolation, .stage .decode => true
  | _, _ => false

/-- PHASE, MACRO, the status flags and the error record belong together (10_state.md R22, R23, R27, R44), and inside a
macro command the next stage's precondition holds (60_exceptions.md R231: "never inside COMPRESS or DECOMPRESS"). -/
structure SequencerOk (s : State) : Prop where
  idle : s.busy = false → s.phase = .idle ∧ s.kind = .single
  running : s.busy = true → s.done = false ∧ s.err = false ∧
    ∃ st, s.phase = .stage st ∧ (nextStage s.kind st).isSome = true ∧ (s.kind ≠ .single → st.pre s = true) ∧
      (s.kind = .compress → st = .wrhdr → s.codeV = true)
  record : errorAllowed s.errKind s.errStage = true
  errFlag : s.err = true ↔ s.errKind ≠ .none
  ended : s.err = true → s.done = true

/-- The invariant of HFC and its environment: what every step keeps. -/
structure Inv (s : State) : Prop where
  sequencer : SequencerOk s
  /-- CODE_V implies TREE_V implies ENT_V (40_sequencer.md R131). -/
  chain : (s.codeV = true → s.treeV = true) ∧ (s.treeV = true → s.entV = true)
  /-- A finished histogram sums to TOTAL_IN ≥ 1 (10_state.md R24, 41_frequency_counter.md R142). -/
  histogram : s.histV = true →
    (s.hist.toList.map BitVec.toNat).sum = s.totalIn.toNat ∧ 1 ≤ s.totalIn.toNat
  /-- K is 0 to 256 (10_state.md R31), and 1 to 256 with a valid entry list (R24). -/
  kRange : s.k.toNat ≤ 256 ∧ (s.entV = true → 1 ≤ s.k.toNat)
  tree : s.treeV = true → TreeOk s
  code : s.codeV = true → CodeTableOk s
  /-- HEAP_SIZE is 0 to 256 and the slots below it hold references of created nodes (10_state.md R36). -/
  heap : s.heapSize.toNat ≤ 256 ∧ ∀ n ∈ heapList s, n.toNat < s.nodeCnt.toNat
  /-- BITBUF bits at and above BITCNT are 0 (10_state.md R38). -/
  packer : ∀ i, s.bitCnt.toNat ≤ i → s.bitBuf.getLsbD i = false
  /-- The decoder has emitted no more than TOTAL_SYM symbols (46_deserializer.md R210). -/
  counts : s.decCnt.toNat ≤ s.totalSym.toNat
  /-- SRC keeps its canonical form. -/
  source : Memory.wf s.src = true

/-! ### Ends of commands -/

/-- The sequencer's registers after a command that completed (40_sequencer.md R120, R123); the rest as in `s`. -/
def settled (s : State) : State :=
  { s with
    busy := false
    done := true
    err := false
    errKind := .none
    errStage := .idle
    phase := .idle
    kind := .single }

/-- The sequencer's registers after an error (60_exceptions.md R232); the rest as in `s`. -/
def aborted (kind : ErrKind) (stage : Phase) (s : State) : State :=
  { s with
    busy := false
    done := true
    err := true
    errKind := kind
    errStage := stage
    phase := .idle
    kind := .single }

/-- Commands issued one after the other, up to the first that ends in an error (30_encoding.md R99). -/
def issueAll : List Instr → State → Host.Outcome State Fault Refusal
  | [], s => .next s
  | i :: rest, s =>
    match exec i s with
    | .next t => if t.err then .next t else issueAll rest t
    | .fault f => .fault f
    | .refused r => .refused r

/-- The running command goes on by `n` stages, or as many as it has. -/
def advanceTimes : Nat → State → Host.Outcome State Fault Refusal
  | 0, s => .next s
  | n + 1, s =>
    match advance s with
    | .next t => advanceTimes n t
    | .fault f => .fault f
    | .refused r => .refused r

/-- `u` differs from `s` at most in words of the table memories that no valid flag of `s` guards (10_state.md R42,
93_implementation_defined.md U11, U12). -/
structure SameButStale (s u : State) : Prop where
  registers : u = { s with
    hist := u.hist
    entSym := u.entSym
    entFreq := u.entFreq
    nodeFreq := u.nodeFreq
    nodeSym := u.nodeSym
    nodeLeft := u.nodeLeft
    nodeRight := u.nodeRight
    heap := u.heap
    codeLen := u.codeLen
    codeBits := u.codeBits }
  hist : s.histV = true → u.hist = s.hist
  entries : s.entV = true → entryList u = entryList s
  tree : s.treeV = true → ∀ i, i < s.nodeCnt.toNat →
    u.nodeFreq[i]? = s.nodeFreq[i]? ∧ u.nodeSym[i]? = s.nodeSym[i]? ∧ u.nodeLeft[i]? = s.nodeLeft[i]? ∧
      u.nodeRight[i]? = s.nodeRight[i]?
  code : s.codeV = true → u.codeLen = s.codeLen ∧ u.codeBits = s.codeBits

end Sys2Proof.Machine
end

