-- ==== Sys2Proof/Certificates/Slice0/Obligations.lean ====
section
/-! DEFINITION. The statements for the provers. Each docstring names the rule of spec/ it formalises. -/

open Sys2Proof Sys2Proof.Machine

/-! ### Encoding -/

/-- 30_encoding.md R91, a sanity statement: words written out from the opcode map decode to their commands. -/
def Obligations.OpcodeMapWordsDecode : Prop :=
  decode [0x00#8] = .ok (.nop, []) ∧ decode [0x01#8] = .ok (.clear, []) ∧ decode [0x10#8] = .ok (.hist, []) ∧
  decode [0x11#8] = .ok (.alpha, []) ∧ decode [0x20#8] = .ok (.build, []) ∧ decode [0x30#8] = .ok (.codegen, []) ∧
  decode [0x40#8] = .ok (.wrhdr, []) ∧ decode [0x41#8] = .ok (.pack, []) ∧ decode [0x50#8] = .ok (.rdhdr, []) ∧
  decode [0x60#8] = .ok (.decode, []) ∧ decode [0x80#8] = .ok (.compress, []) ∧ decode [0x81#8] = .ok (.decompress, [])

/-- 30_encoding.md R90, R91, R101: decoding an encoded command gives it back and takes one byte. -/
def Obligations.DecodeOfEncodeIsTheCommand : Prop :=
  ∀ (i : Instr) (rest : List Byte), decode (encode i ++ rest) = .ok (i, rest)

/-- 30_encoding.md R91, R92: a word is the opcode of the command it decodes to, and every word that is no command's opcode
is refused as illegal. -/
def Obligations.OnlyOpcodesDecode : Prop :=
  ∀ w : Byte, (∀ i, decodeOpcode w = .ok i → w = i.opcode) ∧
    ((∀ i : Instr, w ≠ i.opcode) → decodeOpcode w = .error (.illegalOpcode w))

/-! ### Reset, steps and the invariant -/

/-- 70_reset_and_hazards.md R255, 10_state.md R42: every register and flag of HFC after reset. (The table memories, SRC
and SNK are not in it: their values at reset are the model's, logs 1 and 3.) -/
def Obligations.ResetLeavesTheRegistersOfTheTable : Prop :=
  let s := State.reset
  s.phase.code = 0 ∧ s.kind.code = 0 ∧ s.busy = false ∧ s.done = false ∧ s.err = false ∧ s.histV = false ∧
  s.entV = false ∧ s.treeV = false ∧ s.codeV = false ∧ s.errKind.code = 0 ∧ s.errStage.code = 0 ∧ s.srcLen = 0 ∧
  s.srcPos = 0 ∧ s.totalIn = 0 ∧ s.k = 0 ∧ s.totalSym = 0 ∧ s.decCnt = 0 ∧ s.nodeCnt = 0 ∧ s.root = 511 ∧
  s.heapSize = 0 ∧ s.bitBuf = 0 ∧ s.bitCnt = 0 ∧ s.cursor = 511

/-- The invariant holds after reset. -/
def Obligations.ResetMeetsTheInvariant : Prop := Inv State.reset

/-- 40_sequencer.md R131, 10_state.md R22, R24, R27, R31, R36, R38, R44, 43_tree_builder.md R170, 44_code_table.md R186,
46_deserializer.md R210, 60_exceptions.md R225: every step keeps the invariant, whatever the host does. The range of SRC_POS
(10_state.md R30) is not in it: a host write of a smaller SRC_LEN breaks it (log 12). -/
def Obligations.StepKeepsTheInvariant : Prop := ∀ s t : State, Inv s → step s = .next t → Inv t

/-- 20_memory.md R67, 42_priority_queue.md R157, 00_scope.md R6: from a state that meets the invariant, a step faults only
where the host changes SRC while BUSY is 1 (20_memory.md R73; the fault there is the model's, log 10); every other step
answers a next state. -/
def Obligations.StepFaultsOnlyOnAHostBreach : Prop :=
  ∀ s : State, Inv s →
    (∃ t, step s = .next t) ∨
    (s.busy = true ∧ ∃ bytes rest, s.host = .placeSource bytes :: rest ∧ step s = .fault .sourceReplacedWhileBusy)

/-- 20_memory.md R71: a command word at the head of the host's actions is decoded and run, and taken off the list. A
statement about the model's step (log 4). -/
def Obligations.StepRunsTheDecodedCommand : Prop :=
  (∀ (s : State) (w : Byte) (i : Instr) (rest : List HostAction), s.host = .command w :: rest →
    decode [w] = .ok (i, []) → step s = exec i { s with host := rest }) ∧
  (∀ (s : State) (i : Instr), step (s.withFetchWord 8 i.opcode.toNat) = exec i s)

/-- 10_state.md R42, 93_implementation_defined.md U11, U12: two states that differ only in unguarded words of the table
memories take the same step, and differ only so afterwards. So the table memories' contents at reset (log 1) reach
nothing the host sees. -/
def Obligations.UnguardedTableWordsAreUnobservable : Prop :=
  ∀ s u t : State, Inv s → Inv u → SameButStale s u → step s = .next t →
    ∃ v, step u = .next v ∧ SameButStale t v

/-! ### Sequencer -/

/-- 40_sequencer.md R125: NOP. -/
def Obligations.NopAcknowledges : Prop :=
  ∀ s : State, s.busy = false →
    exec .nop s = .next { s with done := true, err := false, errKind := .none, errStage := .idle }

/-- 40_sequencer.md R126: CLEAR gives every register and flag its reset value and keeps the table memories, SRC and
SNK. -/
def Obligations.ClearResetsTheRegisters : Prop :=
  ∀ s : State, s.busy = false →
    exec .clear s = .next { State.reset with
      hist := s.hist
      entSym := s.entSym
      entFreq := s.entFreq
      nodeFreq := s.nodeFreq
      nodeSym := s.nodeSym
      nodeLeft := s.nodeLeft
      nodeRight := s.nodeRight
      heap := s.heap
      codeLen := s.codeLen
      codeBits := s.codeBits
      src := s.src
      snk := s.snk
      host := s.host
      rdata := s.rdata
      freeReads := s.freeReads
      srcEpoch := s.srcEpoch }

/-- 40_sequencer.md R129, 30_encoding.md R92: an illegal opcode records InvariantViolation with stage 0 and changes nothing
else, whether it comes as a command line or as a bare write. -/
def Obligations.IllegalOpcodeIsRecorded : Prop :=
  ∀ (s : State) (w : Byte) (rest : List HostAction), s.busy = false → (∀ i : Instr, w ≠ i.opcode) →
    (s.host = .command w :: rest ∨ s.host = .write 0 (w.setWidth 40) :: rest) →
    step s = .next { s with
      host := rest, err := true, errKind := .invariantViolation, errStage := .idle, done := true }

/-- 10_state.md R28, R29, 70_reset_and_hazards.md R262: while BUSY is 1, a write to CMD or SRC_LEN is ignored, and so is
every command. -/
def Obligations.WritesWhileBusyAreIgnored : Prop :=
  ∀ s : State, s.busy = true →
    (∀ i : Instr, exec i s = .next s) ∧
    (∀ (reg : Nat) (v : BusWord) (rest : List HostAction), s.host = .write reg v :: rest →
      step s = .next { s with host := rest }) ∧
    (∀ (w : Byte) (rest : List HostAction), s.host = .command w :: rest → step s = .next { s with host := rest })

/-- 40_sequencer.md R121, 60_exceptions.md R231, R242: a stage command whose precondition flag is 0 changes nothing but the
error record. -/
def Obligations.FailedPreconditionChangesOnlyTheRecord : Prop :=
  ∀ s : State, s.busy = false →
    (s.histV = false → exec .alpha s = .next (aborted .invariantViolation (.stage .alpha) s)) ∧
    (s.entV = false → exec .build s = .next (aborted .invariantViolation (.stage .build) s)) ∧
    (s.treeV = false → exec .codegen s = .next (aborted .invariantViolation (.stage .codegen) s)) ∧
    (s.entV = false → exec .wrhdr s = .next (aborted .invariantViolation (.stage .wrhdr) s)) ∧
    (s.codeV = false → exec .pack s = .next (aborted .invariantViolation (.stage .pack) s)) ∧
    ((s.entV = false ∨ s.treeV = false) → exec .decode s = .next (aborted .invariantViolation (.stage .decode) s))

/-- 40_sequencer.md R123, 60_exceptions.md R232: a command accepted in a state that meets the invariant ends with BUSY,
MACRO and PHASE 0, and with DONE set unless it is CLEAR. -/
def Obligations.EveryCommandEndsIdle : Prop :=
  ∀ (i : Instr) (s : State), Inv s → s.busy = false →
    ∃ t, exec i s = .next t ∧ t.busy = false ∧ t.phase = .idle ∧ t.kind = .single ∧ (i ≠ .clear → t.done = true) ∧
      errorAllowed t.errKind t.errStage = true ∧ (t.err = true ↔ t.errKind ≠ .none)

/-- 30_encoding.md R99, 40_sequencer.md R127, R128 (decision D34): a macro command ends exactly as its stage commands
issued one after the other up to the first error. -/
def Obligations.MacroCommandsAreTheirStageCommands : Prop :=
  ∀ s : State, s.busy = false →
    exec .compress s = issueAll [.hist, .alpha, .build, .codegen, .wrhdr, .pack] s ∧
    exec .decompress s = issueAll [.rdhdr, .build, .decode] s

/-- 00_scope.md R6, 40_sequencer.md R120: a command taken as one step ends as the same opcode written to CMD and then run
one stage a step (the two granularities of the model, log 5). -/
def Obligations.CommandIsItsStageSteps : Prop :=
  ∀ (i : Instr) (s : State), s.busy = false →
    advanceTimes 6 (hostWrite 0 (i.opcode.setWidth 40) s) = exec i s

/-- 40_sequencer.md R120, R122, R123, R124: while BUSY is 0, a bare write of the opcode of a command of stages clears the
error record, sets BUSY, MACRO and PHASE = First(v), and does nothing else; a bare write of NOP or CLEAR has its whole effect.
Then each stage that completes moves PHASE on to Next(MACRO, PHASE), with BUSY still 1, until the last ends the command; a
stage that raises ends it at once. (A stage is a step with no host action left, or at the action letRun: logs 4 and 5.) -/
def Obligations.BareWriteStartsTheCommandAndStagesFollow : Prop :=
  (∀ (s : State) (w : Byte) (rest : List HostAction), s.host = .write 0 (w.setWidth 40) :: rest → s.busy = false →
    (∀ (kind : CommandKind) (first : Stage), (w, kind, first) ∈ [(0x10#8, .single, .hist), (0x11#8, .single, .alpha),
      (0x20#8, .single, .build), (0x30#8, .single, .codegen), (0x40#8, .single, .wrhdr), (0x41#8, .single, .pack),
      (0x50#8, .single, .rdhdr), (0x60#8, .single, .decode), (0x80#8, .compress, .hist), (0x81#8, .decompress, .rdhdr)] →
      step s = .next { s with
        host := rest, done := false, err := false, errKind := .none, errStage := .idle
        busy := true, kind := kind, phase := .stage first }) ∧
    (w = 0x00#8 → step s = exec .nop { s with host := rest }) ∧
    (w = 0x01#8 → step s = exec .clear { s with host := rest })) ∧
  (∀ s : State, s.host = [] → step s = advance s) ∧
  (∀ (s : State) (rest : List HostAction), s.host = .letRun :: rest → step s = advance { s with host := rest }) ∧
  (∀ s : State, s.busy = false → advance s = .next s) ∧
  (∀ (s u : State) (st : Stage), s.busy = true → s.phase = .stage st → runStage st s = .ok () u →
    u.busy = true ∧ u.kind = s.kind ∧
    (∀ next : Stage, (s.kind, st, next) ∈ [(CommandKind.compress, Stage.hist, Stage.alpha), (.compress, .alpha, .build),
      (.compress, .build, .codegen), (.compress, .codegen, .wrhdr), (.compress, .wrhdr, .pack),
      (.decompress, .rdhdr, .build), (.decompress, .build, .decode)] →
      advance s = .next { u with phase := .stage next }) ∧
    (s.kind = .single ∨ (s.kind, st) = (.compress, .pack) ∨ (s.kind, st) = (.decompress, .decode) →
      advance s = .next { u with busy := false, done := true, kind := .single, phase := .idle })) ∧
  (∀ (s u : State) (st : Stage), s.busy = true → s.phase = .stage st → runStage st s = .stop u →
    advance s = .next u ∧ u.busy = false ∧ u.done = true ∧ u.err = true ∧ u.errStage = .stage st ∧ u.kind = .single ∧
      u.phase = .idle)

/-! ### Host registers -/

/-- 60_exceptions.md R236, 10_state.md R26, R44: the outputs busy, done and err are the flags, and bits 0, 1 and 2 of
STATUS. -/
def Obligations.StatusOutputsAreTheFlags : Prop :=
  ∀ s : State, statusOutputs s = (s.busy, s.done, s.err) ∧
    statusOutputs s = ((statusWord s).getLsbD 0, (statusWord s).getLsbD 1, (statusWord s).getLsbD 2)

/-- 10_state.md R26: the fields of STATUS. R22, R23: the numbers of PHASE and MACRO. -/
def Obligations.StatusHoldsItsFields : Prop :=
  ∀ s : State,
    (statusWord s).getLsbD 0 = s.busy ∧ (statusWord s).getLsbD 1 = s.done ∧ (statusWord s).getLsbD 2 = s.err ∧
    (statusWord s).getLsbD 3 = false ∧ (statusWord s).extractLsb' 4 4 = s.phase.code ∧
    (statusWord s).getLsbD 8 = s.histV ∧ (statusWord s).getLsbD 9 = s.entV ∧ (statusWord s).getLsbD 10 = s.treeV ∧
    (statusWord s).getLsbD 11 = s.codeV ∧ (statusWord s).extractLsb' 12 2 = s.kind.code ∧
    (statusWord s).extractLsb' 14 2 = 0 ∧
    (∀ (p : Phase) (n : BitVec 4), (p, n) ∈ [(.idle, 0), (.stage .hist, 1), (.stage .alpha, 2), (.stage .build, 3),
      (.stage .codegen, 4), (.stage .wrhdr, 5), (.stage .pack, 6), (.stage .rdhdr, 7), (.stage .decode, 8)] →
      (s.phase = p ↔ (statusWord s).extractLsb' 4 4 = n)) ∧
    (∀ (k : CommandKind) (n : BitVec 2), (k, n) ∈ [(.single, 0), (.compress, 1), (.decompress, 2)] →
      (s.kind = k ↔ (statusWord s).extractLsb' 12 2 = n))

/-- 10_state.md R27: the fields of ERRINFO, and both are 0 whenever ERR is 0 in a state that meets the invariant.
60_exceptions.md R225 and 10_state.md R22: the numbers of ERR_KIND and ERR_STAGE. -/
def Obligations.ErrInfoHoldsKindAndStage : Prop :=
  ∀ s : State,
    (errInfoWord s).extractLsb' 0 3 = s.errKind.code ∧ (errInfoWord s).getLsbD 3 = false ∧
    (errInfoWord s).extractLsb' 4 4 = s.errStage.code ∧ (Inv s → s.err = false → errInfoWord s = 0) ∧
    (∀ (k : ErrKind) (n : BitVec 3), (k, n) ∈ [(.none, 0), (.emptyInput, 1), (.allocationFailure, 2), (.corruptHeader, 3),
      (.corruptStream, 4), (.unexpectedEOF, 5), (.invariantViolation, 6)] →
      (s.errKind = k ↔ (errInfoWord s).extractLsb' 0 3 = n)) ∧
    (∀ (p : Phase) (n : BitVec 4), (p, n) ∈ [(.idle, 0), (.stage .hist, 1), (.stage .alpha, 2), (.stage .build, 3),
      (.stage .codegen, 4), (.stage .wrhdr, 5), (.stage .pack, 6), (.stage .rdhdr, 7), (.stage .decode, 8)] →
      (s.errStage = p ↔ (errInfoWord s).extractLsb' 4 4 = n))

/-- 10_state.md R25, R28, R43: a host read changes only what the read returned (and the model's count of free reads). It
returns the register's value when HFC is idle; while BUSY is 1 that holds for STATUS, SRC_LEN and SRC_POS, and nothing is
said of ERRINFO, K, TOTAL_IN, TOTAL_SYM and DEC_CNT (SRC_LEN while BUSY: log 8). -/
def Obligations.HostReadReturnsTheRegister : Prop :=
  ∀ (s : State) (reg : Nat) (rest : List HostAction), s.host = .read reg :: rest →
    ∃ t, step s = .next t ∧ t = { s with host := rest, rdata := t.rdata, freeReads := t.freeReads } ∧
      (reg = 0 → t.rdata = 0) ∧ (reg = 1 → t.rdata = (statusWord s).setWidth 40) ∧
      (reg = 3 → t.rdata = s.srcLen.setWidth 40) ∧ (reg = 4 → t.rdata = s.srcPos.setWidth 40) ∧
      (9 ≤ reg → t.rdata = 0) ∧
      (s.busy = false →
        (reg = 2 → t.rdata = (errInfoWord s).setWidth 40) ∧ (reg = 5 → t.rdata = s.k.setWidth 40) ∧
        (reg = 6 → t.rdata = s.totalIn.setWidth 40) ∧ (reg = 7 → t.rdata = s.totalSym) ∧
        (reg = 8 → t.rdata = s.decCnt))

/-- 10_state.md R29, R43: while BUSY is 0 a write to SRC_LEN sets it and nothing else; a write to any register but CMD and
SRC_LEN is ignored. (That a value of 2^32 or more gives its low 32 bits is the model's choice, log 9.) -/
def Obligations.HostWriteSetsOnlySrcLen : Prop :=
  ∀ (s : State) (reg : Nat) (v : BusWord) (rest : List HostAction), s.host = .write reg v :: rest → s.busy = false →
    (reg = 3 → step s = .next { s with host := rest, srcLen := v.setWidth 32 }) ∧
    (reg ≠ 0 → reg ≠ 3 → step s = .next { s with host := rest })

/-- 70_reset_and_hazards.md R255: a pulse on rst at any time, during a command too, gives every register its reset value,
records no error and leaves the bytes of SNK. That it leaves SRC and the words of the table memories too rests on R256
("Neither touches SRC, SNK or the table memories"); R255 alone calls those words unspecified (log 2). -/
def Obligations.ResetPulseAbandonsTheCommand : Prop :=
  ∀ (s : State) (rest : List HostAction), s.host = .reset :: rest →
    step s = .next { State.reset with
      hist := s.hist
      entSym := s.entSym
      entFreq := s.entFreq
      nodeFreq := s.nodeFreq
      nodeSym := s.nodeSym
      nodeLeft := s.nodeLeft
      nodeRight := s.nodeRight
      heap := s.heap
      codeLen := s.codeLen
      codeBits := s.codeBits
      src := s.src
      snk := s.snk
      host := rest
      rdata := s.rdata
      freeReads := s.freeReads
      srcEpoch := s.srcEpoch }

/-! ### Streams -/

/-- 10_state.md R41, 20_memory.md R61, R69, R70: while BUSY is 0 the host makes SRC hold the bytes it places, and nothing else
changes. The host takes bytes out of SNK at its front (the oldest first is the model's choice, log 10), and nothing else
changes. Bytes taken while a command runs are a prefix of the final sequence: the rest of the command goes on as if they were
still there, however many stages it has. -/
def Obligations.HostPlacesTheSourceAndDrainsTheSink : Prop :=
  (∀ (s : State) (bytes : List Byte) (rest : List HostAction), s.host = .placeSource bytes :: rest → s.busy = false →
    ∃ t, step s = .next t ∧ t = { s with host := rest, src := t.src, srcEpoch := t.srcEpoch } ∧
      (∀ a, t.src.read a = bytes[a]?) ∧ (s.srcLen.toNat = bytes.length → sourceBytes t = bytes)) ∧
  (∀ (s : State) (n : Nat) (rest : List HostAction), s.host = .drainSink n :: rest →
    step s = .next { s with host := rest, snk := s.snk.drop n }) ∧
  (∀ (s t : State) (n stages : Nat), n ≤ s.snk.length → advanceTimes stages s = .next t →
    s.snk.take n <+: t.snk ∧
    advanceTimes stages { s with snk := s.snk.drop n } = .next { t with snk := t.snk.drop n })

/-- 20_memory.md R61: SrcGet returns the byte the host placed at SRC_POS and advances, or EOF and changes nothing. (A byte
below SRC_LEN that the host never placed is a free value, log 6.) -/
def Obligations.SrcGetReadsOneByte : Prop :=
  ∀ s : State,
    (s.srcPos < s.srcLen →
      srcGet s = (some (sourceByte s s.srcPos.toNat), { s with srcPos := s.srcPos + 1 }) ∧
      (s.srcPos + 1).toNat = s.srcPos.toNat + 1 ∧
      ∀ b, s.src.read s.srcPos.toNat = some b → sourceByte s s.srcPos.toNat = b) ∧
    (¬ s.srcPos < s.srcLen → srcGet s = (none, s))

/-- 20_memory.md R64: a u32 field goes out and comes in least significant byte first. -/
def Obligations.FieldsAreLittleEndian : Prop :=
  ∀ (s : State) (v : Word32),
    snkPut32 v s = { s with snk := s.snk ++ le32 v } ∧
    (s.srcPos.toNat + 4 ≤ s.srcLen.toNat →
      (List.range 4).map (fun j => sourceByte s (s.srcPos.toNat + j)) = le32 v →
      srcGet32 s = (some v, { s with srcPos := s.srcPos + 4 })) ∧
    (s.srcPos ≤ s.srcLen → s.srcLen.toNat < s.srcPos.toNat + 4 → srcGet32 s = (none, { s with srcPos := s.srcLen }))

/-- 10_state.md R41, 20_memory.md R63, R67: no command changes SRC, none takes a byte out of SNK, and only WRHDR, PACK,
DECODE and the macro commands append to it. Said of every address of both spaces. -/
def Obligations.CommandsOnlyAppendToTheSink : Prop :=
  ∀ (i : Instr) (s t : State), exec i s = .next t →
    (∀ a, sourceByte t a = sourceByte s a) ∧ t.src = s.src ∧
    (∀ a, a < s.snk.length → t.snk[a]? = s.snk[a]?) ∧ s.snk.length ≤ t.snk.length ∧
    (i = .nop ∨ i = .clear ∨ i = .hist ∨ i = .alpha ∨ i = .build ∨ i = .codegen ∨ i = .rdhdr → t.snk = s.snk)

/-- 10_state.md R30: a command that starts with SRC_POS at most SRC_LEN ends so. (A host write of a smaller SRC_LEN can
break it between commands, log 12.) -/
def Obligations.CommandsKeepSrcPosWithinSrcLen : Prop :=
  ∀ (i : Instr) (s t : State), s.srcPos ≤ s.srcLen → exec i s = .next t → t.srcPos ≤ t.srcLen

/-- 10_state.md R20 (column "written by"), R32, R34, R37, R45, 43_tree_builder.md R170, 44_code_table.md R185: which commands
write which table memory, which write SRC_LEN and K, and that every other leaves it unchanged. -/
def Obligations.TablesHaveOneWriter : Prop :=
  ∀ (i : Instr) (s t : State), exec i s = .next t →
    (i ≠ .hist → i ≠ .compress → t.hist = s.hist ∧ (i ≠ .clear → t.totalIn = s.totalIn)) ∧
    (i ≠ .alpha → i ≠ .rdhdr → i ≠ .compress → i ≠ .decompress →
      t.entSym = s.entSym ∧ t.entFreq = s.entFreq ∧ (i ≠ .clear → t.k = s.k)) ∧
    (i ≠ .build → i ≠ .compress → i ≠ .decompress →
      t.nodeFreq = s.nodeFreq ∧ t.nodeSym = s.nodeSym ∧ t.nodeLeft = s.nodeLeft ∧ t.nodeRight = s.nodeRight ∧
      t.heap = s.heap ∧ (i ≠ .clear → t.nodeCnt = s.nodeCnt ∧ t.root = s.root ∧ t.heapSize = s.heapSize)) ∧
    (i ≠ .codegen → i ≠ .compress → t.codeLen = s.codeLen ∧ t.codeBits = s.codeBits) ∧
    (i ≠ .pack → i ≠ .compress → i ≠ .clear → t.bitBuf = s.bitBuf ∧ t.bitCnt = s.bitCnt) ∧
    (i ≠ .decode → i ≠ .decompress → i ≠ .clear →
      t.totalSym = s.totalSym ∧ t.decCnt = s.decCnt ∧ t.cursor = s.cursor) ∧
    (i ≠ .clear → t.srcLen = s.srcLen)

/-! ### Frequency counter -/

/-- 41_frequency_counter.md R140, R142, R143: HIST counts the source. Everything not named is unchanged. -/
def Obligations.HistCountsTheSource : Prop :=
  ∀ s : State, s.busy = false → s.srcLen ≠ 0 →
    ∃ t, exec .hist s = .next t ∧
      (∀ b, (histAt b t).toNat = (sourceBytes s).count b) ∧
      (t.hist.toList.map BitVec.toNat).sum = s.srcLen.toNat ∧
      t = { settled s with
        histV := true, entV := false, treeV := false, codeV := false
        hist := t.hist, totalIn := s.srcLen, srcPos := s.srcLen }

/-- 41_frequency_counter.md R140, 60_exceptions.md R226, R242: HIST and COMPRESS with SRC_LEN 0 record EmptyInput and leave
the four valid flags 0 and everything else unchanged. -/
def Obligations.EmptySourceIsRejected : Prop :=
  ∀ s : State, s.busy = false → s.srcLen = 0 →
    exec .hist s = .next { aborted .emptyInput (.stage .hist) s with
      histV := false, entV := false, treeV := false, codeV := false } ∧
    exec .compress s = .next { aborted .emptyInput (.stage .hist) s with
      histV := false, entV := false, treeV := false, codeV := false }

/-- 41_frequency_counter.md R141: ALPHA lists the byte values with a nonzero count in ascending order. Entries K and above
and everything not named are unchanged. -/
def Obligations.AlphaListsTheAlphabet : Prop :=
  ∀ s : State, s.busy = false →
    (s.histV = false → exec .alpha s = .next (aborted .invariantViolation (.stage .alpha) s)) ∧
    (s.histV = true →
      ∃ t, exec .alpha s = .next t ∧
        entryList t = (allBytes.filter fun b => decide (histAt b s ≠ 0)).map (fun b => (b, histAt b s)) ∧
        t.k.toNat = (allBytes.filter fun b => decide (histAt b s ≠ 0)).length ∧
        (∀ i, t.k.toNat ≤ i → t.entSym[i]? = s.entSym[i]? ∧ t.entFreq[i]? = s.entFreq[i]?) ∧
        t = { settled s with
          entV := true, treeV := false, codeV := false, k := t.k, entSym := t.entSym, entFreq := t.entFreq })

/-- 41_frequency_counter.md R145: after ALPHA, 1 ≤ K ≤ 256, the symbols ascend strictly, every frequency is at least 1 and
they sum to TOTAL_IN. -/
def Obligations.AlphaMeetsTheHeaderInvariants : Prop :=
  ∀ s : State, Inv s → s.busy = false → s.histV = true →
    ∃ t, exec .alpha s = .next t ∧ 1 ≤ t.k.toNat ∧ t.k.toNat ≤ 256 ∧
      ((entryList t).map fun e => e.1.toNat).Pairwise (· < ·) ∧ (∀ e ∈ entryList t, 1 ≤ e.2.toNat) ∧
      freqSum (entryList t) = t.totalIn.toNat ∧ 1 ≤ t.totalIn.toNat

/-! ### Priority queue -/

/-- 42_priority_queue.md R151, R154: inserting a node into a heap with room keeps the heap order, adds that node and changes
only HEAP and HEAP_SIZE. R155: no entry whose key is at most the new node's moves, so the new node passes strictly greater
ones only; below a parent of at most its key it stays in the new last slot. -/
def Obligations.InsertKeepsTheHeap : Prop :=
  ∀ (s : State) (n : Ref), HeapOk s → s.heapSize.toNat < 256 → n.toNat < 511 →
    ∃ t, pqInsert n s = .ok () t ∧ HeapOk t ∧ (heapList t).Perm (n :: heapList s) ∧
      t.heapSize.toNat = s.heapSize.toNat + 1 ∧ t = { s with heap := t.heap, heapSize := t.heapSize } ∧
      (∀ (j : Nat) (m : Ref), (heapList s)[j]? = some m → keyOf s m ≤ keyOf s n → (heapList t)[j]? = some m) ∧
      ((∀ m, (heapList s)[((heapList s).length - 1) / 2]? = some m → keyOf s m ≤ keyOf s n) →
        heapList t = heapList s ++ [n])

/-- 42_priority_queue.md R152, R154: extraction from a non-empty heap returns the node in slot 0, whose key is the least,
removes it, keeps the heap order and changes only HEAP and HEAP_SIZE. R155: the former last entry sinks past strictly smaller
entries only, and of two siblings only the strictly smaller, or the left one of two equal, can move. -/
def Obligations.ExtractReturnsTheMinimum : Prop :=
  ∀ s : State, HeapOk s → 0 < s.heapSize.toNat →
    ∃ n t, pqExtractMin s = .ok n t ∧ HeapOk t ∧ (n :: heapList t).Perm (heapList s) ∧
      (∀ m ∈ heapList s, keyOf s n ≤ keyOf s m) ∧ t.heapSize.toNat + 1 = s.heapSize.toNat ∧
      t = { s with heap := t.heap, heapSize := t.heapSize } ∧ (heapList s)[0]? = some n ∧
      (∀ (j : Nat) (m last : Ref), 0 < j → j + 1 < (heapList s).length → (heapList s)[j]? = some m →
        (heapList s).getLast? = some last → keyOf s last ≤ keyOf s m → (heapList t)[j]? = some m) ∧
      (∀ (j : Nat) (l r : Ref), 2 * j + 3 < (heapList s).length → (heapList s)[2 * j + 1]? = some l →
        (heapList s)[2 * j + 2]? = some r → (keyOf s l ≤ keyOf s r → (heapList t)[2 * j + 2]? = some r) ∧
        (keyOf s r < keyOf s l → (heapList t)[2 * j + 1]? = some l))

/-- 42_priority_queue.md R151, R152: the two errors of the queue. -/
def Obligations.QueueErrorsAreInvariantViolations : Prop :=
  ∀ (s : State) (n : Ref),
    (s.heapSize = 256#9 → pqInsert n s = .stop (aborted .invariantViolation s.phase s)) ∧
    (s.heapSize = 0#9 → pqExtractMin s = .stop (aborted .invariantViolation s.phase s))

/-! ### Tree builder -/

/-- 43_tree_builder.md R167, R170, R171, R172: BUILD makes the tree of the entry list. NODE words at and above NODE_CNT and
everything not named are unchanged. -/
def Obligations.BuildMakesTheTree : Prop :=
  ∀ s : State, s.busy = false → s.entV = true → 1 ≤ s.k.toNat → s.k.toNat ≤ 256 →
    ∃ t, exec .build s = .next t ∧ TreeOk t ∧ t.heapSize = 1 ∧ t.heap[0]? = some t.root ∧
      (∀ i, t.nodeCnt.toNat ≤ i → t.nodeFreq[i]? = s.nodeFreq[i]? ∧ t.nodeSym[i]? = s.nodeSym[i]? ∧
        t.nodeLeft[i]? = s.nodeLeft[i]? ∧ t.nodeRight[i]? = s.nodeRight[i]?) ∧
      t = { settled s with
        treeV := true, codeV := false
        nodeFreq := t.nodeFreq, nodeSym := t.nodeSym, nodeLeft := t.nodeLeft, nodeRight := t.nodeRight
        nodeCnt := t.nodeCnt, root := t.root, heap := t.heap, heapSize := t.heapSize }

/-- 43_tree_builder.md R166, R167: a turn of the merge loop makes one node of the first and the second extracted, the first
on the left, and inserts it (which of several nodes of equal key comes first is the queue's, 42_priority_queue.md R155). Every
merge of BUILD takes a minimum pair: when node i is made, its left child has a key at most its right child's, and every other
node that has no parent yet has a key at least the right child's. -/
def Obligations.BuildMergesMinimumPairs : Prop :=
  (∀ s : State, HeapOk s → 2 ≤ s.heapSize.toNat → s.nodeCnt.toNat < 511 →
    ∃ a u b v t fa fb, pqExtractMin s = .ok a u ∧ pqExtractMin u = .ok b v ∧ mergeTurn s = .ok () t ∧
      s.nodeFreq[a.toNat]? = some fa ∧ s.nodeFreq[b.toNat]? = some fb ∧
      t.nodeLeft[s.nodeCnt.toNat]? = some a ∧ t.nodeRight[s.nodeCnt.toNat]? = some b ∧
      t.nodeFreq[s.nodeCnt.toNat]? = some (fa + fb) ∧ t.nodeSym[s.nodeCnt.toNat]? = some 0 ∧
      t.nodeCnt.toNat = s.nodeCnt.toNat + 1 ∧ (heapList t).Perm (s.nodeCnt :: heapList v)) ∧
  ∀ s t : State, s.busy = false → s.entV = true → 1 ≤ s.k.toNat → s.k.toNat ≤ 256 → exec .build s = .next t →
    ∀ i l r, t.k.toNat ≤ i → i < t.nodeCnt.toNat → t.nodeLeft[i]? = some l → t.nodeRight[i]? = some r →
      keyOf t l ≤ keyOf t r ∧
      ∀ n : Ref, n.toNat < i →
        (∀ j, t.k.toNat ≤ j → j ≤ i → t.nodeLeft[j]? ≠ some n ∧ t.nodeRight[j]? ≠ some n) →
        keyOf t r ≤ keyOf t n

/-- 43_tree_builder.md R170: every leaf is reached from the root by exactly one path, of at most K − 1 edges, and every
path that ends ends at one of the K leaves. -/
def Obligations.EveryLeafHasOnePath : Prop :=
  ∀ s : State, TreeOk s →
    (∀ i : Ref, i.toNat < s.k.toNat → ∃ p, follow s s.root p = some i ∧ p.length ≤ s.k.toNat - 1 ∧
      ∀ q, follow s s.root q = some i → q = p) ∧
    (∀ q n, follow s s.root q = some n → (leafNode s n = true ↔ n.toNat < s.k.toNat))

/-- 43_tree_builder.md R170: the root's frequency is the sum of the entry frequencies. -/
def Obligations.RootFrequencyIsTheTotal : Prop :=
  ∀ s : State, Inv s → s.treeV = true → keyOf s s.root = freqSum (entryList s)

/-- 43_tree_builder.md R168: a list of one entry gives a single leaf. -/
def Obligations.OneEntryGivesASingleLeaf : Prop :=
  ∀ s : State, s.busy = false → s.entV = true → s.k = 1 →
    ∃ t, exec .build s = .next t ∧ t.nodeCnt = 1 ∧ t.root = 0 ∧ leafNode t t.root = true ∧
      t.nodeSym[0]? = s.entSym[0]?

/-- 43_tree_builder.md R169, R173: BUILD is a function of (K, ENT[0..K − 1]) alone: two states with equal entry lists,
whatever else they hold, get equal nodes, word for word. -/
def Obligations.BuildDependsOnTheEntriesOnly : Prop :=
  ∀ s u : State, s.busy = false → u.busy = false → s.entV = true → u.entV = true →
    1 ≤ s.k.toNat → s.k.toNat ≤ 256 → u.k = s.k → entryList u = entryList s →
    ∃ t v, exec .build s = .next t ∧ exec .build u = .next v ∧ v.nodeCnt = t.nodeCnt ∧ v.root = t.root ∧
      ∀ i, i < t.nodeCnt.toNat → v.nodeFreq[i]? = t.nodeFreq[i]? ∧ v.nodeSym[i]? = t.nodeSym[i]? ∧
        v.nodeLeft[i]? = t.nodeLeft[i]? ∧ v.nodeRight[i]? = t.nodeRight[i]?

/-! ### Code table -/

/-- 44_code_table.md R180, R181, R182, R186: CODEGEN fills CODE with the table of the current tree and changes nothing
else but CODE_V and the sequencer's registers. -/
def Obligations.CodegenFillsTheCodeTable : Prop :=
  ∀ s : State, s.busy = false → s.treeV = true → TreeOk s →
    ∃ t, exec .codegen s = .next t ∧ CodeTableOk t ∧
      t = { settled s with codeV := true, codeLen := t.codeLen, codeBits := t.codeBits }

/-- 44_code_table.md R183, R184: with a valid code table and at least two entries, exactly the symbols of the entry list have
a code, no code is longer than K − 1 bits, and no code of one symbol begins the code of another. -/
def Obligations.CodesArePrefixFree : Prop :=
  ∀ s : State, Inv s → s.codeV = true → 2 ≤ s.k.toNat →
    (∀ b, codeOf b s ≠ [] ↔ b ∈ (entryList s).map Prod.fst) ∧
    (∀ b, (codeOf b s).length ≤ s.k.toNat - 1) ∧
    (∀ b c, b ≠ c → codeOf b s ≠ [] → codeOf c s ≠ [] → ¬ (codeOf b s <+: codeOf c s))

/-! ### Serializer -/

/-- 45_serializer.md R190, 30_encoding.md R94: WRHDR appends the header of the entry list (4 + 5·K bytes) and changes nothing
else. -/
def Obligations.WrhdrAppendsTheHeader : Prop :=
  ∀ s : State, s.busy = false →
    (s.entV = false → exec .wrhdr s = .next (aborted .invariantViolation (.stage .wrhdr) s)) ∧
    (s.entV = true → s.k.toNat ≤ 256 →
      exec .wrhdr s = .next { settled s with snk := s.snk ++ headerBytes (entryList s) } ∧
      (headerBytes (entryList s)).length = 4 + 5 * s.k.toNat)

/-- 45_serializer.md R191: PUTBIT writes the bit at BITCNT and leaves the other bits of the buffer; a full byte goes to SNK and
the buffer is cleared. -/
def Obligations.PutBitFillsTheByte : Prop :=
  ∀ (s : State) (v : Bool), ∃ buf : Byte,
    (∀ i, i < 8 → buf.getLsbD i = if i = s.bitCnt.toNat then v else s.bitBuf.getLsbD i) ∧
    (s.bitCnt = 7#3 → putBit v s = { s with snk := s.snk ++ [buf], bitBuf := 0, bitCnt := 0 }) ∧
    (s.bitCnt ≠ 7#3 → putBit v s = { s with bitBuf := buf, bitCnt := s.bitCnt + 1 } ∧
      (s.bitCnt + 1).toNat = s.bitCnt.toNat + 1)

/-- 45_serializer.md R192: FLUSH appends a partial byte and clears the buffer; with no pending bit it does nothing. -/
def Obligations.FlushWritesThePartialByte : Prop :=
  ∀ s : State,
    (s.bitCnt ≠ 0#3 → flushBits s = { s with snk := s.snk ++ [s.bitBuf], bitBuf := 0, bitCnt := 0 }) ∧
    (s.bitCnt = 0#3 → flushBits s = s)

/-- 45_serializer.md R193, R195, 30_encoding.md R95, R96: where every source byte has a code, PACK appends the packed codes
of the source, padded with 0, and changes nothing else but SRC_POS, BITBUF and BITCNT. -/
def Obligations.PackAppendsTheCodes : Prop :=
  ∀ s : State, s.busy = false → s.codeV = true → (∀ b ∈ sourceBytes s, codeOf b s ≠ []) →
    exec .pack s = .next { settled s with
      srcPos := s.srcLen
      bitBuf := 0
      bitCnt := 0
      snk := s.snk ++ packBytes ((sourceBytes s).flatMap fun b => codeOf b s) }

/-- 45_serializer.md R193, 60_exceptions.md R242: at the first source byte without a code PACK stops with
InvariantViolation; the whole bytes stay in SNK and the pending bits in BITBUF. -/
def Obligations.PackStopsAtAByteWithoutCode : Prop :=
  ∀ (s : State) (done : List Byte) (bad : Byte) (rest : List Byte), s.busy = false → s.codeV = true →
    sourceBytes s = done ++ bad :: rest → (∀ b ∈ done, codeOf b s ≠ []) → codeOf bad s = [] →
    let bits := done.flatMap fun b => codeOf b s
    exec .pack s = .next { aborted .invariantViolation (.stage .pack) s with
      srcPos := BitVec.ofNat 32 (done.length + 1)
      bitBuf := byteOfBits (bits.drop (8 * (bits.length / 8)))
      bitCnt := BitVec.ofNat 3 bits.length
      snk := s.snk ++ (packBytes bits).take (bits.length / 8) }

/-! ### Deserializer -/

/-- 46_deserializer.md R205: RDHDR reads a complete header of 1 to 256 entries, whatever the entries hold (R206), and leaves
SRC_POS at the first stream byte. Entries K and above and everything not named are unchanged. -/
def Obligations.RdhdrReadsTheHeader : Prop :=
  ∀ (s : State) (es : List (Byte × Word32)), s.busy = false → 1 ≤ es.length → es.length ≤ 256 →
    headerBytes es <+: sourceBytes s →
    ∃ t, exec .rdhdr s = .next t ∧ entryList t = es ∧ t.k.toNat = es.length ∧
      t.srcPos.toNat = 4 + 5 * es.length ∧
      (∀ i, es.length ≤ i → t.entSym[i]? = s.entSym[i]? ∧ t.entFreq[i]? = s.entFreq[i]?) ∧
      t = { settled s with
        entV := true, treeV := false, codeV := false
        k := t.k, srcPos := t.srcPos, entSym := t.entSym, entFreq := t.entFreq }

/-- 46_deserializer.md R205, 60_exceptions.md R228, R242: RDHDR records CorruptHeader for a short k field, for k = 0 or
k > 256, and for a truncated entry; what each leaves in K, SRC_POS and ENT. -/
def Obligations.RdhdrRejectsCorruptHeaders : Prop :=
  ∀ s : State, s.busy = false →
    let failed := { aborted .corruptHeader (.stage .rdhdr) s with entV := false, treeV := false, codeV := false }
    (s.srcLen.toNat < 4 → exec .rdhdr s = .next { failed with srcPos := s.srcLen }) ∧
    (∀ k : Word32, le32 k <+: sourceBytes s → k = 0 ∨ 256 < k.toNat →
      exec .rdhdr s = .next { failed with srcPos := 4 }) ∧
    (∀ k : Word32, le32 k <+: sourceBytes s → 1 ≤ k.toNat → k.toNat ≤ 256 → s.srcLen.toNat < 4 + 5 * k.toNat →
      ∃ t, exec .rdhdr s = .next t ∧ t.k.toNat = k.toNat ∧
        (∀ i, (s.srcLen.toNat - 4) / 5 ≤ i → t.entSym[i]? = s.entSym[i]? ∧ t.entFreq[i]? = s.entFreq[i]?) ∧
        (∀ i, i < (s.srcLen.toNat - 4) / 5 →
          ∃ sym freq, t.entSym[i]? = some sym ∧ t.entFreq[i]? = some freq ∧
            (sym :: le32 freq) <+: (sourceBytes s).drop (4 + 5 * i)) ∧
        t = { failed with k := t.k, srcPos := s.srcLen, entSym := t.entSym, entFreq := t.entFreq })

/-- 46_deserializer.md R207, R208, R210: with a tree of two or more leaves, if the stream begins with the paths of as many
leaves as the header's frequencies sum to, DECODE appends those leaves' symbols and stops; bits and bytes after them have
no effect. -/
def Obligations.DecodeEmitsTheSymbols : Prop :=
  ∀ (s : State) (paths : List (List Bool)) (syms : List Byte) (rest : List Bool), s.busy = false →
    s.entV = true → s.treeV = true → TreeOk s → leafNode s s.root = false →
    List.Forall₂ (LeafPath s) paths syms → syms.length = freqSum (entryList s) →
    streamBits s = paths.flatten ++ rest →
    exec .decode s = .next { settled s with
      totalSym := BitVec.ofNat 40 syms.length
      decCnt := BitVec.ofNat 40 syms.length
      cursor := s.root
      srcPos := BitVec.ofNat 32 (s.srcPos.toNat + (paths.flatten.length + 7) / 8)
      snk := s.snk ++ syms }

/-- 46_deserializer.md R212, R213: if the stream ends before that many leaves are reached, DECODE records UnexpectedEOF; the
symbols completed before stay in SNK and are counted. That CURSOR keeps the partial path's node, which R212 calls lost, is
log 14 (DEDUCED); that an SRC_POS above SRC_LEN stays, where R212 and R242 say SRC_POS == SRC_LEN, is log 12 (DEDUCED). -/
def Obligations.DecodeRunsOutOfInput : Prop :=
  ∀ (s : State) (paths : List (List Bool)) (syms : List Byte) (part : List Bool) (n : Ref), s.busy = false →
    s.entV = true → s.treeV = true → TreeOk s → leafNode s s.root = false →
    List.Forall₂ (LeafPath s) paths syms → syms.length < freqSum (entryList s) →
    streamBits s = paths.flatten ++ part → follow s s.root part = some n → leafNode s n = false →
    exec .decode s = .next { aborted .unexpectedEOF (.stage .decode) s with
      totalSym := BitVec.ofNat 40 (freqSum (entryList s))
      decCnt := BitVec.ofNat 40 syms.length
      cursor := n
      srcPos := if s.srcPos < s.srcLen then s.srcLen else s.srcPos
      snk := s.snk ++ syms }

/-- 46_deserializer.md R209, R211, R212, 60_exceptions.md R229: the single-leaf tree. A 0 bit emits the symbol, a 1 bit among
the examined bits is CorruptStream, a stream too short is UnexpectedEOF. (That an SRC_POS above SRC_LEN stays at UnexpectedEOF,
where R212 and R242 say SRC_POS == SRC_LEN, is log 12, DEDUCED.) -/
def Obligations.DecodeOfASingleLeaf : Prop :=
  ∀ (s : State) (sym : Byte) (total : Nat), s.busy = false → s.entV = true → s.treeV = true → TreeOk s →
    leafNode s s.root = true → s.nodeSym[s.root.toNat]? = some sym → total = freqSum (entryList s) →
    (∀ rest, streamBits s = List.replicate total false ++ rest →
      exec .decode s = .next { settled s with
        totalSym := BitVec.ofNat 40 total
        decCnt := BitVec.ofNat 40 total
        cursor := s.root
        srcPos := BitVec.ofNat 32 (s.srcPos.toNat + (total + 7) / 8)
        snk := s.snk ++ List.replicate total sym }) ∧
    (∀ zeros rest, zeros < total → streamBits s = List.replicate zeros false ++ true :: rest →
      exec .decode s = .next { aborted .corruptStream (.stage .decode) s with
        totalSym := BitVec.ofNat 40 total
        decCnt := BitVec.ofNat 40 zeros
        cursor := s.root
        srcPos := BitVec.ofNat 32 (s.srcPos.toNat + zeros / 8 + 1)
        snk := s.snk ++ List.replicate zeros sym }) ∧
    (∀ zeros, zeros < total → streamBits s = List.replicate zeros false →
      exec .decode s = .next { aborted .unexpectedEOF (.stage .decode) s with
        totalSym := BitVec.ofNat 40 total
        decCnt := BitVec.ofNat 40 zeros
        cursor := s.root
        srcPos := if s.srcPos < s.srcLen then s.srcLen else s.srcPos
        snk := s.snk ++ List.replicate zeros sym })

/-- 46_deserializer.md R214: with a frequency sum of 0, DECODE reads nothing and completes, whatever follows. -/
def Obligations.DecodeOfNoSymbolsReadsNothing : Prop :=
  ∀ s : State, s.busy = false → s.entV = true → s.treeV = true → s.k.toNat ≤ 256 → freqSum (entryList s) = 0 →
    exec .decode s = .next { settled s with totalSym := 0, decCnt := 0, cursor := s.root }

/-! ### The whole codec -/

/-- 40_sequencer.md R127, 45_serializer.md R195, 30_encoding.md R94: COMPRESS on a non-empty source completes without error
and appends one artifact: the header of the byte values that occur with their counts, then the packed codes. -/
def Obligations.CompressAppendsOneArtifact : Prop :=
  ∀ s : State, s.busy = false → s.srcLen ≠ 0 →
    ∃ t, exec .compress s = .next t ∧
      entryList t = (allBytes.filter fun b => decide ((sourceBytes s).count b ≠ 0)).map
        (fun b => (b, BitVec.ofNat 32 ((sourceBytes s).count b))) ∧
      t.k.toNat = (entryList t).length ∧ TreeOk t ∧ CodeTableOk t ∧
      t.snk = s.snk ++ headerBytes (entryList t) ++ packBytes ((sourceBytes s).flatMap fun b => codeOf b t) ∧
      t = { settled s with
        histV := true, entV := true, treeV := true, codeV := true
        hist := t.hist, totalIn := s.srcLen, srcPos := s.srcLen
        k := t.k, entSym := t.entSym, entFreq := t.entFreq
        nodeFreq := t.nodeFreq, nodeSym := t.nodeSym, nodeLeft := t.nodeLeft, nodeRight := t.nodeRight
        nodeCnt := t.nodeCnt, root := t.root, heap := t.heap, heapSize := 1
        codeLen := t.codeLen, codeBits := t.codeBits, bitBuf := 0, bitCnt := 0, snk := t.snk }

/-- 46_deserializer.md R211, 40_sequencer.md R128: for a header of two or more entries every stream that is long enough
decodes: DECOMPRESS completes and appends as many symbols of the header as its frequencies sum to. -/
def Obligations.DecompressAcceptsEveryLongStream : Prop :=
  ∀ (s : State) (es : List (Byte × Word32)), s.busy = false → 2 ≤ es.length → es.length ≤ 256 →
    headerBytes es <+: sourceBytes s →
    (es.length - 1) * freqSum es ≤ 8 * (s.srcLen.toNat - (4 + 5 * es.length)) →
    ∃ t out, exec .decompress s = .next t ∧ out.length = freqSum es ∧ (∀ b ∈ out, b ∈ es.map Prod.fst) ∧
      entryList t = es ∧ TreeOk t ∧
      t = { settled s with
        entV := true, treeV := true, codeV := false
        srcPos := t.srcPos, k := t.k, entSym := t.entSym, entFreq := t.entFreq
        totalSym := BitVec.ofNat 40 (freqSum es), decCnt := BitVec.ofNat 40 (freqSum es), cursor := t.root
        nodeFreq := t.nodeFreq, nodeSym := t.nodeSym, nodeLeft := t.nodeLeft, nodeRight := t.nodeRight
        nodeCnt := t.nodeCnt, root := t.root, heap := t.heap, heapSize := 1
        snk := s.snk ++ out }

/-- 46_deserializer.md R216: DECOMPRESS on any source ends in success, CorruptHeader at RDHDR, CorruptStream at DECODE (only
for K = 1, R211) or UnexpectedEOF at DECODE, and in nothing else. -/
def Obligations.DecompressIsTotal : Prop :=
  ∀ s : State, s.busy = false →
    ∃ t, exec .decompress s = .next t ∧ t.busy = false ∧ t.done = true ∧ t.phase = .idle ∧ t.kind = .single ∧
      t.histV = s.histV ∧
      ((t.err = false ∧ t.errKind = .none ∧ t.errStage = .idle ∧ t.entV = true ∧ t.treeV = true ∧ t.codeV = false ∧
          t.decCnt = t.totalSym) ∨
       (t.err = true ∧ t.errKind = .corruptHeader ∧ t.errStage = .stage .rdhdr ∧ t.snk = s.snk ∧ t.entV = false ∧
          t.treeV = false ∧ t.codeV = false) ∨
       (t.err = true ∧ t.errKind = .corruptStream ∧ t.errStage = .stage .decode ∧ t.k = 1) ∨
       (t.err = true ∧ t.errKind = .unexpectedEOF ∧ t.errStage = .stage .decode ∧ t.srcPos = t.srcLen))

/-- 46_deserializer.md R215: the round trip. What COMPRESS appends, DECOMPRESS turns back into the source: for every source
space `u` that begins with the artifact, whatever follows it and whatever its padding bits are. -/
def Obligations.RoundTripRestoresTheSource : Prop :=
  ∀ s : State, s.busy = false → s.srcLen ≠ 0 →
    ∃ t artifact, exec .compress s = .next t ∧ t.err = false ∧ t.snk = s.snk ++ artifact ∧
      ∀ u : State, u.busy = false → artifact.length ≤ u.srcLen.toNat →
        (∀ i, i < 4 + 5 * t.k.toNat → artifact[i]? = some (sourceByte u i)) →
        (∀ n b, n < (((sourceBytes s).flatMap fun b => codeOf b t).length) →
          artifact[4 + 5 * t.k.toNat + n / 8]? = some b →
          (sourceByte u (4 + 5 * t.k.toNat + n / 8)).getLsbD (n % 8) = b.getLsbD (n % 8)) →
        ∃ v, exec .decompress u = .next v ∧ v.err = false ∧ v.snk = u.snk ++ sourceBytes s
end

