-- ==== Sys2Proof/Laws/Outcome.lean ====
section
/-! SUPPORT. Reasoning about pieces of a stage: a postcondition for each of the three ends of a `Res`, and one rule for each
way pieces are put together. -/

namespace Sys2Proof.Machine

/-- `P` holds at a normal end, `Q` of the state an error leaves, `F` of a fault. -/
def Res.Holds {α : Type} (P : α → State → Prop) (Q : State → Prop) (F : Fault → Prop) : Res α → Prop
  | .ok a s => P a s
  | .stop s => Q s
  | .fault f => F f

section
variable {α β : Type} {P P' : α → State → Prop} {Q Q' : State → Prop} {F F' : Fault → Prop}

@[simp] theorem Res.holds_ok (a : α) (s : State) : (Res.ok a s).Holds P Q F ↔ P a s := Iff.rfl
@[simp] theorem Res.holds_stop (s : State) : (Res.stop s : Res α).Holds P Q F ↔ Q s := Iff.rfl
@[simp] theorem Res.holds_fault (f : Fault) : (Res.fault f : Res α).Holds P Q F ↔ F f := Iff.rfl
@[simp] theorem holds_raise (k : ErrKind) (s : State) : (raise k s : Res α).Holds P Q F ↔ Q (errorEntry k s) := Iff.rfl

@[simp] theorem Res.bind_ok (a : α) (s : State) (f : α → State → Res β) : (Res.ok a s).bind f = f a s := rfl
@[simp] theorem Res.bind_stop (s : State) (f : α → State → Res β) : (Res.stop s).bind f = .stop s := rfl
@[simp] theorem Res.bind_fault (e : Fault) (f : α → State → Res β) : (Res.fault e).bind f = .fault e := rfl
@[simp] theorem bind_raise (k : ErrKind) (s : State) (f : α → State → Res β) : (raise k s).bind f = raise k s := rfl

@[simp] theorem Res.toOutcome_ok (a : α) (s : State) : (Res.ok a s).toOutcome = .next s := rfl
@[simp] theorem Res.toOutcome_stop (s : State) : (Res.stop s : Res α).toOutcome = .next s := rfl
@[simp] theorem Res.toOutcome_fault (f : Fault) : (Res.fault f : Res α).toOutcome = .fault f := rfl
@[simp] theorem toOutcome_raise (k : ErrKind) (s : State) : (raise k s : Res α).toOutcome = .next (errorEntry k s) := rfl

theorem Res.bind_assoc {γ : Type} (r : Res α) (f : α → State → Res β) (g : β → State → Res γ) :
    (r.bind f).bind g = r.bind fun a s => (f a s).bind g := by
  cases r <;> rfl

/-- The rule of sequence. -/
theorem Res.Holds.bind {R : β → State → Prop} {r : Res α} {f : α → State → Res β}
    (h : r.Holds (fun a s => (f a s).Holds R Q F) Q F) : (r.bind f).Holds R Q F := by
  cases r <;> exact h

/-- The rule of consequence. -/
theorem Res.Holds.mono {r : Res α} (h : r.Holds P Q F) (hP : ∀ a s, P a s → P' a s) (hQ : ∀ s, Q s → Q' s)
    (hF : ∀ f, F f → F' f) : r.Holds P' Q' F' := by
  cases r with
  | ok a s => exact hP a s h
  | stop s => exact hQ s h
  | fault f => exact hF f h

theorem Res.Holds.and {r : Res α} (h : r.Holds P Q F) (h' : r.Holds P' Q' F') :
    r.Holds (fun a s => P a s ∧ P' a s) (fun s => Q s ∧ Q' s) (fun f => F f ∧ F' f) := by
  cases r <;> exact ⟨h, h'⟩

/-- A piece that neither raises nor faults has a result. -/
theorem Res.Holds.result {r : Res α} (h : r.Holds P (fun _ => False) (fun _ => False)) : ∃ a s, r = .ok a s ∧ P a s := by
  cases r with
  | ok a s => exact ⟨a, s, rfl, h⟩
  | stop s => exact h.elim
  | fault f => exact h.elim

/-- A piece that does not fault ends in a next state. -/
theorem Res.Holds.next {r : Res α} (h : r.Holds P Q (fun _ => False)) :
    ∃ s, r.toOutcome = .next s ∧ ((∃ a, r = .ok a s ∧ P a s) ∨ (r = .stop s ∧ Q s)) := by
  cases r with
  | ok a s => exact ⟨s, rfl, .inl ⟨a, rfl, h⟩⟩
  | stop s => exact ⟨s, rfl, .inr ⟨rfl, h⟩⟩
  | fault f => exact h.elim

/-- The rule of `for`: `I i` holds before turn `i`. -/
theorem forEach_holds {turn : α → State → Res Unit} (xs : List α) (I : Nat → State → Prop) (s : State) (h0 : I 0 s)
    (hturn : ∀ i (h : i < xs.length) s, I i s → (turn xs[i] s).Holds (fun _ t => I (i + 1) t) Q F) :
    (forEach turn xs s).Holds (fun _ t => I xs.length t) Q F := by
  induction xs generalizing I s with
  | nil => exact h0
  | cons x xs ih =>
    refine Res.Holds.bind ((hturn 0 (by simp) s h0).mono (fun _ t ht => ?_) (fun _ h => h) (fun _ h => h))
    exact ih (fun i => I (i + 1)) t ht (fun i h s hs => hturn (i + 1) (by simpa using h) s hs)

/-- The rule of `while`: `I n` holds with `n` turns of the bound left. -/
theorem whileLoop_holds {cond : State → Bool} {turn : State → Res Unit} (n : Nat) (I : Nat → State → Prop) (s : State)
    (h0 : I n s)
    (hturn : ∀ m s, I (m + 1) s → cond s = true → (turn s).Holds (fun _ t => I m t) Q F)
    (hbound : ∀ s, I 0 s → cond s = true → F .loopBound) :
    (whileLoop cond turn n s).Holds (fun _ t => cond t = false ∧ ∃ m, I m t) Q F := by
  induction n generalizing s with
  | zero =>
    unfold whileLoop
    by_cases hc : cond s = true
    · simpa [hc] using hbound s h0 hc
    · simpa [hc] using ⟨0, h0⟩
  | succ n ih =>
    unfold whileLoop
    by_cases hc : cond s = true
    · rw [if_pos hc]
      exact Res.Holds.bind ((hturn n s h0 hc).mono (fun _ t ht => ih t ht) (fun _ h => h) (fun _ h => h))
    · simpa [hc] using ⟨n + 1, h0⟩

@[simp] theorem forEach_nil (turn : α → State → Res Unit) (s : State) : forEach turn [] s = .ok () s := rfl

theorem forEach_cons (turn : α → State → Res Unit) (x : α) (xs : List α) (s : State) :
    forEach turn (x :: xs) s = (turn x s).bind fun _ s => forEach turn xs s := rfl

theorem forEach_append (turn : α → State → Res Unit) (xs ys : List α) (s : State) :
    forEach turn (xs ++ ys) s = (forEach turn xs s).bind fun _ s => forEach turn ys s := by
  induction xs generalizing s with
  | nil => rfl
  | cons x xs ih =>
    rw [List.cons_append, forEach_cons, forEach_cons, Res.bind_assoc]
    cases turn x s with
    | ok a t => exact ih t
    | stop t => rfl
    | fault f => rfl

end

/-! ### Table accesses -/

theorem fetchWord_ok {α : Type} {n : Nat} {m : TableMem} {v : Vector α n} {i : Nat} {s : State} (h : i < n) :
    fetchWord m v i s = .ok v[i] s := dif_pos h

/-- A table access either answers the word and leaves the state, or faults on an index outside the memory. -/
theorem fetchWord_cases {α : Type} {n : Nat} (m : TableMem) (v : Vector α n) (i : Nat) (s : State) :
    (∃ x, v[i]? = some x ∧ fetchWord m v i s = .ok x s) ∨ (n ≤ i ∧ fetchWord m v i s = .fault (.tableIndex m)) := by
  by_cases h : i < n
  · exact .inl ⟨v[i], by simp [h], dif_pos h⟩
  · exact .inr ⟨by omega, dif_neg h⟩

theorem fetchWord_some {α : Type} {n : Nat} {m : TableMem} {v : Vector α n} {i : Nat} {s : State} {x : α}
    (h : v[i]? = some x) : fetchWord m v i s = .ok x s := by
  obtain ⟨hi, rfl⟩ := Vector.getElem?_eq_some_iff.mp h
  exact fetchWord_ok hi

theorem fetchWord_holds {α : Type} {n : Nat} {m : TableMem} {v : Vector α n} {i : Nat} {s : State}
    {P : α → State → Prop} {Q : State → Prop} {F : Fault → Prop} (hF : n ≤ i → F (.tableIndex m))
    (hP : ∀ x, v[i]? = some x → P x s) : (fetchWord m v i s).Holds P Q F := by
  obtain ⟨x, hx, he⟩ | ⟨hi, he⟩ := fetchWord_cases m v i s
  · rw [he]; exact hP x hx
  · rw [he]; exact hF hi

end Sys2Proof.Machine
end

