-- ==== Sys2Proof/Laws/Frames.lean ====
section
/-! SUPPORT. What each piece of a stage may change, and which errors it may raise: one lemma per operation, cited instead of
unfolding it. -/

namespace Sys2Proof.Machine

/-- A piece run in `s` ends with a change that `R` allows; an error it raises is one of `E`, entered after such a change. -/
def Ends {α : Type} (R : State → State → Prop) (E : ErrKind → Prop) (s : State) (r : Res α) : Prop :=
  r.Holds (fun _ t => R s t) (fun u => ∃ k w, E k ∧ R s w ∧ u = errorEntry k w) (fun _ => True)

/-- A change relation that pieces can be put together over. -/
structure Change (R : State → State → Prop) : Prop where
  refl : ∀ s, R s s
  trans : ∀ s t u, R s t → R t u → R s u

section
variable {α β : Type} {R R' : State → State → Prop} {E E' : ErrKind → Prop}

theorem Ends.ok (a : α) {s t : State} (h : R s t) : Ends R E s (.ok a t) := h
theorem Ends.fault (f : Fault) (s : State) : Ends R E s (.fault f : Res α) := trivial
theorem Ends.raise {k : ErrKind} {s t : State} (hk : E k) (h : R s t) : Ends R E s (raise k t : Res α) :=
  ⟨k, t, hk, h, rfl⟩

theorem Ends.mono {s : State} {r : Res α} (h : Ends R E s r) (hR : ∀ s t, R s t → R' s t) (hE : ∀ k, E k → E' k) :
    Ends R' E' s r :=
  Res.Holds.mono h (fun _ _ h => hR _ _ h) (fun _ ⟨k, w, hk, hw, e⟩ => ⟨k, w, hE k hk, hR _ _ hw, e⟩) (fun _ h => h)

theorem Ends.after (hR : Change R) {s t : State} {r : Res α} (h : R s t) (h' : Ends R E t r) : Ends R E s r :=
  Res.Holds.mono h' (fun _ _ h' => hR.trans _ _ _ h h') (fun _ ⟨k, w, hk, hw, e⟩ => ⟨k, w, hk, hR.trans _ _ _ h hw, e⟩)
    (fun _ h => h)

theorem Ends.bind (hR : Change R) {s : State} {r : Res α} {f : α → State → Res β} (h : Ends R E s r)
    (hf : ∀ a t, Ends R E t (f a t)) : Ends R E s (r.bind f) := by
  cases r with
  | ok a t => exact Ends.after hR h (hf a t)
  | stop t => exact h
  | fault e => trivial

theorem Ends.forEach (hR : Change R) {turn : α → State → Res Unit} (h : ∀ a s, Ends R E s (turn a s)) (xs : List α)
    (s : State) : Ends R E s (forEach turn xs s) := by
  induction xs generalizing s with
  | nil => exact Ends.ok () (hR.refl s)
  | cons x xs ih => exact Ends.bind hR (h x s) (fun _ t => ih t)

theorem Ends.whileLoop (hR : Change R) {cond : State → Bool} {turn : State → Res Unit} (h : ∀ s, Ends R E s (turn s))
    (n : Nat) (s : State) : Ends R E s (whileLoop cond turn n s) := by
  induction n generalizing s with
  | zero =>
    unfold Machine.whileLoop
    split
    · trivial
    · exact Ends.ok () (hR.refl s)
  | succ n ih =>
    unfold Machine.whileLoop
    split
    · exact Ends.bind hR (h s) (fun _ t => ih t)
    · exact Ends.ok () (hR.refl s)

theorem Ends.fetchWord (hR : Change R) {n : Nat} (m : TableMem) (v : Vector α n) (i : Nat) (s : State) :
    Ends R E s (fetchWord m v i s) := by
  obtain ⟨x, -, he⟩ | ⟨-, he⟩ := fetchWord_cases m v i s
  · rw [he]; exact Ends.ok x (hR.refl s)
  · rw [he]; trivial

end

/-! ### The change each unit may make -/

/-- Changes of HIST. -/
def HistChange (s t : State) : Prop := t = { s with hist := t.hist, totalIn := t.totalIn, srcPos := t.srcPos }
/-- Changes of ALPHA. -/
def AlphaChange (s t : State) : Prop := t = { s with k := t.k, entSym := t.entSym, entFreq := t.entFreq }
/-- Changes of RDHDR. -/
def RdhdrChange (s t : State) : Prop :=
  t = { s with k := t.k, entSym := t.entSym, entFreq := t.entFreq, srcPos := t.srcPos }
/-- Changes of the priority queue. -/
def QueueChange (s t : State) : Prop := t = { s with heap := t.heap, heapSize := t.heapSize }
/-- Changes of BUILD. -/
def BuildChange (s t : State) : Prop :=
  t = { s with
    nodeFreq := t.nodeFreq, nodeSym := t.nodeSym, nodeLeft := t.nodeLeft, nodeRight := t.nodeRight
    nodeCnt := t.nodeCnt, root := t.root, heap := t.heap, heapSize := t.heapSize }
/-- Changes of CODEGEN. -/
def CodeChange (s t : State) : Prop := t = { s with codeLen := t.codeLen, codeBits := t.codeBits }
/-- Changes of WRHDR: SNK grows. -/
def SinkChange (s t : State) : Prop := ∃ out, t = { s with snk := s.snk ++ out }
/-- Changes of PACK. -/
def PackChange (s t : State) : Prop :=
  ∃ out, t = { s with srcPos := t.srcPos, bitBuf := t.bitBuf, bitCnt := t.bitCnt, snk := s.snk ++ out }
/-- Changes of DECODE. -/
def DecodeChange (s t : State) : Prop :=
  ∃ out, t = { s with
    srcPos := t.srcPos, totalSym := t.totalSym, decCnt := t.decCnt, cursor := t.cursor, snk := s.snk ++ out }

theorem histChange : Change HistChange := ⟨fun _ => rfl, fun s t u h h' => by unfold HistChange at *; rw [h', h]⟩
theorem alphaChange : Change AlphaChange := ⟨fun _ => rfl, fun s t u h h' => by unfold AlphaChange at *; rw [h', h]⟩
theorem rdhdrChange : Change RdhdrChange := ⟨fun _ => rfl, fun s t u h h' => by unfold RdhdrChange at *; rw [h', h]⟩
theorem queueChange : Change QueueChange := ⟨fun _ => rfl, fun s t u h h' => by unfold QueueChange at *; rw [h', h]⟩
theorem buildChange : Change BuildChange := ⟨fun _ => rfl, fun s t u h h' => by unfold BuildChange at *; rw [h', h]⟩
theorem codeChange : Change CodeChange := ⟨fun _ => rfl, fun s t u h h' => by unfold CodeChange at *; rw [h', h]⟩
theorem sinkChange : Change SinkChange :=
  ⟨fun s => ⟨[], by simp⟩, fun s t u ⟨o, h⟩ ⟨o', h'⟩ => ⟨o ++ o', by rw [h', h]; simp⟩⟩
theorem packChange : Change PackChange :=
  ⟨fun s => ⟨[], by simp⟩, fun s t u ⟨o, h⟩ ⟨o', h'⟩ => ⟨o ++ o', by rw [h', h]; simp⟩⟩
theorem decodeChange : Change DecodeChange :=
  ⟨fun s => ⟨[], by simp⟩, fun s t u ⟨o, h⟩ ⟨o', h'⟩ => ⟨o ++ o', by rw [h', h]; simp⟩⟩

/-- No error is raised. -/
def NoError (_ : ErrKind) : Prop := False

theorem NoError.elim {E : ErrKind → Prop} (k : ErrKind) (h : NoError k) : E k := False.elim h

/-! ### Streams -/

/-- SrcGet moves SRC_POS only. -/
theorem srcGet_change (s : State) : (srcGet s).2 = { s with srcPos := (srcGet s).2.srcPos } := by
  unfold srcGet; split <;> rfl

/-- SrcGet either reads the byte at SRC_POS or meets the end. -/
theorem srcGet_cases (s : State) :
    (s.srcPos < s.srcLen ∧ srcGet s = (some (sourceByte s s.srcPos.toNat), { s with srcPos := s.srcPos + 1 })) ∨
    (¬ s.srcPos < s.srcLen ∧ srcGet s = (none, s)) := by
  unfold srcGet
  by_cases h : s.srcPos < s.srcLen
  · exact .inl ⟨h, if_pos h⟩
  · exact .inr ⟨h, if_neg h⟩

/-- SrcGet32 moves SRC_POS only. -/
theorem srcGet32_change (s : State) : (srcGet32 s).2 = { s with srcPos := (srcGet32 s).2.srcPos } := by
  unfold srcGet32
  obtain ⟨-, h0⟩ | ⟨-, h0⟩ := srcGet_cases s <;> rw [h0]
  dsimp only
  obtain ⟨-, h1⟩ | ⟨-, h1⟩ := srcGet_cases { s with srcPos := s.srcPos + 1 } <;> rw [h1]
  dsimp only
  obtain ⟨-, h2⟩ | ⟨-, h2⟩ := srcGet_cases { s with srcPos := s.srcPos + 1 + 1 } <;> rw [h2]
  dsimp only
  obtain ⟨-, h3⟩ | ⟨-, h3⟩ := srcGet_cases { s with srcPos := s.srcPos + 1 + 1 + 1 } <;> rw [h3]

/-- SnkPut appends one byte. -/
theorem snkPut_sink (b : Byte) (s : State) : SinkChange s (snkPut b s) := ⟨[b], rfl⟩

/-- SnkPut32 appends four bytes. -/
theorem snkPut32_sink (v : Word32) (s : State) : SinkChange s (snkPut32 v s) :=
  sinkChange.trans _ _ _ (sinkChange.trans _ _ _ (sinkChange.trans _ _ _ (snkPut_sink _ _) (snkPut_sink _ _))
    (snkPut_sink _ _)) (snkPut_sink _ _)

/-! ### Stage bodies -/

theorem histTurn_ends (s : State) : Ends HistChange NoError s (histTurn s) := by
  unfold histTurn
  obtain ⟨-, h⟩ | ⟨-, h⟩ := srcGet_cases s <;> rw [h] <;> exact Ends.ok () rfl

theorem bodyHist_ends (s : State) : Ends HistChange (· = .emptyInput) s (bodyHist s) := by
  unfold bodyHist
  split
  · exact Ends.raise rfl (histChange.refl s)
  · refine Ends.after histChange (t := srcRewind { s with hist := Vector.replicate 256 0, totalIn := 0 }) rfl ?_
    exact Ends.whileLoop histChange (fun t => (histTurn_ends t).mono (fun _ _ h => h) NoError.elim) _ _

theorem putEntry_ends (i : Nat) (sym : Byte) (freq : Word32) (s : State) :
    Ends AlphaChange NoError s (putEntry i sym freq s) := by
  unfold putEntry; split
  · exact Ends.ok () rfl
  · trivial

theorem alphaTurn_ends (b : Byte) (s : State) : Ends AlphaChange NoError s (alphaTurn b s) := by
  unfold alphaTurn; split
  · exact Ends.bind alphaChange (putEntry_ends _ _ _ _) (fun _ t => Ends.ok () rfl)
  · exact Ends.ok () rfl

theorem bodyAlpha_ends (s : State) : Ends AlphaChange NoError s (bodyAlpha s) :=
  Ends.after alphaChange (t := { s with k := 0 }) rfl (Ends.forEach alphaChange alphaTurn_ends _ _)

theorem putHeap_ends (i : Nat) (n : Ref) (s : State) : Ends QueueChange NoError s (putHeap i n s) := by
  unfold putHeap; split
  · exact Ends.ok () rfl
  · trivial

theorem heapAt_ends (i : Nat) (s : State) : Ends QueueChange NoError s (heapAt i s) := Ends.fetchWord queueChange _ _ _ _

theorem keyAt_ends (i : Nat) (s : State) : Ends QueueChange NoError s (keyAt i s) :=
  Ends.bind queueChange (heapAt_ends i s) (fun _ _ => Ends.fetchWord queueChange _ _ _ _)

theorem swapHeap_ends (i j : Nat) (s : State) : Ends QueueChange NoError s (swapHeap i j s) :=
  Ends.bind queueChange (heapAt_ends i s) fun _ _ => Ends.bind queueChange (heapAt_ends j _) fun _ _ =>
    Ends.bind queueChange (putHeap_ends _ _ _) fun _ _ => putHeap_ends _ _ _

theorem siftUp_ends (n i : Nat) (s : State) : Ends QueueChange NoError s (siftUp n i s) := by
  induction n generalizing i s with
  | zero => trivial
  | succ n ih =>
    unfold siftUp; split
    · exact Ends.ok () rfl
    · refine Ends.bind queueChange (keyAt_ends _ _) fun ki t => Ends.bind queueChange (keyAt_ends _ _) fun kp u => ?_
      split
      · exact Ends.bind queueChange (swapHeap_ends _ _ _) fun _ _ => ih _ _
      · exact Ends.ok () rfl

theorem pqInsert_ends (n : Ref) (s : State) : Ends QueueChange (· = .invariantViolation) s (pqInsert n s) := by
  unfold pqInsert; split
  · exact Ends.raise rfl rfl
  · refine Ends.bind queueChange ((putHeap_ends _ _ _).mono (fun _ _ h => h) NoError.elim) fun _ t => ?_
    exact Ends.after queueChange (t := { t with heapSize := t.heapSize + 1 }) rfl
      ((siftUp_ends _ _ _).mono (fun _ _ h => h) NoError.elim)

theorem smallerSlot_ends (c m : Nat) (s : State) : Ends QueueChange NoError s (smallerSlot c m s) := by
  unfold smallerSlot; split
  · exact Ends.bind queueChange (keyAt_ends _ _) fun _ _ => Ends.bind queueChange (keyAt_ends _ _) fun _ _ => Ends.ok _ rfl
  · exact Ends.ok _ rfl

theorem siftDown_ends (n i : Nat) (s : State) : Ends QueueChange NoError s (siftDown n i s) := by
  induction n generalizing i s with
  | zero => trivial
  | succ n ih =>
    unfold siftDown
    refine Ends.bind queueChange (smallerSlot_ends _ _ _) fun m t =>
      Ends.bind queueChange (smallerSlot_ends _ _ _) fun m' u => ?_
    split
    · exact Ends.ok () rfl
    · exact Ends.bind queueChange (swapHeap_ends _ _ _) fun _ _ => ih _ _

theorem pqExtractMin_ends (s : State) : Ends QueueChange (· = .invariantViolation) s (pqExtractMin s) := by
  unfold pqExtractMin; split
  · exact Ends.raise rfl rfl
  · refine Ends.mono (R := QueueChange) (E := NoError) ?_ (fun _ _ h => h) NoError.elim
    refine Ends.bind queueChange (heapAt_ends _ _) fun r t => ?_
    refine Ends.after queueChange (t := { t with heapSize := t.heapSize - 1 }) rfl ?_
    dsimp only
    split
    · exact Ends.ok r rfl
    · exact Ends.bind queueChange (heapAt_ends _ _) fun _ _ => Ends.bind queueChange (putHeap_ends _ _ _) fun _ _ =>
        Ends.bind queueChange (siftDown_ends _ _ _) fun _ _ => Ends.ok r rfl

theorem queue_build {s t : State} (h : QueueChange s t) : BuildChange s t := by
  unfold QueueChange at h; unfold BuildChange; rw [h]

theorem putNode_ends (n : Nat) (freq : Freq) (sym : Byte) (l r : Ref) (s : State) :
    Ends BuildChange NoError s (putNode n freq sym l r s) := by
  unfold putNode; split
  · exact Ends.ok () rfl
  · trivial

theorem nodeNewLeaf_ends (sym : Byte) (freq : Word32) (s : State) :
    Ends BuildChange NoError s (nodeNewLeaf sym freq s) :=
  Ends.bind buildChange (putNode_ends _ _ _ _ _ _) fun _ _ => Ends.ok _ rfl

theorem nodeMerge_ends (a b : Ref) (s : State) : Ends BuildChange NoError s (nodeMerge a b s) :=
  Ends.bind buildChange (Ends.fetchWord buildChange _ _ _ _) fun _ _ =>
    Ends.bind buildChange (Ends.fetchWord buildChange _ _ _ _) fun _ _ =>
      Ends.bind buildChange (putNode_ends _ _ _ _ _ _) fun _ _ => Ends.ok _ rfl

theorem loadTurn_ends (i : Nat) (s : State) : Ends BuildChange (· = .invariantViolation) s (loadTurn i s) :=
  Ends.bind buildChange (Ends.fetchWord buildChange _ _ _ _) fun _ _ =>
    Ends.bind buildChange (Ends.fetchWord buildChange _ _ _ _) fun _ _ =>
      Ends.bind buildChange ((nodeNewLeaf_ends _ _ _).mono (fun _ _ h => h) NoError.elim) fun _ _ =>
        (pqInsert_ends _ _).mono (fun _ _ h => queue_build h) (fun _ h => h)

theorem mergeTurn_ends (s : State) : Ends BuildChange (· = .invariantViolation) s (mergeTurn s) :=
  Ends.bind buildChange ((pqExtractMin_ends _).mono (fun _ _ h => queue_build h) (fun _ h => h)) fun _ _ =>
    Ends.bind buildChange ((pqExtractMin_ends _).mono (fun _ _ h => queue_build h) (fun _ h => h)) fun _ _ =>
      Ends.bind buildChange ((nodeMerge_ends _ _ _).mono (fun _ _ h => h) NoError.elim) fun _ _ =>
        (pqInsert_ends _ _).mono (fun _ _ h => queue_build h) (fun _ h => h)

theorem bodyBuild_ends (s : State) : Ends BuildChange (· = .invariantViolation) s (bodyBuild s) := by
  unfold bodyBuild
  refine Ends.bind buildChange ?_ fun _ t => Ends.bind buildChange
    (Ends.whileLoop buildChange mergeTurn_ends _ _) fun _ u =>
      Ends.bind buildChange (Ends.fetchWord buildChange _ _ _ _) fun _ _ => Ends.ok () rfl
  exact Ends.after buildChange (t := { pqClear s with nodeCnt := 0, root := Config.nil }) rfl
    (Ends.forEach buildChange loadTurn_ends _ _)

theorem isLeaf_ends (n : Ref) (s : State) : Ends CodeChange NoError s (isLeaf n s) :=
  Ends.bind codeChange (Ends.fetchWord codeChange _ _ _ _) fun _ _ =>
    Ends.bind codeChange (Ends.fetchWord codeChange _ _ _ _) fun _ _ => Ends.ok _ rfl

theorem walk_ends (n : Nat) (r : Ref) (path : List Bool) (s : State) : Ends CodeChange NoError s (walk n r path s) := by
  induction n generalizing r path s with
  | zero => trivial
  | succ n ih =>
    unfold walk
    refine Ends.bind codeChange (isLeaf_ends _ _) fun leaf t => ?_
    split
    · exact Ends.bind codeChange (Ends.fetchWord codeChange _ _ _ _) fun _ _ => Ends.ok () rfl
    · exact Ends.bind codeChange (Ends.fetchWord codeChange _ _ _ _) fun _ _ => Ends.bind codeChange (ih _ _ _) fun _ _ =>
        Ends.bind codeChange (Ends.fetchWord codeChange _ _ _ _) fun _ _ => ih _ _ _

theorem bodyCodegen_ends (s : State) : Ends CodeChange NoError s (bodyCodegen s) := by
  unfold bodyCodegen
  refine Ends.after codeChange
    (t := { s with codeLen := Vector.replicate 256 0, codeBits := Vector.replicate 256 0 }) rfl ?_
  refine Ends.bind codeChange (isLeaf_ends _ _) fun leaf t => ?_
  split
  · exact Ends.bind codeChange (Ends.fetchWord codeChange _ _ _ _) fun _ _ => Ends.ok () rfl
  · exact walk_ends _ _ _ _

theorem bodyWrhdr_ends (s : State) : Ends SinkChange NoError s (bodyWrhdr s) := by
  unfold bodyWrhdr
  refine Ends.after sinkChange (snkPut32_sink _ _) (Ends.forEach sinkChange (fun i s => ?_) _ _)
  exact Ends.bind sinkChange (Ends.fetchWord sinkChange _ _ _ _) fun _ _ =>
    Ends.bind sinkChange (Ends.fetchWord sinkChange _ _ _ _) fun _ _ =>
      Ends.ok () (sinkChange.trans _ _ _ (snkPut_sink _ _) (snkPut32_sink _ _))

/-- PUTBIT changes the bit buffer and may append a byte. -/
theorem putBit_change (v : Bool) (s : State) : PackChange s (putBit v s) := by
  unfold putBit
  by_cases h : s.bitCnt = 7#3
  · simp only [h, if_true]; exact ⟨[_], rfl⟩
  · simp only [h, if_false]; exact ⟨[], by simp⟩

/-- FLUSH empties the bit buffer and may append a byte. -/
theorem flushBits_change (s : State) : PackChange s (flushBits s) := by
  unfold flushBits
  split
  · exact ⟨[_], rfl⟩
  · exact packChange.refl s

theorem packTurn_ends (s : State) : Ends PackChange (· = .invariantViolation) s (packTurn s) := by
  unfold packTurn
  have hr : ∀ p : Word32, PackChange s { s with srcPos := p } := fun p => ⟨[], by simp⟩
  obtain ⟨-, h⟩ | ⟨-, h⟩ := srcGet_cases s <;> rw [h] <;> dsimp only
  · split
    · exact Ends.raise rfl (hr _)
    · exact Ends.after packChange (hr _) (Ends.forEach packChange (fun _ _ => Ends.ok () (putBit_change _ _)) _ _)
  · exact Ends.ok () (packChange.refl s)

theorem bodyPack_ends (s : State) : Ends PackChange (· = .invariantViolation) s (bodyPack s) := by
  unfold bodyPack
  refine Ends.bind packChange ?_ fun _ t => Ends.ok () (flushBits_change t)
  exact Ends.after packChange (t := srcRewind { s with bitBuf := 0, bitCnt := 0 })
    ⟨[], by simp [srcRewind]⟩
    (Ends.whileLoop packChange packTurn_ends _ _)

theorem entryTurn_ends (i : Nat) (s : State) : Ends RdhdrChange (· = .corruptHeader) s (entryTurn i s) := by
  unfold entryTurn
  obtain ⟨-, h⟩ | ⟨-, h⟩ := srcGet_cases s <;> rw [h] <;> dsimp only
  · have hc := srcGet32_change { s with srcPos := s.srcPos + 1 }
    cases hg : srcGet32 { s with srcPos := s.srcPos + 1 } with
    | mk o t =>
      rw [hg] at hc
      have ht : RdhdrChange s t := by unfold RdhdrChange; dsimp only at hc; rw [hc]
      cases o with
      | none => exact Ends.raise rfl ht
      | some freq =>
        exact Ends.after rdhdrChange ht ((putEntry_ends _ _ _ _).mono
          (fun _ _ h => by unfold AlphaChange at h; unfold RdhdrChange; rw [h]) NoError.elim)
  · exact Ends.raise rfl rfl

theorem bodyRdhdr_ends (s : State) : Ends RdhdrChange (· = .corruptHeader) s (bodyRdhdr s) := by
  unfold bodyRdhdr
  have hc := srcGet32_change (srcRewind s)
  cases hg : srcGet32 (srcRewind s) with
  | mk o t =>
    rw [hg] at hc
    have ht : RdhdrChange s t := by unfold RdhdrChange; dsimp only at hc; rw [hc]; rfl
    cases o with
    | none => exact Ends.raise rfl ht
    | some k =>
      dsimp only
      split
      · exact Ends.raise rfl ht
      · refine Ends.after rdhdrChange (rdhdrChange.trans _ _ { t with k := k.extractLsb' 0 9 } ht rfl) ?_
        exact Ends.forEach rdhdrChange entryTurn_ends _ _

theorem emitLeaf_ends (n : Ref) (s : State) : Ends DecodeChange NoError s (emitLeaf n s) :=
  Ends.bind decodeChange (Ends.fetchWord decodeChange _ _ _ _) fun sym _ => Ends.ok () ⟨[sym], rfl⟩

theorem isLeaf_decode (n : Ref) (s : State) {E : ErrKind → Prop} : Ends DecodeChange E s (isLeaf n s) :=
  Ends.bind decodeChange (Ends.fetchWord decodeChange _ _ _ _) fun _ _ =>
    Ends.bind decodeChange (Ends.fetchWord decodeChange _ _ _ _) fun _ _ => Ends.ok _ (decodeChange.refl _)

theorem bitStep_ends (v : Bool) (s : State) : Ends DecodeChange (· = .corruptStream) s (bitStep v s) := by
  unfold bitStep
  refine Ends.bind decodeChange (isLeaf_decode _ _) fun leaf t => ?_
  split
  · unfold bitStepLeaf; split
    · exact Ends.raise rfl (decodeChange.refl t)
    · exact Ends.bind decodeChange (Ends.fetchWord decodeChange _ _ _ _) fun sym _ => Ends.ok () ⟨[sym], rfl⟩
  · unfold bitStepInner
    refine Ends.bind decodeChange ?_ fun child u => ?_
    · split <;> exact Ends.fetchWord decodeChange _ _ _ _
    · split
      · exact Ends.raise rfl (decodeChange.refl u)
      · refine Ends.after decodeChange (t := { u with cursor := child }) ⟨[], by simp⟩ ?_
        refine Ends.bind decodeChange (isLeaf_decode _ _) fun leaf w => ?_
        split
        · exact (emitLeaf_ends _ _).mono (fun _ _ h => h) NoError.elim
        · exact Ends.ok () (decodeChange.refl w)

theorem decodeTurn_ends (s : State) :
    Ends DecodeChange (fun k => k = .corruptStream ∨ k = .unexpectedEOF) s (decodeTurn s) := by
  unfold decodeTurn
  obtain ⟨-, h⟩ | ⟨-, h⟩ := srcGet_cases s <;> rw [h] <;> dsimp only
  · refine Ends.after decodeChange (t := { s with srcPos := s.srcPos + 1 }) ⟨[], by simp⟩ ?_
    refine Ends.forEach decodeChange (fun j t => ?_) _ _
    unfold bitTurn; split
    · exact Ends.ok () (decodeChange.refl t)
    · exact (bitStep_ends _ _).mono (fun _ _ h => h) (fun _ h => .inl h)
  · exact Ends.raise (.inr rfl) (decodeChange.refl s)

theorem bodyDecode_ends (s : State) :
    Ends DecodeChange (fun k => k = .corruptStream ∨ k = .unexpectedEOF) s (bodyDecode s) := by
  unfold bodyDecode
  refine Ends.bind decodeChange ?_ fun _ t => ?_
  · refine Ends.after decodeChange (t := { s with totalSym := 0 }) ⟨[], by simp⟩ ?_
    refine Ends.forEach decodeChange (fun i u => ?_) _ _
    exact Ends.bind decodeChange (Ends.fetchWord decodeChange _ _ _ _) fun _ _ => Ends.ok () ⟨[], by simp⟩
  · exact Ends.after decodeChange (t := { t with decCnt := 0, cursor := t.root }) ⟨[], by simp⟩
      (Ends.whileLoop decodeChange decodeTurn_ends _ _)

end Sys2Proof.Machine
end

