-- ==== Sys2Proof/Laws/Queue.lean ====
section
/-! SUPPORT. The priority queue as a function of lists: the four unit operations of 42_priority_queue.md refine functions of
the key and of the list of references in the heap, and those functions keep the heap order. -/

namespace Sys2Proof.Machine

/-! ### The queue over lists -/

/-- The reference in slot `i`. -/
def slotL (l : List Ref) (i : Nat) : Ref := l[i]?.getD 0

/-- The list with slots `i` and `j` exchanged. -/
def swapL (l : List Ref) (i j : Nat) : List Ref := (l.set i (slotL l j)).set j (slotL l i)

/-- The loop of PQ_INSERT. -/
def siftUpL (key : Ref → Nat) : Nat → Nat → List Ref → List Ref
  | 0, _, l => l
  | b + 1, i, l =>
    if i = 0 then l
    else if key (slotL l i) < key (slotL l ((i - 1) / 2)) then siftUpL key b ((i - 1) / 2) (swapL l i ((i - 1) / 2))
    else l

/-- The smaller of slot `m` and its candidate `c`. -/
def smallerL (key : Ref → Nat) (l : List Ref) (c m : Nat) : Nat :=
  if c < l.length then if key (slotL l c) < key (slotL l m) then c else m else m

/-- The slot that an entry at `i` sinks to, or `i`. -/
def sinkL (key : Ref → Nat) (l : List Ref) (i : Nat) : Nat :=
  smallerL key l (2 * i + 2) (smallerL key l (2 * i + 1) i)

/-- The loop of PQ_EXTRACT_MIN. -/
def siftDownL (key : Ref → Nat) : Nat → Nat → List Ref → List Ref
  | 0, _, l => l
  | b + 1, i, l => if sinkL key l i = i then l else siftDownL key b (sinkL key l i) (swapL l i (sinkL key l i))

/-- PQ_INSERT(n). -/
def insertL (key : Ref → Nat) (l : List Ref) (n : Ref) : List Ref := siftUpL key (l.length + 1) l.length (l ++ [n])

/-- What PQ_EXTRACT_MIN leaves. -/
def extractL (key : Ref → Nat) (l : List Ref) : List Ref :=
  if l.length ≤ 1 then []
  else siftDownL key (l.length - 1) 0 ((l.take (l.length - 1)).set 0 (slotL l (l.length - 1)))

/-- A parent's key is at most its children's (42_priority_queue.md R154). -/
def OrderL (key : Ref → Nat) (l : List Ref) : Prop :=
  ∀ i, i < l.length → 0 < i → key (slotL l ((i - 1) / 2)) ≤ key (slotL l i)

/-! ### Slots and exchanges -/

theorem slotL_eq {l : List Ref} {i : Nat} (h : i < l.length) : slotL l i = l[i] := by
  unfold slotL; rw [List.getElem?_eq_getElem h]; rfl

theorem slotL_mem {l : List Ref} {i : Nat} (h : i < l.length) : slotL l i ∈ l := by
  rw [slotL_eq h]; exact List.getElem_mem h

@[simp] theorem swapL_length (l : List Ref) (i j : Nat) : (swapL l i j).length = l.length := by simp [swapL]

theorem slotL_swapL {l : List Ref} {i j n : Nat} (hi : i < l.length) (hj : j < l.length) :
    slotL (swapL l i j) n = if n = i then slotL l j else if n = j then slotL l i else slotL l n := by
  unfold swapL
  show ((l.set i (slotL l j)).set j (slotL l i))[n]?.getD 0 = _
  rw [List.getElem?_set, List.getElem?_set, List.length_set]
  by_cases hnj : j = n
  · subst hnj
    by_cases hji : j = i
    · subst hji; simp [hj]
    · simp [hj, hji]
  · by_cases hni : i = n
    · subst hni; simp [hnj, hi]
    · have h1 : ¬ n = i := fun h => hni h.symm
      have h2 : ¬ n = j := fun h => hnj h.symm
      simp only [if_neg hnj, if_neg hni, if_neg h1, if_neg h2]; rfl

theorem swapL_perm {l : List Ref} {i j : Nat} (hi : i < l.length) (hj : j < l.length) : (swapL l i j).Perm l := by
  unfold swapL
  rw [slotL_eq hi, slotL_eq hj]
  exact List.set_set_perm hi hj

/-! ### Sifting up keeps the order -/

/-- The order, but for slot `i`, whose children may be compared with its parent. -/
structure OrderBut (key : Ref → Nat) (l : List Ref) (i : Nat) : Prop where
  others : ∀ j, j < l.length → 0 < j → j ≠ i → key (slotL l ((j - 1) / 2)) ≤ key (slotL l j)
  around : ∀ j, j < l.length → 0 < j → 0 < i → (j - 1) / 2 = i → key (slotL l ((i - 1) / 2)) ≤ key (slotL l j)

theorem siftUpL_perm (key : Ref → Nat) (b : Nat) : ∀ (i : Nat) (l : List Ref), i < l.length →
    (siftUpL key b i l).Perm l := by
  induction b with
  | zero => intro i l _; exact List.Perm.refl _
  | succ b ih =>
    intro i l hi
    unfold siftUpL
    split
    · exact List.Perm.refl _
    · split
      · have hp : (i - 1) / 2 < l.length := by omega
        exact (ih _ _ (by simpa using hp)).trans (swapL_perm hi hp)
      · exact List.Perm.refl _

theorem siftUpL_order (key : Ref → Nat) (b : Nat) : ∀ (i : Nat) (l : List Ref), i < l.length → i < b →
    OrderBut key l i → OrderL key (siftUpL key b i l) := by
  induction b with
  | zero => intro i l _ h; omega
  | succ b ih =>
    intro i l hi hb h
    unfold siftUpL
    split
    · subst_vars
      exact fun j hj h0 => h.others j hj h0 (by omega)
    · rename_i hi0
      have hp : (i - 1) / 2 < l.length := by omega
      split
      · rename_i hlt
        refine ih _ _ (by simpa using hp) (by omega) ⟨fun j hj h0 hne => ?_, fun j hj h0 hpp hpar => ?_⟩
        · rw [swapL_length] at hj
          rw [slotL_swapL hi hp, slotL_swapL hi hp]
          by_cases hji : j = i
          · subst hji
            rw [if_neg (by omega), if_pos rfl, if_pos rfl]
            omega
          · rw [if_neg hji, if_neg hne]
            by_cases hpi : (j - 1) / 2 = i
            · rw [if_pos hpi]
              exact h.around j hj h0 (by omega) hpi
            · rw [if_neg hpi]
              by_cases hpp : (j - 1) / 2 = (i - 1) / 2
              · rw [if_pos hpp]
                have := h.others j hj h0 hji
                rw [hpp] at this; omega
              · rw [if_neg hpp]
                exact h.others j hj h0 hji
        · rw [swapL_length] at hj
          rw [slotL_swapL hi hp, slotL_swapL hi hp]
          have hgp := h.others ((i - 1) / 2) hp hpp (by omega)
          rw [if_neg (by omega), if_neg (by omega)]
          by_cases hji : j = i
          · rw [if_pos hji]; exact hgp
          · rw [if_neg hji, if_neg (by omega)]
            have := h.others j hj h0 hji
            rw [hpar] at this; omega
      · rename_i hge
        intro j hj h0
        by_cases hji : j = i
        · subst hji; omega
        · exact h.others j hj h0 hji

theorem insertL_perm (key : Ref → Nat) (l : List Ref) (n : Ref) : (insertL key l n).Perm (n :: l) :=
  (siftUpL_perm key _ _ _ (by simp)).trans (List.perm_append_singleton n l)

theorem insertL_order {key : Ref → Nat} {l : List Ref} (h : OrderL key l) (n : Ref) : OrderL key (insertL key l n) := by
  refine siftUpL_order key _ _ _ (by simp) (by omega) ⟨fun j hj h0 hne => ?_, fun j hj h0 _ hpar => ?_⟩
  · simp only [List.length_append, List.length_singleton] at hj
    have hs : ∀ k, k < l.length → slotL (l ++ [n]) k = slotL l k := fun k hk => by
      unfold slotL; rw [List.getElem?_append_left hk]
    rw [hs j (by omega), hs _ (by omega)]
    exact h j (by omega) h0
  · simp only [List.length_append, List.length_singleton] at hj
    omega

/-! ### Sifting down keeps the order -/

/-- The order, but for the children of slot `i`, which may be compared with its parent. -/
structure OrderBelow (key : Ref → Nat) (l : List Ref) (i : Nat) : Prop where
  others : ∀ j, j < l.length → 0 < j → (j - 1) / 2 ≠ i → key (slotL l ((j - 1) / 2)) ≤ key (slotL l j)
  around : ∀ j, j < l.length → 0 < j → 0 < i → (j - 1) / 2 = i → key (slotL l ((i - 1) / 2)) ≤ key (slotL l j)

theorem smallerL_cases (key : Ref → Nat) (l : List Ref) (c m : Nat) :
    (smallerL key l c m = c ∧ c < l.length ∧ key (slotL l c) < key (slotL l m)) ∨
    (smallerL key l c m = m ∧ (c < l.length → key (slotL l m) ≤ key (slotL l c))) := by
  unfold smallerL
  by_cases hc : c < l.length
  · by_cases hk : key (slotL l c) < key (slotL l m)
    · exact .inl ⟨by rw [if_pos hc, if_pos hk], hc, hk⟩
    · exact .inr ⟨by rw [if_pos hc, if_neg hk], fun _ => by omega⟩
  · exact .inr ⟨by rw [if_neg hc], fun h => absurd h hc⟩

/-- Where an entry sinks to: a child with the least key, strictly less than the entry's, or nowhere. -/
theorem sinkL_cases (key : Ref → Nat) (l : List Ref) (i : Nat) :
    (sinkL key l i = i ∧ ∀ j, j < l.length → 0 < j → (j - 1) / 2 = i → key (slotL l i) ≤ key (slotL l j)) ∨
    (0 < sinkL key l i ∧ sinkL key l i < l.length ∧ (sinkL key l i - 1) / 2 = i ∧ i < sinkL key l i ∧
      key (slotL l (sinkL key l i)) < key (slotL l i) ∧
      ∀ j, j < l.length → 0 < j → (j - 1) / 2 = i → key (slotL l (sinkL key l i)) ≤ key (slotL l j)) := by
  have child : ∀ j, 0 < j → (j - 1) / 2 = i → j = 2 * i + 1 ∨ j = 2 * i + 2 := fun j h0 h => by omega
  unfold sinkL
  obtain ⟨e1, h1, k1⟩ | ⟨e1, k1⟩ := smallerL_cases key l (2 * i + 1) i <;> rw [e1]
  · obtain ⟨e2, h2, k2⟩ | ⟨e2, k2⟩ := smallerL_cases key l (2 * i + 2) (2 * i + 1) <;> rw [e2]
    · refine .inr ⟨by omega, h2, by omega, by omega, by omega, fun j hj h0 hp => ?_⟩
      obtain rfl | rfl := child j h0 hp <;> omega
    · refine .inr ⟨by omega, h1, by omega, by omega, by omega, fun j hj h0 hp => ?_⟩
      obtain rfl | rfl := child j h0 hp
      · omega
      · exact k2 hj
  · obtain ⟨e2, h2, k2⟩ | ⟨e2, k2⟩ := smallerL_cases key l (2 * i + 2) i <;> rw [e2]
    · refine .inr ⟨by omega, h2, by omega, by omega, by omega, fun j hj h0 hp => ?_⟩
      obtain rfl | rfl := child j h0 hp
      · have := k1 hj; omega
      · omega
    · refine .inl ⟨rfl, fun j hj h0 hp => ?_⟩
      obtain rfl | rfl := child j h0 hp
      · exact k1 hj
      · exact k2 hj

theorem siftDownL_perm (key : Ref → Nat) (b : Nat) : ∀ (i : Nat) (l : List Ref), i < l.length →
    (siftDownL key b i l).Perm l := by
  induction b with
  | zero => intro i l _; exact List.Perm.refl _
  | succ b ih =>
    intro i l hi
    unfold siftDownL
    split
    · exact List.Perm.refl _
    · rename_i hne
      obtain ⟨e, -⟩ | ⟨-, hm, -⟩ := sinkL_cases key l i
      · exact absurd e hne
      · exact (ih _ _ (by simpa using hm)).trans (swapL_perm hi hm)

theorem siftDownL_order (key : Ref → Nat) (b : Nat) : ∀ (i : Nat) (l : List Ref), i < l.length → l.length ≤ b + i →
    OrderBelow key l i → OrderL key (siftDownL key b i l) := by
  induction b with
  | zero => intro i l hi hb; omega
  | succ b ih =>
    intro i l hi hb h
    unfold siftDownL
    obtain ⟨e, hle⟩ | ⟨h0, hm, hpar, him, hlt, hmin⟩ := sinkL_cases key l i
    · rw [if_pos e]
      intro j hj hj0
      by_cases hp : (j - 1) / 2 = i
      · rw [hp]; exact hle j hj hj0 hp
      · exact h.others j hj hj0 hp
    · rw [if_neg (by omega)]
      generalize sinkL key l i = m at *
      refine ih _ _ (by simpa using hm) (by rw [swapL_length]; omega)
        ⟨fun j hj hj0 hp => ?_, fun j hj hj0 _ hp => ?_⟩
      · rw [swapL_length] at hj
        rw [slotL_swapL hi hm, slotL_swapL hi hm]
        by_cases hjm : j = m
        · subst hjm
          rw [if_pos hpar, if_neg (by omega), if_pos rfl]; omega
        · by_cases hpi : (j - 1) / 2 = i
          · rw [if_pos hpi, if_neg (by omega), if_neg hjm]
            exact hmin j hj hj0 hpi
          · rw [if_neg hpi, if_neg hp]
            by_cases hji : j = i
            · rw [if_pos hji]
              have := h.around m hm h0 (by omega) hpar
              rw [hji]; exact this
            · rw [if_neg hji, if_neg hjm]
              exact h.others j hj hj0 hpi
      · rw [swapL_length] at hj
        rw [slotL_swapL hi hm, slotL_swapL hi hm, hpar, if_pos rfl, if_neg (by omega), if_neg (by omega)]
        have := h.others j hj hj0 (by omega)
        rw [hp] at this; exact this

theorem extractL_perm (key : Ref → Nat) {l : List Ref} (h : 0 < l.length) :
    (slotL l 0 :: extractL key l).Perm l := by
  unfold extractL
  split
  · match l, h with
    | [a], _ => exact List.Perm.refl _
    | a :: b :: l, _ => rename_i h1; simp at h1
  · rename_i h1
    match l, h with
    | a :: l, _ =>
      have hne : l ≠ [] := by intro e; subst e; simp at h1
      have hlast : slotL (a :: l) ((a :: l).length - 1) = l.getLast hne := by
        rw [slotL_eq (by simp)]
        simp only [List.length_cons, Nat.add_sub_cancel]
        have : 0 < l.length := List.length_pos_iff.mpr hne
        rw [List.getElem_cons, dif_neg (by omega), List.getLast_eq_getElem]
      have htake : ((a :: l).take ((a :: l).length - 1)).set 0 (l.getLast hne) = l.getLast hne :: l.dropLast := by
        have h2 : 0 < l.length := List.length_pos_iff.mpr hne
        have : (a :: l).length - 1 = (l.length - 1) + 1 := by simp; omega
        rw [this, List.take_succ_cons, List.set_cons_zero, List.dropLast_eq_take]
      have hperm : (l.getLast hne :: l.dropLast).Perm l := by
        have := List.perm_append_singleton (l.getLast hne) l.dropLast
        rw [List.dropLast_concat_getLast] at this
        exact this.symm
      rw [hlast, htake]
      refine List.Perm.cons _ ((siftDownL_perm key _ _ _ (by simp)).trans hperm)

theorem extractL_order {key : Ref → Nat} {l : List Ref} (h : OrderL key l) : OrderL key (extractL key l) := by
  unfold extractL
  split
  · intro i hi; simp at hi
  · rename_i h1
    have hlen : ((l.take (l.length - 1)).set 0 (slotL l (l.length - 1))).length = l.length - 1 := by simp
    have hs : ∀ k, 0 < k → k < l.length - 1 →
        slotL ((l.take (l.length - 1)).set 0 (slotL l (l.length - 1))) k = slotL l k := fun k h0 hk => by
      unfold slotL
      rw [List.getElem?_set_ne (by omega), List.getElem?_take_of_lt hk]
    refine siftDownL_order key _ _ _ (by omega) (by omega) ⟨fun j hj h0 hp => ?_, fun j hj h0 hi _ => by omega⟩
    rw [hlen] at hj
    rw [hs j h0 hj, hs _ (by omega) (by omega)]
    exact h j (by omega) h0

/-- The first slot has the least key. -/
theorem orderL_min {key : Ref → Nat} {l : List Ref} (h : OrderL key l) : ∀ i, i < l.length →
    key (slotL l 0) ≤ key (slotL l i) := by
  intro i
  induction i using Nat.strongRecOn with
  | ind i ih =>
    intro hi
    by_cases h0 : i = 0
    · subst h0; exact Nat.le_refl _
    · exact (ih ((i - 1) / 2) (by omega) (by omega)).trans (h i hi (by omega))

theorem orderL_min_mem {key : Ref → Nat} {l : List Ref} (h : OrderL key l) {m : Ref} (hm : m ∈ l) :
    key (slotL l 0) ≤ key m := by
  obtain ⟨i, hi, rfl⟩ := List.getElem_of_mem hm
  rw [← slotL_eq hi]
  exact orderL_min h i hi

/-! ### Which entries move: the tie-break (42_priority_queue.md R155) -/

/-- Sifting up moves past strictly greater entries only. -/
theorem siftUpL_stays (key : Ref → Nat) (b : Nat) : ∀ (i : Nat) (l : List Ref), i < l.length → ∀ j, j ≠ i →
    key (slotL l j) ≤ key (slotL l i) → slotL (siftUpL key b i l) j = slotL l j := by
  induction b with
  | zero => intro i l _ j _ _; rfl
  | succ b ih =>
    intro i l hi j hj hk
    unfold siftUpL
    split
    · rfl
    · split
      · rename_i hlt
        have hp : (i - 1) / 2 < l.length := by omega
        have hjp : j ≠ (i - 1) / 2 := fun e => by rw [← e] at hlt; omega
        have hs : slotL (swapL l i ((i - 1) / 2)) j = slotL l j := by
          rw [slotL_swapL hi hp, if_neg hj, if_neg hjp]
        have hx : slotL (swapL l i ((i - 1) / 2)) ((i - 1) / 2) = slotL l i := by
          rw [slotL_swapL hi hp, if_neg (by omega), if_pos rfl]
        rw [ih _ _ (by simpa using hp) j hjp (by rw [hs, hx]; exact hk), hs]
      · rfl

/-- Sifting down from slot `i` touches only slot `i` and slots whose parent is `i` or below it. -/
theorem siftDownL_above (key : Ref → Nat) (b : Nat) : ∀ (i : Nat) (l : List Ref), i < l.length → ∀ c, c ≠ i →
    (c - 1) / 2 < i ∨ c = 0 → slotL (siftDownL key b i l) c = slotL l c := by
  induction b with
  | zero => intro i l _ c _ _; rfl
  | succ b ih =>
    intro i l hi c hc hp
    unfold siftDownL
    obtain ⟨e, -⟩ | ⟨h0, hm, hpar, him, -, -⟩ := sinkL_cases key l i
    · rw [if_pos e]
    · rw [if_neg (by omega)]
      generalize sinkL key l i = m at *
      rw [ih _ _ (by simpa using hm) c (by omega) (by omega), slotL_swapL hi hm, if_neg hc, if_neg (by omega)]

/-- An entry of at least the sinking entry's key does not move. -/
theorem siftDownL_stays (key : Ref → Nat) (b : Nat) : ∀ (i : Nat) (l : List Ref), i < l.length → ∀ c, c ≠ i →
    key (slotL l i) ≤ key (slotL l c) → slotL (siftDownL key b i l) c = slotL l c := by
  induction b with
  | zero => intro i l _ c _ _; rfl
  | succ b ih =>
    intro i l hi c hc hk
    unfold siftDownL
    obtain ⟨e, -⟩ | ⟨h0, hm, hpar, him, hlt, -⟩ := sinkL_cases key l i
    · rw [if_pos e]
    · rw [if_neg (by omega)]
      generalize sinkL key l i = m at *
      have hcm : c ≠ m := fun e => by rw [← e] at hlt; omega
      have hs : slotL (swapL l i m) c = slotL l c := by rw [slotL_swapL hi hm, if_neg hc, if_neg hcm]
      have hx : slotL (swapL l i m) m = slotL l i := by rw [slotL_swapL hi hm, if_neg (by omega), if_pos rfl]
      rw [ih _ _ (by simpa using hm) c hcm (by rw [hs, hx]; exact hk), hs]

/-- Of two siblings, the right one of two equal keys, or the one of greater key, does not move. -/
theorem siftDownL_sibling (key : Ref → Nat) {p c : Nat} (b : Nat) : ∀ (i : Nat) (l : List Ref), i < l.length → i ≤ p →
    2 * p + 2 < l.length →
    (c = 2 * p + 2 ∧ key (slotL l (2 * p + 1)) ≤ key (slotL l (2 * p + 2)) ∨
      c = 2 * p + 1 ∧ key (slotL l (2 * p + 2)) < key (slotL l (2 * p + 1))) →
    slotL (siftDownL key b i l) c = slotL l c := by
  induction b with
  | zero => intro i l _ _ _ _; rfl
  | succ b ih =>
    intro i l hi hip hlen hc
    have hsink := sinkL_cases key l i
    unfold siftDownL
    by_cases e : sinkL key l i = i
    · rw [if_pos e]
    · rw [if_neg e]
      obtain ⟨h, -⟩ | ⟨h0, hm, hpar, him, hlt, hmin⟩ := hsink
      · exact absurd h e
      by_cases hpi : p = i
      · subst hpi
        have hcm : c ≠ sinkL key l p := by
          intro h
          rcases hc with ⟨rfl, hk⟩ | ⟨rfl, hk⟩
          · unfold sinkL at h hlt
            obtain ⟨e1, h1, k1⟩ | ⟨e1, k1⟩ := smallerL_cases key l (2 * p + 1) p <;> rw [e1] at h hlt
            · obtain ⟨e2, h2, k2⟩ | ⟨e2, k2⟩ := smallerL_cases key l (2 * p + 2) (2 * p + 1)
              · omega
              · rw [e2] at h; omega
            · have := k1 (by omega)
              obtain ⟨e2, h2, k2⟩ | ⟨e2, k2⟩ := smallerL_cases key l (2 * p + 2) p
              · omega
              · rw [e2] at h; omega
          · have := hmin (2 * p + 2) hlen (by omega) (by omega)
            rw [← h] at this; omega
        generalize sinkL key l p = m at *
        have hs : slotL (swapL l p m) c = slotL l c := by
          rw [slotL_swapL hi hm, if_neg (by omega), if_neg hcm]
        rw [siftDownL_above key b m _ (by simpa using hm) c hcm (by omega), hs]
      · generalize sinkL key l i = m at *
        have hs : ∀ d, d = 2 * p + 1 ∨ d = 2 * p + 2 → slotL (swapL l i m) d = slotL l d := fun d hd => by
          rw [slotL_swapL hi hm, if_neg (by omega), if_neg (by omega)]
        have hsc : slotL (swapL l i m) c = slotL l c := hs c (by omega)
        by_cases hmp : m ≤ p
        · rw [ih m _ (by simpa using hm) hmp (by simpa using hlen) (by rw [hs _ (.inl rfl), hs _ (.inr rfl)]; exact hc), hsc]
        · rw [siftDownL_above key b m _ (by simpa using hm) c (by omega) (by omega), hsc]

/-- What PQ_INSERT leaves in place. -/
theorem insertL_stays (key : Ref → Nat) (l : List Ref) (n : Ref) {j : Nat} (hj : j < l.length)
    (hk : key (slotL l j) ≤ key n) : slotL (insertL key l n) j = slotL l j := by
  have hs : slotL (l ++ [n]) j = slotL l j := by unfold slotL; rw [List.getElem?_append_left hj]
  have hn : slotL (l ++ [n]) l.length = n := by unfold slotL; simp
  unfold insertL
  rw [siftUpL_stays key _ _ _ (by simp) j (by omega) (by rw [hs, hn]; exact hk), hs]

/-- Below a parent of at most its key the new node stays in the last slot. -/
theorem insertL_last (key : Ref → Nat) (l : List Ref) (n : Ref)
    (hk : 0 < l.length → key (slotL l ((l.length - 1) / 2)) ≤ key n) : insertL key l n = l ++ [n] := by
  unfold insertL siftUpL
  split
  · rfl
  · have hs : slotL (l ++ [n]) ((l.length - 1) / 2) = slotL l ((l.length - 1) / 2) := by
      unfold slotL; rw [List.getElem?_append_left (by omega)]
    have hn : slotL (l ++ [n]) l.length = n := by unfold slotL; simp
    rw [hs, hn, if_neg (by have := hk (by omega); omega)]

/-- What PQ_EXTRACT_MIN leaves in place. -/
theorem extractL_stays (key : Ref → Nat) (l : List Ref) {c : Nat} (h0 : 0 < c) (hc : c + 1 < l.length)
    (h : key (slotL l (l.length - 1)) ≤ key (slotL l c) ∨
      (∃ p, c = 2 * p + 2 ∧ key (slotL l (2 * p + 1)) ≤ key (slotL l c)) ∨
      ∃ p, c = 2 * p + 1 ∧ 2 * p + 3 < l.length ∧ key (slotL l (2 * p + 2)) < key (slotL l c)) :
    slotL (extractL key l) c = slotL l c := by
  have cut : ∀ d, 0 < d → d + 1 < l.length →
      slotL ((l.take (l.length - 1)).set 0 (slotL l (l.length - 1))) d = slotL l d := fun d hd hd' => by
    unfold slotL
    rw [List.getElem?_set_ne (by omega), List.getElem?_take, if_pos (by omega)]
  have hroot : slotL ((l.take (l.length - 1)).set 0 (slotL l (l.length - 1))) 0 = slotL l (l.length - 1) := by
    conv_lhs => unfold slotL
    rw [List.getElem?_set_self (by rw [List.length_take]; omega)]; rfl
  have hlen : ((l.take (l.length - 1)).set 0 (slotL l (l.length - 1))).length = l.length - 1 := by
    rw [List.length_set, List.length_take]; omega
  unfold extractL
  rw [if_neg (by omega), ← cut c h0 hc]
  rcases h with h | ⟨p, rfl, h⟩ | ⟨p, rfl, hp, h⟩
  · exact siftDownL_stays key _ _ _ (by omega) c (by omega) (by rw [hroot, cut c h0 hc]; exact h)
  · exact siftDownL_sibling key _ _ _ (by omega) (Nat.zero_le p) (by omega)
      (.inl ⟨rfl, by rw [cut _ (by omega) (by omega), cut _ h0 hc]; exact h⟩)
  · exact siftDownL_sibling key _ _ _ (by omega) (Nat.zero_le p) (by omega)
      (.inr ⟨rfl, by rw [cut _ (by omega) (by omega), cut _ h0 hc]; exact h⟩)

end Sys2Proof.Machine
end

