-- ==== Sys2Proof/Laws/QueueOps.lean ====
section
/-! SUPPORT. The unit operations of the priority queue are the functions of Laws/Queue.lean (42_priority_queue.md R150 to
R153). -/

namespace Sys2Proof.Machine

/-- The heap holds this list of references, and every one is the index of a NODE word. -/
structure HeapIs (s : State) (l : List Ref) : Prop where
  list : heapList s = l
  size : s.heapSize.toNat = l.length
  room : l.length ≤ 256
  refs : ∀ n ∈ l, n.toNat < 511

theorem heapList_length {s : State} (h : s.heapSize.toNat ≤ 256) : (heapList s).length = s.heapSize.toNat := by
  unfold heapList
  rw [List.length_take, Vector.length_toList]; omega

theorem heapIs_of {s : State} (h : s.heapSize.toNat ≤ 256) (hr : ∀ n ∈ heapList s, n.toNat < 511) :
    HeapIs s (heapList s) := ⟨rfl, (heapList_length h).symm, by rw [heapList_length h]; exact h, hr⟩

theorem keyOf_congr {s t : State} (h : t.nodeFreq = s.nodeFreq) : keyOf t = keyOf s := by
  funext n; unfold keyOf; rw [h]

/-- A step of the queue: only HEAP and HEAP_SIZE change, and the heap then holds `l`. -/
structure QueueStep (s t : State) (l : List Ref) : Prop where
  change : QueueChange s t
  holds : HeapIs t l

theorem heapIs_slot {s : State} {l : List Ref} (h : HeapIs s l) {i : Nat} (hi : i < l.length) :
    ∃ h' : i < 256, s.heap[i] = slotL l i := by
  have h' : i < 256 := by have := h.room; omega
  refine ⟨h', ?_⟩
  have hl : i < (heapList s).length := by rw [h.list]; exact hi
  have e : s.heap[i] = (heapList s)[i] := by
    simp only [heapList, List.getElem_take, Vector.getElem_toList]
  rw [e, ← slotL_eq hl, h.list]

theorem heapAt_ok {s : State} {l : List Ref} (h : HeapIs s l) {i : Nat} (hi : i < l.length) :
    heapAt i s = .ok (slotL l i) s := by
  obtain ⟨h', e⟩ := heapIs_slot h hi
  unfold heapAt; rw [fetchWord_ok h', e]

theorem nodeFreqAt_ok {s : State} {n : Ref} (h : n.toNat < 511) : nodeFreqAt n s = .ok (s.nodeFreq[n.toNat]'h) s :=
  fetchWord_ok h

theorem keyOf_eq {s : State} {n : Ref} (h : n.toNat < 511) : (s.nodeFreq[n.toNat]'h).toNat = keyOf s n := by
  unfold keyOf; rw [Vector.getElem?_eq_getElem h]; rfl

theorem keyAt_ok {s : State} {l : List Ref} (h : HeapIs s l) {i : Nat} (hi : i < l.length) :
    ∃ k : Freq, keyAt i s = .ok k s ∧ k.toNat = keyOf s (slotL l i) := by
  have hr := h.refs _ (slotL_mem hi)
  refine ⟨s.nodeFreq[(slotL l i).toNat]'hr, ?_, keyOf_eq hr⟩
  unfold keyAt
  rw [heapAt_ok h hi, Res.bind_ok, nodeFreqAt_ok hr]

theorem putHeap_ok (i : Nat) (n : Ref) (s : State) (h : i < 256) :
    putHeap i n s = .ok () { s with heap := s.heap.set i n } := by
  unfold putHeap; rw [dif_pos h]

theorem heapIs_set {s : State} {l : List Ref} (h : HeapIs s l) {i : Nat} (hi : i < 256) {n : Ref} (hn : n.toNat < 511) :
    HeapIs { s with heap := s.heap.set i n } (l.set i n) := by
  have hl := h.list
  refine ⟨?_, ?_, ?_, ?_⟩
  · unfold heapList at hl ⊢
    simp only [Vector.toList_set, List.take_set]
    rw [hl]
  · rw [List.length_set]; exact h.size
  · rw [List.length_set]; exact h.room
  · intro m hm
    rcases List.mem_or_eq_of_mem_set hm with hm | rfl
    · exact h.refs m hm
    · exact hn

theorem swapHeap_ok {s : State} {l : List Ref} (h : HeapIs s l) {i j : Nat} (hi : i < l.length) (hj : j < l.length) :
    ∃ t, swapHeap i j s = .ok () t ∧ QueueStep s t (swapL l i j) := by
  have hroom := h.room
  have h1 := heapIs_set h (i := i) (by omega) (h.refs _ (slotL_mem hj))
  have h2 := heapIs_set h1 (i := j) (by omega) (h.refs _ (slotL_mem hi))
  unfold swapHeap
  rw [heapAt_ok h hi, Res.bind_ok, heapAt_ok h hj, Res.bind_ok, putHeap_ok _ _ _ (by omega), Res.bind_ok,
    putHeap_ok _ _ _ (by omega)]
  exact ⟨_, rfl, rfl, h2⟩

theorem QueueStep.key {s t : State} {l : List Ref} (h : QueueStep s t l) : keyOf t = keyOf s :=
  keyOf_congr (by rw [h.change])

theorem siftUp_ok (b : Nat) : ∀ (i : Nat) (l : List Ref) (s : State), HeapIs s l → i < l.length → i < b →
    ∃ t, siftUp b i s = .ok () t ∧ QueueStep s t (siftUpL (keyOf s) b i l) := by
  induction b with
  | zero => intro i l s _ _ h; omega
  | succ b ih =>
    intro i l s h hi hb
    unfold siftUp siftUpL
    by_cases h0 : i = 0
    · rw [if_pos h0, if_pos h0]; exact ⟨s, rfl, rfl, h⟩
    · rw [if_neg h0, if_neg h0, Nat.shiftRight_one]
      have hp : (i - 1) / 2 < l.length := by omega
      obtain ⟨ki, e1, k1⟩ := keyAt_ok h hi
      obtain ⟨kp, e2, k2⟩ := keyAt_ok h hp
      rw [e1, Res.bind_ok, e2, Res.bind_ok]
      by_cases hk : ki < kp
      · have hk' : keyOf s (slotL l i) < keyOf s (slotL l ((i - 1) / 2)) := by
          rw [← k1, ← k2]; exact BitVec.lt_def.mp hk
        rw [if_pos hk, if_pos hk']
        obtain ⟨t, e3, h3⟩ := swapHeap_ok h hi hp
        rw [e3, Res.bind_ok]
        obtain ⟨u, e4, h4⟩ := ih _ _ t h3.holds (by simpa using hp) (by omega)
        rw [h3.key] at h4
        exact ⟨u, e4, queueChange.trans _ _ _ h3.change h4.change, h4.holds⟩
      · have hk' : ¬ keyOf s (slotL l i) < keyOf s (slotL l ((i - 1) / 2)) := by
          rw [← k1, ← k2]; exact fun h => hk (BitVec.lt_def.mpr h)
        rw [if_neg hk, if_neg hk']
        exact ⟨s, rfl, rfl, h⟩

/-- PQ_INSERT with room (42_priority_queue.md R151). -/
theorem pqInsert_ok {s : State} {l : List Ref} (h : HeapIs s l) (hroom : l.length < 256) {n : Ref} (hn : n.toNat < 511) :
    ∃ t, pqInsert n s = .ok () t ∧ QueueStep s t (insertL (keyOf s) l n) := by
  have hne : s.heapSize ≠ 256#9 := fun e => by
    have hz := h.size
    rw [e] at hz
    have : (256#9).toNat = 256 := rfl
    omega
  have hsize : (s.heapSize + 1).toNat = l.length + 1 := by
    rw [BitVec.toNat_add, h.size]
    exact Nat.mod_eq_of_lt (show l.length + 1 < 512 by omega)
  unfold pqInsert
  rw [if_neg hne, putHeap_ok _ _ _ (by rw [h.size]; exact hroom), Res.bind_ok]
  simp only [h.size]
  have h1 : HeapIs { s with heap := s.heap.set l.length n, heapSize := s.heapSize + 1 } (l ++ [n]) := by
    have hl := h.list
    refine ⟨?_, by rw [List.length_append]; exact hsize, by simp; omega, ?_⟩
    · show (s.heap.set l.length n).toList.take (s.heapSize + 1).toNat = _
      unfold heapList at hl
      have e : (s.heap.set l.length n).toList = s.heap.toList.set l.length n := Vector.toList_set ..
      rw [hsize, e, List.take_succ_eq_append_getElem (by simpa using hroom), List.getElem_set_self, ← h.size]
      rw [List.take_set_of_le (by omega), hl]
    · intro m hm
      rcases List.mem_append.mp hm with hm | hm
      · exact h.refs m hm
      · rw [List.mem_singleton.mp hm]; exact hn
  obtain ⟨t, e2, h2⟩ := siftUp_ok (l.length + 1) l.length _ _ h1 (by simp) (by omega)
  exact ⟨t, e2, queueChange.trans s { s with heap := s.heap.set l.length n, heapSize := s.heapSize + 1 } t rfl h2.change,
    h2.holds⟩

theorem smallerSlot_ok {s : State} {l : List Ref} (h : HeapIs s l) (c : Nat) {m : Nat} (hm : m < l.length) :
    smallerSlot c m s = .ok (smallerL (keyOf s) l c m) s := by
  unfold smallerSlot smallerL
  rw [h.size]
  by_cases hc : c < l.length
  · obtain ⟨kc, e1, k1⟩ := keyAt_ok h hc
    obtain ⟨km, e2, k2⟩ := keyAt_ok h hm
    rw [if_pos hc, if_pos hc, e1, Res.bind_ok, e2, Res.bind_ok, ← k1, ← k2]
    simp only [BitVec.lt_def]
  · rw [if_neg hc, if_neg hc]

theorem smallerL_lt (key : Ref → Nat) {l : List Ref} (c : Nat) {m : Nat} (hm : m < l.length) :
    smallerL key l c m < l.length := by
  obtain ⟨e, h, -⟩ | ⟨e, -⟩ := smallerL_cases key l c m <;> rw [e] <;> assumption

theorem siftDown_ok (b : Nat) : ∀ (i : Nat) (l : List Ref) (s : State), HeapIs s l → i < l.length → l.length ≤ b + i →
    ∃ t, siftDown b i s = .ok () t ∧ QueueStep s t (siftDownL (keyOf s) b i l) := by
  induction b with
  | zero => intro i l s _ hi h; omega
  | succ b ih =>
    intro i l s h hi hb
    unfold siftDown siftDownL
    rw [smallerSlot_ok h _ hi, Res.bind_ok, smallerSlot_ok h _ (smallerL_lt _ _ hi), Res.bind_ok]
    have e0 : smallerL (keyOf s) l (2 * i + 2) (smallerL (keyOf s) l (2 * i + 1) i) = sinkL (keyOf s) l i := rfl
    rw [e0]
    obtain ⟨e, -⟩ | ⟨h0, hm, -, him, -, -⟩ := sinkL_cases (keyOf s) l i
    · rw [if_pos e, if_pos e]; exact ⟨s, rfl, rfl, h⟩
    · rw [if_neg (by omega), if_neg (by omega)]
      obtain ⟨t, e3, h3⟩ := swapHeap_ok h hi hm
      rw [e3, Res.bind_ok]
      obtain ⟨u, e4, h4⟩ := ih _ _ t h3.holds (by simpa using hm) (by rw [swapL_length]; omega)
      rw [h3.key] at h4
      exact ⟨u, e4, queueChange.trans _ _ _ h3.change h4.change, h4.holds⟩

/-- PQ_EXTRACT_MIN on a heap that is not empty (42_priority_queue.md R152). -/
theorem pqExtractMin_ok {s : State} {l : List Ref} (h : HeapIs s l) (h0 : 0 < l.length) :
    ∃ t, pqExtractMin s = .ok (slotL l 0) t ∧ QueueStep s t (extractL (keyOf s) l) := by
  have hroom := h.room
  have hne : s.heapSize ≠ 0#9 := fun e => by
    have hz := h.size
    rw [e] at hz
    have : (0#9).toNat = 0 := rfl
    omega
  have hsize : (s.heapSize - 1).toNat = l.length - 1 := by
    have e : (1 : Ref).toNat = 1 := rfl
    rw [BitVec.toNat_sub_of_le (BitVec.le_def.mpr (by rw [e, h.size]; omega)), h.size, e]
  have hcut : HeapIs { s with heapSize := s.heapSize - 1 } (l.take (l.length - 1)) := by
    have hl := h.list
    refine ⟨?_, by rw [List.length_take]; show (s.heapSize - 1).toNat = _; omega, by rw [List.length_take]; omega,
      fun n hn => h.refs n (List.mem_of_mem_take hn)⟩
    show s.heap.toList.take (s.heapSize - 1).toNat = _
    unfold heapList at hl
    have e : l.take (l.length - 1) = (s.heap.toList.take s.heapSize.toNat).take (l.length - 1) := by rw [hl]
    rw [hsize, e, List.take_take, Nat.min_eq_left (by have := h.size; omega)]
  unfold pqExtractMin extractL
  rw [if_neg hne, heapAt_ok h h0, Res.bind_ok]
  dsimp only
  by_cases h1 : l.length ≤ 1
  · have hz : s.heapSize - 1 = 0#9 := BitVec.eq_of_toNat_eq (by
      have : (0#9).toNat = 0 := rfl
      omega)
    rw [if_pos hz, if_pos h1]
    refine ⟨_, rfl, rfl, ?_⟩
    have : l.take (l.length - 1) = [] := by rw [show l.length - 1 = 0 by omega]; rfl
    rw [this] at hcut
    exact hcut
  · have hz : s.heapSize - 1 ≠ 0#9 := fun e => by
      have e := congrArg BitVec.toNat e
      have : (0#9).toNat = 0 := rfl
      omega
    obtain ⟨h', e⟩ := heapIs_slot h (i := l.length - 1) (by omega)
    rw [if_neg hz, if_neg h1]
    simp only [hsize]
    have e' : heapAt (l.length - 1) { s with heapSize := s.heapSize - 1 } =
        .ok (slotL l (l.length - 1)) { s with heapSize := s.heapSize - 1 } := by
      unfold heapAt
      rw [fetchWord_ok h']
      exact congrArg (fun x => Res.ok x _) e
    rw [e', Res.bind_ok, putHeap_ok _ _ _ (by omega), Res.bind_ok]
    simp only [hsize]
    have h2 := heapIs_set hcut (i := 0) (by omega) (h.refs _ (slotL_mem (i := l.length - 1) (by omega)))
    obtain ⟨t, e3, h3⟩ := siftDown_ok (l.length - 1) 0 _ _ h2 (by simp; omega) (by simp)
    rw [e3, Res.bind_ok]
    exact ⟨t, rfl, queueChange.trans s
      { s with heap := s.heap.set 0 (slotL l (l.length - 1)), heapSize := s.heapSize - 1 } t rfl h3.change, h3.holds⟩

/-- PQ_IS_SINGLETON (42_priority_queue.md R153). -/
theorem pqIsSingleton_iff {s : State} {l : List Ref} (h : HeapIs s l) : pqIsSingleton s = true ↔ l.length = 1 := by
  unfold pqIsSingleton
  rw [decide_eq_true_iff, ← h.size]
  exact ⟨fun e => by rw [e]; rfl, fun e => BitVec.eq_of_toNat_eq e⟩

/-- HeapOk in terms of the list. -/
theorem heapOk_iff (s : State) : HeapOk s ↔ HeapIs s (heapList s) ∧ OrderL (keyOf s) (heapList s) := by
  constructor
  · rintro ⟨hs, hr, ho⟩
    refine ⟨heapIs_of hs hr, fun i hi h0 => ?_⟩
    rw [slotL_eq hi, slotL_eq (by omega)]
    exact ho i hi h0
  · rintro ⟨hi, ho⟩
    refine ⟨by rw [hi.size]; exact hi.room, hi.refs, fun i h h0 => ?_⟩
    have := ho i h h0
    rwa [slotL_eq h, slotL_eq (by omega)] at this

end Sys2Proof.Machine
end

