-- ==== Sys2Proof/Laws/Build.lean ====
section
/-! SUPPORT. BUILD: the forest in NODE and HEAP while the tree is built, and what each turn of its loops makes of it
(43_tree_builder.md). -/

namespace Sys2Proof.Machine

/-! ### Creating a node -/

/-- `t` is `s` with node `s.nodeCnt` created (43_tree_builder.md R165, R166). -/
def withNode (freq : Freq) (sym : Byte) (l r : Ref) (s : State) (h : s.nodeCnt.toNat < 511) : State :=
  { s with
    nodeFreq := s.nodeFreq.set s.nodeCnt.toNat freq
    nodeSym := s.nodeSym.set s.nodeCnt.toNat sym
    nodeLeft := s.nodeLeft.set s.nodeCnt.toNat l
    nodeRight := s.nodeRight.set s.nodeCnt.toNat r
    nodeCnt := s.nodeCnt + 1 }

theorem nodeNewLeaf_ok (sym : Byte) (freq : Word32) (s : State) (h : s.nodeCnt.toNat < 511) :
    nodeNewLeaf sym freq s = .ok s.nodeCnt (withNode (freq.setWidth 40) sym Config.nil Config.nil s h) := by
  unfold nodeNewLeaf putNode
  rw [dif_pos h]; rfl

theorem nodeMerge_ok {a b : Ref} (s : State) (h : s.nodeCnt.toNat < 511) (ha : a.toNat < 511) (hb : b.toNat < 511) :
    nodeMerge a b s =
      .ok s.nodeCnt (withNode (s.nodeFreq[a.toNat]'ha + s.nodeFreq[b.toNat]'hb) 0 a b s h) := by
  unfold nodeMerge
  rw [nodeFreqAt_ok ha, Res.bind_ok, nodeFreqAt_ok hb, Res.bind_ok]
  unfold putNode
  rw [dif_pos h]; rfl

section
variable {freq : Freq} {sym : Byte} {l r : Ref} {s : State} {h : s.nodeCnt.toNat < 511}

theorem withNode_cnt : (withNode freq sym l r s h).nodeCnt.toNat = s.nodeCnt.toNat + 1 := by
  show (s.nodeCnt + 1).toNat = _
  rw [BitVec.toNat_add]
  exact Nat.mod_eq_of_lt (show _ + 1 < 512 by omega)

theorem withNode_key {n : Ref} (hn : n.toNat ≠ s.nodeCnt.toNat) : keyOf (withNode freq sym l r s h) n = keyOf s n := by
  show ((s.nodeFreq.set s.nodeCnt.toNat freq)[n.toNat]?.getD 0).toNat = _
  rw [Vector.getElem?_set_ne _ (Ne.symm hn)]; rfl

theorem withNode_key_new : keyOf (withNode freq sym l r s h) s.nodeCnt = freq.toNat := by
  show ((s.nodeFreq.set s.nodeCnt.toNat freq)[s.nodeCnt.toNat]?.getD 0).toNat = _
  rw [Vector.getElem?_set_self]; rfl

theorem withNode_left (i : Nat) : (withNode freq sym l r s h).nodeLeft[i]? =
    if i = s.nodeCnt.toNat then some l else s.nodeLeft[i]? := by
  show (s.nodeLeft.set s.nodeCnt.toNat l)[i]? = _
  rw [Vector.getElem?_set]
  simp only [eq_comm (a := i)]

theorem withNode_right (i : Nat) : (withNode freq sym l r s h).nodeRight[i]? =
    if i = s.nodeCnt.toNat then some r else s.nodeRight[i]? := by
  show (s.nodeRight.set s.nodeCnt.toNat r)[i]? = _
  rw [Vector.getElem?_set]
  simp only [eq_comm (a := i)]

theorem withNode_freq (i : Nat) : (withNode freq sym l r s h).nodeFreq[i]? =
    if i = s.nodeCnt.toNat then some freq else s.nodeFreq[i]? := by
  show (s.nodeFreq.set s.nodeCnt.toNat freq)[i]? = _
  rw [Vector.getElem?_set]
  simp only [eq_comm (a := i)]

theorem withNode_sym (i : Nat) : (withNode freq sym l r s h).nodeSym[i]? =
    if i = s.nodeCnt.toNat then some sym else s.nodeSym[i]? := by
  show (s.nodeSym.set s.nodeCnt.toNat sym)[i]? = _
  rw [Vector.getElem?_set]
  simp only [eq_comm (a := i)]

theorem withNode_change : BuildChange s (withNode freq sym l r s h) := rfl

/-- Creating a node leaves the heap. -/
theorem withNode_heap {hl : List Ref} (hh : HeapIs s hl) : HeapIs (withNode freq sym l r s h) hl :=
  ⟨hh.list, hh.size, hh.room, hh.refs⟩

end

/-! ### The queue depends on the keys of its entries only -/

theorem orderL_congr {key key' : Ref → Nat} {l : List Ref} (h : ∀ n ∈ l, key n = key' n) (ho : OrderL key l) :
    OrderL key' l := by
  intro i hi h0
  rw [← h _ (slotL_mem hi), ← h _ (slotL_mem (by omega : (i - 1) / 2 < l.length))]
  exact ho i hi h0

theorem siftUpL_congr {key key' : Ref → Nat} (b : Nat) : ∀ (i : Nat) (l : List Ref), i < l.length →
    (∀ n ∈ l, key n = key' n) → siftUpL key b i l = siftUpL key' b i l := by
  induction b with
  | zero => intros; rfl
  | succ b ih =>
    intro i l hi h
    unfold siftUpL
    have hp : (i - 1) / 2 < l.length := by omega
    rw [h _ (slotL_mem hi), h _ (slotL_mem hp)]
    split
    · rfl
    · split
      · exact ih _ _ (by simpa using hp) fun n hn => h n ((swapL_perm hi hp).mem_iff.mp hn)
      · rfl

theorem insertL_congr {key key' : Ref → Nat} {l : List Ref} {n : Ref} (h : ∀ m ∈ n :: l, key m = key' m) :
    insertL key l n = insertL key' l n :=
  siftUpL_congr _ _ _ (by simp) fun m hm => h m ((List.perm_append_singleton n l).mem_iff.mp hm)

theorem smallerL_congr {key key' : Ref → Nat} {l : List Ref} (h : ∀ n ∈ l, key n = key' n) (c : Nat) {m : Nat}
    (hm : m < l.length) : smallerL key l c m = smallerL key' l c m := by
  unfold smallerL
  by_cases hc : c < l.length
  · rw [if_pos hc, if_pos hc, h _ (slotL_mem hc), h _ (slotL_mem hm)]
  · rw [if_neg hc, if_neg hc]

theorem sinkL_congr {key key' : Ref → Nat} {l : List Ref} (h : ∀ n ∈ l, key n = key' n) {i : Nat} (hi : i < l.length) :
    sinkL key l i = sinkL key' l i := by
  unfold sinkL
  rw [smallerL_congr h _ hi, smallerL_congr h _ (smallerL_lt key' _ hi)]

theorem siftDownL_congr {key key' : Ref → Nat} (b : Nat) : ∀ (i : Nat) (l : List Ref), i < l.length →
    (∀ n ∈ l, key n = key' n) → siftDownL key b i l = siftDownL key' b i l := by
  induction b with
  | zero => intros; rfl
  | succ b ih =>
    intro i l hi h
    unfold siftDownL
    rw [sinkL_congr h hi]
    obtain ⟨e, -⟩ | ⟨-, hm, -⟩ := sinkL_cases key' l i
    · rw [if_pos e, if_pos e]
    · split
      · rfl
      · exact ih _ _ (by simpa using hm) fun n hn => h n ((swapL_perm hi hm).mem_iff.mp hn)

theorem extractL_congr {key key' : Ref → Nat} {l : List Ref} (h : ∀ n ∈ l, key n = key' n) :
    extractL key l = extractL key' l := by
  unfold extractL
  split
  · rfl
  · refine siftDownL_congr _ _ _ (by simp; omega) fun n hn => ?_
    rcases List.mem_or_eq_of_mem_set hn with hn | rfl
    · exact h n (List.mem_of_mem_take hn)
    · exact h _ (slotL_mem (by omega))

/-! ### The forest -/

/-- `c` is a child of node `i`. -/
def ChildOf (u : State) (c : Ref) (i : Nat) : Prop := u.nodeLeft[i]? = some c ∨ u.nodeRight[i]? = some c

/-- Node `i` joins two different nodes with smaller indices, a minimum pair among those without a parent before it. -/
structure Joins (u : State) (first i : Nat) (l r : Ref) : Prop where
  left : u.nodeLeft[i]? = some l
  right : u.nodeRight[i]? = some r
  leftLt : l.toNat < i
  rightLt : r.toNat < i
  differ : l ≠ r
  sym : u.nodeSym[i]? = some 0
  freq : ∃ f, u.nodeFreq[i]? = some f ∧ f.toNat = keyOf u l + keyOf u r
  order : keyOf u l ≤ keyOf u r
  least : ∀ n : Ref, n.toNat < i → (∀ j, first ≤ j → j ≤ i → ¬ ChildOf u n j) → keyOf u r ≤ keyOf u n

/-- BUILD on its way: nodes 0 to `k` − 1 are the leaves, nodes `k` to `c` − 1 are joined, `l` is the heap, which holds
exactly the nodes without a parent. -/
structure Forest (s u : State) (k c : Nat) (l : List Ref) : Prop where
  change : BuildChange s u
  heap : HeapIs u l
  order : OrderL (keyOf u) l
  nodup : l.Nodup
  count : u.nodeCnt.toNat = c
  leavesLe : k ≤ c
  balance : l.length + c = 2 * k
  leaves : ∀ i, i < k →
    u.nodeFreq[i]? = s.entFreq[i]?.map (BitVec.setWidth 40) ∧ u.nodeSym[i]? = s.entSym[i]? ∧
      u.nodeLeft[i]? = some Config.nil ∧ u.nodeRight[i]? = some Config.nil
  inner : ∀ i, k ≤ i → i < c → ∃ l r, Joins u k i l r
  created : ∀ n ∈ l, n.toNat < c
  roots : ∀ n : Ref, n ∈ l → ∀ i, k ≤ i → i < c → ¬ ChildOf u n i
  parent : ∀ n : Ref, n.toNat < c → n ∉ l →
    ∃ i, k ≤ i ∧ i < c ∧ ChildOf u n i ∧ ∀ j, k ≤ j → j < c → ChildOf u n j → j = i
  total : (l.map (keyOf u)).sum = freqSum ((s.entSym.toList.zip s.entFreq.toList).take k)
  stale : ∀ i, c ≤ i → u.nodeFreq[i]? = s.nodeFreq[i]? ∧ u.nodeSym[i]? = s.nodeSym[i]? ∧
    u.nodeLeft[i]? = s.nodeLeft[i]? ∧ u.nodeRight[i]? = s.nodeRight[i]?

/-- An entry list's frequencies sum to less than 2^40 (43_tree_builder.md R171). -/
theorem freqSum_lt {es : List (Byte × Word32)} (h : es.length ≤ 256) : freqSum es < 2 ^ 40 := by
  have hb : ∀ l : List (Byte × Word32), freqSum l ≤ l.length * (2 ^ 32 - 1) := fun l => by
    induction l with
    | nil => simp [freqSum]
    | cons e l ih =>
      have he := e.2.isLt
      unfold freqSum at *
      simp only [List.map_cons, List.sum_cons, List.length_cons]
      omega
  have := hb es
  have : es.length * (2 ^ 32 - 1) ≤ 256 * (2 ^ 32 - 1) := Nat.mul_le_mul_right _ h
  omega

theorem sum_map_congr {l : List Ref} {f g : Ref → Nat} (h : ∀ n ∈ l, f n = g n) : (l.map f).sum = (l.map g).sum := by
  rw [List.map_congr_left h]

theorem perm_sum {l l' : List Ref} (h : l.Perm l') (f : Ref → Nat) : (l.map f).sum = (l'.map f).sum :=
  (h.map f).sum_nat

/-- BUILD before its loops. -/
theorem forest_start (s : State) : Forest s { pqClear s with nodeCnt := 0, root := Config.nil } 0 0 [] where
  change := rfl
  heap := ⟨rfl, rfl, by simp, by simp⟩
  order := fun i hi => by simp at hi
  nodup := List.nodup_nil
  count := rfl
  leavesLe := Nat.le_refl _
  balance := rfl
  leaves := fun i hi => by omega
  inner := fun i _ hi => by omega
  created := by simp
  roots := by simp
  parent := fun n hn => by omega
  total := by simp [freqSum]
  stale := fun i _ => ⟨rfl, rfl, rfl, rfl⟩

theorem queue_change_nodes {u v : State} (h : QueueChange u v) :
    v.nodeFreq = u.nodeFreq ∧ v.nodeSym = u.nodeSym ∧ v.nodeLeft = u.nodeLeft ∧ v.nodeRight = u.nodeRight ∧
      v.nodeCnt = u.nodeCnt := by
  unfold QueueChange at h; rw [h]; exact ⟨rfl, rfl, rfl, rfl, rfl⟩

/-- One turn of the load loop, as the state it makes. -/
theorem loadTurn_ok {s u : State} {i : Nat} {l : List Ref} (hf : Forest s u i i l) (hi : i < 256) :
    ∃ (h : u.nodeCnt.toNat < 511) (v : State), loadTurn i u = .ok () v ∧
      QueueStep (withNode ((s.entFreq[i]).setWidth 40) s.entSym[i] Config.nil Config.nil u h) v
        (insertL (keyOf v) l u.nodeCnt) := by
  have hcnt : u.nodeCnt.toNat < 511 := by rw [hf.count]; omega
  have hlen : l.length = i := by have := hf.balance; omega
  have es : u.entSym = s.entSym := by rw [hf.change]
  have ef : u.entFreq = s.entFreq := by rw [hf.change]
  obtain ⟨v, hv, hs⟩ := pqInsert_ok (withNode_heap (freq := (s.entFreq[i]).setWidth 40) (sym := s.entSym[i])
    (l := Config.nil) (r := Config.nil) (h := hcnt) hf.heap) (by omega) hcnt
  rw [← hs.key] at hs
  refine ⟨hcnt, v, ?_, hs⟩
  unfold loadTurn entSymAt entFreqAt
  rw [fetchWord_ok hi, Res.bind_ok, fetchWord_ok hi, Res.bind_ok, nodeNewLeaf_ok _ _ _ hcnt, Res.bind_ok]
  simp only [es, ef]
  exact hv

theorem not_childOf_nil {u : State} {i : Nat} (hl : u.nodeLeft[i]? = some Config.nil)
    (hr : u.nodeRight[i]? = some Config.nil) {n : Ref} (hn : n.toNat < 511) : ¬ ChildOf u n i := by
  have hne : n ≠ Config.nil := fun e => by
    rw [e] at hn
    have : Config.nil.toNat = 511 := rfl
    omega
  rintro (h | h)
  · rw [hl] at h; exact hne (Option.some.inj h).symm
  · rw [hr] at h; exact hne (Option.some.inj h).symm

theorem ref_lt {n : Ref} {c : Nat} (h : n.toNat < c + 1) {m : Ref} (hm : m.toNat = c) : n = m ∨ n.toNat < c := by
  by_cases e : n.toNat = c
  · exact .inl (BitVec.eq_of_toNat_eq (by omega))
  · exact .inr (by omega)

theorem Forest.load {s u : State} {i : Nat} {l : List Ref} (hf : Forest s u i i l) (hi : i < 256) :
    ∃ v l', loadTurn i u = .ok () v ∧ Forest s v (i + 1) (i + 1) l' := by
  obtain ⟨hcnt, v, hv, hs⟩ := loadTurn_ok hf hi
  have hc := hf.count
  obtain ⟨nf, ns, nl, nr, nc⟩ := queue_change_nodes hs.change
  have hk := hs.key
  have hperm := insertL_perm (keyOf v) l u.nodeCnt
  have hall : ∀ n : Ref, n.toNat < i → n ∈ l := fun n hn => by
    by_contra hno
    obtain ⟨j, h1, h2, -⟩ := hf.parent n hn hno
    omega
  have hnew : u.nodeCnt ∉ l := fun h => by have := hf.created _ h; omega
  have hkeys : ∀ n ∈ l, keyOf u n = keyOf v n := fun n hn => by
    have := hf.created n hn
    rw [hk, withNode_key (by omega)]
  refine ⟨v, _, hv, ?_, hs.holds, ?_, ?_, ?_, Nat.le_refl _, ?_, ?_, fun j _ _ => by omega, ?_, fun _ _ j _ _ => by omega,
    ?_, ?_, ?_⟩
  · exact buildChange.trans _ _ _ hf.change (buildChange.trans _ _ _ withNode_change (queue_build hs.change))
  · exact insertL_order (orderL_congr hkeys hf.order) _
  · exact hperm.nodup_iff.mpr (List.nodup_cons.mpr ⟨hnew, hf.nodup⟩)
  · rw [nc, withNode_cnt, hc]
  · rw [hperm.length_eq]; have := hf.balance; simp; omega
  · intro j hj
    rw [nf, ns, nl, nr, withNode_freq, withNode_sym, withNode_left, withNode_right, hc]
    by_cases hji : j = i
    · subst hji; simp [hi]
    · simp only [if_neg hji]
      exact hf.leaves j (by omega)
  · intro n hn
    rcases List.mem_cons.mp (hperm.mem_iff.mp hn) with rfl | hn
    · omega
    · have := hf.created n hn; omega
  · intro n hn hno
    rcases ref_lt hn hc with rfl | hlt
    · exact absurd (hperm.mem_iff.mpr (by simp)) hno
    · exact absurd (hperm.mem_iff.mpr (List.mem_cons_of_mem _ (hall n hlt))) hno
  · rw [perm_sum hperm, List.map_cons, List.sum_cons, ← sum_map_congr hkeys, hf.total, hk, withNode_key_new]
    have hz : i < (s.entSym.toList.zip s.entFreq.toList).length := by simp; exact hi
    rw [List.take_succ_eq_append_getElem hz]
    unfold freqSum
    rw [List.map_append, List.sum_append, List.getElem_zip]
    simp
    omega
  · intro j hj
    rw [nf, ns, nl, nr, withNode_freq, withNode_sym, withNode_left, withNode_right, hc]
    simp only [if_neg (by omega : ¬ j = i)]
    exact hf.stale j (by omega)

/-! ### A turn of the merge loop -/

/-- The two references a merge takes, and the heap it leaves, as functions of the key and the heap. -/
def firstMin (l : List Ref) : Ref := slotL l 0
def secondMin (key : Ref → Nat) (l : List Ref) : Ref := slotL (extractL key l) 0
def restMin (key : Ref → Nat) (l : List Ref) : List Ref := extractL key (extractL key l)

theorem extractL_length (key : Ref → Nat) {l : List Ref} (h : 0 < l.length) : (extractL key l).length + 1 = l.length := by
  have := (extractL_perm key h).length_eq
  simpa using this

theorem merge_perm (key : Ref → Nat) {l : List Ref} (h : 2 ≤ l.length) :
    (firstMin l :: secondMin key l :: restMin key l).Perm l := by
  have h1 := extractL_perm key (l := l) (by omega)
  have h2 := extractL_perm key (l := extractL key l) (by have := extractL_length key (l := l) (by omega); omega)
  exact (List.Perm.cons _ h2).trans h1

theorem merge_least {key : Ref → Nat} {l : List Ref} (ho : OrderL key l) (h : 2 ≤ l.length) :
    key (firstMin l) ≤ key (secondMin key l) ∧ ∀ n ∈ restMin key l, key (secondMin key l) ≤ key n := by
  have hlen := extractL_length key (l := l) (by omega)
  have h1 := extractL_perm key (l := l) (by omega)
  have h2 := extractL_perm key (l := extractL key l) (by omega)
  refine ⟨orderL_min_mem ho (h1.mem_iff.mp (List.mem_cons_of_mem _ (slotL_mem (by omega)))), fun n hn => ?_⟩
  exact orderL_min_mem (extractL_order ho) (h2.mem_iff.mp (List.mem_cons_of_mem _ hn))

/-- One turn of the merge loop, as the state it makes. -/
theorem mergeTurn_ok {u : State} {l : List Ref} (hh : HeapIs u l) (h2 : 2 ≤ l.length) (hcnt : u.nodeCnt.toNat < 511) :
    ∃ (u2 v : State) (h : u2.nodeCnt.toNat < 511) (ha : (firstMin l).toNat < 511)
      (hb : (secondMin (keyOf u) l).toNat < 511),
      QueueStep u u2 (restMin (keyOf u) l) ∧ mergeTurn u = .ok () v ∧
      QueueStep (withNode (u.nodeFreq[(firstMin l).toNat]'ha + u.nodeFreq[(secondMin (keyOf u) l).toNat]'hb) 0
        (firstMin l) (secondMin (keyOf u) l) u2 h) v (insertL (keyOf v) (restMin (keyOf u) l) u2.nodeCnt) := by
  have hlen := extractL_length (keyOf u) (l := l) (by omega)
  have hlen2 := extractL_length (keyOf u) (l := extractL (keyOf u) l) (by omega)
  obtain ⟨u1, e1, q1⟩ := pqExtractMin_ok hh (by omega)
  obtain ⟨u2, e2, q2⟩ := pqExtractMin_ok q1.holds (by omega)
  rw [q1.key] at q2
  obtain ⟨f1, -, -, -, c1⟩ := queue_change_nodes q1.change
  obtain ⟨f2, -, -, -, c2⟩ := queue_change_nodes q2.change
  have hperm := merge_perm (keyOf u) h2
  have ha : (firstMin l).toNat < 511 := hh.refs _ (hperm.mem_iff.mp (by simp))
  have hb : (secondMin (keyOf u) l).toNat < 511 := hh.refs _ (hperm.mem_iff.mp (by simp))
  have hc : u2.nodeCnt.toNat < 511 := by rw [c2, c1]; exact hcnt
  have hroom := hh.room
  obtain ⟨v, e3, q3⟩ := pqInsert_ok (n := u2.nodeCnt) (withNode_heap
    (freq := u.nodeFreq[(firstMin l).toNat]'ha + u.nodeFreq[(secondMin (keyOf u) l).toNat]'hb) (sym := 0)
    (l := firstMin l) (r := secondMin (keyOf u) l) (h := hc) q2.holds) (by omega) hc
  rw [← q3.key] at q3
  refine ⟨u2, v, hc, ha, hb, ⟨queueChange.trans _ _ _ q1.change q2.change, q2.holds⟩, ?_, q3⟩
  unfold mergeTurn
  rw [e1, Res.bind_ok, e2, Res.bind_ok]
  have hm := nodeMerge_ok u2 hc ha hb
  simp only [f2, f1] at hm
  show (nodeMerge (firstMin l) (secondMin (keyOf u) l) u2).bind _ = _
  rw [hm, Res.bind_ok]
  exact e3

theorem childOf_withNode {freq : Freq} {sym : Byte} {l r : Ref} {s : State} {h : s.nodeCnt.toNat < 511} (n : Ref)
    (i : Nat) : ChildOf (withNode freq sym l r s h) n i ↔
      if i = s.nodeCnt.toNat then l = n ∨ r = n else ChildOf s n i := by
  unfold ChildOf
  rw [withNode_left, withNode_right]
  split <;> simp

theorem childOf_congr {s t : State} (hl : t.nodeLeft = s.nodeLeft) (hr : t.nodeRight = s.nodeRight) (n : Ref) (i : Nat) :
    ChildOf t n i ↔ ChildOf s n i := by
  unfold ChildOf; rw [hl, hr]

theorem Forest.merge {s u : State} {k c : Nat} {l : List Ref} (hf : Forest s u k c l) (hk : k ≤ 256)
    (h2 : 2 ≤ l.length) : ∃ v l', mergeTurn u = .ok () v ∧ Forest s v k (c + 1) l' ∧ l'.length + 1 = l.length := by
  have hc := hf.count
  have hbal := hf.balance
  obtain ⟨u2, v, hcnt, ha, hb, q2, hv, q3⟩ := mergeTurn_ok hf.heap h2 (by omega)
  have hperm := merge_perm (keyOf u) h2
  have hleast := merge_least hf.order h2
  have horder2 : OrderL (keyOf u) (restMin (keyOf u) l) := extractL_order (extractL_order hf.order)
  obtain ⟨f2, s2, l2, r2, c2⟩ := queue_change_nodes q2.change
  obtain ⟨f3, s3, l3, r3, c3⟩ := queue_change_nodes q3.change
  have hk2 : keyOf u2 = keyOf u := keyOf_congr f2
  have hc2 : u2.nodeCnt.toNat = c := by rw [c2, hc]
  generalize hA : firstMin l = a at *
  generalize hB : secondMin (keyOf u) l = b at *
  generalize hR : restMin (keyOf u) l = rest at *
  have hkv : keyOf v = keyOf (withNode (u.nodeFreq[a.toNat]'ha + u.nodeFreq[b.toNat]'hb) 0 a b u2 hcnt) := q3.key
  have hins := insertL_perm (keyOf v) rest u2.nodeCnt
  have hmem : ∀ n, n ∈ l ↔ n = a ∨ n = b ∨ n ∈ rest := fun n => by
    rw [← hperm.mem_iff]; simp
  have hnd := hperm.nodup_iff.mpr hf.nodup
  simp only [List.nodup_cons, List.mem_cons, not_or] at hnd
  obtain ⟨⟨hab, har⟩, hbr, hrnd⟩ := hnd
  have hac : a.toNat < c := hf.created a ((hmem a).mpr (.inl rfl))
  have hbc : b.toNat < c := hf.created b ((hmem b).mpr (.inr (.inl rfl)))
  have hrc : ∀ n ∈ rest, n.toNat < c := fun n hn => hf.created n ((hmem n).mpr (.inr (.inr hn)))
  have hold : ∀ n : Ref, n.toNat < c → keyOf v n = keyOf u n := fun n hn => by
    rw [hkv, withNode_key (by omega), hk2]
  have hkeys : ∀ n ∈ rest, keyOf u n = keyOf v n := fun n hn => (hold n (hrc n hn)).symm
  have htot : keyOf u a + keyOf u b + (rest.map (keyOf u)).sum =
      freqSum ((s.entSym.toList.zip s.entFreq.toList).take k) := by
    rw [← hf.total, ← perm_sum hperm, List.map_cons, List.map_cons, List.sum_cons, List.sum_cons]; omega
  have hbound : freqSum ((s.entSym.toList.zip s.entFreq.toList).take k) < 2 ^ 40 :=
    freqSum_lt (by rw [List.length_take]; omega)
  have hsum : (u.nodeFreq[a.toNat]'ha + u.nodeFreq[b.toNat]'hb).toNat = keyOf u a + keyOf u b := by
    rw [BitVec.toNat_add, keyOf_eq ha, keyOf_eq hb]
    exact Nat.mod_eq_of_lt (by omega)
  have hchild : ∀ (n : Ref) i, ChildOf v n i ↔ if i = c then a = n ∨ b = n else ChildOf u n i := fun n i => by
    rw [childOf_congr l3 r3, childOf_withNode, hc2, childOf_congr l2 r2]
  have hnewkey : keyOf v u2.nodeCnt = keyOf u a + keyOf u b := by
    rw [hkv, withNode_key_new, hsum]
  refine ⟨v, insertL (keyOf v) rest u2.nodeCnt, hv, ?_, ?_⟩
  · refine ⟨?_, q3.holds, ?_, ?_, ?_, by have := hf.leavesLe; omega, ?_, ?_, ?_, ?_, ?_, ?_, ?_, ?_⟩
    · exact buildChange.trans _ _ _ hf.change (buildChange.trans _ _ _ (queue_build q2.change)
        (buildChange.trans _ _ _ withNode_change (queue_build q3.change)))
    · exact insertL_order (orderL_congr hkeys horder2) _
    · refine hins.nodup_iff.mpr (List.nodup_cons.mpr ⟨fun h => ?_, hrnd⟩)
      have := hrc _ h; omega
    · rw [c3, withNode_cnt, hc2]
    · rw [hins.length_eq]
      have := hperm.length_eq
      simp only [List.length_cons] at this ⊢; omega
    · intro i hi
      have hle := hf.leavesLe
      rw [f3, s3, l3, r3, withNode_freq, withNode_sym, withNode_left, withNode_right, hc2, f2, s2, l2, r2]
      simp only [if_neg (by omega : ¬ i = c)]
      exact hf.leaves i hi
    · intro i hi hi'
      by_cases hic : i = c
      · subst hic
        refine ⟨a, b, ?_, ?_, hac, hbc, hab, ?_, ⟨u.nodeFreq[a.toNat]'ha + u.nodeFreq[b.toNat]'hb, ?_, ?_⟩, ?_, ?_⟩
        · rw [l3, withNode_left, hc2, if_pos rfl]
        · rw [r3, withNode_right, hc2, if_pos rfl]
        · rw [s3, withNode_sym, hc2, if_pos rfl]
        · rw [f3, withNode_freq, hc2, if_pos rfl]
        · rw [hsum, hold a hac, hold b hbc]
        · rw [hold a hac, hold b hbc]; exact hleast.1
        · intro n hn hno
          rw [hold b hbc, hold n hn]
          have hnl : n ∈ l := by
            by_contra hno'
            obtain ⟨j, h1, h3, h4, -⟩ := hf.parent n hn hno'
            exact hno j h1 (by omega) ((hchild n j).mpr (by rw [if_neg (by omega)]; exact h4))
          rcases (hmem n).mp hnl with rfl | rfl | hr
          · exact absurd ((hchild n i).mpr (by rw [if_pos rfl]; exact .inl rfl)) (hno i hi (Nat.le_refl _))
          · exact absurd ((hchild n i).mpr (by rw [if_pos rfl]; exact .inr rfl)) (hno i hi (Nat.le_refl _))
          · exact hleast.2 n hr
      · obtain ⟨x, y, hj⟩ := hf.inner i hi (by omega)
        have hx := hj.leftLt
        have hy := hj.rightLt
        refine ⟨x, y, ?_, ?_, hx, hy, hj.differ, ?_, ?_, ?_, ?_⟩
        · rw [l3, withNode_left, hc2, if_neg hic, l2]; exact hj.left
        · rw [r3, withNode_right, hc2, if_neg hic, r2]; exact hj.right
        · rw [s3, withNode_sym, hc2, if_neg hic, s2]; exact hj.sym
        · obtain ⟨f, hf1, hf2⟩ := hj.freq
          refine ⟨f, ?_, ?_⟩
          · rw [f3, withNode_freq, hc2, if_neg hic, f2]; exact hf1
          · rw [hf2, hold x (by omega), hold y (by omega)]
        · rw [hold x (by omega), hold y (by omega)]; exact hj.order
        · intro n hn hno
          rw [hold y (by omega), hold n (by omega)]
          refine hj.least n hn fun j h1 h3 h4 => hno j h1 h3 ((hchild n j).mpr ?_)
          rw [if_neg (by omega)]; exact h4
    · intro n hn
      rcases List.mem_cons.mp (hins.mem_iff.mp hn) with rfl | hn
      · omega
      · have := hrc n hn; omega
    · intro n hn i hi hi' hch
      rw [hchild] at hch
      rcases List.mem_cons.mp (hins.mem_iff.mp hn) with rfl | hn
      · by_cases hic : i = c
        · rw [if_pos hic] at hch
          rcases hch with e | e
          · rw [e] at hac; omega
          · rw [e] at hbc; omega
        · rw [if_neg hic] at hch
          obtain ⟨x, y, hj⟩ := hf.inner i hi (by omega)
          have hx := hj.leftLt
          have hy := hj.rightLt
          rcases hch with e | e
          · rw [hj.left] at e
            have := congrArg BitVec.toNat (Option.some.inj e); omega
          · rw [hj.right] at e
            have := congrArg BitVec.toNat (Option.some.inj e); omega
      · by_cases hic : i = c
        · rw [if_pos hic] at hch
          rcases hch with rfl | rfl
          · exact har hn
          · exact hbr hn
        · rw [if_neg hic] at hch
          exact hf.roots n ((hmem n).mpr (.inr (.inr hn))) i hi (by omega) hch
    · intro n hn hno
      rw [hins.mem_iff, List.mem_cons, not_or] at hno
      have hnc : n.toNat < c := by
        rcases ref_lt hn hc2 with e | h
        · exact absurd e hno.1
        · exact h
      by_cases hnl : n ∈ l
      · have hnab : a = n ∨ b = n := by
          rcases (hmem n).mp hnl with e | e | h
          · exact .inl e.symm
          · exact .inr e.symm
          · exact absurd h hno.2
        refine ⟨c, hf.leavesLe, by omega, (hchild n c).mpr (by rw [if_pos rfl]; exact hnab), fun j h1 h3 h4 => ?_⟩
        by_contra hjc
        rw [hchild, if_neg hjc] at h4
        exact hf.roots n hnl j h1 (by omega) h4
      · obtain ⟨i, h1, h3, h4, h5⟩ := hf.parent n hnc hnl
        refine ⟨i, h1, by omega, (hchild n i).mpr (by rw [if_neg (by omega)]; exact h4), fun j h6 h7 h8 => ?_⟩
        rw [hchild] at h8
        by_cases hjc : j = c
        · rw [if_pos hjc] at h8
          rcases h8 with rfl | rfl
          · exact absurd ((hmem a).mpr (.inl rfl)) hnl
          · exact absurd ((hmem b).mpr (.inr (.inl rfl))) hnl
        · rw [if_neg hjc] at h8
          exact h5 j h6 (by omega) h8
    · rw [perm_sum hins, List.map_cons, List.sum_cons, ← sum_map_congr hkeys, hnewkey, htot]
    · intro i hi
      rw [f3, s3, l3, r3, withNode_freq, withNode_sym, withNode_left, withNode_right, hc2, f2, s2, l2, r2]
      simp only [if_neg (by omega : ¬ i = c)]
      exact hf.stale i (by omega)
  · rw [hins.length_eq]
    have := hperm.length_eq
    simp only [List.length_cons] at this ⊢; omega

/-! ### The whole body -/

/-- BUILD body on a valid entry list (43_tree_builder.md R167): it ends with a forest of one tree, whose root is ROOT. -/
theorem bodyBuild_spec (s : State) (h1 : 1 ≤ s.k.toNat) (hk : s.k.toNat ≤ 256) :
    ∃ u t, bodyBuild s = .ok () t ∧ Forest s u s.k.toNat (2 * s.k.toNat - 1) [t.root] ∧ t = { u with root := t.root } := by
  have hload := forEach_holds (Q := fun _ => False) (F := fun _ => False) (turn := loadTurn) (List.range s.k.toNat)
    (fun i u => ∃ l, Forest s u i i l) { pqClear s with nodeCnt := 0, root := Config.nil } ⟨[], forest_start s⟩
    (fun i hi u ⟨l, hf⟩ => by
      rw [List.getElem_range]
      rw [List.length_range] at hi
      obtain ⟨v, l', hv, hf'⟩ := hf.load (by omega)
      rw [hv]; exact ⟨l', hf'⟩)
  obtain ⟨_, u, hu, l, hf⟩ := hload.result
  rw [List.length_range] at hf
  have hbal := hf.balance
  have hmerge := whileLoop_holds (Q := fun _ => False) (F := fun _ => False) (cond := fun s => !pqIsSingleton s)
    (turn := mergeTurn) 256 (fun n v => ∃ c l, Forest s v s.k.toNat c l ∧ 1 ≤ l.length ∧ l.length ≤ n + 1) u
    ⟨s.k.toNat, l, hf, by omega, by omega⟩
    (fun n v ⟨c, l, hf, hl, hn⟩ hcond => by
      have hne : ¬ l.length = 1 := fun e => by
        rw [(pqIsSingleton_iff hf.heap).mpr e] at hcond; cases hcond
      obtain ⟨w, l', hw, hf', hl'⟩ := hf.merge hk (by omega)
      rw [hw]; exact ⟨c + 1, l', hf', by omega, by omega⟩)
    (fun v ⟨c, l, hf, hl, hn⟩ hcond => by
      rw [(pqIsSingleton_iff hf.heap).mpr (by omega)] at hcond; cases hcond)
  obtain ⟨_, v, hv, hcond, _, c, l', hf', hl', -⟩ := hmerge.result
  have hone : l'.length = 1 := (pqIsSingleton_iff hf'.heap).mp (by simpa using hcond)
  obtain ⟨r, rfl⟩ := List.length_eq_one_iff.mp hone
  have hbal' := hf'.balance
  have hc : c = 2 * s.k.toNat - 1 := by simp at hbal'; omega
  refine ⟨v, { v with root := r }, ?_, hc ▸ hf', rfl⟩
  unfold bodyBuild
  rw [hu, Res.bind_ok, hv, Res.bind_ok, heapAt_ok hf'.heap (by simp), Res.bind_ok]
  rfl

/-- What a finished forest is: the tree of the entry list (43_tree_builder.md R170, R172). -/
theorem forest_tree {s u t : State} (h1 : 1 ≤ s.k.toNat) (hk : s.k.toNat ≤ 256)
    (hf : Forest s u s.k.toNat (2 * s.k.toNat - 1) [t.root]) (ht : t = { u with root := t.root }) : TreeOk t := by
  have ek : t.k = s.k := by rw [ht, hf.change]
  have hkey : keyOf t = keyOf u := keyOf_congr (by rw [ht])
  have efreq : t.nodeFreq = u.nodeFreq := by rw [ht]
  have esym : t.nodeSym = u.nodeSym := by rw [ht]
  have eleft : t.nodeLeft = u.nodeLeft := by rw [ht]
  have eright : t.nodeRight = u.nodeRight := by rw [ht]
  have ecnt : t.nodeCnt = u.nodeCnt := by rw [ht]
  have es : t.entSym = s.entSym := by rw [ht, hf.change]
  have ef : t.entFreq = s.entFreq := by rw [ht, hf.change]
  have hrlt := hf.created t.root (by simp)
  -- the last node has no parent, so it is the root
  have hroot : t.root.toNat = 2 * s.k.toNat - 2 := by
    by_contra hne
    have hz : (BitVec.ofNat 9 (2 * s.k.toNat - 2)).toNat = 2 * s.k.toNat - 2 := by
      rw [BitVec.toNat_ofNat]; exact Nat.mod_eq_of_lt (by omega)
    have hno : BitVec.ofNat 9 (2 * s.k.toNat - 2) ∉ [t.root] := fun h => by
      rw [List.mem_singleton] at h
      rw [← h, hz] at hne; exact hne rfl
    obtain ⟨i, hi, hi', hch, -⟩ := hf.parent _ (by omega) hno
    obtain ⟨x, y, hj⟩ := hf.inner i hi hi'
    have hx := hj.leftLt
    have hy := hj.rightLt
    rcases hch with e | e
    · rw [hj.left] at e
      have := congrArg BitVec.toNat (Option.some.inj e); omega
    · rw [hj.right] at e
      have := congrArg BitVec.toNat (Option.some.inj e); omega
  refine ⟨by rw [ek]; exact ⟨h1, hk⟩, by rw [ecnt, hf.count, ek], by rw [hroot, ek], ?_, ?_, ?_⟩
  · intro i hi
    rw [ek] at hi
    rw [efreq, esym, eleft, eright, es, ef]
    exact hf.leaves i hi
  · intro i hi hi'
    rw [ek] at hi hi'
    obtain ⟨x, y, hj⟩ := hf.inner i hi hi'
    obtain ⟨f, hf1, hf2⟩ := hj.freq
    have hx := hj.leftLt
    have hy := hj.rightLt
    have hc : u.nodeCnt.toNat < 512 := u.nodeCnt.isLt
    rw [efreq, esym, eleft, eright]
    refine ⟨x, y, u.nodeFreq[x.toNat]'(by omega), u.nodeFreq[y.toNat]'(by omega), f, hj.left, hj.right, hx, hy, hj.differ,
      hj.sym, Vector.getElem?_eq_getElem _, Vector.getElem?_eq_getElem _, hf1, ?_⟩
    rw [hf2, keyOf_eq (by omega), keyOf_eq (by omega)]
  · intro n hn
    rw [ek] at hn
    have hno : n ∉ [t.root] := fun h => by
      rw [List.mem_singleton] at h
      rw [h, hroot] at hn; omega
    obtain ⟨i, hi, hi', hch, huniq⟩ := hf.parent n (by omega) hno
    refine ⟨i, by rw [ek]; omega, by rw [eleft, eright]; exact hch, fun j hj hch' => ?_⟩
    rw [ek] at hj
    rw [eleft, eright] at hch'
    by_cases hjk : j < s.k.toNat
    · obtain ⟨-, -, hl, hr⟩ := hf.leaves j hjk
      exact absurd hch' (not_childOf_nil hl hr (by omega))
    · exact huniq j (by omega) hj hch'

end Sys2Proof.Machine
end

