-- ==== Sys2Proof/Laws/BuildTwin.lean ====
section
/-! SUPPORT. BUILD depends on the entry list alone: two runs on equal entry lists make the same forest turn by turn
(43_tree_builder.md R169). -/

namespace Sys2Proof.Machine

/-- The states agree on the nodes below `c`. -/
structure Agree (u v : State) (c : Nat) : Prop where
  count : v.nodeCnt = u.nodeCnt
  freq : ∀ i, i < c → v.nodeFreq[i]? = u.nodeFreq[i]?
  sym : ∀ i, i < c → v.nodeSym[i]? = u.nodeSym[i]?
  left : ∀ i, i < c → v.nodeLeft[i]? = u.nodeLeft[i]?
  right : ∀ i, i < c → v.nodeRight[i]? = u.nodeRight[i]?

theorem Agree.key {u v : State} {c : Nat} (h : Agree u v c) {n : Ref} (hn : n.toNat < c) : keyOf v n = keyOf u n := by
  unfold keyOf; rw [h.freq _ hn]

theorem agree_withNode {u v : State} {c : Nat} (h : Agree u v c) (hc : u.nodeCnt.toNat = c) {freq freq' : Freq}
    (hf : freq' = freq) {sym : Byte} {l r r' : Ref} (hr : r' = r) {hu : u.nodeCnt.toNat < 511}
    {hv : v.nodeCnt.toNat < 511} :
    Agree (withNode freq sym l r u hu) (withNode freq' sym l r' v hv) (c + 1) := by
  subst hf hr
  refine ⟨?_, fun i hi => ?_, fun i hi => ?_, fun i hi => ?_, fun i hi => ?_⟩
  · show v.nodeCnt + 1 = u.nodeCnt + 1
    rw [h.count]
  · rw [withNode_freq, withNode_freq, h.count, hc]
    split
    · rfl
    · exact h.freq i (by omega)
  · rw [withNode_sym, withNode_sym, h.count, hc]
    split
    · rfl
    · exact h.sym i (by omega)
  · rw [withNode_left, withNode_left, h.count, hc]
    split
    · rfl
    · exact h.left i (by omega)
  · rw [withNode_right, withNode_right, h.count, hc]
    split
    · rfl
    · exact h.right i (by omega)

theorem agree_queue {u v u' v' : State} {c : Nat} {l l' : List Ref} (h : Agree u v c) (hu : QueueStep u u' l)
    (hv : QueueStep v v' l') : Agree u' v' c := by
  obtain ⟨f1, s1, l1, r1, c1⟩ := queue_change_nodes hu.change
  obtain ⟨f2, s2, l2, r2, c2⟩ := queue_change_nodes hv.change
  refine ⟨by rw [c1, c2, h.count], ?_, ?_, ?_, ?_⟩
  · rw [f1, f2]; exact h.freq
  · rw [s1, s2]; exact h.sym
  · rw [l1, l2]; exact h.left
  · rw [r1, r2]; exact h.right

theorem load_agree {s s' u v : State} {i : Nat} {l : List Ref} (hu : Forest s u i i l) (hv : Forest s' v i i l)
    (ha : Agree u v i) (hi : i < 256) (hs : s'.entSym[i] = s.entSym[i]) (hf : s'.entFreq[i] = s.entFreq[i]) :
    ∃ u' v' l', loadTurn i u = .ok () u' ∧ loadTurn i v = .ok () v' ∧ Forest s u' (i + 1) (i + 1) l' ∧
      Forest s' v' (i + 1) (i + 1) l' ∧ Agree u' v' (i + 1) := by
  obtain ⟨cu, u', eu, qu⟩ := loadTurn_ok hu hi
  obtain ⟨cv, v', ev, qv⟩ := loadTurn_ok hv hi
  obtain ⟨u1, lu, eu', fu⟩ := hu.load hi
  obtain ⟨v1, lv, ev', fv⟩ := hv.load hi
  rw [eu] at eu'; cases eu'
  rw [ev] at ev'; cases ev'
  have hagree : Agree u' v' (i + 1) := agree_queue (by
    rw [hs]; exact agree_withNode ha hu.count (by rw [hf]) rfl) qu qv
  have hl : lv = lu := by
    rw [← fu.heap.list, ← fv.heap.list, qu.holds.list, qv.holds.list, ha.count]
    refine insertL_congr fun m hm => hagree.key ?_
    rcases List.mem_cons.mp hm with rfl | hm
    · rw [hu.count]; omega
    · have := hu.created m hm; omega
  subst hl
  exact ⟨u', v', lv, eu, ev, fu, fv, hagree⟩

theorem merge_agree {s s' u v : State} {k c : Nat} {l : List Ref} (hu : Forest s u k c l) (hv : Forest s' v k c l)
    (ha : Agree u v c) (hk : k ≤ 256) (h2 : 2 ≤ l.length) :
    ∃ u' v' l', mergeTurn u = .ok () u' ∧ mergeTurn v = .ok () v' ∧ Forest s u' k (c + 1) l' ∧
      Forest s' v' k (c + 1) l' ∧ l'.length + 1 = l.length ∧ Agree u' v' (c + 1) := by
  have hbal := hu.balance
  have hcu := hu.count
  have hcv := hv.count
  obtain ⟨u2, u', cu, ua, ub, qu2, eu, qu⟩ := mergeTurn_ok hu.heap h2 (by omega)
  obtain ⟨v2, v', cv, va, vb, qv2, ev, qv⟩ := mergeTurn_ok hv.heap h2 (by omega)
  obtain ⟨u1, lu, eu', fu, hlu⟩ := hu.merge hk h2
  obtain ⟨v1, lv, ev', fv, -⟩ := hv.merge hk h2
  rw [eu] at eu'; cases eu'
  rw [ev] at ev'; cases ev'
  have hkey : ∀ n ∈ l, keyOf v n = keyOf u n := fun n hn => ha.key (hu.created n hn)
  have hx : extractL (keyOf v) l = extractL (keyOf u) l := extractL_congr hkey
  have h1 : ∀ n ∈ extractL (keyOf u) l, n ∈ l := fun n hn =>
    (extractL_perm (keyOf u) (l := l) (by omega)).mem_iff.mp (List.mem_cons_of_mem _ hn)
  have hsec : secondMin (keyOf v) l = secondMin (keyOf u) l := by unfold secondMin; rw [hx]
  have hrest : restMin (keyOf v) l = restMin (keyOf u) l := by
    unfold restMin; rw [hx]; exact extractL_congr fun n hn => hkey n (h1 n hn)
  have hperm := merge_perm (keyOf u) h2
  have hac : (firstMin l).toNat < c := hu.created _ (hperm.mem_iff.mp (by simp))
  have hbc : (secondMin (keyOf u) l).toNat < c := hu.created _ (hperm.mem_iff.mp (by simp))
  have hrc : ∀ n ∈ restMin (keyOf u) l, n.toNat < c := fun n hn =>
    hu.created _ (hperm.mem_iff.mp (List.mem_cons_of_mem _ (List.mem_cons_of_mem _ hn)))
  have ha2 : Agree u2 v2 c := agree_queue ha qu2 qv2
  have hc2 : u2.nodeCnt.toNat = c := by
    rw [(queue_change_nodes qu2.change).2.2.2.2, hcu]
  have word : ∀ (n : Ref) (h h' : n.toNat < 511), n.toNat < c → v.nodeFreq[n.toNat]'h = u.nodeFreq[n.toNat]'h' :=
    fun n h h' hn => by
      have := ha.freq n.toNat hn
      rw [Vector.getElem?_eq_getElem h, Vector.getElem?_eq_getElem h'] at this
      exact Option.some.inj this
  have hagree : Agree u' v' (c + 1) := by
    refine agree_queue ?_ qu qv
    have hsum : v.nodeFreq[(firstMin l).toNat]'va + v.nodeFreq[(secondMin (keyOf v) l).toNat]'vb =
        u.nodeFreq[(firstMin l).toNat]'ua + u.nodeFreq[(secondMin (keyOf u) l).toNat]'ub := by
      simp only [hsec]
      rw [word _ va ua hac, word _ (hsec ▸ vb) ub hbc]
    exact agree_withNode ha2 hc2 hsum hsec
  have hl : lv = lu := by
    rw [← fu.heap.list, ← fv.heap.list, qu.holds.list, qv.holds.list, ha2.count, hrest]
    refine insertL_congr fun m hm => hagree.key ?_
    rcases List.mem_cons.mp hm with rfl | hm
    · omega
    · have := hrc m hm; omega
  subst hl
  exact ⟨u', v', lv, eu, ev, fu, fv, hlu, hagree⟩

theorem load_loop_agree {s s' : State} (xs : List Nat) : ∀ (i : Nat) (u v : State) (l : List Ref),
    xs = List.range' i xs.length → Forest s u i i l → Forest s' v i i l → Agree u v i → i + xs.length ≤ 256 →
    (∀ j (_ : j < i + xs.length) (h : j < 256), s'.entSym[j] = s.entSym[j] ∧ s'.entFreq[j] = s.entFreq[j]) →
    ∃ u' v' l', forEach loadTurn xs u = .ok () u' ∧ forEach loadTurn xs v = .ok () v' ∧
      Forest s u' (i + xs.length) (i + xs.length) l' ∧ Forest s' v' (i + xs.length) (i + xs.length) l' ∧
      Agree u' v' (i + xs.length) := by
  induction xs with
  | nil => intro i u v l _ hu hv ha _ _; exact ⟨u, v, l, rfl, rfl, hu, hv, ha⟩
  | cons x xs ih =>
    intro i u v l hx hu hv ha hlen hent
    rw [List.length_cons, List.range'_succ, List.cons.injEq] at hx
    obtain ⟨rfl, hx⟩ := hx
    rw [List.length_cons] at hlen hent
    obtain ⟨hs, hf⟩ := hent x (by omega) (by omega)
    obtain ⟨u1, v1, l1, eu, ev, fu, fv, ha1⟩ := load_agree hu hv ha (by omega) hs hf
    obtain ⟨u2, v2, l2, eu2, ev2, r⟩ := ih (x + 1) u1 v1 l1 hx fu fv ha1 (by omega)
      (fun j hj h => hent j (by omega) h)
    refine ⟨u2, v2, l2, ?_, ?_, ?_⟩
    · rw [forEach_cons, eu, Res.bind_ok, eu2]
    · rw [forEach_cons, ev, Res.bind_ok, ev2]
    · rw [List.length_cons, show x + (xs.length + 1) = x + 1 + xs.length by omega]; exact r

theorem merge_loop_agree {s s' : State} {k : Nat} (hk : k ≤ 256) (n : Nat) : ∀ (c : Nat) (u v : State) (l : List Ref),
    Forest s u k c l → Forest s' v k c l → Agree u v c → 1 ≤ l.length → l.length ≤ n + 1 →
    ∃ u' v' r, whileLoop (fun s => !pqIsSingleton s) mergeTurn n u = .ok () u' ∧
      whileLoop (fun s => !pqIsSingleton s) mergeTurn n v = .ok () v' ∧
      Forest s u' k (2 * k - 1) [r] ∧ Forest s' v' k (2 * k - 1) [r] ∧ Agree u' v' (2 * k - 1) := by
  have done : ∀ (n c : Nat) (u v : State) (l : List Ref), Forest s u k c l → Forest s' v k c l → Agree u v c →
      l.length = 1 → ∃ u' v' r, whileLoop (fun s => !pqIsSingleton s) mergeTurn n u = .ok () u' ∧
        whileLoop (fun s => !pqIsSingleton s) mergeTurn n v = .ok () v' ∧
        Forest s u' k (2 * k - 1) [r] ∧ Forest s' v' k (2 * k - 1) [r] ∧ Agree u' v' (2 * k - 1) := by
    intro n c u v l hu hv ha hone
    have su := (pqIsSingleton_iff hu.heap).mpr hone
    have sv := (pqIsSingleton_iff hv.heap).mpr hone
    have hbal := hu.balance
    obtain ⟨r, rfl⟩ := List.length_eq_one_iff.mp hone
    have hc : c = 2 * k - 1 := by simp at hbal; omega
    refine ⟨u, v, r, ?_, ?_, hc ▸ hu, hc ▸ hv, hc ▸ ha⟩ <;> cases n <;> unfold whileLoop <;> simp [su, sv]
  induction n with
  | zero => intro c u v l hu hv ha h1 h2; exact done 0 c u v l hu hv ha (by omega)
  | succ n ih =>
    intro c u v l hu hv ha h1 hn
    by_cases hone : l.length = 1
    · exact done (n + 1) c u v l hu hv ha hone
    · obtain ⟨u1, v1, l1, eu, ev, fu, fv, hl, ha1⟩ := merge_agree hu hv ha hk (by omega)
      have su : pqIsSingleton u = false := by
        rw [Bool.eq_false_iff]; exact fun e => hone ((pqIsSingleton_iff hu.heap).mp e)
      have sv : pqIsSingleton v = false := by
        rw [Bool.eq_false_iff]; exact fun e => hone ((pqIsSingleton_iff hv.heap).mp e)
      obtain ⟨u2, v2, r, eu2, ev2, h⟩ := ih (c + 1) u1 v1 l1 fu fv ha1 (by omega) (by omega)
      refine ⟨u2, v2, r, ?_, ?_, h⟩
      · unfold whileLoop; simp only [su, Bool.not_false, if_true]; rw [eu, Res.bind_ok, eu2]
      · unfold whileLoop; simp only [sv, Bool.not_false, if_true]; rw [ev, Res.bind_ok, ev2]

/-- Equal entry lists are equal words below K. -/
theorem entryList_words {s u : State} (hk : u.k = s.k) (h : entryList u = entryList s) :
    ∀ j (_ : j < s.k.toNat) (h : j < 256), u.entSym[j] = s.entSym[j] ∧ u.entFreq[j] = s.entFreq[j] := by
  intro j hj hj'
  have hlu : j < ((u.entSym.toList.zip u.entFreq.toList).take u.k.toNat).length := by
    rw [hk, List.length_take, List.length_zip]; simp; omega
  have hls : j < ((s.entSym.toList.zip s.entFreq.toList).take s.k.toNat).length := by
    rw [List.length_take, List.length_zip]; simp; omega
  have h2 : ((u.entSym.toList.zip u.entFreq.toList).take u.k.toNat)[j]'hlu =
      ((s.entSym.toList.zip s.entFreq.toList).take s.k.toNat)[j]'hls := by
    unfold entryList at h
    simp only [h]
  simp only [List.getElem_take, List.getElem_zip, Vector.getElem_toList, Prod.mk.injEq] at h2
  exact h2

/-- BUILD on equal entry lists gives equal nodes, word for word. -/
theorem bodyBuild_agree {s s' : State} (h1 : 1 ≤ s.k.toNat) (hk : s.k.toNat ≤ 256) (hk' : s'.k = s.k)
    (he : entryList s' = entryList s) :
    ∃ u v t w, bodyBuild s = .ok () t ∧ bodyBuild s' = .ok () w ∧
      Forest s u s.k.toNat (2 * s.k.toNat - 1) [t.root] ∧ t = { u with root := t.root } ∧
      Forest s' v s.k.toNat (2 * s.k.toNat - 1) [t.root] ∧ w = { v with root := t.root } ∧
      Agree t w (2 * s.k.toNat - 1) := by
  have hent := entryList_words hk' he
  have hx : List.range s.k.toNat = List.range' 0 (List.range s.k.toNat).length := by
    rw [List.length_range, List.range_eq_range']
  have hlen : 0 + (List.range s.k.toNat).length ≤ 256 := by rw [List.length_range]; omega
  have hent' : ∀ j (_ : j < 0 + (List.range s.k.toNat).length) (h : j < 256),
      s'.entSym[j] = s.entSym[j] ∧ s'.entFreq[j] = s.entFreq[j] := fun j hj h =>
    hent j (by rw [List.length_range] at hj; omega) h
  obtain ⟨u1, v1, l1, eu1, ev1, fu1, fv1, ha1⟩ := load_loop_agree (List.range s.k.toNat) 0 _ _ [] hx
    (forest_start s) (forest_start s') ⟨rfl, fun i hi => by omega, fun i hi => by omega, fun i hi => by omega,
      fun i hi => by omega⟩ hlen hent'
  rw [List.length_range, Nat.zero_add] at fu1 fv1 ha1
  have hbal := fu1.balance
  obtain ⟨u2, v2, r, eu2, ev2, fu2, fv2, ha2⟩ := merge_loop_agree hk 256 _ u1 v1 l1 fu1 fv1 ha1 (by omega) (by omega)
  refine ⟨u2, v2, { u2 with root := r }, { v2 with root := r }, ?_, ?_, fu2, rfl, fv2, rfl,
    ⟨ha2.count, ha2.freq, ha2.sym, ha2.left, ha2.right⟩⟩
  · unfold bodyBuild
    rw [eu1, Res.bind_ok, eu2, Res.bind_ok, heapAt_ok fu2.heap (by simp), Res.bind_ok]
    rfl
  · unfold bodyBuild
    rw [hk', ev1, Res.bind_ok, ev2, Res.bind_ok, heapAt_ok fv2.heap (by simp), Res.bind_ok]
    rfl

end Sys2Proof.Machine
end

