-- ==== Sys2Proof/Laws/Tree.lean ====
section
/-! SUPPORT. The tree and the code table as properties of the NODE and CODE memories alone: two states that agree on them
have the same paths, trees and codes. -/

namespace Sys2Proof.Machine

/-- The states agree on the entry list, NODE, NODE_CNT and ROOT. -/
structure SameTree (s t : State) : Prop where
  k : t.k = s.k
  entSym : t.entSym = s.entSym
  entFreq : t.entFreq = s.entFreq
  nodeFreq : t.nodeFreq = s.nodeFreq
  nodeSym : t.nodeSym = s.nodeSym
  nodeLeft : t.nodeLeft = s.nodeLeft
  nodeRight : t.nodeRight = s.nodeRight
  nodeCnt : t.nodeCnt = s.nodeCnt
  root : t.root = s.root

theorem leafNode_congr {s t : State} (hl : t.nodeLeft = s.nodeLeft) (hr : t.nodeRight = s.nodeRight) (n : Ref) :
    leafNode t n = leafNode s n := by
  unfold leafNode; rw [hl, hr]

theorem follow_congr {s t : State} (hl : t.nodeLeft = s.nodeLeft) (hr : t.nodeRight = s.nodeRight) (n : Ref)
    (p : List Bool) : follow t n p = follow s n p := by
  induction p generalizing n with
  | nil => rfl
  | cons b p ih => simp only [follow, hl, hr, ih]

theorem SameTree.leafPath {s t : State} (h : SameTree s t) (p : List Bool) (b : Byte) :
    LeafPath t p b ↔ LeafPath s p b := by
  unfold LeafPath
  simp only [follow_congr h.nodeLeft h.nodeRight, leafNode_congr h.nodeLeft h.nodeRight, h.root, h.nodeSym]

theorem TreeOk.congr {s t : State} (h : SameTree s t) (hs : TreeOk s) : TreeOk t := by
  obtain ⟨h1, h2, h3, h4, h5, h6⟩ := hs
  constructor <;>
    simp only [h.k, h.entSym, h.entFreq, h.nodeFreq, h.nodeSym, h.nodeLeft, h.nodeRight, h.nodeCnt, h.root] <;>
    assumption

theorem codeOf_congr {s t : State} (hl : t.codeLen = s.codeLen) (hb : t.codeBits = s.codeBits) (b : Byte) :
    codeOf b t = codeOf b s := by
  unfold codeOf codeLenAt codeBitsAt
  simp only [hl, hb]

theorem CodeTableOk.congr {s t : State} (h : SameTree s t) (hl : t.codeLen = s.codeLen) (hb : t.codeBits = s.codeBits)
    (hs : CodeTableOk s) : CodeTableOk t := by
  obtain ⟨h1, h2, h3⟩ := hs
  refine ⟨?_, ?_, ?_⟩
  · intro b i
    have := h1 b i
    unfold codeLenAt codeBitsAt at *
    simpa only [hl, hb] using this
  · simpa only [leafNode_congr h.nodeLeft h.nodeRight, h.root, codeOf_congr hl hb, h.nodeSym] using h2
  · simpa only [leafNode_congr h.nodeLeft h.nodeRight, h.root, codeOf_congr hl hb, h.leafPath] using h3

/-! ### Following a path -/

@[simp] theorem follow_nil (s : State) (n : Ref) : follow s n [] = some n := rfl

theorem follow_append (s : State) (n : Ref) (p q : List Bool) :
    follow s n (p ++ q) = (follow s n p).bind fun m => follow s m q := by
  induction p generalizing n with
  | nil => rfl
  | cons b p ih =>
    simp only [List.cons_append, follow]
    split
    · rfl
    · split
      · rfl
      · exact ih _

/-- No path leads on from a leaf. -/
theorem follow_leaf {s : State} {n : Ref} (h : leafNode s n = true) (b : Bool) (p : List Bool) :
    follow s n (b :: p) = none := by
  unfold leafNode at h
  simp only [Bool.and_eq_true, decide_eq_true_eq] at h
  cases b <;> simp [follow, h]

/-- Two leaf paths, one of which begins the other, are the same path. -/
theorem leafPath_prefix {s : State} {p q : List Bool} {b c : Byte} (hp : LeafPath s p b) (hq : LeafPath s q c)
    (h : p <+: q) : p = q := by
  obtain ⟨n, hn, hl, -⟩ := hp
  obtain ⟨m, hm, -, -⟩ := hq
  obtain ⟨r, rfl⟩ := h
  rw [follow_append, hn] at hm
  cases r with
  | nil => simp
  | cons x r => simp [follow_leaf hl] at hm

end Sys2Proof.Machine
end

