-- ==== Sys2Proof/Laws/Paths.lean ====
section
/-! SUPPORT. Paths in a built tree: every leaf is reached by one path, of at most K − 1 edges (43_tree_builder.md R170). -/

namespace Sys2Proof.Machine

theorem nil_toNat : Config.nil.toNat = 511 := rfl

/-- The two children of an internal node, and what its words say. -/
theorem TreeOk.children {s : State} (h : TreeOk s) {n : Ref} (hk : s.k.toNat ≤ n.toNat) (hn : n.toNat < 2 * s.k.toNat - 1) :
    ∃ l r, s.nodeLeft[n.toNat]? = some l ∧ s.nodeRight[n.toNat]? = some r ∧ l.toNat < n.toNat ∧ r.toNat < n.toNat ∧
      l ≠ r ∧ l ≠ Config.nil ∧ r ≠ Config.nil := by
  obtain ⟨l, r, -, -, -, hl, hr, hln, hrn, hlr, -⟩ := h.inner n.toNat hk hn
  have hb := h.kRange
  refine ⟨l, r, hl, hr, hln, hrn, hlr, fun e => ?_, fun e => ?_⟩
  · rw [e, nil_toNat] at hln; omega
  · rw [e, nil_toNat] at hrn; omega

/-- A node of the tree is a leaf iff it is one of the first K (43_tree_builder.md R170). -/
theorem TreeOk.leaf_iff {s : State} (h : TreeOk s) {n : Ref} (hn : n.toNat < 2 * s.k.toNat - 1) :
    leafNode s n = true ↔ n.toNat < s.k.toNat := by
  constructor
  · intro hl
    by_contra hk
    obtain ⟨l, r, e, -, -, -, -, hne, -⟩ := h.children (by omega) hn
    unfold leafNode at hl
    simp only [Bool.and_eq_true, decide_eq_true_eq] at hl
    rw [e] at hl
    exact hne (Option.some.inj hl.1)
  · intro hk
    obtain ⟨-, -, hl, hr⟩ := h.leaves n.toNat hk
    unfold leafNode
    rw [hl, hr]; rfl

theorem TreeOk.root_lt {s : State} (h : TreeOk s) : s.root.toNat < 2 * s.k.toNat - 1 := by
  have := h.root
  have := h.kRange
  omega

/-- The child a bit leads to. -/
def childAt (s : State) (n : Ref) (b : Bool) : Option Ref := if b then s.nodeRight[n.toNat]? else s.nodeLeft[n.toNat]?

theorem follow_cons_some {s : State} {n c : Ref} {b : Bool} {p : List Bool} (hc : childAt s n b = some c)
    (hne : c ≠ Config.nil) : follow s n (b :: p) = follow s c p := by
  unfold childAt at hc
  simp only [follow, hc, if_neg hne]

theorem TreeOk.child {s : State} (h : TreeOk s) {n : Ref} (hk : s.k.toNat ≤ n.toNat) (hn : n.toNat < 2 * s.k.toNat - 1)
    (b : Bool) : ∃ c, childAt s n b = some c ∧ c.toNat < n.toNat ∧ c ≠ Config.nil := by
  obtain ⟨l, r, el, er, hl, hr, -, nl, nr⟩ := h.children hk hn
  cases b
  · exact ⟨l, el, hl, nl⟩
  · exact ⟨r, er, hr, nr⟩

/-- A path of a built tree ends at a node of the tree, and has no more edges than there are internal nodes on the way. -/
theorem TreeOk.follow_bound {s : State} (h : TreeOk s) (p : List Bool) : ∀ (n m : Ref), n.toNat < 2 * s.k.toNat - 1 →
    follow s n p = some m → m.toNat < 2 * s.k.toNat - 1 ∧ p.length ≤ n.toNat + 1 - s.k.toNat ∧ m.toNat + p.length ≤ n.toNat := by
  induction p with
  | nil =>
    intro n m hn e
    cases e
    exact ⟨hn, by simp, by simp⟩
  | cons b p ih =>
    intro n m hn e
    by_cases hk : n.toNat < s.k.toNat
    · rw [follow_leaf ((h.leaf_iff hn).mpr hk)] at e; cases e
    · obtain ⟨c, hc, hlt, hne⟩ := h.child (by omega) hn b
      rw [follow_cons_some hc hne] at e
      obtain ⟨h1, h2, h3⟩ := ih c m (by omega) e
      simp only [List.length_cons]
      exact ⟨h1, by omega, by omega⟩

/-- The last edge of a path. -/
theorem follow_snoc {s : State} {n m : Ref} {p : List Bool} {b : Bool} (e : follow s n (p ++ [b]) = some m) :
    ∃ j, follow s n p = some j ∧ childAt s j b = some m := by
  rw [follow_append] at e
  cases hj : follow s n p with
  | none => rw [hj] at e; cases e
  | some j =>
    rw [hj] at e
    refine ⟨j, rfl, ?_⟩
    unfold childAt
    simp only [Option.bind_some, follow] at e
    split at e
    · cases e
    · split at e
      · cases e
      · rename_i hc _
        rw [hc]; exact e

theorem childAt_child {s : State} {j m : Ref} {b : Bool} (h : childAt s j b = some m) :
    s.nodeLeft[j.toNat]? = some m ∨ s.nodeRight[j.toNat]? = some m := by
  unfold childAt at h
  cases b
  · exact .inl h
  · exact .inr h

/-- One path to each node (43_tree_builder.md R170: every node except ROOT is the child of exactly one node). -/
theorem TreeOk.path_unique {s : State} (h : TreeOk s) (n : Nat) : ∀ (p q : List Bool) (m : Ref), p.length = n →
    follow s s.root p = some m → follow s s.root q = some m → p = q := by
  have hroot := h.root
  induction n with
  | zero =>
    intro p q m hp e1 e2
    obtain rfl := List.length_eq_zero_iff.mp hp
    cases e1
    have := (h.follow_bound q _ _ h.root_lt e2).2.2
    exact (List.length_eq_zero_iff.mp (by omega)).symm
  | succ n ih =>
    intro p q m hp e1 e2
    have hpne : p ≠ [] := fun e => by rw [e] at hp; cases hp
    have hb1 := h.follow_bound p _ _ h.root_lt e1
    have hqne : q ≠ [] := fun e => by
      rw [e] at e2; cases e2
      have := hb1.2.2; omega
    obtain ⟨p', b, rfl⟩ : ∃ p' b, p = p' ++ [b] := ⟨p.dropLast, p.getLast hpne, (List.dropLast_concat_getLast hpne).symm⟩
    obtain ⟨q', c, rfl⟩ : ∃ q' c, q = q' ++ [c] := ⟨q.dropLast, q.getLast hqne, (List.dropLast_concat_getLast hqne).symm⟩
    obtain ⟨i, hi, ci⟩ := follow_snoc e1
    obtain ⟨j, hj, cj⟩ := follow_snoc e2
    have bi := h.follow_bound _ _ _ h.root_lt hi
    have bj := h.follow_bound _ _ _ h.root_lt hj
    simp only [List.length_append, List.length_singleton] at hp hb1
    obtain ⟨a, -, -, huniq⟩ := h.parent m (by omega)
    have ei := huniq i.toNat bi.1 (childAt_child ci)
    have ej := huniq j.toNat bj.1 (childAt_child cj)
    obtain rfl : i = j := BitVec.eq_of_toNat_eq (by omega)
    have hpq := ih p' q' i (by omega) hi hj
    have hbc : b = c := by
      have hki : ¬ i.toNat < s.k.toNat := fun hk => by
        obtain ⟨-, -, hl, hr⟩ := h.leaves _ hk
        have hm : m = Config.nil := by
          rcases childAt_child ci with e | e
          · rw [hl] at e; exact (Option.some.inj e).symm
          · rw [hr] at e; exact (Option.some.inj e).symm
        rw [hm, nil_toNat] at hb1
        have := h.kRange; omega
      obtain ⟨l, r, el, er, -, -, hlr, -⟩ := h.children (by omega) bi.1
      unfold childAt at ci cj
      cases b <;> cases c
      · rfl
      · simp only [Bool.false_eq_true, if_false, if_true] at ci cj
        rw [el] at ci; rw [er] at cj
        exact absurd (Option.some.inj (ci.trans cj.symm)) hlr
      · simp only [Bool.false_eq_true, if_false, if_true] at ci cj
        rw [er] at ci; rw [el] at cj
        exact absurd (Option.some.inj (cj.trans ci.symm)) hlr
      · rfl
    rw [hpq, hbc]

/-- A path to each node. -/
theorem TreeOk.path_exists {s : State} (h : TreeOk s) (d : Nat) : ∀ m : Ref, m.toNat < 2 * s.k.toNat - 1 →
    s.root.toNat ≤ m.toNat + d → ∃ p, follow s s.root p = some m := by
  have hroot := h.root
  induction d with
  | zero =>
    intro m hm hd
    obtain rfl : m = s.root := BitVec.eq_of_toNat_eq (by omega)
    exact ⟨[], rfl⟩
  | succ d ih =>
    intro m hm hd
    by_cases hr : m.toNat = 2 * s.k.toNat - 2
    · obtain rfl : m = s.root := BitVec.eq_of_toNat_eq (by omega)
      exact ⟨[], rfl⟩
    · obtain ⟨i, hi, hc, -⟩ := h.parent m (by omega)
      have hkr := h.kRange
      have hij : (BitVec.ofNat 9 i).toNat = i := by rw [BitVec.toNat_ofNat]; exact Nat.mod_eq_of_lt (by omega)
      have hmnil : m ≠ Config.nil := fun e => by rw [e, nil_toNat] at hm; omega
      have hki : s.k.toNat ≤ i := by
        by_contra hk
        obtain ⟨-, -, hl, hr⟩ := h.leaves i (by omega)
        rw [hl, hr] at hc
        rcases hc with e | e <;> exact hmnil (Option.some.inj e).symm
      obtain ⟨l, r, el, er, hl, hr', -⟩ := h.children (n := BitVec.ofNat 9 i) (by omega) (by omega)
      rw [hij] at el er hl hr'
      obtain ⟨b, hb⟩ : ∃ b, childAt s (BitVec.ofNat 9 i) b = some m := by
        unfold childAt
        rw [hij]
        rcases hc with e | e
        · exact ⟨false, e⟩
        · exact ⟨true, e⟩
      have hmi : m.toNat < i := by
        rcases hc with e | e
        · rw [el] at e; cases e; exact hl
        · rw [er] at e; cases e; exact hr'
      obtain ⟨p, hp⟩ := ih (BitVec.ofNat 9 i) (by omega) (by omega)
      refine ⟨p ++ [b], ?_⟩
      rw [follow_append, hp]
      exact follow_cons_some hb hmnil

/-- The path to a leaf has at most K − 1 edges. -/
theorem TreeOk.leaf_path {s : State} (h : TreeOk s) {m : Ref} (hm : m.toNat < s.k.toNat) :
    ∃ p, follow s s.root p = some m ∧ p.length ≤ s.k.toNat - 1 ∧ ∀ q, follow s s.root q = some m → q = p := by
  have hroot := h.root
  obtain ⟨p, hp⟩ := h.path_exists s.root.toNat m (by omega) (by omega)
  have hb := h.follow_bound p _ _ h.root_lt hp
  exact ⟨p, hp, by omega, fun q hq => h.path_unique _ q p m rfl hq hp⟩

/-- The leaf paths of a built tree: one for each entry. -/
theorem TreeOk.leafPath_iff {s : State} (h : TreeOk s) (p : List Bool) (b : Byte) :
    LeafPath s p b ↔ ∃ m : Ref, m.toNat < s.k.toNat ∧ follow s s.root p = some m ∧ s.entSym[m.toNat]? = some b := by
  unfold LeafPath
  constructor
  · rintro ⟨n, hf, hl, hs⟩
    have hb := h.follow_bound p _ _ h.root_lt hf
    have hk := (h.leaf_iff hb.1).mp hl
    exact ⟨n, hk, hf, by rw [← (h.leaves _ hk).2.1]; exact hs⟩
  · rintro ⟨n, hk, hf, hs⟩
    refine ⟨n, hf, (h.leaf_iff (by omega)).mpr hk, ?_⟩
    rw [(h.leaves _ hk).2.1]; exact hs

end Sys2Proof.Machine
end

