-- ==== Sys2Proof/Laws/CodeTable.lean ====
section
/-! SUPPORT. The walk of CODEGEN and the code table it leaves (44_code_table.md). -/

namespace Sys2Proof.Machine

/-! ### Code words -/

/-- The CODE words of a byte hold this bit string. -/
def CodeIs (b : Byte) (p : List Bool) (u : State) : Prop :=
  codeLenAt b u = BitVec.ofNat 8 p.length ∧ codeBitsAt b u = (BitVec.ofBoolListLE p).setWidth 255

/-- The CODE words of a byte are those of another state. -/
def CodeKept (b : Byte) (u v : State) : Prop := codeLenAt b v = codeLenAt b u ∧ codeBitsAt b v = codeBitsAt b u

theorem codeIs_bits {b : Byte} {p : List Bool} {u : State} (h : CodeIs b p u) (hp : p.length ≤ 255) :
    codeOf b u = p ∧ (codeLenAt b u).toNat = p.length ∧
      ∀ i, (codeLenAt b u).toNat ≤ i → (codeBitsAt b u).getLsbD i = false := by
  have hl : (codeLenAt b u).toNat = p.length := by
    rw [h.1, BitVec.toNat_ofNat]; exact Nat.mod_eq_of_lt (by omega)
  have hb : ∀ i, (codeBitsAt b u).getLsbD i = p.getD i false := fun i => by
    rw [h.2, BitVec.getLsbD_setWidth, BitVec.getLsbD_ofBoolListLE]
    by_cases hi : i < 255
    · simp [hi]
    · rw [List.getD_eq_default _ _ (by omega)]; simp
  refine ⟨?_, hl, fun i hi => ?_⟩
  · unfold codeOf
    rw [hl]
    apply List.ext_getElem
    · simp
    · intro i h1 h2
      rw [List.getElem_map, List.getElem_range, hb, List.getD_eq_getElem _ _ h2]
  · rw [hb, List.getD_eq_default _ _ (by omega)]

theorem setCode_self (b : Byte) (p : List Bool) (u : State) : CodeIs b p (setCode b p u) := by
  unfold CodeIs codeLenAt codeBitsAt setCode
  constructor <;> exact Vector.getElem_set_self _

theorem setCode_other {b c : Byte} (h : b ≠ c) (p : List Bool) (u : State) : CodeKept c u (setCode b p u) := by
  have hne : b.toNat ≠ c.toNat := fun e => h (BitVec.eq_of_toNat_eq e)
  unfold CodeKept codeLenAt codeBitsAt setCode
  exact ⟨Vector.getElem_set_ne b.isLt c.isLt hne, Vector.getElem_set_ne b.isLt c.isLt hne⟩

/-! ### The walk -/

/-- `q` leads from node `n` to a leaf that carries `b`. -/
def SubLeaf (s : State) (n : Ref) (q : List Bool) (b : Byte) : Prop :=
  ∃ m, follow s n q = some m ∧ leafNode s m = true ∧ s.nodeSym[m.toNat]? = some b

/-- What the walk of the subtree below `n`, entered with `path`, does to the code of `b`: the path of the rightmost leaf
that carries it, or nothing. -/
def WalkDone (s : State) (n : Ref) (path : List Bool) (u v : State) (b : Byte) : Prop :=
  (∃ q, SubLeaf s n q b ∧ (∀ q', SubLeaf s n q' b → q' = q ∨ leftOf q' q = true) ∧ CodeIs b (path ++ q) v) ∨
  ((∀ q, ¬ SubLeaf s n q b) ∧ CodeKept b u v)

theorem isLeaf_ok {s u : State} (h : TreeOk s) (hu : CodeChange s u) {n : Ref} (hn : n.toNat < 2 * s.k.toNat - 1) :
    isLeaf n u = .ok (leafNode s n) u := by
  have hk := h.kRange
  have hl : n.toNat < 511 := by omega
  have el : u.nodeLeft = s.nodeLeft := by rw [hu]
  have er : u.nodeRight = s.nodeRight := by rw [hu]
  unfold isLeaf nodeLeftAt nodeRightAt
  rw [fetchWord_ok hl, Res.bind_ok, fetchWord_ok hl, Res.bind_ok]
  unfold leafNode
  simp only [el, er, Vector.getElem?_eq_getElem hl, Option.some.injEq]

theorem subLeaf_leaf {s : State} {n : Ref} (hl : leafNode s n = true) {q : List Bool} {b : Byte} (h : SubLeaf s n q b) :
    q = [] ∧ s.nodeSym[n.toNat]? = some b := by
  obtain ⟨m, hf, hm, hs⟩ := h
  cases q with
  | nil => cases hf; exact ⟨rfl, hs⟩
  | cons x q => rw [follow_leaf hl] at hf; cases hf

theorem walk_ok {s : State} (h : TreeOk s) (bound : Nat) : ∀ (n : Ref) (path : List Bool) (u : State), CodeChange s u →
    n.toNat < 2 * s.k.toNat - 1 → n.toNat + 1 - s.k.toNat < bound →
    ∃ v, walk bound n path u = .ok () v ∧ CodeChange s v ∧ ∀ b, WalkDone s n path u v b := by
  induction bound with
  | zero => intro n path u _ _ hb; omega
  | succ bound ih =>
    intro n path u hu hn hb
    have hk := h.kRange
    have hl511 : n.toNat < 511 := by omega
    have el : u.nodeLeft = s.nodeLeft := by rw [hu]
    have er : ∀ v, CodeChange s v → v.nodeRight = s.nodeRight := fun v hv => by rw [hv]
    have es : u.nodeSym = s.nodeSym := by rw [hu]
    unfold walk
    rw [isLeaf_ok h hu hn, Res.bind_ok]
    by_cases hleaf : leafNode s n = true
    · rw [if_pos hleaf]
      unfold nodeSymAt
      rw [fetchWord_ok hl511, Res.bind_ok]
      simp only [es]
      refine ⟨_, rfl, codeChange.trans _ _ _ hu rfl, fun b => ?_⟩
      have hsym : s.nodeSym[n.toNat]? = some s.nodeSym[n.toNat] := Vector.getElem?_eq_getElem hl511
      by_cases hb : s.nodeSym[n.toNat] = b
      · refine .inl ⟨[], ⟨n, rfl, hleaf, by rw [hsym, hb]⟩, fun q' hq' => .inl (subLeaf_leaf hleaf hq').1, ?_⟩
        rw [List.append_nil, hb]; exact setCode_self _ _ _
      · refine .inr ⟨fun q hq => ?_, setCode_other hb _ _⟩
        have := (subLeaf_leaf hleaf hq).2
        rw [hsym] at this
        exact hb (Option.some.inj this)
    · have hinner : ¬ n.toNat < s.k.toNat := fun hh => hleaf ((h.leaf_iff hn).mpr hh)
      obtain ⟨l, r, hl, hr, hln, hrn, -, hlnil, hrnil⟩ := h.children (by omega) hn
      rw [if_neg hleaf]
      unfold nodeLeftAt nodeRightAt
      rw [fetchWord_some (by rw [el]; exact hl), Res.bind_ok]
      obtain ⟨v1, e1, c1, w1⟩ := ih l (path ++ [false]) u hu (by omega) (by omega)
      rw [e1, Res.bind_ok, fetchWord_some (by rw [er v1 c1]; exact hr), Res.bind_ok]
      obtain ⟨v2, e2, c2, w2⟩ := ih r (path ++ [true]) v1 c1 (by omega) (by omega)
      refine ⟨v2, e2, c2, fun b => ?_⟩
      have subL : ∀ q, SubLeaf s n (false :: q) b ↔ SubLeaf s l q b := fun q => by
        unfold SubLeaf
        rw [follow_cons_some (b := false) hl hlnil]
      have subR : ∀ q, SubLeaf s n (true :: q) b ↔ SubLeaf s r q b := fun q => by
        unfold SubLeaf
        rw [follow_cons_some (b := true) hr hrnil]
      have subN : ¬ SubLeaf s n [] b := by
        rintro ⟨m, hf, hm, -⟩
        cases hf; exact hleaf hm
      obtain ⟨q, hq, hmax, hc⟩ | ⟨hno, hkept⟩ := w2 b
      · refine .inl ⟨true :: q, (subR q).mpr hq, fun q' hq' => ?_, by rw [List.append_assoc] at hc; exact hc⟩
        match q' with
        | [] => exact absurd hq' subN
        | false :: q' => exact .inr rfl
        | true :: q' =>
          rcases hmax q' ((subR q').mp hq') with e | e
          · exact .inl (by rw [e])
          · exact .inr e
      · obtain ⟨q, hq, hmax, hc⟩ | ⟨hno1, hkept1⟩ := w1 b
        · refine .inl ⟨false :: q, (subL q).mpr hq, fun q' hq' => ?_, ?_⟩
          · match q' with
            | [] => exact absurd hq' subN
            | false :: q' =>
              rcases hmax q' ((subL q').mp hq') with e | e
              · exact .inl (by rw [e])
              · exact .inr e
            | true :: q' => exact absurd ((subR q').mp hq') (hno q')
          · rw [List.append_assoc] at hc
            exact ⟨hkept.1.trans hc.1, hkept.2.trans hc.2⟩
        · refine .inr ⟨fun q hq => ?_, hkept.1.trans hkept1.1, hkept.2.trans hkept1.2⟩
          match q with
          | [] => exact subN hq
          | false :: q => exact hno1 q ((subL q).mp hq)
          | true :: q => exact hno q ((subR q).mp hq)

/-- CODEGEN body on a built tree (44_code_table.md R180 to R182, R186). -/
theorem bodyCodegen_spec {s : State} (h : TreeOk s) :
    ∃ t, bodyCodegen s = .ok () t ∧ CodeChange s t ∧ CodeTableOk t := by
  have hk := h.kRange
  have hroot := h.root_lt
  have hc0 : CodeChange s { s with codeLen := Vector.replicate 256 0, codeBits := Vector.replicate 256 0 } := rfl
  have zero : ∀ b : Byte, codeLenAt b { s with codeLen := Vector.replicate 256 0, codeBits := Vector.replicate 256 0 } = 0 ∧
      codeBitsAt b { s with codeLen := Vector.replicate 256 0, codeBits := Vector.replicate 256 0 } = 0 := fun b => by
    unfold codeLenAt codeBitsAt
    constructor <;> exact Vector.getElem_replicate _
  have same : ∀ t, CodeChange s t → SameTree s t := fun t ht => by
    rw [ht]; exact ⟨rfl, rfl, rfl, rfl, rfl, rfl, rfl, rfl, rfl⟩
  have none : ∀ (b : Byte) (t : State),
      CodeKept b { s with codeLen := Vector.replicate 256 0, codeBits := Vector.replicate 256 0 } t → codeOf b t = [] ∧
        ∀ i, (codeBitsAt b t).getLsbD i = false := fun b t hkept => by
    have h1 : codeLenAt b t = 0 := hkept.1.trans (zero b).1
    have h2 : codeBitsAt b t = 0 := hkept.2.trans (zero b).2
    refine ⟨?_, fun i => by rw [h2]; exact BitVec.getLsbD_zero⟩
    unfold codeOf; rw [h1]; rfl
  unfold bodyCodegen
  dsimp only
  rw [isLeaf_ok h hc0 hroot, Res.bind_ok]
  by_cases hleaf : leafNode s s.root = true
  · rw [if_pos hleaf]
    have hl511 : s.root.toNat < 511 := by omega
    have hsym : s.nodeSym[s.root.toNat]? = some s.nodeSym[s.root.toNat] := Vector.getElem?_eq_getElem hl511
    unfold nodeSymAt
    rw [fetchWord_some hsym, Res.bind_ok]
    refine ⟨_, rfl, rfl, ?_⟩
    generalize ht : setCode s.nodeSym[s.root.toNat] [false]
      { s with codeLen := Vector.replicate 256 0, codeBits := Vector.replicate 256 0 } = t
    have hct : CodeChange s t := by rw [← ht]; rfl
    have hsame := same t hct
    have hself : CodeIs s.nodeSym[s.root.toNat] [false] t := by rw [← ht]; exact setCode_self _ _ _
    have hother : ∀ b, s.nodeSym[s.root.toNat] ≠ b → CodeKept b _ t := fun b hb => by
      rw [← ht]; exact setCode_other hb _ _
    refine ⟨fun b i hi => ?_, fun _ b => ?_, fun hno => ?_⟩
    · by_cases hb : s.nodeSym[s.root.toNat] = b
      · rw [← hb] at hi ⊢
        exact (codeIs_bits hself (by simp)).2.2 i hi
      · exact (none b t (hother b hb)).2 i
    · rw [hsame.nodeSym, hsame.root, hsym]
      by_cases hb : s.nodeSym[s.root.toNat] = b
      · rw [if_pos (by rw [hb]), ← hb]
        exact (codeIs_bits hself (by simp)).1
      · rw [if_neg (fun e => hb (Option.some.inj e))]
        exact (none b t (hother b hb)).1
    · rw [leafNode_congr hsame.nodeLeft hsame.nodeRight, hsame.root, hleaf] at hno
      cases hno
  · rw [if_neg hleaf]
    obtain ⟨t, e, hct, hw⟩ := walk_ok h 256 s.root [] _ hc0 hroot (by have := h.root; omega)
    have hsame := same t hct
    have hpath : ∀ p b, LeafPath t p b ↔ SubLeaf s s.root p b := fun p b => hsame.leafPath p b
    have hlen : ∀ q b, SubLeaf s s.root q b → q.length ≤ 255 := fun q b ⟨m, hf, _⟩ => by
      have := (h.follow_bound q _ _ hroot hf).2.1
      have := h.root
      omega
    refine ⟨t, e, hct, fun b i hi => ?_, fun hyes => ?_, fun _ b => ?_⟩
    · obtain ⟨q, hq, -, hc⟩ | ⟨-, hkept⟩ := hw b
      · rw [List.nil_append] at hc
        exact (codeIs_bits hc (hlen q b hq)).2.2 i hi
      · exact (none b t hkept).2 i
    · rw [leafNode_congr hsame.nodeLeft hsame.nodeRight, hsame.root] at hyes
      exact absurd hyes hleaf
    · obtain ⟨q, hq, hmax, hc⟩ | ⟨hno, hkept⟩ := hw b
      · rw [List.nil_append] at hc
        have hcode := (codeIs_bits hc (hlen q b hq)).1
        rw [hcode]
        exact .inr ⟨(hpath q b).mpr hq, fun p hp => hmax p ((hpath p b).mp hp)⟩
      · exact .inl ⟨(none b t hkept).1, fun p hp => hno p ((hpath p b).mp hp)⟩

end Sys2Proof.Machine
end

