-- ==== Sys2Proof/Laws/Sequencer.lean ====
section
/-! SUPPORT. What a command is, in terms of its stage's body: the lemmas that take a statement about `exec` to one about a
body. -/

namespace Sys2Proof.Machine

/-- What the body of each stage may change. -/
def Stage.Change : Stage → State → State → Prop
  | .hist => HistChange
  | .alpha => AlphaChange
  | .build => BuildChange
  | .codegen => CodeChange
  | .wrhdr => SinkChange
  | .pack => PackChange
  | .rdhdr => RdhdrChange
  | .decode => DecodeChange

/-- The errors the body of each stage may raise. -/
def Stage.Raises : Stage → ErrKind → Prop
  | .hist, k => k = .emptyInput
  | .alpha, _ => False
  | .build, k => k = .invariantViolation
  | .codegen, _ => False
  | .wrhdr, _ => False
  | .pack, k => k = .invariantViolation
  | .rdhdr, k => k = .corruptHeader
  | .decode, k => k = .corruptStream ∨ k = .unexpectedEOF

theorem body_ends (st : Stage) (s : State) : Ends st.Change st.Raises s (st.body s) := by
  cases st
  · exact bodyHist_ends s
  · exact bodyAlpha_ends s
  · exact bodyBuild_ends s
  · exact bodyCodegen_ends s
  · exact bodyWrhdr_ends s
  · exact bodyPack_ends s
  · exact bodyRdhdr_ends s
  · exact bodyDecode_ends s

/-- No stage writes the sequencer's registers, SRC_LEN, SRC or the host's side. -/
theorem Stage.Change.keeps {st : Stage} {s t : State} (h : st.Change s t) :
    t.phase = s.phase ∧ t.kind = s.kind ∧ t.busy = s.busy ∧ t.done = s.done ∧ t.err = s.err ∧ t.errKind = s.errKind ∧
    t.errStage = s.errStage ∧ t.srcLen = s.srcLen ∧ t.src = s.src ∧ t.srcEpoch = s.srcEpoch ∧ t.host = s.host ∧
    t.rdata = s.rdata ∧ t.freeReads = s.freeReads ∧ t.histV = s.histV ∧ t.entV = s.entV ∧ t.treeV = s.treeV ∧
    t.codeV = s.codeV := by
  cases st
  case hist | alpha | build | codegen | rdhdr =>
    simp only [Stage.Change, HistChange, AlphaChange, BuildChange, CodeChange, RdhdrChange] at h
    rw [h]; simp
  case wrhdr => obtain ⟨o, h⟩ := h; rw [h]; simp
  case pack => obtain ⟨o, h⟩ := h; rw [h]; simp
  case decode => obtain ⟨o, h⟩ := h; rw [h]; simp

@[simp] theorem cascade_phase (st : Stage) (s : State) : (st.cascade s).phase = s.phase := by cases st <;> rfl
@[simp] theorem cascade_kind (st : Stage) (s : State) : (st.cascade s).kind = s.kind := by cases st <;> rfl
@[simp] theorem cascade_busy (st : Stage) (s : State) : (st.cascade s).busy = s.busy := by cases st <;> rfl
@[simp] theorem produce_phase (st : Stage) (s : State) : (st.produce s).phase = s.phase := by cases st <;> rfl
@[simp] theorem produce_kind (st : Stage) (s : State) : (st.produce s).kind = s.kind := by cases st <;> rfl
@[simp] theorem produce_busy (st : Stage) (s : State) : (st.produce s).busy = s.busy := by cases st <;> rfl
@[simp] theorem pre_accept (st first : Stage) (kind : CommandKind) (s : State) :
    st.pre (accept kind first s) = st.pre s := by cases st <;> rfl

/-- How a stage run by itself in state `s` ends, with `s` as the command left it when it was accepted. -/
def stageOutcome (st : Stage) (s : State) : Host.Outcome State Fault Refusal :=
  if st.pre s then
    match st.body (st.cascade s) with
    | .ok _ t => .next (complete (st.produce t))
    | .stop t => .next t
    | .fault f => .fault f
  else .next (errorEntry .invariantViolation s)

/-- A stage that runs to its end leaves PHASE and MACRO. -/
theorem runStage_keeps {st : Stage} {s t : State} (h : runStage st s = .ok () t) :
    t.phase = s.phase ∧ t.kind = s.kind ∧ t.busy = s.busy := by
  unfold runStage at h
  split at h
  · have hb := body_ends st (st.cascade s)
    cases hbody : st.body (st.cascade s) with
    | ok a u =>
      rw [hbody] at h hb
      cases h
      obtain ⟨hp, hk, hbu, -⟩ := Stage.Change.keeps hb
      simp [hp, hk, hbu]
    | stop u => rw [hbody] at h; cases h
    | fault f => rw [hbody] at h; cases h
  · cases h

/-- An accepted single stage command. -/
theorem runCommand_single (st : Stage) (s : State) (hb : s.busy = false) :
    runCommand .single st s = stageOutcome st (accept .single st s) := by
  unfold runCommand
  rw [hb]
  have hphase : (accept .single st s).phase = .stage st := rfl
  show (commandLoop 6 (accept .single st s)).toOutcome = _
  unfold commandLoop
  rw [hphase]
  show ((stageTurn st (accept .single st s)).bind fun _ s => commandLoop 5 s).toOutcome = _
  unfold stageTurn
  cases hr : runStage st (accept .single st s) with
  | ok a t =>
    obtain ⟨-, hk, -⟩ := runStage_keeps hr
    have hk : t.kind = .single := hk
    have hn : nextStage t.kind st = some .idle := by rw [hk]; rfl
    simp only [Res.bind_ok, hn]
    unfold runStage at hr
    unfold stageOutcome
    split at hr
    · rename_i hpre
      rw [if_pos hpre]
      cases hbody : st.body (st.cascade (accept .single st s)) with
      | ok b u =>
        rw [hbody] at hr; cases hr
        rfl
      | stop u => rw [hbody] at hr; cases hr
      | fault f => rw [hbody] at hr; cases hr
    · cases hr
  | stop t =>
    unfold runStage at hr
    unfold stageOutcome
    split at hr
    · rename_i hpre
      rw [if_pos hpre]
      cases hbody : st.body (st.cascade (accept .single st s)) with
      | ok b u => rw [hbody] at hr; cases hr
      | stop u => rw [hbody] at hr; cases hr; rfl
      | fault f => rw [hbody] at hr; cases hr
    · rename_i hpre
      rw [if_neg hpre]; cases hr; rfl
  | fault f =>
    unfold runStage at hr
    unfold stageOutcome
    split at hr
    · rename_i hpre
      rw [if_pos hpre]
      cases hbody : st.body (st.cascade (accept .single st s)) with
      | ok b u => rw [hbody] at hr; cases hr
      | stop u => rw [hbody] at hr; cases hr
      | fault f' => rw [hbody] at hr; cases hr; rfl
    · cases hr

/-- The single stage command whose precondition fails. -/
theorem runCommand_pre_false {st : Stage} {s : State} (hb : s.busy = false) (hp : st.pre s = false) :
    runCommand .single st s = .next (aborted .invariantViolation (.stage st) s) := by
  rw [runCommand_single st s hb]
  unfold stageOutcome
  simp only [pre_accept, hp]
  rfl

/-- The single stage command whose body runs to its end. -/
theorem runCommand_ok {st : Stage} {s t : State} (hb : s.busy = false) (hp : st.pre s = true)
    (h : st.body (st.cascade (accept .single st s)) = .ok () t) :
    runCommand .single st s = .next (complete (st.produce t)) := by
  rw [runCommand_single st s hb]
  unfold stageOutcome
  simp only [pre_accept, hp, h, if_true]

/-- The single stage command whose body raises. -/
theorem runCommand_stop {st : Stage} {s t : State} (hb : s.busy = false) (hp : st.pre s = true)
    (h : st.body (st.cascade (accept .single st s)) = .stop t) :
    runCommand .single st s = .next t := by
  rw [runCommand_single st s hb]
  unfold stageOutcome
  simp only [pre_accept, hp, h, if_true]

end Sys2Proof.Machine
end

