-- ==== Sys2Proof/Laws/Counter.lean ====
section
/-! SUPPORT. What the bodies of HIST and ALPHA compute (41_frequency_counter.md). -/

namespace Sys2Proof.Machine

/-- The first `n` bytes of the source. -/
def sourceTake (s : State) (n : Nat) : List Byte := (List.range n).map (sourceByte s)

theorem sourceBytes_eq (s : State) : sourceBytes s = sourceTake s s.srcLen.toNat := rfl

@[simp] theorem sourceTake_length (s : State) (n : Nat) : (sourceTake s n).length = n := by simp [sourceTake]

@[simp] theorem sourceBytes_length (s : State) : (sourceBytes s).length = s.srcLen.toNat := by simp [sourceBytes]

theorem sourceTake_succ (s : State) (n : Nat) : sourceTake s (n + 1) = sourceTake s n ++ [sourceByte s n] := by
  simp [sourceTake, List.range_succ]

/-- The source of a state is given by SRC alone. -/
theorem sourceByte_congr {s t : State} (h : t.src = s.src) (he : t.srcEpoch = s.srcEpoch) (a : Nat) :
    sourceByte t a = sourceByte s a := by
  unfold sourceByte; rw [h, he]

theorem sourceTake_congr {s t : State} (h : t.src = s.src) (he : t.srcEpoch = s.srcEpoch) (n : Nat) :
    sourceTake t n = sourceTake s n := by
  unfold sourceTake; exact List.map_congr_left fun a _ => sourceByte_congr h he a

/-- SRC_POS below SRC_LEN does not wrap when it advances. -/
theorem srcPos_succ {p n : Word32} (h : p < n) : (p + 1).toNat = p.toNat + 1 := by
  have := n.isLt
  have := BitVec.lt_def.mp h
  rw [BitVec.toNat_add]; simp; omega

theorem vector_set_getElem {α : Type} {n : Nat} (v : Vector α n) (i j : Nat) (x : α) (hi : i < n) (hj : j < n) :
    (v.set i x hi)[j] = if i = j then x else v[j] := by
  rw [Vector.getElem_set]

/-- What HIST has counted after `p` bytes. -/
structure Counted (s u : State) (p : Nat) : Prop where
  change : HistChange s u
  pos : u.srcPos.toNat = p
  total : u.totalIn.toNat = p
  counts : ∀ b, (histAt b u).toNat = (sourceTake s p).count b

theorem histTurn_counts {s u : State} {p : Nat} (h : Counted s u p) (hlt : u.srcPos < u.srcLen) :
    ∃ v, histTurn u = .ok () v ∧ Counted s v (p + 1) := by
  obtain ⟨hc, hp, ht, hn⟩ := h
  have hlen : u.srcLen = s.srcLen := by rw [hc]
  have hsrc : ∀ a, sourceByte u a = sourceByte s a := fun a => sourceByte_congr (by rw [hc]) (by rw [hc]) a
  have hplt : p < s.srcLen.toNat := by have := BitVec.lt_def.mp hlt; rw [hlen] at this; omega
  have hbound := s.srcLen.isLt
  unfold histTurn srcGet
  rw [if_pos hlt]
  refine ⟨_, rfl, ?_, ?_, ?_, ?_⟩
  · exact histChange.trans _ _ _ hc rfl
  · show (u.srcPos + 1).toNat = p + 1
    rw [srcPos_succ hlt, hp]
  · show (u.totalIn + 1).toNat = p + 1
    rw [BitVec.toNat_add, ht]; simp; omega
  · intro b
    rw [sourceTake_succ, List.count_append, List.count_singleton]
    have hcount : (sourceTake s p).count (sourceByte s p) ≤ p := by
      simpa using List.count_le_length (l := sourceTake s p) (a := sourceByte s p)
    show ((u.hist.set (sourceByte u u.srcPos.toNat).toNat (histAt (sourceByte u u.srcPos.toNat) u + 1)
      (sourceByte u u.srcPos.toNat).isLt)[b.toNat]'b.isLt).toNat = _
    rw [vector_set_getElem, hp, hsrc]
    by_cases hb : sourceByte s p = b
    · subst hb
      rw [if_pos rfl]
      show (histAt (sourceByte s p) u + 1).toNat = _
      rw [BitVec.toNat_add, hn]
      simp
      omega
    · have hne : (sourceByte s p).toNat ≠ b.toNat := fun e => hb (BitVec.eq_of_toNat_eq e)
      rw [if_neg hne]
      show (histAt b u).toNat = _
      rw [hn]
      simp [hb]

/-- HIST body, on a source that is not empty (41_frequency_counter.md R140, R142, R143). -/
theorem bodyHist_spec (s : State) (h0 : s.srcLen ≠ 0) :
    ∃ t, bodyHist s = .ok () t ∧ HistChange s t ∧ t.srcPos = s.srcLen ∧ t.totalIn = s.srcLen ∧
      ∀ b, (histAt b t).toNat = (sourceBytes s).count b := by
  unfold bodyHist
  rw [if_neg h0]
  have hloop := whileLoop_holds (Q := fun _ => False) (F := fun _ => False)
    (cond := fun s => decide (s.srcPos < s.srcLen)) (turn := histTurn) s.srcLen.toNat
    (fun m u => ∃ p, p + m = s.srcLen.toNat ∧ Counted s u p)
    (srcRewind { s with hist := Vector.replicate 256 0, totalIn := 0 })
    ⟨0, by simp, rfl, rfl, rfl, fun b => by simp [histAt, srcRewind, sourceTake]⟩
    (fun m u ⟨p, hpm, hcu⟩ hcond => by
      obtain ⟨v, hv, hcv⟩ := histTurn_counts hcu (by simpa using hcond)
      rw [hv]; exact ⟨p + 1, by omega, hcv⟩)
    (fun u ⟨p, hpm, hcu⟩ hcond => by
      have hlt := BitVec.lt_def.mp (of_decide_eq_true hcond)
      have hlen : u.srcLen = s.srcLen := by rw [hcu.change]
      rw [hlen, hcu.pos] at hlt; omega)
  obtain ⟨_, t, ht, hcond, m, p, hpm, hcu⟩ := hloop.result
  refine ⟨t, ht, hcu.change, ?_⟩
  have hlen : t.srcLen = s.srcLen := by rw [hcu.change]
  have hge : ¬ t.srcPos < t.srcLen := by simpa using hcond
  have hp : p = s.srcLen.toNat := by
    rw [BitVec.lt_def, hlen, hcu.pos] at hge; omega
  refine ⟨BitVec.eq_of_toNat_eq (by rw [hcu.pos, hp]), BitVec.eq_of_toNat_eq (by rw [hcu.total, hp]), fun b => ?_⟩
  rw [hcu.counts, hp]; rfl

/-! ### ALPHA -/

@[simp] theorem allBytes_length : allBytes.length = 256 := by simp [allBytes]

theorem allBytes_getElem (i : Nat) (h : i < allBytes.length) : allBytes[i] = BitVec.ofNat 8 i := by
  simp [allBytes]

theorem mem_allBytes (b : Byte) : b ∈ allBytes := by
  simp only [allBytes, List.mem_map, List.mem_range]
  exact ⟨b.toNat, b.isLt, by simp⟩

/-- The entries ALPHA makes of a list of byte values. -/
def countedEntries (s : State) (bs : List Byte) : List (Byte × Word32) :=
  (bs.filter fun b => decide (histAt b s ≠ 0)).map fun b => (b, histAt b s)

/-- ENT holds `es` in its first words, and from there on what it held in `s`. -/
structure Entries (s u : State) (es : List (Byte × Word32)) : Prop where
  count : u.k.toNat = es.length
  listed : ∀ i (h : i < es.length), u.entSym[i]? = some es[i].1 ∧ u.entFreq[i]? = some es[i].2
  stale : ∀ i, es.length ≤ i → u.entSym[i]? = s.entSym[i]? ∧ u.entFreq[i]? = s.entFreq[i]?

theorem Entries.length_le {s u : State} {es : List (Byte × Word32)} (h : Entries s u es) : es.length ≤ 256 := by
  rcases Nat.lt_or_ge 256 es.length with hlt | hge
  · have := (h.listed 256 hlt).1
    simp at this
  · exact hge

theorem Entries.entryList {s u : State} {es : List (Byte × Word32)} (h : Entries s u es) : entryList u = es := by
  have hle := h.length_le
  unfold Machine.entryList
  rw [h.count]
  apply List.ext_getElem
  · simp; omega
  · intro i h1 h2
    have h256 : i < 256 := by omega
    obtain ⟨ha, hb⟩ := h.listed i h2
    rw [List.getElem_take, List.getElem_zip]
    have e1 : u.entSym.toList[i]'(by simpa using h256) = es[i].1 := by
      simpa [h256] using ha
    have e2 : u.entFreq.toList[i]'(by simpa using h256) = es[i].2 := by
      simpa [h256] using hb
    rw [e1, e2]

theorem putEntry_ok {i : Nat} (sym : Byte) (freq : Word32) (s : State) (h : i < 256) :
    putEntry i sym freq s =
      .ok () { s with entSym := s.entSym.set i sym, entFreq := s.entFreq.set i freq } := by
  unfold putEntry; rw [dif_pos h]

theorem Entries.snoc {s u : State} {es : List (Byte × Word32)} (h : Entries s u es) (sym : Byte) (freq : Word32)
    (hlt : es.length < 256) (v : State) (hk : v.k.toNat = es.length + 1)
    (hs : v.entSym = u.entSym.set es.length sym) (hf : v.entFreq = u.entFreq.set es.length freq) :
    Entries s v (es ++ [(sym, freq)]) := by
  refine ⟨by simpa using hk, fun i hi => ?_, fun i hi => ?_⟩
  · rw [hs, hf, Vector.getElem?_set, Vector.getElem?_set]
    simp only [List.length_append, List.length_singleton] at hi
    by_cases hie : es.length = i
    · subst hie; simp
    · have hil : i < es.length := by omega
      obtain ⟨ha, hb⟩ := h.listed i hil
      rw [if_neg hie, if_neg hie, ha, hb, List.getElem_append_left hil]; simp
  · simp only [List.length_append, List.length_singleton] at hi
    rw [hs, hf, Vector.getElem?_set, Vector.getElem?_set, if_neg (by omega), if_neg (by omega)]
    exact h.stale i (by omega)

/-- The alphabet scan over a list of byte values (41_frequency_counter.md R141). -/
theorem alphaTurns_spec (s : State) (xs : List Byte) (hx : xs.length ≤ 256) :
    ∃ t, forEach alphaTurn xs { s with k := 0 } = .ok () t ∧ AlphaChange s t ∧ Entries s t (countedEntries s xs) := by
  have hall : ∀ n, (countedEntries s (xs.take n)).length ≤ n := fun n => by
    unfold countedEntries
    rw [List.length_map]
    refine (List.length_filter_le _ _).trans ?_
    rw [List.length_take]; omega
  have hloop := forEach_holds (Q := fun _ => False) (F := fun _ => False) (turn := alphaTurn) xs
    (fun n u => AlphaChange s u ∧ Entries s u (countedEntries s (xs.take n)))
    { s with k := 0 } ⟨rfl, by simp [countedEntries], by simp [countedEntries], by simp⟩
    (fun n hn u ⟨hc, he⟩ => by
      have hhist : u.hist = s.hist := by rw [hc]
      have hh : ∀ b, histAt b u = histAt b s := fun b => by unfold histAt; simp only [hhist]
      have hsplit : xs.take (n + 1) = xs.take n ++ [xs[n]] := List.take_succ_eq_append_getElem hn
      have hlt := hall n
      unfold alphaTurn
      rw [hsplit]
      unfold countedEntries at *
      rw [List.filter_append, List.map_append]
      by_cases hz : histAt xs[n] u ≠ 0
      · rw [if_pos hz, he.count, putEntry_ok _ _ _ (by omega)]
        refine ⟨alphaChange.trans _ _ _ hc rfl, ?_⟩
        have hone : List.filter (fun b => decide (histAt b s ≠ 0)) [xs[n]] = [xs[n]] := by
          rw [hh] at hz
          rw [List.filter_singleton, decide_eq_true hz]; rfl
        rw [hone]
        refine he.snoc _ _ (by omega) _ ?_ rfl ?_
        · show (u.k + 1).toNat = _
          rw [BitVec.toNat_add, he.count]
          exact Nat.mod_eq_of_lt (show _ + 1 < 512 by omega)
        · show u.entFreq.set _ _ = u.entFreq.set _ _
          rw [hh]
      · rw [if_neg hz]
        refine ⟨hc, ?_⟩
        have hnone : List.filter (fun b => decide (histAt b s ≠ 0)) [xs[n]] = [] := by
          rw [hh] at hz
          rw [List.filter_singleton, decide_eq_false hz]; rfl
        rw [hnone]
        simpa using he)
  obtain ⟨_, t, ht, hc, he⟩ := hloop.result
  rw [List.take_length] at he
  exact ⟨t, ht, hc, he⟩

/-- ALPHA body (41_frequency_counter.md R141). -/
theorem bodyAlpha_spec (s : State) :
    ∃ t, bodyAlpha s = .ok () t ∧ AlphaChange s t ∧ Entries s t (countedEntries s allBytes) :=
  alphaTurns_spec s allBytes (by rw [allBytes_length])

end Sys2Proof.Machine
end

