-- ==== Sys2Proof/Laws/Header.lean ====
section
/-! SUPPORT. The header going out and coming in: WRHDR and RDHDR (45_serializer.md R190, 46_deserializer.md R205). -/

namespace Sys2Proof.Machine

/-! ### u32 fields -/

/-- Four bytes as a u32, the first the least significant (20_memory.md R64). -/
def word32 (b0 b1 b2 b3 : Byte) : Word32 := b3 ++ b2 ++ b1 ++ b0

@[simp] theorem le32_length (v : Word32) : (le32 v).length = 4 := rfl

theorem le32_word32 (b0 b1 b2 b3 : Byte) : le32 (word32 b0 b1 b2 b3) = [b0, b1, b2, b3] := by
  have h0 := b0.isLt
  have h1 := b1.isLt
  have h2 := b2.isLt
  have h3 := b3.isLt
  have hv : (word32 b0 b1 b2 b3).toNat = ((b3.toNat * 2 ^ 8 + b2.toNat) * 2 ^ 8 + b1.toNat) * 2 ^ 8 + b0.toNat := by
    unfold word32
    simp only [BitVec.toNat_append, Nat.shiftLeft_eq, Nat.mul_comm _ (2 ^ 8)]
    rw [← Nat.two_pow_add_eq_or_of_lt h2, ← Nat.two_pow_add_eq_or_of_lt h1, ← Nat.two_pow_add_eq_or_of_lt h0]
  unfold le32
  rw [hv]
  refine congrArg₂ List.cons ?_ (congrArg₂ List.cons ?_ (congrArg₂ List.cons ?_ (congrArg₂ List.cons ?_ rfl))) <;>
  · apply BitVec.eq_of_toNat_eq
    rw [BitVec.toNat_ofNat]
    omega

theorem le32_inj {v w : Word32} (h : le32 v = le32 w) : v = w := by
  unfold le32 at h
  simp only [List.cons.injEq, and_true] at h
  obtain ⟨h0, h1, h2, h3⟩ := h
  have e := fun (a b : Nat) (h : BitVec.ofNat 8 a = BitVec.ofNat 8 b) => congrArg BitVec.toNat h
  have e0 := e _ _ h0
  have e1 := e _ _ h1
  have e2 := e _ _ h2
  have e3 := e _ _ h3
  simp only [BitVec.toNat_ofNat] at e0 e1 e2 e3
  have := v.isLt
  have := w.isLt
  apply BitVec.eq_of_toNat_eq
  omega

/-- SnkPut32 appends the four bytes of the field. -/
theorem snkPut32_append (v : Word32) (s : State) : snkPut32 v s = { s with snk := s.snk ++ le32 v } := by
  have h : ∀ n, v.extractLsb' n 8 = BitVec.ofNat 8 (v.toNat / 2 ^ n) := fun n => by
    apply BitVec.eq_of_toNat_eq
    simp [Nat.shiftRight_eq_div_pow]
  have hl : le32 v = [v.extractLsb' 0 8, v.extractLsb' 8 8, v.extractLsb' 16 8, v.extractLsb' 24 8] := by
    unfold le32
    rw [h 0, h 8, h 16, h 24, Nat.pow_zero, Nat.div_one]
  rw [hl]
  unfold snkPut32 snkPut
  simp only [List.append_assoc, List.cons_append, List.nil_append]

/-- SrcGet32 with four bytes left. -/
theorem srcGet32_some (s : State) (h : s.srcPos.toNat + 4 ≤ s.srcLen.toNat) :
    ∃ v, srcGet32 s = (some v, { s with srcPos := s.srcPos + 4 }) ∧ (s.srcPos + 4).toNat = s.srcPos.toNat + 4 ∧
      le32 v = (List.range 4).map fun j => sourceByte s (s.srcPos.toNat + j) := by
  have hlen := s.srcLen.isLt
  have step : ∀ k : Nat, k ≤ 4 → (s.srcPos + BitVec.ofNat 32 k).toNat = s.srcPos.toNat + k := fun k hk => by
    rw [BitVec.toNat_add, BitVec.toNat_ofNat]; omega
  have go : ∀ t : State, t.srcPos.toNat < t.srcLen.toNat → srcGet t =
      (some (sourceByte t t.srcPos.toNat), { t with srcPos := t.srcPos + 1 }) := fun t ht => by
    unfold srcGet; rw [if_pos (BitVec.lt_def.mpr ht)]
  have get : ∀ k : Nat, k < 4 → srcGet { s with srcPos := s.srcPos + BitVec.ofNat 32 k } =
      (some (sourceByte s (s.srcPos.toNat + k)), { s with srcPos := s.srcPos + BitVec.ofNat 32 (k + 1) }) := by
    intro k hk
    have hk' := step k (by omega)
    have e : s.srcPos + BitVec.ofNat 32 k + 1 = s.srcPos + BitVec.ofNat 32 (k + 1) :=
      BitVec.eq_of_toNat_eq (by rw [step (k + 1) (by omega), BitVec.toNat_add, hk']; simp; omega)
    refine (go { s with srcPos := s.srcPos + BitVec.ofNat 32 k } ?_).trans ?_
    · show (s.srcPos + BitVec.ofNat 32 k).toNat < s.srcLen.toNat
      omega
    · rw [← hk', ← e]; rfl
  have g0 : srcGet s = (some (sourceByte s (s.srcPos.toNat + 0)), { s with srcPos := s.srcPos + BitVec.ofNat 32 1 }) := by
    have := get 0 (by omega); simpa using this
  refine ⟨word32 (sourceByte s (s.srcPos.toNat + 0)) (sourceByte s (s.srcPos.toNat + 1))
    (sourceByte s (s.srcPos.toNat + 2)) (sourceByte s (s.srcPos.toNat + 3)), ?_, step 4 (by omega), ?_⟩
  · unfold srcGet32
    rw [g0]; dsimp only
    rw [get 1 (by omega)]; dsimp only
    rw [get 2 (by omega)]; dsimp only
    rw [get 3 (by omega)]; rfl
  · rw [le32_word32]; rfl

/-- SrcGet32 with fewer than four bytes left: they are consumed. -/
theorem srcGet32_none (s : State) (hle : s.srcPos.toNat ≤ s.srcLen.toNat) (h : s.srcLen.toNat < s.srcPos.toNat + 4) :
    srcGet32 s = (none, { s with srcPos := s.srcLen }) := by
  have hlen := s.srcLen.isLt
  have stop : ∀ t : State, t.srcPos = t.srcLen → srcGet t = (none, t) := fun t ht => by
    unfold srcGet; rw [if_neg (by rw [ht]; exact BitVec.lt_irrefl _)]
  have go : ∀ t : State, t.srcPos.toNat < t.srcLen.toNat → srcGet t =
      (some (sourceByte t t.srcPos.toNat), { t with srcPos := t.srcPos + 1 }) := fun t ht => by
    unfold srcGet; rw [if_pos (BitVec.lt_def.mpr ht)]
  have nat : ∀ p : Word32, p.toNat < s.srcLen.toNat → (p + 1).toNat = p.toNat + 1 := fun p hp => by
    rw [BitVec.toNat_add]; simp; omega
  have eqLen : ∀ p : Word32, p.toNat = s.srcLen.toNat → p = s.srcLen := fun p hp => BitVec.eq_of_toNat_eq hp
  have same : ∀ p : Word32, p.toNat = s.srcLen.toNat →
      srcGet { s with srcPos := p } = (none, { s with srcPos := s.srcLen }) := fun p hp => by
    rw [eqLen p hp]; exact stop _ rfl
  unfold srcGet32
  by_cases h0 : s.srcPos.toNat = s.srcLen.toNat
  · have e : srcGet s = (none, { s with srcPos := s.srcLen }) := same s.srcPos h0
    rw [e]
  · rw [go s (by omega)]; dsimp only
    have n1 := nat s.srcPos (by omega)
    by_cases h1 : (s.srcPos + 1).toNat = s.srcLen.toNat
    · rw [same _ h1]
    · rw [go { s with srcPos := s.srcPos + 1 } (by show (s.srcPos + 1).toNat < s.srcLen.toNat; omega)]; dsimp only
      have n2 := nat (s.srcPos + 1) (by omega)
      by_cases h2 : (s.srcPos + 1 + 1).toNat = s.srcLen.toNat
      · rw [same _ h2]
      · rw [go { s with srcPos := s.srcPos + 1 + 1 } (by show (s.srcPos + 1 + 1).toNat < s.srcLen.toNat; omega)]; dsimp only
        have n3 := nat (s.srcPos + 1 + 1) (by omega)
        rw [same _ (by omega)]

/-! ### The header going out -/

theorem entryList_length (s : State) (hk : s.k.toNat ≤ 256) : (entryList s).length = s.k.toNat := by
  unfold entryList; simp; omega

theorem entryList_getElem (s : State) (i : Nat) (h : i < (entryList s).length) :
    ∃ h' : i < 256, (entryList s)[i] = (s.entSym[i], s.entFreq[i]) := by
  have h' : i < 256 := by unfold entryList at h; simp at h; omega
  refine ⟨h', ?_⟩
  simp only [entryList, List.getElem_take, List.getElem_zip, Vector.getElem_toList]

@[simp] theorem headerBytes_length (es : List (Byte × Word32)) : (headerBytes es).length = 4 + 5 * es.length := by
  unfold headerBytes
  have : ∀ l : List (Byte × Word32), (l.flatMap fun e => e.1 :: le32 e.2).length = 5 * l.length := fun l => by
    induction l with
    | nil => rfl
    | cons e l ih => rw [List.flatMap_cons, List.length_append, ih]; simp; omega
  rw [List.length_append, this]; rfl

theorem headerTurn_ok (s : State) (i : Nat) (h : i < 256) :
    headerTurn i s = .ok () { s with snk := s.snk ++ (s.entSym[i] :: le32 s.entFreq[i]) } := by
  unfold headerTurn entSymAt
  rw [fetchWord_ok h]
  simp only [Res.bind_ok]
  unfold entFreqAt
  rw [fetchWord_ok h]
  simp only [Res.bind_ok, snkPut32_append]
  unfold snkPut
  simp

/-- WRHDR body (45_serializer.md R190). -/
theorem bodyWrhdr_spec (s : State) (hk : s.k.toNat ≤ 256) :
    bodyWrhdr s = .ok () { s with snk := s.snk ++ headerBytes (entryList s) } := by
  have hk32 : s.k.setWidth 32 = BitVec.ofNat 32 (entryList s).length := by
    rw [entryList_length s hk]
    apply BitVec.eq_of_toNat_eq
    simp
  have hloop := forEach_holds (Q := fun _ => False) (F := fun _ => False) (turn := headerTurn) (List.range s.k.toNat)
    (fun n u => u = { s with snk := s.snk ++ (le32 (s.k.setWidth 32) ++
      ((entryList s).take n).flatMap fun e => e.1 :: le32 e.2) })
    (snkPut32 (s.k.setWidth 32) s) (by rw [snkPut32_append]; simp)
    (fun n hn u hu => by
      have hn' : n < (entryList s).length := by rw [entryList_length s hk]; simpa using hn
      obtain ⟨h256, he⟩ := entryList_getElem s n hn'
      rw [List.getElem_range, headerTurn_ok u n h256]
      show _ = _
      rw [List.take_succ_eq_append_getElem hn', List.flatMap_append, he, hu]
      simp)
  obtain ⟨_, t, ht, he⟩ := hloop.result
  unfold bodyWrhdr
  rw [ht, he]
  unfold headerBytes
  rw [hk32, List.length_range, List.take_of_length_le (by rw [entryList_length s hk])]

/-! ### The header coming in -/

theorem sourceBytes_drop_prefix {s : State} {bs : List Byte} {p : Nat}
    (h : bs <+: (sourceBytes s).drop p) (hp : p ≤ s.srcLen.toNat) :
    p + bs.length ≤ s.srcLen.toNat ∧ (List.range bs.length).map (fun j => sourceByte s (p + j)) = bs := by
  have hl := h.length_le
  rw [List.length_drop, sourceBytes_length] at hl
  refine ⟨by omega, ?_⟩
  have htake : bs = ((sourceBytes s).drop p).take bs.length := (List.prefix_iff_eq_take.mp h)
  apply List.ext_getElem
  · simp
  · intro i h1 h2
    rw [List.getElem_map, List.getElem_range]
    have : bs[i] = (((sourceBytes s).drop p).take bs.length)[i]'(by rw [← htake]; exact h2) := by
      simp only [← htake]
    rw [this, List.getElem_take, List.getElem_drop]
    simp [sourceBytes]

theorem entryTurn_read (s u : State) (es : List (Byte × Word32)) (i : Nat) (e : Byte × Word32)
    (hc : RdhdrChange s u) (he : Entries { s with k := u.k } { u with k := BitVec.ofNat 9 i } es) (hi : es.length = i)
    (h256 : i < 256) (hpos : u.srcPos.toNat = 4 + 5 * i)
    (hsrc : (e.1 :: le32 e.2) <+: (sourceBytes s).drop (4 + 5 * i)) :
    ∃ v, entryTurn i u = .ok () v ∧ RdhdrChange s v ∧ v.k = u.k ∧
      Entries { s with k := v.k } { v with k := BitVec.ofNat 9 (i + 1) } (es ++ [e]) ∧
      v.srcPos.toNat = 4 + 5 * (i + 1) := by
  have hlen : u.srcLen = s.srcLen := by rw [hc]
  have hb : ∀ a, sourceByte u a = sourceByte s a := fun a => sourceByte_congr (by rw [hc]) (by rw [hc]) a
  have hsl := s.srcLen.isLt
  have hle : 4 + 5 * i ≤ s.srcLen.toNat := by
    have := hsrc.length_le
    simp at this; omega
  obtain ⟨hfit, hbytes⟩ := sourceBytes_drop_prefix hsrc hle
  simp only [List.length_cons, le32_length] at hfit hbytes
  have hlt : u.srcPos < u.srcLen := BitVec.lt_def.mpr (by rw [hpos, hlen]; omega)
  have hp1 := srcPos_succ hlt
  obtain ⟨v, hv, hv4, hvb⟩ := srcGet32_some { u with srcPos := u.srcPos + 1 } (by
    show (u.srcPos + 1).toNat + 4 ≤ u.srcLen.toNat
    rw [hp1, hpos, hlen]; omega)
  have hsplit : (List.range (4 + 1)).map (fun j => sourceByte s (4 + 5 * i + j)) =
      sourceByte s (4 + 5 * i) :: (List.range 4).map (fun j => sourceByte s (4 + 5 * i + 1 + j)) := by
    simp [List.range_succ_eq_map, Nat.add_assoc]
  rw [hsplit, List.cons.injEq] at hbytes
  have hfreq : v = e.2 := le32_inj (by
    rw [hvb, ← hbytes.2]
    refine List.map_congr_left fun j _ => ?_
    show sourceByte u ((u.srcPos + 1).toNat + j) = _
    rw [hb, hp1, hpos])
  unfold entryTurn srcGet
  rw [if_pos hlt]
  dsimp only
  rw [hv]
  dsimp only
  rw [putEntry_ok _ _ _ h256]
  refine ⟨_, rfl, rdhdrChange.trans _ _ _ hc rfl, rfl, ?_, ?_⟩
  · subst hi
    obtain ⟨es1, es2⟩ := e
    refine Entries.snoc (u := { u with k := BitVec.ofNat 9 es.length }) (s := { s with k := u.k }) he es1 es2 h256 _ ?_ ?_ ?_
    · show (BitVec.ofNat 9 (es.length + 1)).toNat = _
      rw [BitVec.toNat_ofNat]; omega
    · show u.entSym.set _ (sourceByte u u.srcPos.toNat) = u.entSym.set _ es1
      rw [hb, hpos, hbytes.1]
    · show u.entFreq.set _ v = u.entFreq.set _ es2
      rw [hfreq]
  · show (u.srcPos + 1 + 4).toNat = _
    have : ({ u with srcPos := u.srcPos + 1 } : State).srcPos = u.srcPos + 1 := rfl
    rw [this] at hv4
    rw [hv4, hp1, hpos]; omega

/-- The entry at place `i` of the header in SRC (46_deserializer.md R205). -/
def headerEntry (s : State) (i : Nat) : Byte × Word32 :=
  (sourceByte s (4 + 5 * i), word32 (sourceByte s (4 + 5 * i + 1)) (sourceByte s (4 + 5 * i + 2))
    (sourceByte s (4 + 5 * i + 3)) (sourceByte s (4 + 5 * i + 4)))

theorem sourceBytes_prefix {s : State} {p n : Nat} (h : p + n ≤ s.srcLen.toNat) :
    ((List.range n).map fun j => sourceByte s (p + j)) <+: (sourceBytes s).drop p := by
  rw [List.prefix_iff_eq_take]
  apply List.ext_getElem
  · simp; omega
  · intro i h1 h2
    simp [sourceBytes]

theorem headerEntry_bytes {s : State} {i : Nat} (h : 4 + 5 * (i + 1) ≤ s.srcLen.toNat) :
    ((headerEntry s i).1 :: le32 (headerEntry s i).2) <+: (sourceBytes s).drop (4 + 5 * i) := by
  have := sourceBytes_prefix (s := s) (p := 4 + 5 * i) (n := 5) (by omega)
  unfold headerEntry
  rw [le32_word32]
  exact this

/-- The entries before the source runs out. -/
theorem entryTurns_read {s u : State} (hc : RdhdrChange s u) (hs : u.entSym = s.entSym) (hf : u.entFreq = s.entFreq)
    (hpos : u.srcPos.toNat = 4) (n : Nat) (h256 : n ≤ 256) (hfit : 4 + 5 * n ≤ s.srcLen.toNat) :
    ∃ v, forEach entryTurn (List.range n) u = .ok () v ∧ RdhdrChange s v ∧ v.k = u.k ∧
      Entries { s with k := v.k } { v with k := BitVec.ofNat 9 n } ((List.range n).map (headerEntry s)) ∧
      v.srcPos.toNat = 4 + 5 * n := by
  induction n with
  | zero => exact ⟨u, rfl, hc, rfl, ⟨rfl, by simp, fun i _ => ⟨by rw [hs], by rw [hf]⟩⟩, hpos⟩
  | succ n ih =>
    obtain ⟨v, e, c, k, en, p⟩ := ih (by omega) (by omega)
    obtain ⟨w, e', c', k', en', p'⟩ := entryTurn_read s v _ n (headerEntry s n) c en (by simp) (by omega) p
      (headerEntry_bytes hfit)
    refine ⟨w, ?_, c', k'.trans k, ?_, p'⟩
    · rw [List.range_succ, forEach_append, e, Res.bind_ok, forEach_cons, e', Res.bind_ok, forEach_nil]
    · rw [List.range_succ, List.map_append]; exact en'

/-- The entry in which the source runs out. -/
theorem entryTurn_short {s : State} {i : Nat} (hpos : s.srcPos.toNat = 4 + 5 * i) (h1 : 4 + 5 * i ≤ s.srcLen.toNat)
    (h2 : s.srcLen.toNat < 4 + 5 * (i + 1)) : entryTurn i s = raise .corruptHeader { s with srcPos := s.srcLen } := by
  unfold entryTurn srcGet
  by_cases hlt : s.srcPos < s.srcLen
  · have hp := srcPos_succ hlt
    rw [BitVec.lt_def] at hlt
    rw [if_pos (BitVec.lt_def.mpr hlt)]
    dsimp only
    rw [srcGet32_none { s with srcPos := s.srcPos + 1 } (by show (s.srcPos + 1).toNat ≤ s.srcLen.toNat; omega)
      (by show s.srcLen.toNat < (s.srcPos + 1).toNat + 4; omega)]
  · rw [if_neg hlt]
    have e : s.srcPos = s.srcLen := BitVec.eq_of_toNat_eq (by rw [BitVec.lt_def] at hlt; omega)
    exact congrArg (fun q => (raise .corruptHeader { s with srcPos := q } : Res Unit)) e

/-- The k field of the header in SRC. -/
def headerCount (s : State) : Word32 := word32 (sourceByte s 0) (sourceByte s 1) (sourceByte s 2) (sourceByte s 3)

theorem headerCount_of {s : State} {k : Word32} (h : le32 k <+: sourceBytes s) :
    headerCount s = k ∧ 4 ≤ s.srcLen.toNat := by
  have h0 := sourceBytes_drop_prefix (s := s) (p := 0) (by simpa using h) (Nat.zero_le _)
  rw [le32_length] at h0
  refine ⟨le32_inj ?_, by omega⟩
  rw [← h0.2]
  unfold headerCount
  rw [le32_word32]
  rfl

theorem srcGet32_first {s : State} (h : 4 ≤ s.srcLen.toNat) :
    srcGet32 (srcRewind s) = (some (headerCount s), { s with srcPos := 4 }) := by
  obtain ⟨v, hv, -, hb⟩ := srcGet32_some (srcRewind s) (by show 0 + 4 ≤ s.srcLen.toNat; omega)
  have : v = headerCount s := le32_inj (by rw [hb]; unfold headerCount; rw [le32_word32]; rfl)
  rw [hv, this]; rfl

/-- RDHDR body on a source of fewer than four bytes (46_deserializer.md R205). -/
theorem bodyRdhdr_tiny {s : State} (h : s.srcLen.toNat < 4) :
    bodyRdhdr s = raise .corruptHeader { s with srcPos := s.srcLen } := by
  unfold bodyRdhdr
  rw [srcGet32_none (srcRewind s) (Nat.zero_le _) (by show s.srcLen.toNat < 0 + 4; omega)]
  rfl

/-- RDHDR body on a k field that is 0 or above 256 (46_deserializer.md R205). -/
theorem bodyRdhdr_count {s : State} (h : 4 ≤ s.srcLen.toNat) (hk : headerCount s = 0 ∨ 256 < (headerCount s).toNat) :
    bodyRdhdr s = raise .corruptHeader { s with srcPos := 4 } := by
  unfold bodyRdhdr
  rw [srcGet32_first h]
  dsimp only
  rw [if_pos (hk.imp id fun h => BitVec.lt_def.mpr h)]

/-- RDHDR body after a k field from 1 to 256 (46_deserializer.md R205). -/
theorem bodyRdhdr_entries {s : State} (h : 4 ≤ s.srcLen.toNat) (h1 : 1 ≤ (headerCount s).toNat)
    (h256 : (headerCount s).toNat ≤ 256) :
    (4 + 5 * (headerCount s).toNat ≤ s.srcLen.toNat →
      ∃ t, bodyRdhdr s = .ok () t ∧ RdhdrChange s t ∧ t.srcPos.toNat = 4 + 5 * (headerCount s).toNat ∧
        Entries s t ((List.range (headerCount s).toNat).map (headerEntry s))) ∧
    (s.srcLen.toNat < 4 + 5 * (headerCount s).toNat →
      ∃ t n, bodyRdhdr s = raise .corruptHeader t ∧ RdhdrChange s t ∧ t.srcPos = s.srcLen ∧
        n = (s.srcLen.toNat - 4) / 5 ∧ t.k.toNat = (headerCount s).toNat ∧
        (∀ i, i < n → t.entSym[i]? = some (headerEntry s i).1 ∧ t.entFreq[i]? = some (headerEntry s i).2) ∧
        ∀ i, n ≤ i → t.entSym[i]? = s.entSym[i]? ∧ t.entFreq[i]? = s.entFreq[i]?) := by
  have hkn : ((headerCount s).extractLsb' 0 9).toNat = (headerCount s).toNat := by
    rw [BitVec.extractLsb'_toNat, Nat.shiftRight_zero]; exact Nat.mod_eq_of_lt (by omega)
  have hbody : bodyRdhdr s = forEach entryTurn (List.range (headerCount s).toNat)
      { s with srcPos := 4, k := (headerCount s).extractLsb' 0 9 } := by
    unfold bodyRdhdr
    rw [srcGet32_first h]
    dsimp only
    rw [if_neg]
    rintro (e | e)
    · rw [e] at h1; simp at h1
    · rw [BitVec.lt_def] at e
      exact absurd h256 (Nat.not_le.mpr e)
  have hread := fun n => entryTurns_read (s := s) (u := { s with srcPos := 4, k := (headerCount s).extractLsb' 0 9 })
    rfl rfl rfl rfl n
  rw [hbody]
  refine ⟨fun hfit => ?_, fun hshort => ?_⟩
  · obtain ⟨v, e, c, k, en, p⟩ := hread _ h256 hfit
    refine ⟨v, e, c, p, ⟨?_, en.listed, en.stale⟩⟩
    rw [k]; show ((headerCount s).extractLsb' 0 9).toNat = _
    rw [hkn]; simp
  · obtain ⟨v, e, c, k, en, p⟩ := hread ((s.srcLen.toNat - 4) / 5) (by omega) (by omega)
    have hlen : v.srcLen = s.srcLen := by rw [c]
    have hx := entryTurn_short (s := v) p (by rw [hlen]; omega) (by rw [hlen]; omega)
    have hsplit : (headerCount s).toNat = (s.srcLen.toNat - 4) / 5 + (((headerCount s).toNat - (s.srcLen.toNat - 4) / 5 - 1) + 1) := by
      omega
    refine ⟨{ v with srcPos := v.srcLen }, _, ?_, rdhdrChange.trans _ _ _ c rfl, hlen, rfl, ?_, fun i hi => ?_, fun i hi => ?_⟩
    · rw [hsplit, List.range_add, forEach_append, e, Res.bind_ok, List.range_succ_eq_map, List.map_cons, forEach_cons,
        Nat.add_zero, hx]
      rfl
    · show v.k.toNat = _
      rw [k]; exact hkn
    · have := en.listed i (by simpa using hi)
      simpa using this
    · exact en.stale i (by simpa using hi)

/-- A header in SRC is its count and its entries. -/
theorem header_in_source {s : State} {es : List (Byte × Word32)} (h256 : es.length ≤ 256) (h : headerBytes es <+: sourceBytes s) :
    (headerCount s).toNat = es.length ∧ 4 + 5 * es.length ≤ s.srcLen.toNat ∧
      (List.range es.length).map (headerEntry s) = es := by
  have hlen := h.length_le
  rw [headerBytes_length, sourceBytes_length] at hlen
  have hk := (headerCount_of ((List.prefix_append _ _).trans h)).1
  refine ⟨by rw [hk, BitVec.toNat_ofNat]; exact Nat.mod_eq_of_lt (by omega), hlen, ?_⟩
  have entry : ∀ (l : List (Byte × Word32)) (p : Nat), p ≤ s.srcLen.toNat →
      (l.flatMap fun e => e.1 :: le32 e.2) <+: (sourceBytes s).drop p → ∀ i (hi : i < l.length),
      (l[i].1 :: le32 l[i].2) <+: (sourceBytes s).drop (p + 5 * i) := by
    intro l
    induction l with
    | nil => intro p _ _ i hi; simp at hi
    | cons e l ih =>
      intro p hp hpre i hi
      rw [List.flatMap_cons] at hpre
      cases i with
      | zero => exact (List.prefix_append _ _).trans hpre
      | succ i =>
        have hl := hpre.length_le
        simp only [List.length_append, List.length_cons, le32_length, List.length_drop, sourceBytes_length] at hl
        have := hpre.drop 5
        rw [List.drop_append_of_le_length (by simp), List.drop_of_length_le (by simp), List.nil_append, List.drop_drop] at this
        have := ih (p + 5) (by omega) this i (by simpa using hi)
        rw [show p + 5 * (i + 1) = p + 5 + 5 * i by omega]
        exact this
  have hes : (es.flatMap fun e => e.1 :: le32 e.2) <+: (sourceBytes s).drop 4 := by
    have := h.drop 4
    unfold headerBytes at this
    rwa [List.drop_append_of_le_length (by simp), List.drop_of_length_le (by simp), List.nil_append] at this
  apply List.ext_getElem
  · simp
  · intro i h1 h2
    rw [List.getElem_map, List.getElem_range]
    have hi := entry es 4 (by omega) hes i h2
    obtain ⟨-, hb⟩ := sourceBytes_drop_prefix hi (by omega)
    have hx : (List.range ((es[i].1 :: le32 es[i].2).length)).map (fun j => sourceByte s (4 + 5 * i + j)) =
        (headerEntry s i).1 :: le32 (headerEntry s i).2 := by
      unfold headerEntry
      rw [le32_word32]; rfl
    rw [hx, List.cons.injEq] at hb
    exact Prod.ext hb.1 (le32_inj hb.2)

end Sys2Proof.Machine
end

