-- ==== Sys2Proof/Laws/Deserializer.lean ====
section
/-! SUPPORT. Code bits coming in: BitStep and DECODE (46_deserializer.md R207 to R214). The loop over bytes is a run over the
stream's bits: the bits do not depend on SRC_POS. -/

namespace Sys2Proof.Machine

/-! ### SRC_POS stands aside -/

/-- SRC_POS alone replaced. -/
def setPos (q : Word32) (s : State) : State := { s with srcPos := q }

/-- The same end with SRC_POS replaced. -/
def Res.withPos {α : Type} (q : Word32) : Res α → Res α
  | .ok a s => .ok a (setPos q s)
  | .stop s => .stop (setPos q s)
  | .fault f => .fault f

section
variable {α β : Type} {q : Word32}

theorem bind_pos {r r' : Res α} {f f' : α → State → Res β} (hr : r' = r.withPos q)
    (hf : ∀ a s, f' a (setPos q s) = (f a s).withPos q) : r'.bind f' = (r.bind f).withPos q := by
  subst hr
  cases r with
  | ok a s => exact hf a s
  | stop s => rfl
  | fault f => rfl

theorem fetchWord_pos {n : Nat} (m : TableMem) (v : Vector α n) (i : Nat) (s : State) :
    fetchWord m v i (setPos q s) = (fetchWord m v i s).withPos q := by
  unfold fetchWord
  split <;> rfl

theorem isLeaf_pos (n : Ref) (s : State) : isLeaf n (setPos q s) = (isLeaf n s).withPos q :=
  bind_pos (fetchWord_pos _ _ _ _) fun _ s => bind_pos (fetchWord_pos _ _ _ s) fun _ _ => rfl

theorem emitLeaf_pos (n : Ref) (s : State) : emitLeaf n (setPos q s) = (emitLeaf n s).withPos q :=
  bind_pos (fetchWord_pos _ _ _ _) fun _ _ => rfl

theorem bitStep_pos (v : Bool) (s : State) : bitStep v (setPos q s) = (bitStep v s).withPos q := by
  refine bind_pos (isLeaf_pos _ _) fun leaf s => ?_
  cases leaf
  · refine bind_pos (r := if v then nodeRightAt s.cursor s else nodeLeftAt s.cursor s) ?_ fun c s => ?_
    · cases v <;> exact fetchWord_pos _ _ _ _
    · by_cases hc : c = Config.nil
      · simp only [if_pos hc]; rfl
      · simp only [if_neg hc]
        refine bind_pos (isLeaf_pos (q := q) c { s with cursor := c }) fun leaf s => ?_
        cases leaf
        · rfl
        · exact emitLeaf_pos _ _
  · cases v
    · exact bind_pos (fetchWord_pos _ _ _ _) fun _ _ => rfl
    · rfl

end

/-! ### One bit after the other -/

/-- A stream bit: examined only while symbols are missing (46_deserializer.md R210). -/
def runBit (v : Bool) (s : State) : Res Unit := if s.decCnt = s.totalSym then .ok () s else bitStep v s

theorem runBit_open (v : Bool) {s : State} (h : s.decCnt ≠ s.totalSym) : runBit v s = bitStep v s := if_neg h

theorem runBit_pos {q : Word32} (v : Bool) (s : State) : runBit v (setPos q s) = (runBit v s).withPos q := by
  unfold runBit
  by_cases h : s.decCnt = s.totalSym
  · rw [if_pos h]; exact if_pos h
  · rw [if_neg h]; exact (if_neg h).trans (bitStep_pos v s)

theorem runBits_pos {q : Word32} (bits : List Bool) (s : State) :
    forEach runBit bits (setPos q s) = (forEach runBit bits s).withPos q := by
  induction bits generalizing s with
  | nil => rfl
  | cons v bits ih => exact bind_pos (runBit_pos v s) fun _ s => ih s

theorem runBits_done (bits : List Bool) {s : State} (h : s.decCnt = s.totalSym) : forEach runBit bits s = .ok () s := by
  induction bits with
  | nil => rfl
  | cons v bits ih =>
    rw [forEach_cons]
    unfold runBit
    rw [if_pos h]; exact ih

theorem forEach_map {α β : Type} (turn : β → State → Res Unit) (g : α → β) (xs : List α) (s : State) :
    forEach turn (xs.map g) s = forEach (fun x => turn (g x)) xs s := by
  induction xs generalizing s with
  | nil => rfl
  | cons x xs ih =>
    rw [List.map_cons, forEach_cons, forEach_cons]
    exact congrArg _ (funext fun _ => funext fun s => ih s)

theorem byteTurn_eq (b : Byte) (s : State) : forEach (bitTurn b) (List.range 8) s = forEach runBit (byteBits b) s :=
  (forEach_map runBit b.getLsbD (List.range 8) s).symm

@[simp] theorem byteBits_length (b : Byte) : (byteBits b).length = 8 := rfl

/-- What a stream bit leaves of the words the loop reads. -/
structure BitKeeps (s t : State) : Prop where
  pos : t.srcPos = s.srcPos
  len : t.srcLen = s.srcLen
  src : t.src = s.src
  epoch : t.srcEpoch = s.srcEpoch
  total : t.totalSym = s.totalSym
  count : t.decCnt = s.decCnt ∨ t.decCnt = s.decCnt + 1

theorem bitStep_keeps (v : Bool) (s : State) : (bitStep v s).Holds (fun _ t => BitKeeps s t) (fun _ => True) (fun _ => True) := by
  have leaf : ∀ (n : Ref) (u : State) (P : Bool → State → Prop), (∀ b, P b u) →
      (isLeaf n u).Holds P (fun _ => True) (fun _ => True) := fun n u P hP => by
    refine Res.Holds.bind (fetchWord_holds (fun _ => trivial) fun l _ => ?_)
    exact Res.Holds.bind (fetchWord_holds (fun _ => trivial) fun r _ => hP _)
  refine Res.Holds.bind (leaf _ _ _ fun b => ?_)
  cases b
  · refine Res.Holds.bind ?_
    have inner : ∀ c : Ref, (if c = Config.nil then raise .corruptStream s else
        (isLeaf c { s with cursor := c }).bind fun leaf s => if leaf then emitLeaf c s else .ok () s).Holds
          (fun _ t => BitKeeps s t) (fun _ => True) (fun _ => True) := fun c => by
      split
      · trivial
      · refine Res.Holds.bind (leaf _ _ _ fun b => ?_)
        cases b
        · exact ⟨rfl, rfl, rfl, rfl, rfl, .inl rfl⟩
        · exact Res.Holds.bind (fetchWord_holds (fun _ => trivial) fun _ _ => ⟨rfl, rfl, rfl, rfl, rfl, .inr rfl⟩)
    cases v
    · exact fetchWord_holds (fun _ => trivial) fun c _ => inner c
    · exact fetchWord_holds (fun _ => trivial) fun c _ => inner c
  · cases v
    · exact Res.Holds.bind (fetchWord_holds (fun _ => trivial) fun _ _ => ⟨rfl, rfl, rfl, rfl, rfl, .inr rfl⟩)
    · trivial

/-- The words the loop reads, after any number of bits. -/
structure BitsKeep (s t : State) : Prop where
  pos : t.srcPos = s.srcPos
  len : t.srcLen = s.srcLen
  src : t.src = s.src
  epoch : t.srcEpoch = s.srcEpoch
  total : t.totalSym = s.totalSym
  count : s.decCnt ≤ s.totalSym → t.decCnt ≤ t.totalSym

theorem runBits_keep (bits : List Bool) : ∀ {s t : State}, forEach runBit bits s = .ok () t → BitsKeep s t := by
  induction bits with
  | nil => intro s t h; cases h; exact ⟨rfl, rfl, rfl, rfl, rfl, id⟩
  | cons v bits ih =>
    intro s t h
    rw [forEach_cons] at h
    unfold runBit at h
    by_cases hd : s.decCnt = s.totalSym
    · rw [if_pos hd, Res.bind_ok] at h; exact ih h
    · rw [if_neg hd] at h
      have hk := bitStep_keeps v s
      cases hb : bitStep v s with
      | stop u => rw [hb] at h; cases h
      | fault f => rw [hb] at h; cases h
      | ok a u =>
        rw [hb, Res.bind_ok] at h
        rw [hb] at hk
        obtain ⟨h1, h2, h3, h4, h5, h6⟩ := hk
        obtain ⟨g1, g2, g3, g4, g5, g6⟩ := ih h
        refine ⟨g1.trans h1, g2.trans h2, g3.trans h3, g4.trans h4, g5.trans h5, fun hle => g6 ?_⟩
        have := s.totalSym.isLt
        rw [h5]
        rcases h6 with e | e
        · rw [e]; exact hle
        · have hne : s.decCnt.toNat ≠ s.totalSym.toNat := fun e => hd (BitVec.eq_of_toNat_eq e)
          rw [BitVec.le_def] at hle ⊢
          rw [e, BitVec.toNat_add]
          simp
          omega

/-! ### The loop over bytes -/

/-- The bytes of SRC from SRC_POS on. -/
def bytesLeft (s : State) : List Byte := (sourceBytes s).drop s.srcPos.toNat

theorem streamBits_eq (s : State) : streamBits s = (bytesLeft s).flatMap byteBits := rfl

/-- One byte read. -/
theorem bytesLeft_cons {s : State} {b : Byte} {bs : List Byte} (h : bytesLeft s = b :: bs) :
    s.srcPos < s.srcLen ∧ srcGet s = (some b, setPos (s.srcPos + 1) s) ∧ bytesLeft (setPos (s.srcPos + 1) s) = bs := by
  have hlt : s.srcPos.toNat < s.srcLen.toNat := by
    have := congrArg List.length h
    unfold bytesLeft at this
    rw [List.length_drop, sourceBytes_length, List.length_cons] at this
    omega
  have hlt' : s.srcPos < s.srcLen := BitVec.lt_def.mpr hlt
  have hd : (sourceBytes s).drop s.srcPos.toNat = sourceByte s s.srcPos.toNat :: (sourceBytes s).drop (s.srcPos.toNat + 1) := by
    rw [List.drop_eq_getElem_cons (by rw [sourceBytes_length]; exact hlt)]
    congr 1
    unfold sourceBytes
    rw [List.getElem_map, List.getElem_range]
  unfold bytesLeft at h
  rw [hd, List.cons.injEq] at h
  refine ⟨hlt', ?_, ?_⟩
  · unfold srcGet
    rw [if_pos hlt', h.1]; rfl
  · unfold bytesLeft
    show (sourceBytes s).drop (s.srcPos + 1).toNat = _
    rw [srcPos_succ hlt']; exact h.2

theorem bytesLeft_nil {s : State} (h : bytesLeft s = []) : ¬ s.srcPos < s.srcLen := by
  have := congrArg List.length h
  unfold bytesLeft at this
  rw [List.length_drop, sourceBytes_length] at this
  rw [BitVec.lt_def]
  simp at this
  omega

/-- The loop of DECODE. -/
abbrev decodeLoop (n : Nat) (s : State) : Res Unit := whileLoop (fun s => decide (s.decCnt < s.totalSym)) decodeTurn n s

theorem lt_of_le_ne {s : State} (hle : s.decCnt ≤ s.totalSym) (hne : s.decCnt ≠ s.totalSym) : s.decCnt < s.totalSym := by
  have : s.decCnt.toNat ≠ s.totalSym.toNat := fun e => hne (BitVec.eq_of_toNat_eq e)
  rw [BitVec.le_def] at hle
  rw [BitVec.lt_def]; omega

theorem decodeTurn_cons {s : State} {b : Byte} {bs : List Byte} (h : bytesLeft s = b :: bs) :
    decodeTurn s = (forEach runBit (byteBits b) s).withPos (s.srcPos + 1) := by
  unfold decodeTurn
  rw [(bytesLeft_cons h).2.1]
  dsimp only
  rw [byteTurn_eq, runBits_pos]

theorem withPos_bind_ok {α : Type} {q : Word32} {r : Res α} {a : α} {s : State} (h : r = .ok a s) :
    r.withPos q = .ok a (setPos q s) := by rw [h]; rfl

/-- After a byte whose bits all ran, the loop goes on. -/
theorem bytesLeft_after {s w : State} {b : Byte} {bs : List Byte} (h : bytesLeft s = b :: bs) (hk : BitsKeep s w) :
    bytesLeft (setPos (s.srcPos + 1) w) = bs := by
  rw [← (bytesLeft_cons h).2.2]
  unfold bytesLeft
  show (sourceBytes (setPos (s.srcPos + 1) w)).drop (s.srcPos + 1).toNat = _
  congr 1
  unfold sourceBytes
  show (List.range w.srcLen.toNat).map _ = (List.range s.srcLen.toNat).map _
  rw [hk.len]
  exact List.map_congr_left fun a _ => sourceByte_congr hk.src hk.epoch a

/-- The loop up to the bit that ends it: by completing the last symbol, or by an error. -/
theorem decodeLoop_ends (n : Nat) : ∀ (bs : List Byte) (s w : State) (front : List Bool) (v : Bool) (rest : List Bool),
    bytesLeft s = bs → bs.length < n → s.decCnt ≤ s.totalSym → bs.flatMap byteBits = front ++ v :: rest →
    forEach runBit front s = .ok () w → w.decCnt ≠ w.totalSym → (∀ x, bitStep v w = .ok () x → x.decCnt = x.totalSym) →
    decodeLoop n s = (bitStep v w).withPos (s.srcPos + BitVec.ofNat 32 (front.length / 8 + 1)) := by
  induction n with
  | zero => intro bs s w front v rest _ h; omega
  | succ n ih =>
    intro bs s w front v rest hb hn hle hbits hfront hw hv
    have hkw := runBits_keep front hfront
    have hcond : s.decCnt < s.totalSym := lt_of_le_ne hle fun e => by
      rw [runBits_done front e] at hfront
      cases hfront; exact hw e
    obtain _ | ⟨b, bs⟩ := bs
    · simp at hbits
    · unfold decodeLoop whileLoop
      rw [if_pos (by simpa using hcond), decodeTurn_cons hb]
      rw [List.flatMap_cons] at hbits
      by_cases h8 : front.length < 8
      · have hsplit : byteBits b = front ++ v :: rest.take (7 - front.length) := by
          have := congrArg (List.take 8) hbits
          rw [List.take_append_of_le_length (by simp), List.take_of_length_le (by simp), List.take_append,
            List.take_of_length_le (by omega), show 8 - front.length = (7 - front.length) + 1 by omega,
            List.take_succ_cons] at this
          exact this
        rw [hsplit, forEach_append, hfront, Res.bind_ok, forEach_cons,
          show front.length / 8 + 1 = 1 by omega]
        unfold runBit
        rw [if_neg hw]
        cases hx : bitStep v w with
        | stop x => rfl
        | fault f => rfl
        | ok a x =>
          have hd := hv x hx
          rw [Res.bind_ok]
          change ((forEach runBit _ x).withPos _).bind _ = _
          rw [withPos_bind_ok (runBits_done _ hd), Res.bind_ok]
          cases n with
          | zero => simp at hn
          | succ n =>
            unfold whileLoop
            rw [if_neg (by
              rw [decide_eq_true_eq]
              show ¬ x.decCnt < x.totalSym
              rw [hd]; exact BitVec.lt_irrefl _)]
            rfl
      · have hsplit : front = byteBits b ++ front.drop 8 ∧ bs.flatMap byteBits = front.drop 8 ++ v :: rest := by
          have h1 := congrArg (List.take 8) hbits
          have h2 := congrArg (List.drop 8) hbits
          rw [List.take_append_of_le_length (by simp), List.take_of_length_le (by simp),
            List.take_append_of_le_length (by omega)] at h1
          rw [List.drop_append_of_le_length (by simp), List.drop_of_length_le (by simp),
            List.drop_append_of_le_length (by omega)] at h2
          exact ⟨by rw [h1, List.take_append_drop], h2⟩
        rw [hsplit.1, forEach_append] at hfront
        cases hu : forEach runBit (byteBits b) s with
        | stop u => rw [hu] at hfront; cases hfront
        | fault f => rw [hu] at hfront; cases hfront
        | ok a u =>
          rw [hu, Res.bind_ok] at hfront
          have hku := runBits_keep _ hu
          change whileLoop _ _ n (setPos (s.srcPos + 1) u) = _
          have hrun : forEach runBit (front.drop 8) (setPos (s.srcPos + 1) u) = .ok () (setPos (s.srcPos + 1) w) := by
            rw [runBits_pos, hfront]; rfl
          rw [List.length_cons] at hn
          refine (ih bs _ (setPos (s.srcPos + 1) w) (front.drop 8) v rest (bytesLeft_after hb hku) (by omega) (hku.count hle)
            hsplit.2 hrun hw (fun x hx => ?_)).trans ?_
          · rw [bitStep_pos] at hx
            cases hy : bitStep v w with
            | stop y => rw [hy] at hx; cases hx
            | fault f => rw [hy] at hx; cases hx
            | ok a y =>
              rw [hy] at hx
              cases hx; exact hv y hy
          · have hpos : s.srcPos + 1 + BitVec.ofNat 32 ((front.drop 8).length / 8 + 1) =
                s.srcPos + BitVec.ofNat 32 (front.length / 8 + 1) := by
              rw [List.length_drop, BitVec.add_assoc, show front.length / 8 + 1 = 1 + ((front.length - 8) / 8 + 1) by omega,
                BitVec.ofNat_add 1]
              rfl
            rw [bitStep_pos]
            show ((bitStep v w).withPos _).withPos (s.srcPos + 1 + _) = _
            rw [hpos]
            cases bitStep v w <;> rfl

/-- The loop over a stream that ends with symbols missing (46_deserializer.md R212). -/
theorem decodeLoop_short (n : Nat) : ∀ (bs : List Byte) (s w : State), bytesLeft s = bs → bs.length < n →
    s.decCnt ≤ s.totalSym → forEach runBit (bs.flatMap byteBits) s = .ok () w → w.decCnt ≠ w.totalSym →
    decodeLoop n s = raise .unexpectedEOF (setPos (if s.srcPos < s.srcLen then s.srcLen else s.srcPos) w) := by
  induction n with
  | zero => intro bs s w _ h; omega
  | succ n ih =>
    intro bs s w hb hn hle hrun hw
    have hkw := runBits_keep _ hrun
    have hcond : s.decCnt < s.totalSym := lt_of_le_ne hle fun e => by
      rw [runBits_done _ e] at hrun
      cases hrun; exact hw e
    unfold decodeLoop whileLoop
    rw [if_pos (by simpa using hcond)]
    obtain _ | ⟨b, bs⟩ := bs
    · have hpos := bytesLeft_nil hb
      cases hrun
      rw [if_neg hpos]
      unfold decodeTurn srcGet
      rw [if_neg hpos]
      rfl
    · obtain ⟨hlt, -, -⟩ := bytesLeft_cons hb
      rw [decodeTurn_cons hb]
      rw [List.flatMap_cons, forEach_append] at hrun
      cases hu : forEach runBit (byteBits b) s with
      | stop u => rw [hu] at hrun; cases hrun
      | fault f => rw [hu] at hrun; cases hrun
      | ok a u =>
        rw [hu, Res.bind_ok] at hrun
        have hku := runBits_keep _ hu
        change whileLoop _ _ n (setPos (s.srcPos + 1) u) = _
        rw [List.length_cons] at hn
        refine (ih bs _ (setPos (s.srcPos + 1) w) (bytesLeft_after hb hku) (by omega) (hku.count hle)
          (by rw [runBits_pos, hrun]; rfl) hw).trans ?_
        have hif : (if s.srcPos + 1 < u.srcLen then u.srcLen else s.srcPos + 1) = s.srcLen := by
          rw [hku.len]
          by_cases h : s.srcPos + 1 < s.srcLen
          · rw [if_pos h]
          · rw [if_neg h]
            apply BitVec.eq_of_toNat_eq
            have := srcPos_succ hlt
            rw [BitVec.lt_def] at h hlt
            omega
        show raise _ (setPos (if s.srcPos + 1 < u.srcLen then u.srcLen else s.srcPos + 1) _) = _
        rw [hif, if_pos hlt]
        rfl

/-! ### Paths -/

/-- The decoder at node `n` with these symbols emitted. -/
def decoding (s : State) (total : Nat) (n : Ref) (out : List Byte) : State :=
  { s with
    totalSym := BitVec.ofNat 40 total
    cursor := n
    decCnt := BitVec.ofNat 40 out.length
    snk := s.snk ++ out }

theorem decoding_open {s : State} {total : Nat} {n : Ref} {out : List Byte} (ht : total < 2 ^ 40) (ho : out.length < total) :
    (decoding s total n out).decCnt ≠ (decoding s total n out).totalSym := by
  intro e
  have := congrArg BitVec.toNat e
  change (BitVec.ofNat 40 out.length).toNat = (BitVec.ofNat 40 total).toNat at this
  rw [BitVec.toNat_ofNat, BitVec.toNat_ofNat, Nat.mod_eq_of_lt ht, Nat.mod_eq_of_lt (by omega)] at this
  omega

theorem isLeaf_eq {n : Ref} (h : n.toNat < 511) (s : State) : isLeaf n s = .ok (leafNode s n) s := by
  unfold isLeaf nodeLeftAt nodeRightAt
  rw [fetchWord_ok h, Res.bind_ok, fetchWord_ok h, Res.bind_ok]
  unfold leafNode
  simp only [Vector.getElem?_eq_getElem h, Option.some.injEq]

theorem TreeOk.lt511 {s : State} (h : TreeOk s) {n : Ref} (hn : n.toNat < 2 * s.k.toNat - 1) : n.toNat < 511 := by
  have := h.kRange; omega

theorem isLeaf_root {s : State} (h : TreeOk s) (total : Nat) (n : Ref) (out : List Byte) :
    isLeaf (decoding s total n out).root (decoding s total n out) =
      .ok (leafNode s s.root) (decoding s total n out) := isLeaf_eq (h.lt511 h.root_lt) _

/-- BitStep on an edge from an internal node. -/
theorem bitStep_inner {s : State} (h : TreeOk s) (hr : leafNode s s.root = false) {total : Nat} {n c : Ref} {out : List Byte}
    (hn : n.toNat < 2 * s.k.toNat - 1) {v : Bool} (hc : childAt s n v = some c) (hne : c ≠ Config.nil)
    (hcn : c.toNat < n.toNat) :
    bitStep v (decoding s total n out) =
      if leafNode s c then emitLeaf c (decoding s total c out) else .ok () (decoding s total c out) := by
  unfold bitStep
  rw [isLeaf_root h, Res.bind_ok, hr, if_neg (by simp)]
  unfold bitStepInner
  have hfetch : (if v then nodeRightAt (decoding s total n out).cursor (decoding s total n out)
      else nodeLeftAt (decoding s total n out).cursor (decoding s total n out)) = .ok c (decoding s total n out) := by
    cases v
    · exact fetchWord_some hc
    · exact fetchWord_some hc
  rw [hfetch, Res.bind_ok, if_neg hne, isLeaf_eq (h.lt511 (by omega)), Res.bind_ok]
  rfl

theorem emitLeaf_ok {s : State} {total : Nat} {m c : Ref} {out : List Byte} {sym : Byte}
    (hs : s.nodeSym[c.toNat]? = some sym) :
    emitLeaf c (decoding s total m out) = .ok () (decoding s total s.root (out ++ [sym])) := by
  unfold emitLeaf nodeSymAt
  rw [fetchWord_some (show (decoding s total m out).nodeSym[c.toNat]? = some sym from hs), Res.bind_ok]
  unfold decoding snkPut
  rw [List.append_assoc, List.length_append, BitVec.ofNat_add]
  rfl

theorem follow_cons {s : State} {n m : Ref} {v : Bool} {p : List Bool} (e : follow s n (v :: p) = some m) :
    ∃ c, childAt s n v = some c ∧ c ≠ Config.nil ∧ follow s c p = some m := by
  unfold childAt
  simp only [follow] at e
  split at e
  · cases e
  · rename_i c hc
    split at e
    · cases e
    · rename_i hne
      exact ⟨c, hc, hne, e⟩

/-- A path that ends at an internal node emits nothing. -/
theorem runBits_inner {s : State} (h : TreeOk s) (hr : leafNode s s.root = false) {total : Nat} (ht : total < 2 ^ 40)
    {out : List Byte} (ho : out.length < total) (p : List Bool) : ∀ (n m : Ref), n.toNat < 2 * s.k.toNat - 1 →
    follow s n p = some m → leafNode s m = false →
    forEach runBit p (decoding s total n out) = .ok () (decoding s total m out) := by
  induction p with
  | nil => intro n m _ e _; cases e; rfl
  | cons v p ih =>
    intro n m hn e hm
    obtain ⟨c, hc, hne, e'⟩ := follow_cons e
    have hk : s.k.toNat ≤ n.toNat := by
      by_contra hk
      rw [follow_leaf ((h.leaf_iff hn).mpr (by omega))] at e; cases e
    obtain ⟨c', hc', hcn, -⟩ := h.child hk hn v
    obtain rfl : c' = c := Option.some.inj (hc'.symm.trans hc)
    have hcl : leafNode s c' = false := by
      by_contra hl
      rw [Bool.not_eq_false] at hl
      cases p with
      | nil => cases e'; rw [hm] at hl; cases hl
      | cons w p => rw [follow_leaf hl] at e'; cases e'
    rw [forEach_cons]
    unfold runBit
    rw [if_neg (decoding_open ht ho), bitStep_inner h hr hn hc hne hcn, hcl, if_neg (by simp), Res.bind_ok]
    exact ih c' m (by omega) e' hm

/-- The last edge to a leaf, and what comes before it. -/
theorem leafPath_last {s : State} (h : TreeOk s) (hr : leafNode s s.root = false) {p : List Bool} {sym : Byte}
    (hp : LeafPath s p sym) {total : Nat} (ht : total < 2 ^ 40) {out : List Byte} (ho : out.length < total) :
    ∃ p' v j, p = p' ++ [v] ∧ forEach runBit p' (decoding s total s.root out) = .ok () (decoding s total j out) ∧
      bitStep v (decoding s total j out) = .ok () (decoding s total s.root (out ++ [sym])) := by
  obtain ⟨m, hf, hl, hs⟩ := hp
  obtain rfl | ⟨p', v, rfl⟩ := List.eq_nil_or_concat p
  · cases hf; rw [hr] at hl; cases hl
  · rw [List.concat_eq_append] at hf ⊢
    obtain ⟨j, hj, hc⟩ := follow_snoc hf
    have hb := h.follow_bound p' _ _ h.root_lt hj
    have hk : s.k.toNat ≤ j.toNat := by
      by_contra hk
      have := (h.leaf_iff hb.1).mpr (by omega)
      rw [follow_append, hj, Option.bind_some, follow_leaf this] at hf
      cases hf
    obtain ⟨c, hc', hcn, hne⟩ := h.child hk hb.1 v
    obtain rfl : c = m := Option.some.inj (hc'.symm.trans hc)
    have hjl : leafNode s j = false := by
      by_contra hh
      rw [Bool.not_eq_false] at hh
      have := (h.leaf_iff hb.1).mp hh
      omega
    refine ⟨p', v, j, rfl, runBits_inner h hr ht ho p' _ _ h.root_lt hj hjl, ?_⟩
    rw [bitStep_inner h hr hb.1 hc hne hcn, hl, if_pos rfl]
    exact emitLeaf_ok hs

/-- Whole paths emit their leaves' symbols. -/
theorem runBits_paths {s : State} (h : TreeOk s) (hr : leafNode s s.root = false) {total : Nat} (ht : total < 2 ^ 40)
    {paths : List (List Bool)} {syms : List Byte} (hp : List.Forall₂ (LeafPath s) paths syms) :
    ∀ out : List Byte, out.length + syms.length ≤ total →
      forEach runBit paths.flatten (decoding s total s.root out) = .ok () (decoding s total s.root (out ++ syms)) := by
  induction hp with
  | nil => intro out _; simp
  | @cons p sym paths syms hp hps ih =>
    intro out ho
    rw [List.length_cons] at ho
    obtain ⟨p', v, j, rfl, h1, h2⟩ := leafPath_last h hr hp ht (out := out) (by omega)
    rw [List.flatten_cons, forEach_append, forEach_append, h1, Res.bind_ok, forEach_cons,
      runBit_open v (decoding_open ht (by omega)), h2, Res.bind_ok, forEach_nil, Res.bind_ok,
      ih (out ++ [sym]) (by rw [List.length_append]; simp; omega), List.append_assoc]
    rfl

/-! ### DECODE -/

theorem sumLoop (s : State) (hk : s.k.toNat ≤ 256) :
    forEach sumTurn (List.range s.k.toNat) { s with totalSym := 0 } =
      .ok () { s with totalSym := BitVec.ofNat 40 (freqSum (entryList s)) } := by
  have hloop := forEach_holds (Q := fun _ => False) (F := fun _ => False) (turn := sumTurn) (List.range s.k.toNat)
    (fun n u => u = { s with totalSym := BitVec.ofNat 40 (freqSum ((entryList s).take n)) }) { s with totalSym := 0 } rfl
    (fun n hn u hu => by
      have hn' : n < (entryList s).length := by rw [entryList_length s hk]; simpa using hn
      obtain ⟨h256, he⟩ := entryList_getElem s n hn'
      rw [List.getElem_range, hu]
      unfold sumTurn entFreqAt
      rw [fetchWord_ok h256, Res.bind_ok]
      show _ = _
      rw [List.take_succ_eq_append_getElem hn', he]
      unfold freqSum
      rw [List.map_append, List.sum_append, BitVec.ofNat_add]
      congr 2
      apply BitVec.eq_of_toNat_eq
      simp)
  obtain ⟨_, t, ht, he⟩ := hloop.result
  rw [ht, he, List.length_range, List.take_of_length_le (by rw [entryList_length s hk])]

/-- DECODE up to its loop (46_deserializer.md R207). -/
theorem bodyDecode_loop (s : State) (hk : s.k.toNat ≤ 256) :
    bodyDecode s = decodeLoop ((bytesLeft s).length + 1) (decoding s (freqSum (entryList s)) s.root []) := by
  unfold bodyDecode
  rw [sumLoop s hk, Res.bind_ok]
  unfold decoding bytesLeft
  rw [List.append_nil, List.length_drop, sourceBytes_length]
  rfl

theorem freqSum_entries (s : State) (hk : s.k.toNat ≤ 256) : freqSum (entryList s) < 2 ^ 40 :=
  freqSum_lt (by rw [entryList_length s hk]; exact hk)

theorem decoding_done (s : State) (total : Nat) (n : Ref) {out : List Byte} (h : out.length = total) :
    (decoding s total n out).decCnt = (decoding s total n out).totalSym := by rw [← h]; rfl

/-- DECODE with no symbols to emit (46_deserializer.md R214). -/
theorem bodyDecode_none (s : State) (hk : s.k.toNat ≤ 256) (h0 : freqSum (entryList s) = 0) :
    bodyDecode s = .ok () (decoding s 0 s.root []) := by
  rw [bodyDecode_loop s hk, h0]
  unfold decodeLoop whileLoop
  rw [if_neg (by decide_cbv)]

/-- DECODE on a stream that begins with enough paths (46_deserializer.md R207, R208, R210). -/
theorem bodyDecode_paths {s : State} (h : TreeOk s) (hr : leafNode s s.root = false) {paths : List (List Bool)}
    {syms : List Byte} (hp : List.Forall₂ (LeafPath s) paths syms) (hlen : syms.length = freqSum (entryList s))
    {rest : List Bool} (hbits : streamBits s = paths.flatten ++ rest) :
    bodyDecode s = .ok () (setPos (s.srcPos + BitVec.ofNat 32 ((paths.flatten.length + 7) / 8))
      (decoding s (freqSum (entryList s)) s.root syms)) := by
  have hk := h.kRange
  have ht := freqSum_entries s hk.2
  obtain rfl | ⟨syms', sym, rfl⟩ := List.eq_nil_or_concat syms
  · cases hp
    have h0 : freqSum (entryList s) = 0 := hlen.symm
    rw [bodyDecode_none s hk.2 h0, h0]
    simp only [List.flatten_nil, List.length_nil]
    have : s.srcPos + BitVec.ofNat 32 ((0 + 7) / 8) = s.srcPos := by
      rw [show (0 + 7) / 8 = 0 from rfl]; exact BitVec.add_zero _
    rw [this]; rfl
  · rw [List.concat_eq_append] at hp hlen ⊢
    obtain ⟨paths', last, hp', hl, rfl⟩ : ∃ paths' last, List.Forall₂ (LeafPath s) paths' syms' ∧ LeafPath s last sym ∧
        paths = paths' ++ [last] := by
      have hr := List.forall₂_reverse_iff.mpr hp
      rw [List.reverse_append] at hr
      cases hq : paths.reverse with
      | nil => rw [hq] at hr; cases hr
      | cons last rev =>
        rw [hq] at hr
        cases hr with
        | cons h1 h2 =>
          refine ⟨rev.reverse, last, ?_, h1, ?_⟩
          · have := List.forall₂_reverse_iff.mpr h2
            simpa using this
          · have := congrArg List.reverse hq
            simpa using this
    rw [List.length_append] at hlen
    simp only [List.length_singleton] at hlen
    obtain ⟨p', v, j, rfl, h1, h2⟩ := leafPath_last h hr hl ht (out := syms') (by omega)
    have hrun := runBits_paths h hr ht hp' [] (by simp; omega)
    rw [List.nil_append] at hrun
    have hflat : (paths' ++ [p' ++ [v]]).flatten = paths'.flatten ++ p' ++ [v] := by simp
    rw [hflat] at hbits ⊢
    rw [bodyDecode_loop s hk.2]
    have hloop := decodeLoop_ends ((bytesLeft s).length + 1) (bytesLeft s)
      (decoding s (freqSum (entryList s)) s.root []) (decoding s (freqSum (entryList s)) j syms') (paths'.flatten ++ p') v rest
      rfl (by omega) (by rw [BitVec.le_def]; exact Nat.zero_le _)
      (by rw [← streamBits_eq, hbits]; simp)
      (by rw [forEach_append, hrun, Res.bind_ok, h1])
      (decoding_open ht (by omega))
      (fun x hx => by
        rw [h2] at hx; cases hx
        exact decoding_done s _ _ (by rw [List.length_append]; simpa using hlen))
    rw [hloop, h2, List.length_append (bs := [v]), List.length_singleton,
      show ((paths'.flatten ++ p').length + 1 + 7) / 8 = (paths'.flatten ++ p').length / 8 + 1 by omega]
    rfl

/-- DECODE on a stream that ends inside a path (46_deserializer.md R212). -/
theorem bodyDecode_short {s : State} (h : TreeOk s) (hr : leafNode s s.root = false) {paths : List (List Bool)}
    {syms : List Byte} (hp : List.Forall₂ (LeafPath s) paths syms) (hlen : syms.length < freqSum (entryList s))
    {part : List Bool} {n : Ref} (hbits : streamBits s = paths.flatten ++ part) (hpart : follow s s.root part = some n)
    (hn : leafNode s n = false) :
    bodyDecode s = raise .unexpectedEOF (setPos (if s.srcPos < s.srcLen then s.srcLen else s.srcPos)
      (decoding s (freqSum (entryList s)) n syms)) := by
  have hk := h.kRange
  have ht := freqSum_entries s hk.2
  have hrun := runBits_paths h hr ht hp [] (by simp; omega)
  rw [List.nil_append] at hrun
  rw [bodyDecode_loop s hk.2]
  exact decodeLoop_short _ (bytesLeft s) (decoding s (freqSum (entryList s)) s.root [])
    (decoding s (freqSum (entryList s)) n syms) rfl (by omega) (by rw [BitVec.le_def]; exact Nat.zero_le _)
    (by rw [← streamBits_eq, hbits, forEach_append, hrun, Res.bind_ok]
        exact runBits_inner h hr ht (by simpa using hlen) part _ _ h.root_lt hpart hn)
    (decoding_open ht hlen)

/-! ### The single leaf -/

theorem bitStep_leaf {s : State} (h : TreeOk s) (hr : leafNode s s.root = true) {sym : Byte}
    (hs : s.nodeSym[s.root.toNat]? = some sym) (total : Nat) (out : List Byte) :
    bitStep false (decoding s total s.root out) = .ok () (decoding s total s.root (out ++ [sym])) ∧
    bitStep true (decoding s total s.root out) = raise .corruptStream (decoding s total s.root out) := by
  have hl : ∀ v, bitStep v (decoding s total s.root out) = bitStepLeaf v (decoding s total s.root out) := fun v => by
    unfold bitStep
    rw [isLeaf_root h, Res.bind_ok]
    exact if_pos hr
  refine ⟨(hl false).trans ?_, (hl true).trans rfl⟩
  unfold bitStepLeaf nodeSymAt
  rw [if_neg (by simp), fetchWord_some (show (decoding s total s.root out).nodeSym[(decoding s total s.root out).root.toNat]? =
    some sym from hs), Res.bind_ok]
  unfold decoding snkPut
  rw [List.append_assoc, List.length_append, BitVec.ofNat_add]
  rfl

theorem runBits_zeros {s : State} (h : TreeOk s) (hr : leafNode s s.root = true) {sym : Byte}
    (hs : s.nodeSym[s.root.toNat]? = some sym) {total : Nat} (ht : total < 2 ^ 40) (n : Nat) :
    ∀ out : List Byte, out.length + n ≤ total →
      forEach runBit (List.replicate n false) (decoding s total s.root out) =
        .ok () (decoding s total s.root (out ++ List.replicate n sym)) := by
  induction n with
  | zero => intro out _; simp
  | succ n ih =>
    intro out ho
    rw [List.replicate_succ, forEach_cons, runBit_open _ (decoding_open ht (by omega)), (bitStep_leaf h hr hs total out).1, Res.bind_ok,
      ih (out ++ [sym]) (by rw [List.length_append]; simp; omega), List.append_assoc]
    rfl

/-- DECODE with a single-leaf tree (46_deserializer.md R209, R211, R212). -/
theorem bodyDecode_leaf {s : State} (h : TreeOk s) (hr : leafNode s s.root = true) {sym : Byte}
    (hs : s.nodeSym[s.root.toNat]? = some sym) :
    let total := freqSum (entryList s)
    (∀ rest, streamBits s = List.replicate total false ++ rest →
      bodyDecode s = .ok () (setPos (s.srcPos + BitVec.ofNat 32 ((total + 7) / 8))
        (decoding s total s.root (List.replicate total sym)))) ∧
    (∀ zeros rest, zeros < total → streamBits s = List.replicate zeros false ++ true :: rest →
      bodyDecode s = raise .corruptStream (setPos (s.srcPos + BitVec.ofNat 32 (zeros / 8 + 1))
        (decoding s total s.root (List.replicate zeros sym)))) ∧
    (∀ zeros, zeros < total → streamBits s = List.replicate zeros false →
      bodyDecode s = raise .unexpectedEOF (setPos (if s.srcPos < s.srcLen then s.srcLen else s.srcPos)
        (decoding s total s.root (List.replicate zeros sym)))) := by
  intro total
  have hk := h.kRange
  have ht : total < 2 ^ 40 := freqSum_entries s hk.2
  have run : ∀ n, n ≤ total → forEach runBit (List.replicate n false) (decoding s total s.root []) =
      .ok () (decoding s total s.root (List.replicate n sym)) := fun n hn => by
    have := runBits_zeros h hr hs ht n [] (by simpa using hn)
    rwa [List.nil_append] at this
  have hbody := bodyDecode_loop s hk.2
  refine ⟨fun rest hbits => ?_, fun zeros rest hz hbits => ?_, fun zeros hz hbits => ?_⟩
  · by_cases h0 : total = 0
    · rw [bodyDecode_none s hk.2 h0, h0]
      have : s.srcPos + BitVec.ofNat 32 ((0 + 7) / 8) = s.srcPos := by
        rw [show (0 + 7) / 8 = 0 from rfl]; exact BitVec.add_zero _
      rw [this]; rfl
    · obtain ⟨n, hn⟩ : ∃ n, total = n + 1 := ⟨total - 1, by omega⟩
      have hst := bitStep_leaf h hr hs total (List.replicate n sym)
      have hrep : List.replicate total sym = List.replicate n sym ++ [sym] := by rw [hn, List.replicate_succ']
      have hloop := decodeLoop_ends ((bytesLeft s).length + 1) (bytesLeft s) (decoding s total s.root [])
        (decoding s total s.root (List.replicate n sym)) (List.replicate n false) false rest
        rfl (by omega) (by rw [BitVec.le_def]; exact Nat.zero_le _)
        (by rw [← streamBits_eq, hbits, hn, List.replicate_succ', List.append_assoc]; rfl)
        (run n (by omega)) (decoding_open ht (by simp; omega))
        (fun x hx => by
          rw [hst.1] at hx; cases hx
          exact decoding_done s _ _ (by simp; omega))
      rw [hbody, hloop, hst.1, hrep, List.length_replicate, show (total + 7) / 8 = n / 8 + 1 by omega]
      rfl
  · have hst := bitStep_leaf h hr hs total (List.replicate zeros sym)
    have hloop := decodeLoop_ends ((bytesLeft s).length + 1) (bytesLeft s) (decoding s total s.root [])
      (decoding s total s.root (List.replicate zeros sym)) (List.replicate zeros false) true rest
      rfl (by omega) (by rw [BitVec.le_def]; exact Nat.zero_le _)
      (by rw [← streamBits_eq, hbits])
      (run zeros (by omega)) (decoding_open ht (by simpa using hz))
      (fun x hx => by rw [hst.2] at hx; cases hx)
    rw [hbody, hloop, hst.2, List.length_replicate]
    rfl
  · rw [hbody]
    exact decodeLoop_short _ (bytesLeft s) (decoding s total s.root [])
      (decoding s total s.root (List.replicate zeros sym)) rfl (by omega) (by rw [BitVec.le_def]; exact Nat.zero_le _)
      (by rw [← streamBits_eq, hbits]; exact run zeros (by omega)) (decoding_open ht (by simpa using hz))

end Sys2Proof.Machine
end

