-- ==== Sys2Proof/Laws/Serializer.lean ====
section
/-! SUPPORT. Code bits going out: PUTBIT, FLUSH and PACK (45_serializer.md R191 to R193). -/

namespace Sys2Proof.Machine

/-! ### Bytes of bits -/

theorem byteOfBits_getLsbD (bits : List Bool) (i : Nat) :
    (byteOfBits bits).getLsbD i = (decide (i < 8) && bits.getD i false) := by
  unfold byteOfBits
  rw [BitVec.getLsbD_setWidth, BitVec.getLsbD_ofBoolListLE]
  by_cases h : i < 8
  · simp only [h, decide_true, Bool.true_and]
    rw [List.getD_eq_getElem?_getD, List.getElem?_take, if_pos h, List.getD_eq_getElem?_getD]
  · simp [h]

theorem setBit_getLsbD (w : Byte) (i j : Nat) (v : Bool) (hi : i < 8) (hj : j < 8) :
    (setBit w i v).getLsbD j = if j = i then v else w.getLsbD j := by
  unfold setBit
  rw [BitVec.getLsbD_or, BitVec.getLsbD_and, BitVec.getLsbD_not, BitVec.getLsbD_shiftLeft, BitVec.getLsbD_shiftLeft,
    BitVec.getLsbD_setWidth, BitVec.getLsbD_ofBool]
  by_cases h : j = i
  · subst h; simp [hj]
  · by_cases h2 : j < i
    · simp [h, h2, hj]
    · have h3 : j - i ≠ 0 := by omega
      have h4 : (1#8).getLsbD (j - i) = false := by
        rw [BitVec.getLsbD_one]; simp [h3]
      simp [h, h2, hj, h3, h4]

theorem byteOfBits_snoc (bits : List Bool) (v : Bool) (h : bits.length < 8) :
    setBit (byteOfBits bits) bits.length v = byteOfBits (bits ++ [v]) := by
  apply BitVec.eq_of_getLsbD_eq
  intro j hj
  rw [setBit_getLsbD _ _ _ _ h hj, byteOfBits_getLsbD, byteOfBits_getLsbD]
  simp only [hj, decide_true, Bool.true_and, List.getD_eq_getElem?_getD]
  by_cases e : j = bits.length
  · rw [if_pos e, e]; simp
  · rw [if_neg e]
    by_cases l : j < bits.length
    · rw [List.getElem?_append_left l]
    · rw [List.getElem?_eq_none (by omega), List.getElem?_eq_none (by simp; omega)]

/-- The whole bytes of a bit string. -/
def wholeBytes (bits : List Bool) : List Byte :=
  (List.range (bits.length / 8)).map fun j => byteOfBits (bits.drop (8 * j))

/-- The bits after the last whole byte. -/
def openBits (bits : List Bool) : List Bool := bits.drop (8 * (bits.length / 8))

theorem openBits_length (bits : List Bool) : (openBits bits).length = bits.length % 8 := by
  unfold openBits; rw [List.length_drop]; omega

theorem byteOfBits_append {xs ys : List Bool} (h : 8 ≤ xs.length) : byteOfBits (xs ++ ys) = byteOfBits xs := by
  unfold byteOfBits; rw [List.take_append_of_le_length h]

theorem packBytes_take (bits : List Bool) : (packBytes bits).take (bits.length / 8) = wholeBytes bits := by
  unfold packBytes wholeBytes
  rw [← List.map_take, List.take_range, Nat.min_eq_left (by omega)]

theorem packBytes_eq (bits : List Bool) :
    packBytes bits = wholeBytes bits ++ if bits.length % 8 = 0 then [] else [byteOfBits (openBits bits)] := by
  unfold packBytes wholeBytes openBits
  by_cases h : bits.length % 8 = 0
  · rw [if_pos h, List.append_nil, show (bits.length + 7) / 8 = bits.length / 8 by omega]
  · rw [if_neg h, show (bits.length + 7) / 8 = bits.length / 8 + 1 by omega, List.range_succ, List.map_append]
    rfl

theorem wholeBytes_append {bits : List Bool} (v : Bool) :
    (List.range (bits.length / 8)).map (fun j => byteOfBits ((bits ++ [v]).drop (8 * j))) = wholeBytes bits := by
  unfold wholeBytes
  refine List.map_congr_left fun j hj => ?_
  have : 8 * j + 8 ≤ bits.length := by have := List.mem_range.mp hj; omega
  rw [List.drop_append_of_le_length (by omega), byteOfBits_append (by rw [List.length_drop]; omega)]

/-- The packer after these bits, on top of a state whose buffer was empty. -/
def packed (bits : List Bool) (s : State) : State :=
  { s with
    snk := s.snk ++ wholeBytes bits
    bitBuf := byteOfBits (openBits bits)
    bitCnt := BitVec.ofNat 3 bits.length }

theorem packed_nil (s : State) (h0 : s.bitBuf = 0) (h1 : s.bitCnt = 0) : packed [] s = s := by
  unfold packed wholeBytes openBits
  obtain ⟨_, _⟩ := s
  simp only at h0 h1
  subst h0 h1
  simp [byteOfBits]
  rfl

theorem putBit_packed (bits : List Bool) (v : Bool) (s : State) : putBit v (packed bits s) = packed (bits ++ [v]) s := by
  have hcnt : (packed bits s).bitCnt.toNat = bits.length % 8 := by
    show (BitVec.ofNat 3 bits.length).toNat = _
    rw [BitVec.toNat_ofNat]
  have hdrop : (bits ++ [v]).drop (8 * (bits.length / 8)) = openBits bits ++ [v] := by
    rw [List.drop_append_of_le_length (by omega)]; rfl
  have hbuf : setBit (packed bits s).bitBuf (packed bits s).bitCnt.toNat v = byteOfBits (openBits bits ++ [v]) := by
    rw [hcnt, ← openBits_length]
    exact byteOfBits_snoc _ _ (by rw [openBits_length]; omega)
  unfold putBit
  dsimp only
  rw [hbuf]
  by_cases h : (packed bits s).bitCnt = 7#3
  · have h7 : bits.length % 8 = 7 := by rw [← hcnt, h]; rfl
    rw [if_pos h]
    have hq : (bits ++ [v]).length / 8 = bits.length / 8 + 1 := by rw [List.length_append]; simp; omega
    have hw : wholeBytes (bits ++ [v]) = wholeBytes bits ++ [byteOfBits (openBits bits ++ [v])] := by
      unfold wholeBytes at *
      rw [hq, List.range_succ, List.map_append, wholeBytes_append, ← hdrop]
      rfl
    have ho : openBits (bits ++ [v]) = [] := by
      apply List.eq_nil_of_length_eq_zero
      rw [openBits_length, List.length_append]; simp; omega
    have hc : BitVec.ofNat 3 (bits ++ [v]).length = 0 := by
      apply BitVec.eq_of_toNat_eq
      rw [BitVec.toNat_ofNat, List.length_append]; simp; omega
    unfold packed snkPut
    rw [hw, ho, hc, List.append_assoc]
    rfl
  · have h7 : bits.length % 8 ≠ 7 := fun e => h (BitVec.eq_of_toNat_eq (by rw [hcnt, e]; rfl))
    rw [if_neg h]
    have hq : (bits ++ [v]).length / 8 = bits.length / 8 := by rw [List.length_append]; simp; omega
    have hw : wholeBytes (bits ++ [v]) = wholeBytes bits := by
      conv_lhs => unfold wholeBytes
      rw [hq, wholeBytes_append]
    have ho : openBits (bits ++ [v]) = openBits bits ++ [v] := by
      conv_lhs => unfold openBits
      rw [hq, hdrop]
    have hc : BitVec.ofNat 3 bits.length + 1 = BitVec.ofNat 3 (bits ++ [v]).length := by
      apply BitVec.eq_of_toNat_eq
      rw [BitVec.toNat_add, BitVec.toNat_ofNat, BitVec.toNat_ofNat, List.length_append]
      simp
    unfold packed
    rw [hw, ho, ← hc]

theorem putBits_packed {f : Nat → State → Bool} {g : Nat → Bool} {s : State}
    (hf : ∀ i bits, f i (packed bits s) = g i) (n : Nat) (bits : List Bool) :
    forEach (fun i s => .ok () (putBit (f i s) s)) (List.range n) (packed bits s) =
      .ok () (packed (bits ++ (List.range n).map g) s) := by
  induction n with
  | zero => simp
  | succ n ih =>
    rw [List.range_succ, forEach_append, ih, Res.bind_ok, forEach_cons, hf, putBit_packed, Res.bind_ok, forEach_nil,
      List.map_append, ← List.append_assoc]
    rfl

theorem flush_packed (bits : List Bool) (s : State) :
    flushBits (packed bits s) = { s with snk := s.snk ++ packBytes bits, bitBuf := 0, bitCnt := 0 } := by
  have hcnt : (packed bits s).bitCnt = 0#3 ↔ bits.length % 8 = 0 := by
    constructor
    · intro h
      have := congrArg BitVec.toNat h
      rw [show (packed bits s).bitCnt = BitVec.ofNat 3 bits.length from rfl, BitVec.toNat_ofNat] at this
      exact this
    · intro h
      apply BitVec.eq_of_toNat_eq
      rw [show (packed bits s).bitCnt = BitVec.ofNat 3 bits.length from rfl, BitVec.toNat_ofNat]
      exact h
  unfold flushBits
  rw [packBytes_eq]
  by_cases h : bits.length % 8 = 0
  · rw [if_neg (by rw [ne_eq, not_not]; exact hcnt.mpr h), if_pos h, List.append_nil]
    have ho : openBits bits = [] := List.eq_nil_of_length_eq_zero (by rw [openBits_length]; exact h)
    have hc := hcnt.mpr h
    unfold packed at hc ⊢
    rw [show BitVec.ofNat 3 bits.length = 0 from hc, ho]
    rfl
  · rw [if_pos (fun e => h (hcnt.mp e)), if_neg h]
    unfold snkPut packed
    rw [List.append_assoc]

/-! ### PACK -/

/-- The codes of some bytes, one after the other. -/
def codeBits (s : State) (bs : List Byte) : List Bool := bs.flatMap fun b => codeOf b s

theorem codeOf_nil_iff (b : Byte) (s : State) : codeOf b s = [] ↔ codeLenAt b s = 0 := by
  unfold codeOf
  rw [List.map_eq_nil_iff, List.range_eq_nil]
  exact ⟨fun h => BitVec.eq_of_toNat_eq h, fun h => by rw [h]; rfl⟩

/-- PACK after `p` source bytes. -/
def packedAt (s : State) (p : Nat) : State :=
  packed (codeBits s (sourceTake s p)) { s with srcPos := BitVec.ofNat 32 p, bitBuf := 0, bitCnt := 0 }

theorem srcGet_packedAt (s : State) {p : Nat} (hp : p < s.srcLen.toNat) :
    srcGet (packedAt s p) = (some (sourceByte s p), packed (codeBits s (sourceTake s p))
      { s with srcPos := BitVec.ofNat 32 (p + 1), bitBuf := 0, bitCnt := 0 }) := by
  have hlen := s.srcLen.isLt
  have hpn : (BitVec.ofNat 32 p).toNat = p := by rw [BitVec.toNat_ofNat]; exact Nat.mod_eq_of_lt (by omega)
  have hpos : (packedAt s p).srcPos = BitVec.ofNat 32 p := rfl
  have h1 : BitVec.ofNat 32 p + 1 = BitVec.ofNat 32 (p + 1) := BitVec.eq_of_toNat_eq (by
    rw [BitVec.toNat_add, hpn, BitVec.toNat_ofNat]; rfl)
  unfold srcGet
  rw [if_pos (by rw [BitVec.lt_def, hpos, hpn]; exact hp), hpos, hpn, ← h1]
  rfl

theorem packTurn_coded (s : State) {p : Nat} (hp : p < s.srcLen.toNat) (hc : codeOf (sourceByte s p) s ≠ []) :
    packTurn (packedAt s p) = .ok () (packedAt s (p + 1)) := by
  unfold packTurn
  rw [srcGet_packedAt s hp]
  dsimp only
  refine (if_neg (fun e => hc ((codeOf_nil_iff _ s).mpr e))).trans
    ((putBits_packed (g := (codeBitsAt (sourceByte s p) s).getLsbD) (fun _ _ => rfl) _ _).trans ?_)
  unfold packedAt codeBits
  rw [sourceTake_succ, List.flatMap_append]
  simp only [List.flatMap_cons, List.flatMap_nil, List.append_nil]
  rfl

theorem packTurn_uncoded (s : State) {p : Nat} (hp : p < s.srcLen.toNat) (hc : codeOf (sourceByte s p) s = []) :
    packTurn (packedAt s p) = raise .invariantViolation
      (packed (codeBits s (sourceTake s p)) { s with srcPos := BitVec.ofNat 32 (p + 1), bitBuf := 0, bitCnt := 0 }) := by
  unfold packTurn
  rw [srcGet_packedAt s hp]
  dsimp only
  exact if_pos ((codeOf_nil_iff _ s).mp hc)

theorem packLoop_coded (s : State) (n : Nat) : ∀ (d p : Nat), p + d ≤ s.srcLen.toNat → d ≤ n →
    (∀ i, p ≤ i → i < p + d → codeOf (sourceByte s i) s ≠ []) →
    whileLoop (fun s => decide (s.srcPos < s.srcLen)) packTurn n (packedAt s p) =
      whileLoop (fun s => decide (s.srcPos < s.srcLen)) packTurn (n - d) (packedAt s (p + d)) := by
  have hlen := s.srcLen.isLt
  induction n with
  | zero => intro d p _ h _; cases (show d = 0 by omega); rfl
  | succ n ih =>
    intro d p hp hd hc
    cases d with
    | zero => rfl
    | succ d =>
      have hcond : decide ((packedAt s p).srcPos < (packedAt s p).srcLen) = true := by
        rw [decide_eq_true_eq, BitVec.lt_def]
        show (BitVec.ofNat 32 p).toNat < s.srcLen.toNat
        rw [BitVec.toNat_ofNat, Nat.mod_eq_of_lt (by omega)]; omega
      conv_lhs => unfold whileLoop
      rw [if_pos hcond, packTurn_coded s (by omega) (hc p (by omega) (by omega)), Res.bind_ok,
        ih d (p + 1) (by omega) (by omega) (fun i h1 h2 => hc i (by omega) (by omega)),
        show p + 1 + d = p + (d + 1) by omega, show n + 1 - (d + 1) = n - d by omega]

theorem packedAt_zero (s : State) : srcRewind { s with bitBuf := 0, bitCnt := 0 } = packedAt s 0 := by
  unfold packedAt
  rw [show codeBits s (sourceTake s 0) = [] from rfl, packed_nil _ rfl rfl]
  rfl

/-- PACK body where every source byte has a code (45_serializer.md R193). -/
theorem bodyPack_coded (s : State) (h : ∀ b ∈ sourceBytes s, codeOf b s ≠ []) :
    bodyPack s = .ok () { s with
      srcPos := s.srcLen, bitBuf := 0, bitCnt := 0, snk := s.snk ++ packBytes (codeBits s (sourceBytes s)) } := by
  have hloop := packLoop_coded s s.srcLen.toNat s.srcLen.toNat 0 (by omega) (Nat.le_refl _) (fun i _ hi =>
    h _ (by unfold sourceBytes; exact List.mem_map_of_mem (List.mem_range.mpr (by omega))))
  have hpos : BitVec.ofNat 32 s.srcLen.toNat = s.srcLen := (BitVec.ofNat_toNat 32 _).trans (BitVec.setWidth_eq _)
  unfold bodyPack
  rw [packedAt_zero, hloop, Nat.sub_self, Nat.zero_add]
  unfold whileLoop
  rw [if_neg (by
    rw [decide_eq_true_eq]
    show ¬ BitVec.ofNat 32 s.srcLen.toNat < s.srcLen
    rw [hpos]; exact BitVec.lt_irrefl _), Res.bind_ok]
  unfold packedAt
  rw [flush_packed, hpos]
  rfl

/-- PACK body up to the first source byte without a code (45_serializer.md R193). -/
theorem bodyPack_uncoded (s : State) {p : Nat} (hp : p < s.srcLen.toNat)
    (h : ∀ i, i < p → codeOf (sourceByte s i) s ≠ []) (hbad : codeOf (sourceByte s p) s = []) :
    bodyPack s = raise .invariantViolation
      (packed (codeBits s (sourceTake s p)) { s with srcPos := BitVec.ofNat 32 (p + 1), bitBuf := 0, bitCnt := 0 }) := by
  have hlen := s.srcLen.isLt
  have hloop := packLoop_coded s s.srcLen.toNat p 0 (by omega) (by omega) (fun i _ hi => h i (by omega))
  unfold bodyPack
  rw [packedAt_zero, hloop, Nat.zero_add, show s.srcLen.toNat - p = (s.srcLen.toNat - p - 1) + 1 by omega]
  unfold whileLoop
  rw [if_pos (by
    rw [decide_eq_true_eq, BitVec.lt_def]
    show (BitVec.ofNat 32 p).toNat < s.srcLen.toNat
    rw [BitVec.toNat_ofNat, Nat.mod_eq_of_lt (by omega)]; exact hp), packTurn_uncoded s hp hbad]
  rfl

end Sys2Proof.Machine
end

