-- ==== Sys2Proof/Laws/Invariant.lean ====
section
/-! SUPPORT. The invariant's part about the tables, stage by stage: no stage faults when its precondition holds, and each
leaves the tables in order whether it completes or raises. -/

namespace Sys2Proof.Machine

/-- `Inv` without the sequencer's registers. -/
structure Tables (s : State) : Prop where
  chain : (s.codeV = true → s.treeV = true) ∧ (s.treeV = true → s.entV = true)
  histogram : s.histV = true →
    (s.hist.toList.map BitVec.toNat).sum = s.totalIn.toNat ∧ 1 ≤ s.totalIn.toNat
  kRange : s.k.toNat ≤ 256 ∧ (s.entV = true → 1 ≤ s.k.toNat)
  tree : s.treeV = true → TreeOk s
  code : s.codeV = true → CodeTableOk s
  heap : s.heapSize.toNat ≤ 256 ∧ ∀ n ∈ heapList s, n.toNat < s.nodeCnt.toNat
  packer : ∀ i, s.bitCnt.toNat ≤ i → s.bitBuf.getLsbD i = false
  counts : s.decCnt.toNat ≤ s.totalSym.toNat
  source : Memory.wf s.src = true

theorem inv_iff (s : State) : Inv s ↔ SequencerOk s ∧ Tables s :=
  ⟨fun h => ⟨h.sequencer, h.chain, h.histogram, h.kRange, h.tree, h.code, h.heap, h.packer, h.counts, h.source⟩,
    fun ⟨h, t⟩ => ⟨h, t.chain, t.histogram, t.kRange, t.tree, t.code, t.heap, t.packer, t.counts, t.source⟩⟩

/-- A change of registers the tables do not depend on. -/
theorem Tables.congr {s t : State} (h : Tables s)
    (e : t = { s with
      phase := t.phase, kind := t.kind, busy := t.busy, done := t.done, err := t.err, errKind := t.errKind
      errStage := t.errStage, srcLen := t.srcLen, srcPos := t.srcPos, snk := t.snk, host := t.host, rdata := t.rdata
      freeReads := t.freeReads, srcEpoch := t.srcEpoch, cursor := t.cursor }) : Tables t := by
  have same : SameTree s t := by rw [e]; exact ⟨rfl, rfl, rfl, rfl, rfl, rfl, rfl, rfl, rfl⟩
  have hl : t.codeLen = s.codeLen := by rw [e]
  have hb : t.codeBits = s.codeBits := by rw [e]
  refine ⟨?_, ?_, ?_, fun ht => (h.tree ?_).congr same, fun hc => (h.code ?_).congr same hl hb, ?_, ?_, ?_, ?_⟩
  · rw [e]; exact h.chain
  · rw [e]; exact h.histogram
  · rw [e]; exact h.kRange
  · rw [e] at ht; exact ht
  · rw [e] at hc; exact hc
  · rw [e]; exact h.heap
  · rw [e]; exact h.packer
  · rw [e]; exact h.counts
  · rw [e]; exact h.source

theorem Tables.error {s : State} (h : Tables s) (k : ErrKind) : Tables (errorEntry k s) := h.congr rfl

/-- With every flag of the chain cleared, TREE, ENT and CODE may hold anything. -/
theorem Tables.invalid {s t : State} (h : Tables s) (hk : t.k.toNat ≤ 256) (h1 : t.entV = false) (h2 : t.treeV = false)
    (h3 : t.codeV = false)
    (e : t = { s with
      entV := t.entV, treeV := t.treeV, codeV := t.codeV, k := t.k, entSym := t.entSym, entFreq := t.entFreq
      srcPos := t.srcPos }) : Tables t := by
  refine ⟨?_, ?_, ⟨hk, ?_⟩, ?_, ?_, ?_, ?_, ?_, ?_⟩
  · rw [h3, h2]; exact ⟨fun x => (by cases x), fun x => (by cases x)⟩
  · rw [e]; exact h.histogram
  · rw [h1]; exact fun x => by cases x
  · rw [h2]; exact fun x => by cases x
  · rw [h3]; exact fun x => by cases x
  · rw [e]; exact h.heap
  · rw [e]; exact h.packer
  · rw [e]; exact h.counts
  · rw [e]; exact h.source

theorem runStage_pre {st : Stage} {s : State} (h : st.pre s = true) :
    runStage st s = (st.body (st.cascade s)).bind fun _ s => .ok () (st.produce s) := if_pos h

/-! ### HIST -/

theorem sum_counts (l : List Byte) : ((List.range 256).map fun i => l.count (BitVec.ofNat 8 i)).sum = l.length := by
  induction l with
  | nil =>
    refine List.sum_eq_zero fun x hx => ?_
    obtain ⟨i, -, rfl⟩ := List.mem_map.mp hx
    rfl
  | cons b l ih =>
    have hone : ((List.range 256).map fun i => if b = BitVec.ofNat 8 i then 1 else 0).sum = 1 := by
      revert b; decide +kernel
    have hsplit : ((List.range 256).map fun i => (b :: l).count (BitVec.ofNat 8 i)) =
        (List.range 256).map fun i => l.count (BitVec.ofNat 8 i) + if b = BitVec.ofNat 8 i then 1 else 0 :=
      List.map_congr_left fun i _ => by
        rw [List.count_cons]
        by_cases e : b = BitVec.ofNat 8 i
        · rw [if_pos e, if_pos (by simpa using e)]
        · rw [if_neg e, if_neg (by simpa using e)]
    rw [hsplit, List.sum_map_add, ih, hone, List.length_cons]

theorem hist_sum {s : State} {l : List Byte} (h : ∀ b, (histAt b s).toNat = l.count b) :
    (s.hist.toList.map BitVec.toNat).sum = l.length := by
  rw [← sum_counts l]
  congr 1
  apply List.ext_getElem
  · simp
  · intro i h1 h2
    have hi : i < 256 := by simpa using h2
    rw [List.getElem_map, List.getElem_map, List.getElem_range, ← h, Vector.getElem_toList]
    unfold histAt
    congr 2
    rw [BitVec.toNat_ofNat]; omega

theorem hist_tables {s : State} (h : Tables s) :
    (runStage .hist s).Holds (fun _ t => Tables t) Tables (fun _ => False) := by
  have hcasc : Tables (Stage.hist.cascade s) := by
    refine ⟨⟨fun x => (by cases x), fun x => (by cases x)⟩, fun x => (by cases x), ⟨h.kRange.1, fun x => (by cases x)⟩,
      fun x => (by cases x), fun x => (by cases x), h.heap, h.packer, h.counts, h.source⟩
  rw [runStage_pre (st := .hist) rfl]
  by_cases h0 : s.srcLen = 0
  · have : Stage.hist.body (Stage.hist.cascade s) = raise .emptyInput (Stage.hist.cascade s) := if_pos h0
    rw [this]
    exact hcasc.error _
  · obtain ⟨t, e, hc, -, ht, hn⟩ := bodyHist_spec (Stage.hist.cascade s) h0
    change Res.Holds _ _ _ ((bodyHist (Stage.hist.cascade s)).bind _)
    rw [e]
    have hlen : 1 ≤ s.srcLen.toNat := by
      rcases Nat.eq_zero_or_pos s.srcLen.toNat with z | z
      · exact absurd (BitVec.eq_of_toNat_eq z) h0
      · exact z
    have hsum := hist_sum hn
    rw [sourceBytes_length] at hsum
    refine ⟨?_, fun _ => ⟨?_, ?_⟩, ?_, fun x => ?_, fun x => ?_, ?_, ?_, ?_, ?_⟩
    · rw [hc]; exact hcasc.chain
    · show _ = t.totalIn.toNat
      rw [ht]; exact hsum
    · show 1 ≤ t.totalIn.toNat
      rw [ht]; exact hlen
    · rw [hc]; exact hcasc.kRange
    · rw [hc] at x; cases x
    · rw [hc] at x; cases x
    · rw [hc]; exact hcasc.heap
    · rw [hc]; exact hcasc.packer
    · rw [hc]; exact hcasc.counts
    · rw [hc]; exact hcasc.source

/-! ### ALPHA -/

theorem exists_counter {s : State} (h : 1 ≤ (s.hist.toList.map BitVec.toNat).sum) : ∃ b : Byte, histAt b s ≠ 0 := by
  by_contra hno
  push Not at hno
  have hz : (s.hist.toList.map BitVec.toNat).sum = 0 := by
    refine List.sum_eq_zero fun x hx => ?_
    obtain ⟨w, hw, rfl⟩ := List.mem_map.mp hx
    obtain ⟨i, hi, rfl⟩ := List.getElem_of_mem hw
    have hi' : i < 256 := by simpa using hi
    have hb : (BitVec.ofNat 8 i).toNat = i := by rw [BitVec.toNat_ofNat]; omega
    have := hno (BitVec.ofNat 8 i)
    unfold histAt at this
    simp only [hb] at this
    rw [Vector.getElem_toList, this]; rfl
  omega

theorem alpha_tables {s : State} (h : Tables s) (hp : s.histV = true) :
    (runStage .alpha s).Holds (fun _ t => Tables t) Tables (fun _ => False) := by
  obtain ⟨t, e, hc, he⟩ := bodyAlpha_spec (Stage.alpha.cascade s)
  rw [runStage_pre (st := .alpha) hp]
  change Res.Holds _ _ _ ((bodyAlpha (Stage.alpha.cascade s)).bind _)
  rw [e]
  have hle := he.length_le
  have hpos : 1 ≤ (countedEntries (Stage.alpha.cascade s) allBytes).length := by
    obtain ⟨b, hb⟩ := exists_counter (s := s) (by rw [(h.histogram hp).1]; exact (h.histogram hp).2)
    unfold countedEntries
    rw [List.length_map]
    exact List.length_pos_of_mem (List.mem_filter.mpr ⟨mem_allBytes b, decide_eq_true hb⟩)
  refine ⟨?_, ?_, ⟨?_, fun _ => ?_⟩, fun x => ?_, fun x => ?_, ?_, ?_, ?_, ?_⟩
  · rw [hc]; exact ⟨fun x => x, fun x => (by cases x)⟩
  · rw [hc]; exact h.histogram
  · show t.k.toNat ≤ 256
    rw [he.count]; exact hle
  · show 1 ≤ t.k.toNat
    rw [he.count]; exact hpos
  · rw [hc] at x; cases x
  · rw [hc] at x; cases x
  · rw [hc]; exact h.heap
  · rw [hc]; exact h.packer
  · rw [hc]; exact h.counts
  · rw [hc]; exact h.source

/-! ### BUILD and CODEGEN -/

theorem build_tables {s : State} (h : Tables s) (hp : s.entV = true) :
    (runStage .build s).Holds (fun _ t => Tables t) Tables (fun _ => False) := by
  have h1 := h.kRange.2 hp
  obtain ⟨u, t, e, hf, ht⟩ := bodyBuild_spec (Stage.build.cascade s) h1 h.kRange.1
  have htree := forest_tree (s := Stage.build.cascade s) h1 h.kRange.1 hf ht
  have hc := hf.change
  rw [runStage_pre (st := .build) hp]
  change Res.Holds _ _ _ ((bodyBuild (Stage.build.cascade s)).bind _)
  rw [e]
  have ec : t = { Stage.build.cascade s with
      nodeFreq := t.nodeFreq, nodeSym := t.nodeSym, nodeLeft := t.nodeLeft, nodeRight := t.nodeRight
      nodeCnt := t.nodeCnt, root := t.root, heap := t.heap, heapSize := t.heapSize } := by
    rw [ht, hc]
  have hcode : t.codeV = false := by rw [ec]; rfl
  refine ⟨⟨fun x => rfl, fun _ => ?_⟩, ?_, ?_, fun _ => TreeOk.congr (s := t) ⟨rfl, rfl, rfl, rfl, rfl, rfl, rfl, rfl, rfl⟩ htree, fun x => ?_,
    ⟨?_, fun n hn => ?_⟩, ?_, ?_, ?_⟩
  · show t.entV = true
    rw [ec]; exact hp
  · rw [ec]; exact h.histogram
  · rw [ec]; exact h.kRange
  · have : t.codeV = true := x
    rw [hcode] at this; cases this
  · show t.heapSize.toNat ≤ 256
    have := hf.heap.size
    rw [ht]
    rw [this]; simp
  · have hn' : n ∈ heapList u := by
      have : heapList t = heapList u := by rw [ht]; rfl
      rw [← this]; exact hn
    have hlist : heapList u = [t.root] := hf.heap.list
    rw [hlist] at hn'
    have := hf.created n hn'
    show n.toNat < t.nodeCnt.toNat
    have hcnt : t.nodeCnt = u.nodeCnt := by rw [ht]
    rw [hcnt, hf.count]; exact this
  · rw [ec]; exact h.packer
  · rw [ec]; exact h.counts
  · rw [ec]; exact h.source

theorem codegen_tables {s : State} (h : Tables s) (hp : s.treeV = true) :
    (runStage .codegen s).Holds (fun _ t => Tables t) Tables (fun _ => False) := by
  have hs := h.tree hp
  obtain ⟨t, e, hc, ht⟩ := bodyCodegen_spec (s := Stage.codegen.cascade s)
    (TreeOk.congr (s := s) ⟨rfl, rfl, rfl, rfl, rfl, rfl, rfl, rfl, rfl⟩ hs)
  rw [runStage_pre (st := .codegen) hp]
  change Res.Holds _ _ _ ((bodyCodegen (Stage.codegen.cascade s)).bind _)
  rw [e]
  have htree : TreeOk t := hs.congr (by rw [hc]; exact ⟨rfl, rfl, rfl, rfl, rfl, rfl, rfl, rfl, rfl⟩)
  refine ⟨⟨fun _ => ?_, ?_⟩, ?_, ?_, fun _ => TreeOk.congr (s := t) ⟨rfl, rfl, rfl, rfl, rfl, rfl, rfl, rfl, rfl⟩ htree,
    fun _ => CodeTableOk.congr (s := t) ⟨rfl, rfl, rfl, rfl, rfl, rfl, rfl, rfl, rfl⟩ rfl rfl ht, ?_, ?_, ?_, ?_⟩
  · show t.treeV = true
    rw [hc]; exact hp
  · rw [hc]; exact h.chain.2
  · rw [hc]; exact h.histogram
  · rw [hc]; exact h.kRange
  · rw [hc]; exact h.heap
  · rw [hc]; exact h.packer
  · rw [hc]; exact h.counts
  · rw [hc]; exact h.source

/-! ### WRHDR and PACK -/

theorem wrhdr_tables {s : State} (h : Tables s) (hp : s.entV = true) :
    (runStage .wrhdr s).Holds (fun _ t => Tables t) Tables (fun _ => False) := by
  rw [runStage_pre (st := .wrhdr) hp]
  change Res.Holds _ _ _ ((bodyWrhdr s).bind _)
  rw [bodyWrhdr_spec s h.kRange.1]
  exact h.congr rfl

/-- The packer's registers stay as 10_state.md R38 says. -/
theorem Tables.packed {s t : State} (h : Tables s) (hp : ∀ i, t.bitCnt.toNat ≤ i → t.bitBuf.getLsbD i = false)
    (e : t = { s with srcPos := t.srcPos, bitBuf := t.bitBuf, bitCnt := t.bitCnt, snk := t.snk }) : Tables t := by
  have same : SameTree s t := by rw [e]; exact ⟨rfl, rfl, rfl, rfl, rfl, rfl, rfl, rfl, rfl⟩
  have hl : t.codeLen = s.codeLen := by rw [e]
  have hb : t.codeBits = s.codeBits := by rw [e]
  refine ⟨?_, ?_, ?_, fun ht => (h.tree ?_).congr same, fun hc => (h.code ?_).congr same hl hb, ?_, hp, ?_, ?_⟩
  · rw [e]; exact h.chain
  · rw [e]; exact h.histogram
  · rw [e]; exact h.kRange
  · rw [e] at ht; exact ht
  · rw [e] at hc; exact hc
  · rw [e]; exact h.heap
  · rw [e]; exact h.counts
  · rw [e]; exact h.source

theorem packed_packer (bits : List Bool) (s : State) (i : Nat) (h : (packed bits s).bitCnt.toNat ≤ i) :
    (packed bits s).bitBuf.getLsbD i = false := by
  have hc : (packed bits s).bitCnt.toNat = bits.length % 8 := by
    show (BitVec.ofNat 3 bits.length).toNat = _
    rw [BitVec.toNat_ofNat]
  rw [hc, ← openBits_length] at h
  show (byteOfBits (openBits bits)).getLsbD i = false
  rw [byteOfBits_getLsbD, List.getD_eq_default _ _ h, Bool.and_false]

theorem pack_tables {s : State} (h : Tables s) (hp : s.codeV = true) :
    (runStage .pack s).Holds (fun _ t => Tables t) Tables (fun _ => False) := by
  rw [runStage_pre (st := .pack) hp]
  change Res.Holds _ _ _ ((bodyPack s).bind _)
  by_cases hall : ∀ b ∈ sourceBytes s, codeOf b s ≠ []
  · rw [bodyPack_coded s hall]
    exact h.packed (fun i _ => BitVec.getLsbD_zero) rfl
  · have hex : ∃ p, p < s.srcLen.toNat ∧ codeOf (sourceByte s p) s = [] := by
      push Not at hall
      obtain ⟨b, hb, hc⟩ := hall
      obtain ⟨p, hp, rfl⟩ := List.mem_map.mp hb
      exact ⟨p, List.mem_range.mp hp, hc⟩
    classical
    have hf := Nat.find_spec hex
    rw [bodyPack_uncoded s hf.1 (fun i hi hc => Nat.find_min hex hi ⟨by omega, hc⟩) hf.2]
    refine Tables.error (s := packed (codeBits s (sourceTake s (Nat.find hex)))
      { s with srcPos := BitVec.ofNat 32 (Nat.find hex + 1), bitBuf := 0, bitCnt := 0 }) ?_ _
    exact h.packed (packed_packer _ _) rfl

/-! ### RDHDR -/

theorem rdhdr_tables {s : State} (h : Tables s) :
    (runStage .rdhdr s).Holds (fun _ t => Tables t) Tables (fun _ => False) := by
  rw [runStage_pre (st := .rdhdr) rfl]
  change Res.Holds _ _ _ ((bodyRdhdr (Stage.rdhdr.cascade s)).bind _)
  by_cases h4 : s.srcLen.toNat < 4
  · rw [bodyRdhdr_tiny (s := Stage.rdhdr.cascade s) h4]
    exact Tables.error (h.invalid (t := { Stage.rdhdr.cascade s with srcPos := s.srcLen }) h.kRange.1 rfl rfl rfl rfl) _
  · by_cases hk : headerCount (Stage.rdhdr.cascade s) = 0 ∨ 256 < (headerCount (Stage.rdhdr.cascade s)).toNat
    · rw [bodyRdhdr_count (s := Stage.rdhdr.cascade s) (by show 4 ≤ s.srcLen.toNat; omega) hk]
      exact Tables.error (h.invalid (t := { Stage.rdhdr.cascade s with srcPos := 4 }) h.kRange.1 rfl rfl rfl rfl) _
    · push Not at hk
      have h1 : 1 ≤ (headerCount (Stage.rdhdr.cascade s)).toNat := by
        rcases Nat.eq_zero_or_pos (headerCount (Stage.rdhdr.cascade s)).toNat with z | z
        · exact absurd (BitVec.eq_of_toNat_eq z) hk.1
        · exact z
      obtain ⟨hfull, hshort⟩ := bodyRdhdr_entries (s := Stage.rdhdr.cascade s) (by show 4 ≤ s.srcLen.toNat; omega) h1 hk.2
      by_cases hfit : 4 + 5 * (headerCount (Stage.rdhdr.cascade s)).toNat ≤ (Stage.rdhdr.cascade s).srcLen.toNat
      · obtain ⟨t, e, hc, -, he⟩ := hfull hfit
        rw [e]
        have hkk : t.k.toNat = (headerCount (Stage.rdhdr.cascade s)).toNat := by rw [he.count]; simp
        have inv : Tables t := h.invalid (by omega) (by rw [hc]; rfl) (by rw [hc]; rfl) (by rw [hc]; rfl) (by rw [hc]; rfl)
        have htv : t.treeV = false := by rw [hc]; rfl
        refine ⟨⟨inv.chain.1, fun _ => rfl⟩, inv.histogram, ⟨inv.kRange.1, fun _ => ?_⟩, fun x => ?_, fun x => ?_, inv.heap,
          inv.packer, inv.counts, inv.source⟩
        · show 1 ≤ t.k.toNat
          omega
        · have : t.treeV = true := x
          rw [htv] at this; cases this
        · have : t.treeV = true := inv.chain.1 x
          rw [htv] at this; cases this
      · obtain ⟨t, n, e, hc, -, -, hkk, -⟩ := hshort (by omega)
        rw [e]
        exact Tables.error (h.invalid (t := t) (by omega) (by rw [hc]; rfl) (by rw [hc]; rfl) (by rw [hc]; rfl) (by rw [hc]; rfl)) _

/-! ### DECODE -/

/-- The decoder between two bits. -/
def Decoding (s : State) (u : State) : Prop :=
  ∃ n out p, u = setPos p (decoding s (freqSum (entryList s)) n out) ∧ out.length ≤ freqSum (entryList s) ∧
    n.toNat < 2 * s.k.toNat - 1 ∧ leafNode s n = leafNode s s.root

theorem Decoding.tables {s u : State} (h : Tables s) (hd : Decoding s u) : Tables u := by
  obtain ⟨n, out, p, rfl, ho, -⟩ := hd
  have ht := freqSum_entries s h.kRange.1
  have base : Tables { s with
      totalSym := BitVec.ofNat 40 (freqSum (entryList s)), decCnt := BitVec.ofNat 40 out.length } := by
    refine ⟨h.chain, h.histogram, h.kRange, fun x => TreeOk.congr (s := s) ⟨rfl, rfl, rfl, rfl, rfl, rfl, rfl, rfl, rfl⟩ (h.tree x),
      fun x => CodeTableOk.congr (s := s) ⟨rfl, rfl, rfl, rfl, rfl, rfl, rfl, rfl, rfl⟩ rfl rfl (h.code x), h.heap, h.packer, ?_, h.source⟩
    show (BitVec.ofNat 40 out.length).toNat ≤ (BitVec.ofNat 40 (freqSum (entryList s))).toNat
    rw [BitVec.toNat_ofNat, BitVec.toNat_ofNat, Nat.mod_eq_of_lt ht, Nat.mod_eq_of_lt (by omega)]
    exact ho
  exact base.congr rfl

theorem withPos_holds {α : Type} {P : α → State → Prop} {Q : State → Prop} {F : Fault → Prop} {q : Word32} {r : Res α}
    (h : r.Holds (fun a t => P a (setPos q t)) (fun t => Q (setPos q t)) F) : (r.withPos q).Holds P Q F := by
  cases r <;> exact h

theorem runBit_decoding {s u : State} (h : Tables s) (hp : s.treeV = true) (hd : Decoding s u) (v : Bool) :
    (runBit v u).Holds (fun _ t => Decoding s t) Tables (fun _ => False) := by
  have ht := h.tree hp
  have hlt := freqSum_entries s h.kRange.1
  obtain ⟨n, out, p, rfl, ho, hn, hl⟩ := hd
  rw [runBit_pos]
  apply withPos_holds
  by_cases hfull : out.length = freqSum (entryList s)
  · have := runBits_done [v] (decoding_done s _ n hfull)
    have hrun : runBit v (decoding s (freqSum (entryList s)) n out) = .ok () (decoding s (freqSum (entryList s)) n out) := by
      unfold runBit; rw [if_pos (decoding_done s _ n hfull)]
    rw [hrun]
    exact ⟨n, out, p, rfl, ho, hn, hl⟩
  · rw [runBit_open v (decoding_open hlt (by omega))]
    cases hr : leafNode s s.root with
    | true =>
      have hroot : n = s.root := by
        rw [hr] at hl
        have h1 := (ht.leaf_iff hn).mp hl
        have h2 := (ht.leaf_iff ht.root_lt).mp hr
        have h3 := ht.root
        have h4 := ht.kRange
        exact BitVec.eq_of_toNat_eq (by omega)
      subst hroot
      obtain ⟨sym, hs⟩ : ∃ sym, s.nodeSym[s.root.toNat]? = some sym :=
        ⟨_, Vector.getElem?_eq_getElem (ht.lt511 ht.root_lt)⟩
      obtain ⟨e0, e1⟩ := bitStep_leaf ht hr hs (freqSum (entryList s)) out
      cases v
      · rw [e0]
        exact ⟨s.root, out ++ [sym], p, rfl, by rw [List.length_append]; simp; omega, ht.root_lt, rfl⟩
      · rw [e1]
        refine (Tables.error ?_ _).congr rfl
        exact Decoding.tables h ⟨s.root, out, s.srcPos, rfl, ho, hn, rfl⟩
    | false =>
      rw [hr] at hl
      have hk : s.k.toNat ≤ n.toNat := by
        by_contra hk
        rw [(ht.leaf_iff hn).mpr (by omega)] at hl; cases hl
      obtain ⟨c, hc, hcn, hne⟩ := ht.child hk hn v
      rw [bitStep_inner ht hr hn hc hne hcn]
      cases hcl : leafNode s c with
      | true =>
        obtain ⟨sym, hs⟩ : ∃ sym, s.nodeSym[c.toNat]? = some sym :=
          ⟨_, Vector.getElem?_eq_getElem (ht.lt511 (by omega))⟩
        rw [if_pos rfl, emitLeaf_ok hs]
        exact ⟨s.root, out ++ [sym], p, rfl, by rw [List.length_append]; simp; omega, ht.root_lt, rfl⟩
      | false =>
        rw [if_neg (by simp)]
        exact ⟨c, out, p, rfl, ho, by omega, by rw [hcl, hr]⟩

theorem decode_tables {s : State} (h : Tables s) (hp : s.entV = true ∧ s.treeV = true) :
    (runStage .decode s).Holds (fun _ t => Tables t) Tables (fun _ => False) := by
  have ht := h.tree hp.2
  rw [runStage_pre (st := .decode) (show (s.entV && s.treeV) = true by rw [hp.1, hp.2]; rfl)]
  change Res.Holds _ _ _ ((bodyDecode s).bind _)
  rw [bodyDecode_loop s h.kRange.1]
  refine Res.Holds.bind ?_
  have hloop := whileLoop_holds (Q := Tables) (F := fun _ => False) (cond := fun s => decide (s.decCnt < s.totalSym))
    (turn := decodeTurn) ((bytesLeft s).length + 1)
    (fun m u => Decoding s u ∧ ((bytesLeft u).length < m ∨ u.decCnt = u.totalSym))
    (decoding s (freqSum (entryList s)) s.root [])
    ⟨⟨s.root, [], s.srcPos, rfl, Nat.zero_le _, ht.root_lt, rfl⟩, .inl (Nat.lt_succ_self _)⟩
    (fun m u ⟨hd, hm⟩ hcond => by
      have hopen : u.decCnt < u.totalSym := of_decide_eq_true hcond
      have hm' : (bytesLeft u).length < m + 1 := by
        rcases hm with hm | hm
        · exact hm
        · rw [hm] at hopen; exact absurd hopen (BitVec.lt_irrefl _)
      cases hb : bytesLeft u with
      | nil =>
        have hpos := bytesLeft_nil hb
        have : decodeTurn u = raise .unexpectedEOF u := by
          unfold decodeTurn srcGet
          rw [if_neg hpos]
        rw [this]
        exact (Decoding.tables h hd).error _
      | cons b bs =>
        rw [decodeTurn_cons hb]
        apply withPos_holds
        have hbits := forEach_holds (Q := Tables) (F := fun _ => False) (turn := runBit) (byteBits b)
          (fun _ w => Decoding s w) u hd (fun i hi w hw => runBit_decoding h hp.2 hw _)
        cases hrun : forEach runBit (byteBits b) u with
        | fault f => rw [hrun] at hbits; exact hbits
        | stop w =>
          rw [hrun] at hbits
          exact Tables.congr hbits rfl
        | ok a w =>
          rw [hrun] at hbits
          have hk := runBits_keep _ hrun
          obtain ⟨n, out, p, rfl, ho, hn, hl⟩ : Decoding s w := hbits
          refine ⟨⟨n, out, _, rfl, ho, hn, hl⟩, .inl ?_⟩
          rw [bytesLeft_after hb hk]
          rw [hb, List.length_cons] at hm'
          omega)
    (fun u ⟨hd, hm⟩ hcond => by
      rcases hm with hm | hm
      · exact absurd hm (Nat.not_lt_zero _)
      · have hopen : u.decCnt < u.totalSym := of_decide_eq_true hcond
        rw [hm] at hopen; exact absurd hopen (BitVec.lt_irrefl _))
  exact hloop.mono (fun _ t ⟨_, m, hd, _⟩ => Decoding.tables h hd) (fun _ x => x) (fun _ x => x)

/-! ### Every stage -/

/-- No stage faults, and every stage keeps the tables in order, however it ends. -/
theorem runStage_tables (st : Stage) {s : State} (h : Tables s) :
    (runStage st s).Holds (fun _ t => Tables t) Tables (fun _ => False) := by
  by_cases hp : st.pre s = true
  · cases st with
    | hist => exact hist_tables h
    | alpha => exact alpha_tables h hp
    | build => exact build_tables h hp
    | codegen => exact codegen_tables h hp
    | wrhdr => exact wrhdr_tables h hp
    | pack => exact pack_tables h hp
    | rdhdr => exact rdhdr_tables h
    | decode => exact decode_tables h (by simpa [Stage.pre] using hp)
  · unfold runStage
    rw [if_neg hp]
    exact h.error _

end Sys2Proof.Machine
end

