-- ==== Sys2Proof/Laws/Memory.lean ====
section
/-! SUPPORT. The source as (address, byte) pairs: placing a source is the one operation that writes it, and it gives the
canonical form. -/

namespace Sys2Proof.Machine

theorem Memory.layFrom_wf (a : Nat) (bytes : List Byte) : Memory.wf (Memory.layFrom a bytes) = true := by
  induction bytes generalizing a with
  | nil => rfl
  | cons b rest ih =>
    cases rest with
    | nil => rfl
    | cons c rest =>
      have h := ih (a + 1)
      simp only [Memory.layFrom, Memory.wf, Bool.and_eq_true, decide_eq_true_eq] at h ⊢
      exact ⟨Nat.lt_succ_self a, h⟩

/-- Placing a source gives the canonical form. -/
theorem Memory.ofBytes_wf (bytes : List Byte) : Memory.wf (Memory.ofBytes bytes) = true :=
  Memory.layFrom_wf 0 bytes

theorem Memory.layFrom_read (a n : Nat) (bytes : List Byte) : (Memory.layFrom a bytes).read (a + n) = bytes[n]? := by
  induction bytes generalizing a n with
  | nil => simp [Memory.layFrom, Memory.read]
  | cons b rest ih =>
    cases n with
    | zero => simp [Memory.layFrom, Memory.read]
    | succ n =>
      have h := ih (a + 1) n
      rw [show a + (n + 1) = a + 1 + n by omega]
      simpa [Memory.layFrom, Memory.read, show ¬ a = a + 1 + n by omega] using h

/-- What a placed source holds (10_state.md R41). -/
theorem Memory.ofBytes_read (bytes : List Byte) (a : Nat) : (Memory.ofBytes bytes).read a = bytes[a]? := by
  simpa [Memory.ofBytes] using Memory.layFrom_read 0 a bytes

/-- A placed source reads back byte for byte. -/
theorem sourceByte_placed {s : State} {bytes : List Byte} (h : s.src = Memory.ofBytes bytes) {a : Nat}
    (ha : a < bytes.length) : sourceByte s a = bytes[a] := by
  unfold sourceByte
  rw [h, Memory.ofBytes_read, List.getElem?_eq_getElem ha]
  rfl

/-- A source placed whole, with SRC_LEN its length, is that list of bytes. -/
theorem sourceBytes_placed {s : State} {bytes : List Byte} (h : s.src = Memory.ofBytes bytes)
    (hl : s.srcLen.toNat = bytes.length) : sourceBytes s = bytes := by
  apply List.ext_getElem
  · simp [sourceBytes, hl]
  · intro i h1 h2
    unfold sourceBytes at h1 ⊢
    rw [List.getElem_map, List.getElem_range]
    exact sourceByte_placed h h2

theorem reset_source_wf : Memory.wf State.reset.src = true := rfl

end Sys2Proof.Machine
end

