-- ==== Sys2Proof/Laws/PerInstr.lean ====
section
/-! SUPPORT. One lemma per command about its word (30_encoding.md R90, R91). -/

namespace Sys2Proof.Laws.CommandByte

/-- The command is well formed, its word is one byte, UNIT stands in bits 7:4 and FUNC in bits 3:0, and the decoder reads
the command back from it. -/
def Statement (i : Instr) : Prop :=
  i.wf = true ∧ encode i = [i.opcode] ∧ i.opcode.extractLsb' 4 4 = i.unit ∧ i.opcode.extractLsb' 0 4 = i.func ∧
    decodeOpcode i.opcode = .ok i

theorem nop : Statement .nop := ⟨rfl, rfl, rfl, rfl, rfl⟩
theorem clear : Statement .clear := ⟨rfl, rfl, rfl, rfl, rfl⟩
theorem hist : Statement .hist := ⟨rfl, rfl, rfl, rfl, rfl⟩
theorem alpha : Statement .alpha := ⟨rfl, rfl, rfl, rfl, rfl⟩
theorem build : Statement .build := ⟨rfl, rfl, rfl, rfl, rfl⟩
theorem codegen : Statement .codegen := ⟨rfl, rfl, rfl, rfl, rfl⟩
theorem wrhdr : Statement .wrhdr := ⟨rfl, rfl, rfl, rfl, rfl⟩
theorem pack : Statement .pack := ⟨rfl, rfl, rfl, rfl, rfl⟩
theorem rdhdr : Statement .rdhdr := ⟨rfl, rfl, rfl, rfl, rfl⟩
theorem decode : Statement .decode := ⟨rfl, rfl, rfl, rfl, rfl⟩
theorem compress : Statement .compress := ⟨rfl, rfl, rfl, rfl, rfl⟩
theorem decompress : Statement .decompress := ⟨rfl, rfl, rfl, rfl, rfl⟩

end Sys2Proof.Laws.CommandByte
end

