-- ==== Sys2Proof/Laws/Sink.lean ====
section
/-! SUPPORT. HFC never looks at SNK (10_state.md R41): whatever bytes stand in front of what a command appends, the command
does the same, so a host that takes bytes out while a command runs changes nothing else (20_memory.md R70). -/

namespace Sys2Proof.Machine

/-- The same state with more bytes in front of SNK. -/
def behind (p : List Byte) (s : State) : State := { s with snk := p ++ s.snk }

/-- The same end with more bytes in front of SNK. -/
def Res.behind {α : Type} (p : List Byte) : Res α → Res α
  | .ok a s => .ok a (Machine.behind p s)
  | .stop s => .stop (Machine.behind p s)
  | .fault f => .fault f

section
variable {α β : Type} {p : List Byte}

theorem bind_behind {r r' : Res α} {f f' : α → State → Res β} (hr : r' = r.behind p)
    (hf : ∀ a s, f' a (behind p s) = (f a s).behind p) : r'.bind f' = (r.bind f).behind p := by
  subst hr
  cases r with
  | ok a s => exact hf a s
  | stop s => rfl
  | fault f => rfl

theorem ite_behind {c c' : Prop} [Decidable c] [Decidable c'] {x y x' y' : Res α} (hc : c' ↔ c) (hx : x' = x.behind p)
    (hy : y' = y.behind p) : (if c' then x' else y') = (if c then x else y).behind p := by
  by_cases h : c
  · rw [if_pos h, if_pos (hc.mpr h), hx]
  · rw [if_neg h, if_neg (fun h' => h (hc.mp h')), hy]

theorem raise_behind (k : ErrKind) (s : State) : (raise k (behind p s) : Res α) = (raise k s).behind p := rfl

theorem forEach_behind {turn : α → State → Res Unit} (h : ∀ x s, turn x (behind p s) = (turn x s).behind p) (xs : List α) :
    ∀ s, forEach turn xs (behind p s) = (forEach turn xs s).behind p := by
  induction xs with
  | nil => intro s; rfl
  | cons x xs ih => intro s; exact bind_behind (h x s) fun _ s => ih s

theorem whileLoop_behind {cond : State → Bool} {turn : State → Res Unit} (hc : ∀ s, cond (behind p s) = cond s)
    (h : ∀ s, turn (behind p s) = (turn s).behind p) (n : Nat) :
    ∀ s, whileLoop cond turn n (behind p s) = (whileLoop cond turn n s).behind p := by
  induction n with
  | zero => intro s; exact ite_behind (by rw [hc]) rfl rfl
  | succ n ih => intro s; exact ite_behind (by rw [hc]) (bind_behind (h s) fun _ s => ih s) rfl

theorem fetchWord_behind {n : Nat} (m : TableMem) (v : Vector α n) (i : Nat) (s : State) :
    fetchWord m v i (behind p s) = (fetchWord m v i s).behind p := by
  unfold fetchWord
  split <;> rfl

end

section
variable {p : List Byte}

theorem isLeaf_behind (n : Ref) (s : State) : isLeaf n (behind p s) = (isLeaf n s).behind p :=
  bind_behind (fetchWord_behind _ _ _ _) fun _ s => bind_behind (fetchWord_behind _ _ _ s) fun _ _ => rfl

theorem srcGet_behind (s : State) : srcGet (behind p s) = ((srcGet s).1, behind p (srcGet s).2) := by
  unfold srcGet
  by_cases h : s.srcPos < s.srcLen
  · rw [if_pos h]; exact if_pos h
  · rw [if_neg h]; exact if_neg h

theorem srcGet32_behind (s : State) : srcGet32 (behind p s) = ((srcGet32 s).1, behind p (srcGet32 s).2) := by
  unfold srcGet32
  rw [srcGet_behind]
  obtain ⟨_ | b0, s0⟩ := srcGet s
  · rfl
  dsimp only
  rw [srcGet_behind]
  obtain ⟨_ | b1, s1⟩ := srcGet s0
  · rfl
  dsimp only
  rw [srcGet_behind]
  obtain ⟨_ | b2, s2⟩ := srcGet s1
  · rfl
  dsimp only
  rw [srcGet_behind]
  obtain ⟨_ | b3, s3⟩ := srcGet s2 <;> rfl

theorem snkPut_behind (b : Byte) (s : State) : snkPut b (behind p s) = behind p (snkPut b s) := by
  unfold snkPut behind
  simp only [List.append_assoc]

theorem snkPut32_behind (v : Word32) (s : State) : snkPut32 v (behind p s) = behind p (snkPut32 v s) := by
  unfold snkPut32
  simp only [snkPut_behind]

/-! ### The bodies -/

theorem bodyHist_behind (s : State) : bodyHist (behind p s) = (bodyHist s).behind p := by
  refine ite_behind Iff.rfl rfl (whileLoop_behind (fun _ => rfl) (fun s => ?_) _
    (srcRewind { s with hist := Vector.replicate 256 0, totalIn := 0 }))
  unfold histTurn
  rw [srcGet_behind]
  obtain ⟨_ | b, t⟩ := srcGet s <;> rfl

theorem putEntry_behind (i : Nat) (sym : Byte) (freq : Word32) (s : State) :
    putEntry i sym freq (behind p s) = (putEntry i sym freq s).behind p := by
  unfold putEntry
  split <;> rfl

theorem bodyAlpha_behind (s : State) : bodyAlpha (behind p s) = (bodyAlpha s).behind p := by
  refine forEach_behind (fun b s => ?_) _ { s with k := 0 }
  unfold alphaTurn
  exact ite_behind Iff.rfl (bind_behind (putEntry_behind s.k.toNat b (histAt b s) s) fun _ _ => rfl) rfl

theorem putHeap_behind (i : Nat) (n : Ref) (s : State) : putHeap i n (behind p s) = (putHeap i n s).behind p := by
  unfold putHeap
  split <;> rfl

theorem keyAt_behind (i : Nat) (s : State) : keyAt i (behind p s) = (keyAt i s).behind p :=
  bind_behind (fetchWord_behind _ _ _ _) fun _ s => fetchWord_behind _ _ _ s

theorem swapHeap_behind (i j : Nat) (s : State) : swapHeap i j (behind p s) = (swapHeap i j s).behind p :=
  bind_behind (fetchWord_behind _ _ _ _) fun _ s => bind_behind (fetchWord_behind _ _ _ s) fun b s =>
    bind_behind (putHeap_behind i b s) fun _ s => putHeap_behind _ _ s

theorem siftUp_behind (n : Nat) : ∀ (i : Nat) (s : State), siftUp n i (behind p s) = (siftUp n i s).behind p := by
  induction n with
  | zero => intro i s; rfl
  | succ n ih =>
    intro i s
    exact ite_behind Iff.rfl rfl (bind_behind (keyAt_behind _ s) fun _ s => bind_behind (keyAt_behind _ s) fun _ s =>
      ite_behind Iff.rfl (bind_behind (swapHeap_behind _ _ s) fun _ s => ih _ s) rfl)

theorem pqInsert_behind (n : Ref) (s : State) : pqInsert n (behind p s) = (pqInsert n s).behind p :=
  ite_behind Iff.rfl rfl (bind_behind (putHeap_behind _ _ s) fun _ s =>
    siftUp_behind _ _ { s with heapSize := s.heapSize + 1 })

theorem smallerSlot_behind (c m : Nat) (s : State) : smallerSlot c m (behind p s) = (smallerSlot c m s).behind p :=
  ite_behind Iff.rfl (bind_behind (keyAt_behind _ s) fun _ s => bind_behind (keyAt_behind _ s) fun _ _ => rfl) rfl

theorem siftDown_behind (n : Nat) : ∀ (i : Nat) (s : State), siftDown n i (behind p s) = (siftDown n i s).behind p := by
  induction n with
  | zero => intro i s; rfl
  | succ n ih =>
    intro i s
    exact bind_behind (smallerSlot_behind _ _ s) fun _ s => bind_behind (smallerSlot_behind _ _ s) fun _ s =>
      ite_behind Iff.rfl rfl (bind_behind (swapHeap_behind _ _ s) fun _ s => ih _ s)

theorem pqExtractMin_behind (s : State) : pqExtractMin (behind p s) = (pqExtractMin s).behind p := by
  refine ite_behind Iff.rfl rfl (bind_behind (fetchWord_behind _ _ _ s) fun r s => ?_)
  refine ite_behind Iff.rfl rfl ?_
  exact bind_behind (fetchWord_behind _ _ _ { s with heapSize := s.heapSize - 1 }) fun _ s =>
    bind_behind (putHeap_behind _ _ s) fun _ s => bind_behind (siftDown_behind _ _ s) fun _ _ => rfl

theorem putNode_behind (n : Nat) (freq : Freq) (sym : Byte) (l r : Ref) (s : State) :
    putNode n freq sym l r (behind p s) = (putNode n freq sym l r s).behind p := by
  unfold putNode
  split <;> rfl

theorem bodyBuild_behind (s : State) : bodyBuild (behind p s) = (bodyBuild s).behind p := by
  have load : ∀ i s, loadTurn i (behind p s) = (loadTurn i s).behind p := fun i s =>
    bind_behind (fetchWord_behind _ _ _ s) fun _ s => bind_behind (fetchWord_behind _ _ _ s) fun _ s =>
      bind_behind (bind_behind (putNode_behind _ _ _ _ _ s) fun _ _ => rfl) fun _ s => pqInsert_behind _ s
  have merge : ∀ s, mergeTurn (behind p s) = (mergeTurn s).behind p := fun s =>
    bind_behind (pqExtractMin_behind s) fun _ s => bind_behind (pqExtractMin_behind s) fun _ s =>
      bind_behind (bind_behind (fetchWord_behind _ _ _ s) fun _ s => bind_behind (fetchWord_behind _ _ _ s) fun _ s =>
        bind_behind (putNode_behind _ _ _ _ _ s) fun _ _ => rfl) fun _ s => pqInsert_behind _ s
  exact bind_behind (forEach_behind load _ { pqClear s with nodeCnt := 0, root := Config.nil }) fun _ s =>
    bind_behind (whileLoop_behind (fun _ => rfl) merge _ s) fun _ s => bind_behind (fetchWord_behind _ _ _ s) fun _ _ => rfl

theorem walk_behind (n : Nat) : ∀ (r : Ref) (path : List Bool) (s : State),
    walk n r path (behind p s) = (walk n r path s).behind p := by
  induction n with
  | zero => intro r path s; rfl
  | succ n ih =>
    intro r path s
    exact bind_behind (isLeaf_behind r s) fun _ s => ite_behind Iff.rfl
      (bind_behind (fetchWord_behind _ _ _ s) fun _ _ => rfl)
      (bind_behind (fetchWord_behind _ _ _ s) fun _ s => bind_behind (ih _ _ s) fun _ s =>
        bind_behind (fetchWord_behind _ _ _ s) fun _ s => ih _ _ s)

theorem bodyCodegen_behind (s : State) : bodyCodegen (behind p s) = (bodyCodegen s).behind p :=
  bind_behind (isLeaf_behind s.root { s with codeLen := Vector.replicate 256 0, codeBits := Vector.replicate 256 0 })
    fun _ s => ite_behind Iff.rfl (bind_behind (fetchWord_behind _ _ _ s) fun _ _ => rfl) (walk_behind _ _ _ s)

theorem bodyWrhdr_behind (s : State) : bodyWrhdr (behind p s) = (bodyWrhdr s).behind p := by
  unfold bodyWrhdr
  rw [show (behind p s).k = s.k from rfl, snkPut32_behind]
  refine forEach_behind (fun i s => ?_) _ _
  refine bind_behind (fetchWord_behind _ _ _ s) fun sym s => bind_behind (fetchWord_behind _ _ _ s) fun freq s => ?_
  rw [snkPut_behind, snkPut32_behind]; rfl

theorem putBit_behind (v : Bool) (s : State) : putBit v (behind p s) = behind p (putBit v s) := by
  unfold putBit
  by_cases h : s.bitCnt = 7#3
  · refine (if_pos h).trans ?_
    dsimp only
    rw [if_pos h, show (behind p s).bitBuf = s.bitBuf from rfl, show (behind p s).bitCnt = s.bitCnt from rfl, snkPut_behind]
    rfl
  · refine (if_neg h).trans ?_
    dsimp only
    rw [if_neg h]; rfl

theorem flushBits_behind (s : State) : flushBits (behind p s) = behind p (flushBits s) := by
  unfold flushBits
  by_cases h : s.bitCnt ≠ 0#3
  · refine (if_pos h).trans ?_
    rw [if_pos h, show (behind p s).bitBuf = s.bitBuf from rfl, snkPut_behind]
    rfl
  · refine (if_neg h).trans ?_
    rw [if_neg h]

theorem bodyPack_behind (s : State) : bodyPack (behind p s) = (bodyPack s).behind p := by
  refine bind_behind (whileLoop_behind (fun _ => rfl) (fun s => ?_) _ (srcRewind { s with bitBuf := 0, bitCnt := 0 }))
    fun _ s => by rw [flushBits_behind]; rfl
  unfold packTurn
  rw [srcGet_behind]
  obtain ⟨_ | b, t⟩ := srcGet s
  · rfl
  · exact ite_behind Iff.rfl rfl (forEach_behind (fun i s => by
      show Res.ok () (putBit ((codeBitsAt b s).getLsbD i) (behind p s)) = _
      rw [putBit_behind]; rfl) _ t)

theorem bodyRdhdr_behind (s : State) : bodyRdhdr (behind p s) = (bodyRdhdr s).behind p := by
  have turn : ∀ i s, entryTurn i (behind p s) = (entryTurn i s).behind p := fun i s => by
    unfold entryTurn
    rw [srcGet_behind]
    obtain ⟨_ | b, t⟩ := srcGet s
    · rfl
    · dsimp only
      rw [srcGet32_behind]
      obtain ⟨_ | v, u⟩ := srcGet32 t
      · rfl
      · exact putEntry_behind i b v u
  unfold bodyRdhdr
  rw [show srcRewind (behind p s) = behind p (srcRewind s) from rfl, srcGet32_behind]
  obtain ⟨_ | k, t⟩ := srcGet32 (srcRewind s)
  · rfl
  · exact ite_behind Iff.rfl rfl (forEach_behind turn _ { t with k := k.extractLsb' 0 9 })

theorem bitStep_behind (v : Bool) (s : State) : bitStep v (behind p s) = (bitStep v s).behind p := by
  have emit : ∀ (n : Ref) s, emitLeaf n (behind p s) = (emitLeaf n s).behind p := fun n s =>
    bind_behind (fetchWord_behind _ _ _ s) fun _ s => by rw [snkPut_behind]; rfl
  refine bind_behind (isLeaf_behind s.root s) fun leaf s => ite_behind Iff.rfl ?_ ?_
  · exact ite_behind Iff.rfl rfl (bind_behind (fetchWord_behind _ _ _ s) fun _ s => by rw [snkPut_behind]; rfl)
  · refine bind_behind (ite_behind Iff.rfl (fetchWord_behind _ _ _ s) (fetchWord_behind _ _ _ s)) fun c s => ?_
    exact ite_behind Iff.rfl rfl (bind_behind (isLeaf_behind c { s with cursor := c }) fun _ s =>
      ite_behind Iff.rfl (emit c s) rfl)

theorem bodyDecode_behind (s : State) : bodyDecode (behind p s) = (bodyDecode s).behind p := by
  have turn : ∀ s, decodeTurn (behind p s) = (decodeTurn s).behind p := fun s => by
    unfold decodeTurn
    rw [srcGet_behind]
    obtain ⟨_ | b, t⟩ := srcGet s
    · rfl
    · refine forEach_behind (fun j s => ?_) _ t
      unfold bitTurn
      exact ite_behind Iff.rfl rfl (bitStep_behind _ s)
  refine bind_behind (forEach_behind (fun i s => bind_behind (fetchWord_behind _ _ _ s) fun _ _ => rfl) _
    { s with totalSym := 0 }) fun _ s => ?_
  exact whileLoop_behind (fun _ => rfl) turn _ { s with decCnt := 0, cursor := s.root }

/-! ### The sequencer -/

theorem runStage_behind (st : Stage) (s : State) : runStage st (behind p s) = (runStage st s).behind p := by
  unfold runStage
  refine ite_behind ?_ (bind_behind ?_ fun _ s => ?_) rfl
  · cases st <;> rfl
  · cases st
    · exact bodyHist_behind (Stage.hist.cascade s)
    · exact bodyAlpha_behind (Stage.alpha.cascade s)
    · exact bodyBuild_behind (Stage.build.cascade s)
    · exact bodyCodegen_behind (Stage.codegen.cascade s)
    · exact bodyWrhdr_behind (Stage.wrhdr.cascade s)
    · exact bodyPack_behind (Stage.pack.cascade s)
    · exact bodyRdhdr_behind (Stage.rdhdr.cascade s)
    · exact bodyDecode_behind (Stage.decode.cascade s)
  · cases st <;> rfl

theorem stageStep_behind (s : State) : stageStep (behind p s) = (stageStep s).behind p := by
  unfold stageStep
  rw [show (behind p s).phase = s.phase from rfl]
  cases s.phase with
  | idle => rfl
  | stage st =>
    refine bind_behind (bind_behind (runStage_behind st s) fun _ s => ?_) fun _ s => ?_
    · show (match nextStage s.kind st with | some q => _ | none => _) = _
      cases nextStage s.kind st <;> rfl
    · show (match s.phase with | .idle => _ | .stage _ => _) = _
      cases s.phase <;> rfl

/-- A running command goes on alike whatever stands in front of what it appends. -/
theorem advance_behind {s t : State} (h : advance s = .next t) : advance (behind p s) = .next (behind p t) := by
  unfold advance at *
  rw [show (behind p s).busy = s.busy from rfl]
  by_cases hb : s.busy = true
  · rw [if_pos hb] at h ⊢
    rw [stageStep_behind]
    cases hr : stageStep s with
    | ok a u => rw [hr] at h; cases h; rfl
    | stop u => rw [hr] at h; cases h; rfl
    | fault f => rw [hr] at h; cases h
  · rw [if_neg hb] at h ⊢
    cases h; rfl

end

end Sys2Proof.Machine
end

