-- ==== Sys2Proof/Laws/State.lean ====
section
/-! SUPPORT. One lemma for each field of State and each named update of it. -/

namespace Sys2Proof.Machine

/-! ### Error entry (60_exceptions.md R232) -/

section
variable (e : ErrKind) (s : State)
@[simp] theorem errorEntry_phase : (errorEntry e s).phase = .idle := rfl
@[simp] theorem errorEntry_kind : (errorEntry e s).kind = .single := rfl
@[simp] theorem errorEntry_busy : (errorEntry e s).busy = false := rfl
@[simp] theorem errorEntry_done : (errorEntry e s).done = true := rfl
@[simp] theorem errorEntry_err : (errorEntry e s).err = true := rfl
@[simp] theorem errorEntry_histV : (errorEntry e s).histV = s.histV := rfl
@[simp] theorem errorEntry_entV : (errorEntry e s).entV = s.entV := rfl
@[simp] theorem errorEntry_treeV : (errorEntry e s).treeV = s.treeV := rfl
@[simp] theorem errorEntry_codeV : (errorEntry e s).codeV = s.codeV := rfl
@[simp] theorem errorEntry_errKind : (errorEntry e s).errKind = e := rfl
@[simp] theorem errorEntry_errStage : (errorEntry e s).errStage = s.phase := rfl
@[simp] theorem errorEntry_srcLen : (errorEntry e s).srcLen = s.srcLen := rfl
@[simp] theorem errorEntry_srcPos : (errorEntry e s).srcPos = s.srcPos := rfl
@[simp] theorem errorEntry_totalIn : (errorEntry e s).totalIn = s.totalIn := rfl
@[simp] theorem errorEntry_k : (errorEntry e s).k = s.k := rfl
@[simp] theorem errorEntry_totalSym : (errorEntry e s).totalSym = s.totalSym := rfl
@[simp] theorem errorEntry_decCnt : (errorEntry e s).decCnt = s.decCnt := rfl
@[simp] theorem errorEntry_hist : (errorEntry e s).hist = s.hist := rfl
@[simp] theorem errorEntry_entSym : (errorEntry e s).entSym = s.entSym := rfl
@[simp] theorem errorEntry_entFreq : (errorEntry e s).entFreq = s.entFreq := rfl
@[simp] theorem errorEntry_nodeFreq : (errorEntry e s).nodeFreq = s.nodeFreq := rfl
@[simp] theorem errorEntry_nodeSym : (errorEntry e s).nodeSym = s.nodeSym := rfl
@[simp] theorem errorEntry_nodeLeft : (errorEntry e s).nodeLeft = s.nodeLeft := rfl
@[simp] theorem errorEntry_nodeRight : (errorEntry e s).nodeRight = s.nodeRight := rfl
@[simp] theorem errorEntry_nodeCnt : (errorEntry e s).nodeCnt = s.nodeCnt := rfl
@[simp] theorem errorEntry_root : (errorEntry e s).root = s.root := rfl
@[simp] theorem errorEntry_heap : (errorEntry e s).heap = s.heap := rfl
@[simp] theorem errorEntry_heapSize : (errorEntry e s).heapSize = s.heapSize := rfl
@[simp] theorem errorEntry_codeLen : (errorEntry e s).codeLen = s.codeLen := rfl
@[simp] theorem errorEntry_codeBits : (errorEntry e s).codeBits = s.codeBits := rfl
@[simp] theorem errorEntry_bitBuf : (errorEntry e s).bitBuf = s.bitBuf := rfl
@[simp] theorem errorEntry_bitCnt : (errorEntry e s).bitCnt = s.bitCnt := rfl
@[simp] theorem errorEntry_cursor : (errorEntry e s).cursor = s.cursor := rfl
@[simp] theorem errorEntry_src : (errorEntry e s).src = s.src := rfl
@[simp] theorem errorEntry_snk : (errorEntry e s).snk = s.snk := rfl
@[simp] theorem errorEntry_host : (errorEntry e s).host = s.host := rfl
@[simp] theorem errorEntry_rdata : (errorEntry e s).rdata = s.rdata := rfl
@[simp] theorem errorEntry_freeReads : (errorEntry e s).freeReads = s.freeReads := rfl
@[simp] theorem errorEntry_srcEpoch : (errorEntry e s).srcEpoch = s.srcEpoch := rfl
end

/-! ### The first line of Accept (40_sequencer.md R120) -/

section
variable (s : State)
@[simp] theorem clearRecord_phase : (clearRecord s).phase = s.phase := rfl
@[simp] theorem clearRecord_kind : (clearRecord s).kind = s.kind := rfl
@[simp] theorem clearRecord_busy : (clearRecord s).busy = s.busy := rfl
@[simp] theorem clearRecord_done : (clearRecord s).done = false := rfl
@[simp] theorem clearRecord_err : (clearRecord s).err = false := rfl
@[simp] theorem clearRecord_histV : (clearRecord s).histV = s.histV := rfl
@[simp] theorem clearRecord_entV : (clearRecord s).entV = s.entV := rfl
@[simp] theorem clearRecord_treeV : (clearRecord s).treeV = s.treeV := rfl
@[simp] theorem clearRecord_codeV : (clearRecord s).codeV = s.codeV := rfl
@[simp] theorem clearRecord_errKind : (clearRecord s).errKind = .none := rfl
@[simp] theorem clearRecord_errStage : (clearRecord s).errStage = .idle := rfl
@[simp] theorem clearRecord_srcLen : (clearRecord s).srcLen = s.srcLen := rfl
@[simp] theorem clearRecord_srcPos : (clearRecord s).srcPos = s.srcPos := rfl
@[simp] theorem clearRecord_totalIn : (clearRecord s).totalIn = s.totalIn := rfl
@[simp] theorem clearRecord_k : (clearRecord s).k = s.k := rfl
@[simp] theorem clearRecord_totalSym : (clearRecord s).totalSym = s.totalSym := rfl
@[simp] theorem clearRecord_decCnt : (clearRecord s).decCnt = s.decCnt := rfl
@[simp] theorem clearRecord_hist : (clearRecord s).hist = s.hist := rfl
@[simp] theorem clearRecord_entSym : (clearRecord s).entSym = s.entSym := rfl
@[simp] theorem clearRecord_entFreq : (clearRecord s).entFreq = s.entFreq := rfl
@[simp] theorem clearRecord_nodeFreq : (clearRecord s).nodeFreq = s.nodeFreq := rfl
@[simp] theorem clearRecord_nodeSym : (clearRecord s).nodeSym = s.nodeSym := rfl
@[simp] theorem clearRecord_nodeLeft : (clearRecord s).nodeLeft = s.nodeLeft := rfl
@[simp] theorem clearRecord_nodeRight : (clearRecord s).nodeRight = s.nodeRight := rfl
@[simp] theorem clearRecord_nodeCnt : (clearRecord s).nodeCnt = s.nodeCnt := rfl
@[simp] theorem clearRecord_root : (clearRecord s).root = s.root := rfl
@[simp] theorem clearRecord_heap : (clearRecord s).heap = s.heap := rfl
@[simp] theorem clearRecord_heapSize : (clearRecord s).heapSize = s.heapSize := rfl
@[simp] theorem clearRecord_codeLen : (clearRecord s).codeLen = s.codeLen := rfl
@[simp] theorem clearRecord_codeBits : (clearRecord s).codeBits = s.codeBits := rfl
@[simp] theorem clearRecord_bitBuf : (clearRecord s).bitBuf = s.bitBuf := rfl
@[simp] theorem clearRecord_bitCnt : (clearRecord s).bitCnt = s.bitCnt := rfl
@[simp] theorem clearRecord_cursor : (clearRecord s).cursor = s.cursor := rfl
@[simp] theorem clearRecord_src : (clearRecord s).src = s.src := rfl
@[simp] theorem clearRecord_snk : (clearRecord s).snk = s.snk := rfl
@[simp] theorem clearRecord_host : (clearRecord s).host = s.host := rfl
@[simp] theorem clearRecord_rdata : (clearRecord s).rdata = s.rdata := rfl
@[simp] theorem clearRecord_freeReads : (clearRecord s).freeReads = s.freeReads := rfl
@[simp] theorem clearRecord_srcEpoch : (clearRecord s).srcEpoch = s.srcEpoch := rfl
end

/-! ### Complete (40_sequencer.md R123) -/

section
variable (s : State)
@[simp] theorem complete_phase : (complete s).phase = .idle := rfl
@[simp] theorem complete_kind : (complete s).kind = .single := rfl
@[simp] theorem complete_busy : (complete s).busy = false := rfl
@[simp] theorem complete_done : (complete s).done = true := rfl
@[simp] theorem complete_err : (complete s).err = s.err := rfl
@[simp] theorem complete_histV : (complete s).histV = s.histV := rfl
@[simp] theorem complete_entV : (complete s).entV = s.entV := rfl
@[simp] theorem complete_treeV : (complete s).treeV = s.treeV := rfl
@[simp] theorem complete_codeV : (complete s).codeV = s.codeV := rfl
@[simp] theorem complete_errKind : (complete s).errKind = s.errKind := rfl
@[simp] theorem complete_errStage : (complete s).errStage = s.errStage := rfl
@[simp] theorem complete_srcLen : (complete s).srcLen = s.srcLen := rfl
@[simp] theorem complete_srcPos : (complete s).srcPos = s.srcPos := rfl
@[simp] theorem complete_totalIn : (complete s).totalIn = s.totalIn := rfl
@[simp] theorem complete_k : (complete s).k = s.k := rfl
@[simp] theorem complete_totalSym : (complete s).totalSym = s.totalSym := rfl
@[simp] theorem complete_decCnt : (complete s).decCnt = s.decCnt := rfl
@[simp] theorem complete_hist : (complete s).hist = s.hist := rfl
@[simp] theorem complete_entSym : (complete s).entSym = s.entSym := rfl
@[simp] theorem complete_entFreq : (complete s).entFreq = s.entFreq := rfl
@[simp] theorem complete_nodeFreq : (complete s).nodeFreq = s.nodeFreq := rfl
@[simp] theorem complete_nodeSym : (complete s).nodeSym = s.nodeSym := rfl
@[simp] theorem complete_nodeLeft : (complete s).nodeLeft = s.nodeLeft := rfl
@[simp] theorem complete_nodeRight : (complete s).nodeRight = s.nodeRight := rfl
@[simp] theorem complete_nodeCnt : (complete s).nodeCnt = s.nodeCnt := rfl
@[simp] theorem complete_root : (complete s).root = s.root := rfl
@[simp] theorem complete_heap : (complete s).heap = s.heap := rfl
@[simp] theorem complete_heapSize : (complete s).heapSize = s.heapSize := rfl
@[simp] theorem complete_codeLen : (complete s).codeLen = s.codeLen := rfl
@[simp] theorem complete_codeBits : (complete s).codeBits = s.codeBits := rfl
@[simp] theorem complete_bitBuf : (complete s).bitBuf = s.bitBuf := rfl
@[simp] theorem complete_bitCnt : (complete s).bitCnt = s.bitCnt := rfl
@[simp] theorem complete_cursor : (complete s).cursor = s.cursor := rfl
@[simp] theorem complete_src : (complete s).src = s.src := rfl
@[simp] theorem complete_snk : (complete s).snk = s.snk := rfl
@[simp] theorem complete_host : (complete s).host = s.host := rfl
@[simp] theorem complete_rdata : (complete s).rdata = s.rdata := rfl
@[simp] theorem complete_freeReads : (complete s).freeReads = s.freeReads := rfl
@[simp] theorem complete_srcEpoch : (complete s).srcEpoch = s.srcEpoch := rfl
end

/-! ### Accept before the loop (40_sequencer.md R120) -/

section
variable (c : CommandKind) (st : Stage) (s : State)
@[simp] theorem accept_phase : (accept c st s).phase = .stage st := rfl
@[simp] theorem accept_kind : (accept c st s).kind = c := rfl
@[simp] theorem accept_busy : (accept c st s).busy = true := rfl
@[simp] theorem accept_done : (accept c st s).done = false := rfl
@[simp] theorem accept_err : (accept c st s).err = false := rfl
@[simp] theorem accept_histV : (accept c st s).histV = s.histV := rfl
@[simp] theorem accept_entV : (accept c st s).entV = s.entV := rfl
@[simp] theorem accept_treeV : (accept c st s).treeV = s.treeV := rfl
@[simp] theorem accept_codeV : (accept c st s).codeV = s.codeV := rfl
@[simp] theorem accept_errKind : (accept c st s).errKind = .none := rfl
@[simp] theorem accept_errStage : (accept c st s).errStage = .idle := rfl
@[simp] theorem accept_srcLen : (accept c st s).srcLen = s.srcLen := rfl
@[simp] theorem accept_srcPos : (accept c st s).srcPos = s.srcPos := rfl
@[simp] theorem accept_totalIn : (accept c st s).totalIn = s.totalIn := rfl
@[simp] theorem accept_k : (accept c st s).k = s.k := rfl
@[simp] theorem accept_totalSym : (accept c st s).totalSym = s.totalSym := rfl
@[simp] theorem accept_decCnt : (accept c st s).decCnt = s.decCnt := rfl
@[simp] theorem accept_hist : (accept c st s).hist = s.hist := rfl
@[simp] theorem accept_entSym : (accept c st s).entSym = s.entSym := rfl
@[simp] theorem accept_entFreq : (accept c st s).entFreq = s.entFreq := rfl
@[simp] theorem accept_nodeFreq : (accept c st s).nodeFreq = s.nodeFreq := rfl
@[simp] theorem accept_nodeSym : (accept c st s).nodeSym = s.nodeSym := rfl
@[simp] theorem accept_nodeLeft : (accept c st s).nodeLeft = s.nodeLeft := rfl
@[simp] theorem accept_nodeRight : (accept c st s).nodeRight = s.nodeRight := rfl
@[simp] theorem accept_nodeCnt : (accept c st s).nodeCnt = s.nodeCnt := rfl
@[simp] theorem accept_root : (accept c st s).root = s.root := rfl
@[simp] theorem accept_heap : (accept c st s).heap = s.heap := rfl
@[simp] theorem accept_heapSize : (accept c st s).heapSize = s.heapSize := rfl
@[simp] theorem accept_codeLen : (accept c st s).codeLen = s.codeLen := rfl
@[simp] theorem accept_codeBits : (accept c st s).codeBits = s.codeBits := rfl
@[simp] theorem accept_bitBuf : (accept c st s).bitBuf = s.bitBuf := rfl
@[simp] theorem accept_bitCnt : (accept c st s).bitCnt = s.bitCnt := rfl
@[simp] theorem accept_cursor : (accept c st s).cursor = s.cursor := rfl
@[simp] theorem accept_src : (accept c st s).src = s.src := rfl
@[simp] theorem accept_snk : (accept c st s).snk = s.snk := rfl
@[simp] theorem accept_host : (accept c st s).host = s.host := rfl
@[simp] theorem accept_rdata : (accept c st s).rdata = s.rdata := rfl
@[simp] theorem accept_freeReads : (accept c st s).freeReads = s.freeReads := rfl
@[simp] theorem accept_srcEpoch : (accept c st s).srcEpoch = s.srcEpoch := rfl
end

/-! ### Reset and CLEAR (70_reset_and_hazards.md R255, 40_sequencer.md R126) -/

section
variable (s : State)
@[simp] theorem resetRegisters_phase : (resetRegisters s).phase = .idle := rfl
@[simp] theorem resetRegisters_kind : (resetRegisters s).kind = .single := rfl
@[simp] theorem resetRegisters_busy : (resetRegisters s).busy = false := rfl
@[simp] theorem resetRegisters_done : (resetRegisters s).done = false := rfl
@[simp] theorem resetRegisters_err : (resetRegisters s).err = false := rfl
@[simp] theorem resetRegisters_histV : (resetRegisters s).histV = false := rfl
@[simp] theorem resetRegisters_entV : (resetRegisters s).entV = false := rfl
@[simp] theorem resetRegisters_treeV : (resetRegisters s).treeV = false := rfl
@[simp] theorem resetRegisters_codeV : (resetRegisters s).codeV = false := rfl
@[simp] theorem resetRegisters_errKind : (resetRegisters s).errKind = .none := rfl
@[simp] theorem resetRegisters_errStage : (resetRegisters s).errStage = .idle := rfl
@[simp] theorem resetRegisters_srcLen : (resetRegisters s).srcLen = 0 := rfl
@[simp] theorem resetRegisters_srcPos : (resetRegisters s).srcPos = 0 := rfl
@[simp] theorem resetRegisters_totalIn : (resetRegisters s).totalIn = 0 := rfl
@[simp] theorem resetRegisters_k : (resetRegisters s).k = 0 := rfl
@[simp] theorem resetRegisters_totalSym : (resetRegisters s).totalSym = 0 := rfl
@[simp] theorem resetRegisters_decCnt : (resetRegisters s).decCnt = 0 := rfl
@[simp] theorem resetRegisters_hist : (resetRegisters s).hist = s.hist := rfl
@[simp] theorem resetRegisters_entSym : (resetRegisters s).entSym = s.entSym := rfl
@[simp] theorem resetRegisters_entFreq : (resetRegisters s).entFreq = s.entFreq := rfl
@[simp] theorem resetRegisters_nodeFreq : (resetRegisters s).nodeFreq = s.nodeFreq := rfl
@[simp] theorem resetRegisters_nodeSym : (resetRegisters s).nodeSym = s.nodeSym := rfl
@[simp] theorem resetRegisters_nodeLeft : (resetRegisters s).nodeLeft = s.nodeLeft := rfl
@[simp] theorem resetRegisters_nodeRight : (resetRegisters s).nodeRight = s.nodeRight := rfl
@[simp] theorem resetRegisters_nodeCnt : (resetRegisters s).nodeCnt = 0 := rfl
@[simp] theorem resetRegisters_root : (resetRegisters s).root = Config.nil := rfl
@[simp] theorem resetRegisters_heap : (resetRegisters s).heap = s.heap := rfl
@[simp] theorem resetRegisters_heapSize : (resetRegisters s).heapSize = 0 := rfl
@[simp] theorem resetRegisters_codeLen : (resetRegisters s).codeLen = s.codeLen := rfl
@[simp] theorem resetRegisters_codeBits : (resetRegisters s).codeBits = s.codeBits := rfl
@[simp] theorem resetRegisters_bitBuf : (resetRegisters s).bitBuf = 0 := rfl
@[simp] theorem resetRegisters_bitCnt : (resetRegisters s).bitCnt = 0 := rfl
@[simp] theorem resetRegisters_cursor : (resetRegisters s).cursor = Config.nil := rfl
@[simp] theorem resetRegisters_src : (resetRegisters s).src = s.src := rfl
@[simp] theorem resetRegisters_snk : (resetRegisters s).snk = s.snk := rfl
@[simp] theorem resetRegisters_host : (resetRegisters s).host = s.host := rfl
@[simp] theorem resetRegisters_rdata : (resetRegisters s).rdata = s.rdata := rfl
@[simp] theorem resetRegisters_freeReads : (resetRegisters s).freeReads = s.freeReads := rfl
@[simp] theorem resetRegisters_srcEpoch : (resetRegisters s).srcEpoch = s.srcEpoch := rfl
end

/-! ### SrcRewind (20_memory.md R62) -/

section
variable (s : State)
@[simp] theorem srcRewind_phase : (srcRewind s).phase = s.phase := rfl
@[simp] theorem srcRewind_kind : (srcRewind s).kind = s.kind := rfl
@[simp] theorem srcRewind_busy : (srcRewind s).busy = s.busy := rfl
@[simp] theorem srcRewind_done : (srcRewind s).done = s.done := rfl
@[simp] theorem srcRewind_err : (srcRewind s).err = s.err := rfl
@[simp] theorem srcRewind_histV : (srcRewind s).histV = s.histV := rfl
@[simp] theorem srcRewind_entV : (srcRewind s).entV = s.entV := rfl
@[simp] theorem srcRewind_treeV : (srcRewind s).treeV = s.treeV := rfl
@[simp] theorem srcRewind_codeV : (srcRewind s).codeV = s.codeV := rfl
@[simp] theorem srcRewind_errKind : (srcRewind s).errKind = s.errKind := rfl
@[simp] theorem srcRewind_errStage : (srcRewind s).errStage = s.errStage := rfl
@[simp] theorem srcRewind_srcLen : (srcRewind s).srcLen = s.srcLen := rfl
@[simp] theorem srcRewind_srcPos : (srcRewind s).srcPos = 0 := rfl
@[simp] theorem srcRewind_totalIn : (srcRewind s).totalIn = s.totalIn := rfl
@[simp] theorem srcRewind_k : (srcRewind s).k = s.k := rfl
@[simp] theorem srcRewind_totalSym : (srcRewind s).totalSym = s.totalSym := rfl
@[simp] theorem srcRewind_decCnt : (srcRewind s).decCnt = s.decCnt := rfl
@[simp] theorem srcRewind_hist : (srcRewind s).hist = s.hist := rfl
@[simp] theorem srcRewind_entSym : (srcRewind s).entSym = s.entSym := rfl
@[simp] theorem srcRewind_entFreq : (srcRewind s).entFreq = s.entFreq := rfl
@[simp] theorem srcRewind_nodeFreq : (srcRewind s).nodeFreq = s.nodeFreq := rfl
@[simp] theorem srcRewind_nodeSym : (srcRewind s).nodeSym = s.nodeSym := rfl
@[simp] theorem srcRewind_nodeLeft : (srcRewind s).nodeLeft = s.nodeLeft := rfl
@[simp] theorem srcRewind_nodeRight : (srcRewind s).nodeRight = s.nodeRight := rfl
@[simp] theorem srcRewind_nodeCnt : (srcRewind s).nodeCnt = s.nodeCnt := rfl
@[simp] theorem srcRewind_root : (srcRewind s).root = s.root := rfl
@[simp] theorem srcRewind_heap : (srcRewind s).heap = s.heap := rfl
@[simp] theorem srcRewind_heapSize : (srcRewind s).heapSize = s.heapSize := rfl
@[simp] theorem srcRewind_codeLen : (srcRewind s).codeLen = s.codeLen := rfl
@[simp] theorem srcRewind_codeBits : (srcRewind s).codeBits = s.codeBits := rfl
@[simp] theorem srcRewind_bitBuf : (srcRewind s).bitBuf = s.bitBuf := rfl
@[simp] theorem srcRewind_bitCnt : (srcRewind s).bitCnt = s.bitCnt := rfl
@[simp] theorem srcRewind_cursor : (srcRewind s).cursor = s.cursor := rfl
@[simp] theorem srcRewind_src : (srcRewind s).src = s.src := rfl
@[simp] theorem srcRewind_snk : (srcRewind s).snk = s.snk := rfl
@[simp] theorem srcRewind_host : (srcRewind s).host = s.host := rfl
@[simp] theorem srcRewind_rdata : (srcRewind s).rdata = s.rdata := rfl
@[simp] theorem srcRewind_freeReads : (srcRewind s).freeReads = s.freeReads := rfl
@[simp] theorem srcRewind_srcEpoch : (srcRewind s).srcEpoch = s.srcEpoch := rfl
end

/-! ### SnkPut (20_memory.md R63) -/

section
variable (b : Byte) (s : State)
@[simp] theorem snkPut_phase : (snkPut b s).phase = s.phase := rfl
@[simp] theorem snkPut_kind : (snkPut b s).kind = s.kind := rfl
@[simp] theorem snkPut_busy : (snkPut b s).busy = s.busy := rfl
@[simp] theorem snkPut_done : (snkPut b s).done = s.done := rfl
@[simp] theorem snkPut_err : (snkPut b s).err = s.err := rfl
@[simp] theorem snkPut_histV : (snkPut b s).histV = s.histV := rfl
@[simp] theorem snkPut_entV : (snkPut b s).entV = s.entV := rfl
@[simp] theorem snkPut_treeV : (snkPut b s).treeV = s.treeV := rfl
@[simp] theorem snkPut_codeV : (snkPut b s).codeV = s.codeV := rfl
@[simp] theorem snkPut_errKind : (snkPut b s).errKind = s.errKind := rfl
@[simp] theorem snkPut_errStage : (snkPut b s).errStage = s.errStage := rfl
@[simp] theorem snkPut_srcLen : (snkPut b s).srcLen = s.srcLen := rfl
@[simp] theorem snkPut_srcPos : (snkPut b s).srcPos = s.srcPos := rfl
@[simp] theorem snkPut_totalIn : (snkPut b s).totalIn = s.totalIn := rfl
@[simp] theorem snkPut_k : (snkPut b s).k = s.k := rfl
@[simp] theorem snkPut_totalSym : (snkPut b s).totalSym = s.totalSym := rfl
@[simp] theorem snkPut_decCnt : (snkPut b s).decCnt = s.decCnt := rfl
@[simp] theorem snkPut_hist : (snkPut b s).hist = s.hist := rfl
@[simp] theorem snkPut_entSym : (snkPut b s).entSym = s.entSym := rfl
@[simp] theorem snkPut_entFreq : (snkPut b s).entFreq = s.entFreq := rfl
@[simp] theorem snkPut_nodeFreq : (snkPut b s).nodeFreq = s.nodeFreq := rfl
@[simp] theorem snkPut_nodeSym : (snkPut b s).nodeSym = s.nodeSym := rfl
@[simp] theorem snkPut_nodeLeft : (snkPut b s).nodeLeft = s.nodeLeft := rfl
@[simp] theorem snkPut_nodeRight : (snkPut b s).nodeRight = s.nodeRight := rfl
@[simp] theorem snkPut_nodeCnt : (snkPut b s).nodeCnt = s.nodeCnt := rfl
@[simp] theorem snkPut_root : (snkPut b s).root = s.root := rfl
@[simp] theorem snkPut_heap : (snkPut b s).heap = s.heap := rfl
@[simp] theorem snkPut_heapSize : (snkPut b s).heapSize = s.heapSize := rfl
@[simp] theorem snkPut_codeLen : (snkPut b s).codeLen = s.codeLen := rfl
@[simp] theorem snkPut_codeBits : (snkPut b s).codeBits = s.codeBits := rfl
@[simp] theorem snkPut_bitBuf : (snkPut b s).bitBuf = s.bitBuf := rfl
@[simp] theorem snkPut_bitCnt : (snkPut b s).bitCnt = s.bitCnt := rfl
@[simp] theorem snkPut_cursor : (snkPut b s).cursor = s.cursor := rfl
@[simp] theorem snkPut_src : (snkPut b s).src = s.src := rfl
@[simp] theorem snkPut_snk : (snkPut b s).snk = s.snk ++ [b] := rfl
@[simp] theorem snkPut_host : (snkPut b s).host = s.host := rfl
@[simp] theorem snkPut_rdata : (snkPut b s).rdata = s.rdata := rfl
@[simp] theorem snkPut_freeReads : (snkPut b s).freeReads = s.freeReads := rfl
@[simp] theorem snkPut_srcEpoch : (snkPut b s).srcEpoch = s.srcEpoch := rfl
end

/-! ### PQ_CLEAR (42_priority_queue.md R150) -/

section
variable (s : State)
@[simp] theorem pqClear_phase : (pqClear s).phase = s.phase := rfl
@[simp] theorem pqClear_kind : (pqClear s).kind = s.kind := rfl
@[simp] theorem pqClear_busy : (pqClear s).busy = s.busy := rfl
@[simp] theorem pqClear_done : (pqClear s).done = s.done := rfl
@[simp] theorem pqClear_err : (pqClear s).err = s.err := rfl
@[simp] theorem pqClear_histV : (pqClear s).histV = s.histV := rfl
@[simp] theorem pqClear_entV : (pqClear s).entV = s.entV := rfl
@[simp] theorem pqClear_treeV : (pqClear s).treeV = s.treeV := rfl
@[simp] theorem pqClear_codeV : (pqClear s).codeV = s.codeV := rfl
@[simp] theorem pqClear_errKind : (pqClear s).errKind = s.errKind := rfl
@[simp] theorem pqClear_errStage : (pqClear s).errStage = s.errStage := rfl
@[simp] theorem pqClear_srcLen : (pqClear s).srcLen = s.srcLen := rfl
@[simp] theorem pqClear_srcPos : (pqClear s).srcPos = s.srcPos := rfl
@[simp] theorem pqClear_totalIn : (pqClear s).totalIn = s.totalIn := rfl
@[simp] theorem pqClear_k : (pqClear s).k = s.k := rfl
@[simp] theorem pqClear_totalSym : (pqClear s).totalSym = s.totalSym := rfl
@[simp] theorem pqClear_decCnt : (pqClear s).decCnt = s.decCnt := rfl
@[simp] theorem pqClear_hist : (pqClear s).hist = s.hist := rfl
@[simp] theorem pqClear_entSym : (pqClear s).entSym = s.entSym := rfl
@[simp] theorem pqClear_entFreq : (pqClear s).entFreq = s.entFreq := rfl
@[simp] theorem pqClear_nodeFreq : (pqClear s).nodeFreq = s.nodeFreq := rfl
@[simp] theorem pqClear_nodeSym : (pqClear s).nodeSym = s.nodeSym := rfl
@[simp] theorem pqClear_nodeLeft : (pqClear s).nodeLeft = s.nodeLeft := rfl
@[simp] theorem pqClear_nodeRight : (pqClear s).nodeRight = s.nodeRight := rfl
@[simp] theorem pqClear_nodeCnt : (pqClear s).nodeCnt = s.nodeCnt := rfl
@[simp] theorem pqClear_root : (pqClear s).root = s.root := rfl
@[simp] theorem pqClear_heap : (pqClear s).heap = s.heap := rfl
@[simp] theorem pqClear_heapSize : (pqClear s).heapSize = 0 := rfl
@[simp] theorem pqClear_codeLen : (pqClear s).codeLen = s.codeLen := rfl
@[simp] theorem pqClear_codeBits : (pqClear s).codeBits = s.codeBits := rfl
@[simp] theorem pqClear_bitBuf : (pqClear s).bitBuf = s.bitBuf := rfl
@[simp] theorem pqClear_bitCnt : (pqClear s).bitCnt = s.bitCnt := rfl
@[simp] theorem pqClear_cursor : (pqClear s).cursor = s.cursor := rfl
@[simp] theorem pqClear_src : (pqClear s).src = s.src := rfl
@[simp] theorem pqClear_snk : (pqClear s).snk = s.snk := rfl
@[simp] theorem pqClear_host : (pqClear s).host = s.host := rfl
@[simp] theorem pqClear_rdata : (pqClear s).rdata = s.rdata := rfl
@[simp] theorem pqClear_freeReads : (pqClear s).freeReads = s.freeReads := rfl
@[simp] theorem pqClear_srcEpoch : (pqClear s).srcEpoch = s.srcEpoch := rfl
end

/-! ### SetCode (44_code_table.md R180) -/

section
variable (b : Byte) (p : List Bool) (s : State)
@[simp] theorem setCode_phase : (setCode b p s).phase = s.phase := rfl
@[simp] theorem setCode_kind : (setCode b p s).kind = s.kind := rfl
@[simp] theorem setCode_busy : (setCode b p s).busy = s.busy := rfl
@[simp] theorem setCode_done : (setCode b p s).done = s.done := rfl
@[simp] theorem setCode_err : (setCode b p s).err = s.err := rfl
@[simp] theorem setCode_histV : (setCode b p s).histV = s.histV := rfl
@[simp] theorem setCode_entV : (setCode b p s).entV = s.entV := rfl
@[simp] theorem setCode_treeV : (setCode b p s).treeV = s.treeV := rfl
@[simp] theorem setCode_codeV : (setCode b p s).codeV = s.codeV := rfl
@[simp] theorem setCode_errKind : (setCode b p s).errKind = s.errKind := rfl
@[simp] theorem setCode_errStage : (setCode b p s).errStage = s.errStage := rfl
@[simp] theorem setCode_srcLen : (setCode b p s).srcLen = s.srcLen := rfl
@[simp] theorem setCode_srcPos : (setCode b p s).srcPos = s.srcPos := rfl
@[simp] theorem setCode_totalIn : (setCode b p s).totalIn = s.totalIn := rfl
@[simp] theorem setCode_k : (setCode b p s).k = s.k := rfl
@[simp] theorem setCode_totalSym : (setCode b p s).totalSym = s.totalSym := rfl
@[simp] theorem setCode_decCnt : (setCode b p s).decCnt = s.decCnt := rfl
@[simp] theorem setCode_hist : (setCode b p s).hist = s.hist := rfl
@[simp] theorem setCode_entSym : (setCode b p s).entSym = s.entSym := rfl
@[simp] theorem setCode_entFreq : (setCode b p s).entFreq = s.entFreq := rfl
@[simp] theorem setCode_nodeFreq : (setCode b p s).nodeFreq = s.nodeFreq := rfl
@[simp] theorem setCode_nodeSym : (setCode b p s).nodeSym = s.nodeSym := rfl
@[simp] theorem setCode_nodeLeft : (setCode b p s).nodeLeft = s.nodeLeft := rfl
@[simp] theorem setCode_nodeRight : (setCode b p s).nodeRight = s.nodeRight := rfl
@[simp] theorem setCode_nodeCnt : (setCode b p s).nodeCnt = s.nodeCnt := rfl
@[simp] theorem setCode_root : (setCode b p s).root = s.root := rfl
@[simp] theorem setCode_heap : (setCode b p s).heap = s.heap := rfl
@[simp] theorem setCode_heapSize : (setCode b p s).heapSize = s.heapSize := rfl
@[simp] theorem setCode_codeLen :
    (setCode b p s).codeLen = s.codeLen.set b.toNat (BitVec.ofNat 8 p.length) b.isLt := rfl
@[simp] theorem setCode_codeBits :
    (setCode b p s).codeBits = s.codeBits.set b.toNat ((BitVec.ofBoolListLE p).setWidth 255) b.isLt := rfl
@[simp] theorem setCode_bitBuf : (setCode b p s).bitBuf = s.bitBuf := rfl
@[simp] theorem setCode_bitCnt : (setCode b p s).bitCnt = s.bitCnt := rfl
@[simp] theorem setCode_cursor : (setCode b p s).cursor = s.cursor := rfl
@[simp] theorem setCode_src : (setCode b p s).src = s.src := rfl
@[simp] theorem setCode_snk : (setCode b p s).snk = s.snk := rfl
@[simp] theorem setCode_host : (setCode b p s).host = s.host := rfl
@[simp] theorem setCode_rdata : (setCode b p s).rdata = s.rdata := rfl
@[simp] theorem setCode_freeReads : (setCode b p s).freeReads = s.freeReads := rfl
@[simp] theorem setCode_srcEpoch : (setCode b p s).srcEpoch = s.srcEpoch := rfl
end

end Sys2Proof.Machine
end

