-- ==== Sys2Proof/Tests/Slice0.lean ====
section
/-! SUPPORT. The model's own tests. Expected values are those of spec/95_test_vectors.md (the vector is named at each test)
or words written out from 30_encoding.md; the last part shows, for each statement with hypotheses, a state that meets
them. -/

namespace Sys2Proof.Tests

-- Each test in turn: a proof that waits for the kernel holds a thread, and threads are few.
set_option Elab.async false

open Sys2Proof.Machine

/-! ### Helpers -/

/-- The outcome is a next state with this property. -/
def ends (o : Host.Outcome State Fault Refusal) (p : State → Bool) : Bool :=
  match o with
  | .next t => p t
  | .fault _ => false
  | .refused _ => false

theorem ends_next {o : Host.Outcome State Fault Refusal} {p : State → Bool} (h : ends o p = true) :
    ∃ t, o = .next t ∧ p t = true := by
  cases o with
  | next t => exact ⟨t, rfl, h⟩
  | fault f => cases h
  | refused r => cases h

/-- A state with this source, whole, and nothing else changed. -/
def sourced (bytes : List Byte) (s : State) : State :=
  { s with src := Memory.ofBytes bytes, srcLen := BitVec.ofNat 32 bytes.length }

/-- A state with this entry list valid. -/
def listed (es : List (Byte × Word32)) (s : State) : State :=
  { s with
    entV := true
    k := BitVec.ofNat 9 es.length
    entSym := (List.range es.length).foldl (fun v i => v.setIfInBounds i ((es.map Prod.fst).getD i 0)) s.entSym
    entFreq := (List.range es.length).foldl (fun v i => v.setIfInBounds i ((es.map Prod.snd).getD i 0)) s.entFreq }

/-- STATUS and ERRINFO. -/
def sees (status errInfo : Nat) (t : State) : Bool :=
  decide ((statusWord t).toNat = status) && decide ((errInfoWord t).toNat = errInfo)

/-- "aaab" and its artifact (V-SER-1). -/
def aaab : List Byte := [0x61, 0x61, 0x61, 0x62]
def artifact : List Byte := [2, 0, 0, 0, 0x61, 3, 0, 0, 0, 0x62, 1, 0, 0, 0, 7]

/-! ### Well-formedness -/

theorem test_wf_command_word_of_nine_bits_refused : HostAction.wf (.write 0 0x100) = false := by decide
theorem test_wf_command_word_of_eight_bits : HostAction.wf (.write 0 0xFF) = true := by decide
theorem test_wf_length_of_33_bits_refused : HostAction.wf (.write 3 0x100000000) = false := by decide
theorem test_wf_length_of_32_bits : HostAction.wf (.write 3 0xFFFFFFFF) = true := by decide
theorem test_wf_source_too_long_refused : HostAction.wf (.placeSource (List.replicate (2 ^ 32) 0)) = false := by
  simp only [HostAction.wf, List.length_replicate, decide_eq_false_iff_not]
  omega
theorem test_wf_source : HostAction.wf (.placeSource aaab) = true := by decide

/-! ### Decoding: UNIT in bits 7:4, FUNC in bits 3:0 (30_encoding.md R90, R91) -/

theorem test_decode_nop : decode [0b00000000#8] = .ok (.nop, []) := by decide
theorem test_decode_clear : decode [0b00000001#8] = .ok (.clear, []) := by decide
theorem test_decode_hist : decode [0b00010000#8] = .ok (.hist, []) := by decide
theorem test_decode_alpha : decode [0b00010001#8] = .ok (.alpha, []) := by decide
theorem test_decode_build : decode [0b00100000#8] = .ok (.build, []) := by decide
theorem test_decode_codegen : decode [0b00110000#8] = .ok (.codegen, []) := by decide
theorem test_decode_wrhdr : decode [0b01000000#8] = .ok (.wrhdr, []) := by decide
theorem test_decode_pack : decode [0b01000001#8] = .ok (.pack, []) := by decide
theorem test_decode_rdhdr : decode [0b01010000#8] = .ok (.rdhdr, []) := by decide
theorem test_decode_decode : decode [0b01100000#8] = .ok (.decode, []) := by decide
theorem test_decode_compress : decode [0b10000000#8] = .ok (.compress, []) := by decide
theorem test_decode_decompress : decode [0b10000001#8] = .ok (.decompress, []) := by decide
theorem test_decode_illegal : decode [0x7F#8] = .error (.illegalOpcode 0x7F#8) := by decide
theorem test_decode_nothing : decode [] = .error .noWord := by decide
theorem test_decode_table_word : decodeTableWord 8 0x41 = some .pack ∧ decodeTableWord 8 0x42 = none := by decide

/-! ### One command each -/

/-- V-SEQ-2. -/
theorem test_nop : ends (step (State.reset.withFetchWord 8 0x00)) (sees 0x0002 0x00) = true := by decide +kernel

/-- V-SEQ-3. -/
theorem test_illegal : ends (step (State.reset.withFetchWord 8 0x7F)) (sees 0x0006 0x06) = true := by decide +kernel

/-- V-SEQ-6: SNK and SRC stay. -/
theorem test_clear :
    ends (exec .clear (listed [(0x61, 3)] (sourced aaab { State.reset with snk := [7], root := 4 }))) (fun t =>
      sees 0 0 t && decide (t.k = 0 ∧ t.srcLen = 0 ∧ t.root = 511 ∧ t.snk = [7] ∧ sourceByte t 3 = 0x62)) = true := by
  decide +kernel

/-- V-HIST-1. -/
theorem test_hist :
    ends (exec .hist (sourced aaab State.reset)) (fun t =>
      sees 0x0102 0x00 t && decide (histAt 0x61 t = 3 ∧ histAt 0x62 t = 1 ∧ histAt 0x63 t = 0 ∧ t.totalIn = 4 ∧
        t.srcPos = 4)) = true := by decide +kernel

/-- V-HIST-3. -/
theorem test_hist_empty : ends (exec .hist State.reset) (sees 0x0006 0x11) = true := by decide +kernel

/-- V-AL-4. -/
theorem test_alpha_without_histogram : ends (exec .alpha State.reset) (sees 0x0006 0x26) = true := by decide +kernel

/-- V-TB-4: "abcd", all ties; nodes 4, 5, 6 are the internal nodes. -/
theorem test_build_ties :
    ends (exec .build (listed [(0x61, 1), (0x62, 1), (0x63, 1), (0x64, 1)] State.reset)) (fun t =>
      decide (t.nodeCnt = 7 ∧ t.root = 6 ∧
        ([4, 5, 6].map fun i => (t.nodeFreq[i]?, t.nodeLeft[i]?, t.nodeRight[i]?)) =
          [(some 2, some 0, some 3), (some 2, some 2, some 1), (some 4, some 4, some 5)])) = true := by decide +kernel

/-- V-TB-9. -/
theorem test_build_without_entries : ends (exec .build State.reset) (sees 0x0006 0x36) = true := by decide +kernel

/-- V-CG-3: BUILD and CODEGEN on "abracadabra". -/
theorem test_codegen :
    ends (issueAll [.build, .codegen]
        (listed [(0x61, 5), (0x62, 2), (0x63, 1), (0x64, 1), (0x72, 2)] State.reset)) (fun t =>
      sees 0x0E02 0x00 t && decide (codeOf 0x61 t = [false] ∧ codeOf 0x62 t = [true, false] ∧
        codeOf 0x72 t = [true, true, false] ∧ codeOf 0x63 t = [true, true, true, false] ∧
        codeOf 0x64 t = [true, true, true, true] ∧ codeOf 0x65 t = [])) = true := by decide +kernel

/-- V-CG-11: a repeated symbol takes the rightmost leaf's code. -/
theorem test_codegen_repeated_symbol :
    ends (issueAll [.build, .codegen] (listed [(0x61, 1), (0x61, 1)] State.reset)) (fun t =>
      decide (codeOf 0x61 t = [true])) = true := by decide +kernel

/-- V-SER-1. -/
theorem test_wrhdr :
    ends (exec .wrhdr (listed [(0x61, 3), (0x62, 1)] State.reset)) (fun t =>
      decide (t.snk = artifact.take 14)) = true := by decide +kernel

/-- V-SEQ-9. -/
theorem test_wrhdr_without_entries : ends (exec .wrhdr State.reset) (sees 0x0006 0x56) = true := by decide +kernel

/-- V-SER-10, with the code of V-CG-8: bits 1, 0, 1. -/
theorem test_pack :
    ends (exec .pack (sourced [0x00, 0xFF, 0x00] { State.reset with
        codeV := true
        codeLen := ((Vector.replicate 256 0).set 0 1).set 255 1
        codeBits := (Vector.replicate 256 0).set 0 1 })) (fun t =>
      decide (t.snk = [0x05] ∧ t.srcPos = 3 ∧ t.bitCnt = 0)) = true := by decide +kernel

/-- V-SEQ-9. -/
theorem test_pack_without_codes : ends (exec .pack State.reset) (sees 0x0006 0x66) = true := by decide +kernel

/-- V-DES-25. -/
theorem test_rdhdr :
    ends (exec .rdhdr (sourced artifact State.reset)) (fun t =>
      sees 0x0202 0x00 t && decide (entryList t = [(0x61, 3), (0x62, 1)] ∧ t.srcPos = 14)) = true := by decide +kernel

/-- V-DES-5: k = 257. -/
theorem test_rdhdr_too_many_entries :
    ends (exec .rdhdr (sourced ([1, 1, 0, 0] ++ artifact.drop 4) State.reset)) (fun t =>
      sees 0x0006 0x73 t && decide (t.srcPos = 4 ∧ t.k = 0)) = true := by decide +kernel

/-- V-DES-17: the header's stages, then DECODE on the stream `08 00`. -/
theorem test_decode_corrupt :
    ends (issueAll [.rdhdr, .build, .decode] (sourced [1, 0, 0, 0, 0x7A, 9, 0, 0, 0, 8, 0] State.reset)) (fun t =>
      sees 0x0606 0x84 t && decide (t.snk = [0x7A, 0x7A, 0x7A] ∧ t.srcPos = 10 ∧ t.decCnt = 3)) = true := by
  decide +kernel

/-- V-SEQ-9. -/
theorem test_decode_without_tree : ends (exec .decode State.reset) (sees 0x0006 0x86) = true := by decide +kernel

/-- V-DES-1. -/
theorem test_decompress :
    ends (exec .decompress (sourced artifact State.reset)) (fun t =>
      sees 0x0602 0x00 t && decide (t.snk = aaab ∧ t.srcPos = 15 ∧ t.totalSym = 4 ∧ t.decCnt = 4)) = true := by
  decide +kernel

/-- V-DES-2. -/
theorem test_decompress_short :
    ends (exec .decompress (sourced (artifact.take 14) State.reset)) (fun t =>
      sees 0x0606 0x85 t && decide (t.snk = [] ∧ t.srcPos = 14 ∧ t.decCnt = 0)) = true := by decide +kernel

/-! ### Host actions -/

/-- 10_state.md R28, R43: a command written to CMD runs one stage a step, and STATUS shows its stage. -/
theorem test_stage_steps :
    let s := hostWrite 0 0x80 (sourced aaab State.reset)
    sees 0x1011 0 s = true ∧ ends (advance s) (sees 0x1121 0) = true := by decide +kernel

/-- 70_reset_and_hazards.md R255. -/
theorem test_reset_pulse :
    ends (step { hostWrite 0 0x80 (sourced aaab State.reset) with host := [.reset], snk := [1] }) (fun t =>
      sees 0 0 t && decide (t.snk = [1] ∧ t.srcLen = 0)) = true := by decide +kernel

/-! ### States with a tree -/

/-- An idle HFC with the entry list (0x61, 1), (0x62, 2), its tree and its code table. -/
def twoLeaf : State :=
  { State.reset with
    entV := true
    treeV := true
    codeV := true
    done := true
    k := 2
    entSym := ((Vector.replicate 256 0).set 0 0x61).set 1 0x62
    entFreq := ((Vector.replicate 256 0).set 0 1).set 1 2
    nodeFreq := (((Vector.replicate 511 0).set 0 1).set 1 2).set 2 3
    nodeSym := ((Vector.replicate 511 0).set 0 0x61).set 1 0x62
    nodeLeft := ((Vector.replicate 511 0).set 0 511).set 1 511
    nodeRight := (((Vector.replicate 511 0).set 0 511).set 1 511).set 2 1
    nodeCnt := 3
    root := 2
    heap := (Vector.replicate 256 0).set 0 2
    heapSize := 1
    codeLen := ((Vector.replicate 256 0).set 0x61 1).set 0x62 1
    codeBits := (Vector.replicate 256 0).set 0x62 1 }

/-- An idle HFC with the entry list (0x7A, 9), its tree and its code table. -/
def oneLeaf : State :=
  { State.reset with
    entV := true
    treeV := true
    codeV := true
    done := true
    k := 1
    entSym := (Vector.replicate 256 0).set 0 0x7A
    entFreq := (Vector.replicate 256 0).set 0 9
    nodeFreq := (Vector.replicate 511 0).set 0 9
    nodeSym := (Vector.replicate 511 0).set 0 0x7A
    nodeLeft := (Vector.replicate 511 0).set 0 511
    nodeRight := (Vector.replicate 511 0).set 0 511
    nodeCnt := 1
    root := 0
    heapSize := 1
    codeLen := (Vector.replicate 256 0).set 0x7A 1 }

theorem twoLeaf_tree : TreeOk twoLeaf where
  kRange := by decide
  count := by decide
  root := by decide
  leaves i hi := by
    have hi : i < 2 := hi
    obtain rfl | rfl : i = 0 ∨ i = 1 := by omega
    all_goals decide +kernel
  inner i hi hi' := by
    have h1 : 2 ≤ i := hi
    have h2 : i < 3 := hi'
    obtain rfl : i = 2 := by omega
    exact ⟨0, 1, 1, 2, 3, by decide +kernel⟩
  parent c hc := by
    have hc : c.toNat < 2 := hc
    refine ⟨2, by decide, ?_, fun j hj h => ?_⟩
    · obtain rfl | rfl : c = 0 ∨ c = 1 := by bv_omega
      all_goals decide +kernel
    · have hj : j < 3 := hj
      obtain rfl | rfl : c = 0 ∨ c = 1 := by bv_omega
      all_goals
        obtain rfl | rfl | rfl : j = 0 ∨ j = 1 ∨ j = 2 := by omega
        all_goals revert h; decide +kernel

theorem twoLeaf_codeLen (b : Byte) : codeLenAt b twoLeaf = if b = 0x62 then 1 else if b = 0x61 then 1 else 0 := by
  show ((((Vector.replicate 256 (0 : Byte)).set 0x61 1).set 0x62 1)[b.toNat]'b.isLt) = _
  rw [Vector.getElem_set, Vector.getElem_set, Vector.getElem_replicate]
  simp only [BitVec.toNat_eq, eq_comm (b := b.toNat)]
  rfl

theorem twoLeaf_codeBits (b : Byte) : codeBitsAt b twoLeaf = if b = 0x62 then 1 else 0 := by
  show (((Vector.replicate 256 (0 : CodeWord)).set 0x62 1)[b.toNat]'b.isLt) = _
  rw [Vector.getElem_set, Vector.getElem_replicate]
  simp only [BitVec.toNat_eq, eq_comm (b := b.toNat)]
  rfl

theorem twoLeaf_codes (b : Byte) :
    codeOf b twoLeaf = if b = 0x62 then [true] else if b = 0x61 then [false] else [] := by
  unfold codeOf
  rw [twoLeaf_codeLen, twoLeaf_codeBits]
  split
  · rfl
  · split <;> rfl

/-- The paths of the two leaves, and no others. -/
theorem twoLeaf_path (p : List Bool) (b : Byte) :
    LeafPath twoLeaf p b ↔ (p = [false] ∧ b = 0x61) ∨ (p = [true] ∧ b = 0x62) := by
  have stuck : ∀ (n : Ref) x q, leafNode twoLeaf n = true → follow twoLeaf n (x :: q) = none := fun n x q h => by
    simp only [leafNode, Bool.and_eq_true, decide_eq_true_eq] at h
    cases x <;> simp [follow, h]
  constructor
  · rintro ⟨n, hf, hl, hs⟩
    match p with
    | [] =>
      simp only [follow, Option.some.injEq] at hf
      subst hf; exact absurd hl (by decide +kernel)
    | [false] =>
      have : follow twoLeaf twoLeaf.root [false] = some 0 := by decide +kernel
      rw [this] at hf; cases hf
      left; refine ⟨rfl, ?_⟩
      have : twoLeaf.nodeSym[(0 : Ref).toNat]? = some 0x61 := by decide +kernel
      rw [this] at hs; cases hs; rfl
    | [true] =>
      have : follow twoLeaf twoLeaf.root [true] = some 1 := by decide +kernel
      rw [this] at hf; cases hf
      right; refine ⟨rfl, ?_⟩
      have : twoLeaf.nodeSym[(1 : Ref).toNat]? = some 0x62 := by decide +kernel
      rw [this] at hs; cases hs; rfl
    | false :: x :: q =>
      have h : follow twoLeaf twoLeaf.root (false :: x :: q) = follow twoLeaf 0 (x :: q) := rfl
      rw [h, stuck 0 x q (by decide +kernel)] at hf; cases hf
    | true :: x :: q =>
      have h : follow twoLeaf twoLeaf.root (true :: x :: q) = follow twoLeaf 1 (x :: q) := rfl
      rw [h, stuck 1 x q (by decide +kernel)] at hf; cases hf
  · rintro (⟨rfl, rfl⟩ | ⟨rfl, rfl⟩)
    · exact ⟨0, by decide +kernel⟩
    · exact ⟨1, by decide +kernel⟩

theorem twoLeaf_table : CodeTableOk twoLeaf where
  above b i h := by
    rw [twoLeaf_codeLen] at h
    rw [twoLeaf_codeBits]
    split at h
    · rename_i hb
      rw [if_pos hb]
      exact Nat.testBit_lt_two_pow (Nat.lt_of_lt_of_le (by decide : 1 < 2 ^ 1) (Nat.pow_le_pow_right (by decide) h))
    · rename_i hb
      rw [if_neg hb]; exact BitVec.getLsbD_zero
  single h := absurd h (by decide +kernel)
  paths _ b := by
    rw [twoLeaf_codes]
    simp only [twoLeaf_path]
    by_cases h1 : b = 0x61
    · subst h1; right; simp
    · by_cases h2 : b = 0x62
      · subst h2; right; simp
      · exact .inl ⟨by rw [if_neg h2, if_neg h1], fun p h => h.elim (fun h => h1 h.2) (fun h => h2 h.2)⟩


/-- The invariant, in every state that holds this tree and code table and nothing else unusual. -/
theorem twoLeaf_inv {s : State} (h : s = { twoLeaf with
      phase := s.phase, kind := s.kind, busy := s.busy, done := s.done, srcLen := s.srcLen, srcPos := s.srcPos
      src := s.src, snk := s.snk, host := s.host, hist := s.hist })
    (hseq : SequencerOk s) (hsrc : Memory.wf s.src = true) : Inv s := by
  have hsame : SameTree twoLeaf s := by rw [h]; exact ⟨rfl, rfl, rfl, rfl, rfl, rfl, rfl, rfl, rfl⟩
  refine ⟨hseq, ?_, ?_, ?_, fun _ => twoLeaf_tree.congr hsame,
    fun _ => twoLeaf_table.congr hsame (by rw [h]) (by rw [h]), ?_, ?_, ?_, hsrc⟩
  · rw [h]; exact ⟨fun _ => rfl, fun _ => rfl⟩
  · rw [h]; intro hh; cases hh
  · rw [h]; exact ⟨by show twoLeaf.k.toNat ≤ 256; decide, fun _ => by show 1 ≤ twoLeaf.k.toNat; decide⟩
  · have hh : heapList s = heapList twoLeaf := by rw [h]; rfl
    have hc : s.nodeCnt = twoLeaf.nodeCnt := by rw [h]
    have hz : s.heapSize = twoLeaf.heapSize := by rw [h]
    rw [hh, hc, hz]; decide +kernel
  · intro i _; rw [h]; exact BitVec.getLsbD_zero
  · rw [h]; show twoLeaf.decCnt.toNat ≤ twoLeaf.totalSym.toNat; decide

theorem idle_sequencer {s : State} (hb : s.busy = false) (hp : s.phase = .idle) (hk : s.kind = .single)
    (he : s.err = false) (hr : s.errKind = .none) (hs : s.errStage = .idle) : SequencerOk s where
  idle _ := ⟨hp, hk⟩
  running h := by rw [hb] at h; cases h
  record := by rw [hr, hs]; rfl
  errFlag := by rw [he, hr]; decide
  ended h := by rw [he] at h; cases h

/-- The invariant with this tree, idle, and any source and host actions. -/
theorem twoLeaf_idle_inv (bytes : List Byte) (p : Word32) (host : List HostAction) :
    Inv { sourced bytes twoLeaf with srcPos := p, host := host } :=
  twoLeaf_inv rfl (idle_sequencer rfl rfl rfl rfl rfl rfl) (Memory.ofBytes_wf bytes)

/-- The invariant with this tree while DECODE is running. -/
theorem twoLeaf_busy_inv (host : List HostAction) :
    Inv { twoLeaf with phase := .stage .decode, busy := true, done := false, host := host } := by
  refine twoLeaf_inv rfl ⟨?_, ?_, ?_, ?_, ?_⟩ rfl
  · intro h; cases h
  · intro _; exact ⟨rfl, rfl, .decode, rfl, rfl, fun h => absurd rfl h, fun h => by cases h⟩
  · rfl
  · exact ⟨fun h => (by cases h), fun h => absurd rfl h⟩
  · intro h; cases h

theorem oneLeaf_tree : TreeOk oneLeaf where
  kRange := by decide
  count := by decide
  root := by decide
  leaves i hi := by
    have hi : i < 1 := hi
    obtain rfl : i = 0 := by omega
    decide +kernel
  inner i hi hi' := by
    have h1 : 1 ≤ i := hi
    have h2 : i < 1 := hi'
    omega
  parent c hc := by
    have hc : c.toNat < 0 := hc
    omega


/-! ### Witnesses: for each statement with hypotheses, values that meet them -/

theorem ends_true {o : Host.Outcome State Fault Refusal} (h : ends o (fun _ => true) = true) : ∃ t, o = .next t :=
  (ends_next h).imp fun _ h => h.1

/-- A busy HFC: DECODE is running on `twoLeaf`. -/
def running (host : List HostAction) : State :=
  { twoLeaf with phase := .stage .decode, busy := true, done := false, host := host }

theorem witness_OnlyOpcodesDecode :
    decodeOpcode 0x81 = .ok .decompress ∧ (∀ i : Instr, (0x02 : Byte) ≠ i.opcode) ∧ ∀ i : Instr, (0xFF : Byte) ≠ i.opcode := by
  refine ⟨by decide, ?_, ?_⟩ <;> intro i <;> cases i <;> decide

theorem witness_StepKeepsTheInvariant :
    ∃ s t : State, Inv s ∧ step s = .next t ∧ t.treeV = true ∧ t.snk ≠ s.snk := by
  have h : ends (step { sourced [0x05] twoLeaf with srcPos := 0, host := [.command 0x60] }) (fun t =>
      t.treeV && decide (t.snk ≠ [])) = true := by decide +kernel
  obtain ⟨t, ht, hp⟩ := ends_next h
  simp only [Bool.and_eq_true, decide_eq_true_eq] at hp
  exact ⟨_, t, twoLeaf_idle_inv [0x05] 0 [.command 0x60], ht, hp.1, hp.2⟩

theorem witness_StepFaultsOnlyOnAHostBreach :
    (∃ s, Inv s ∧ ∃ t, step s = .next t) ∧
    (∃ s, Inv s ∧ s.busy = true ∧ ∃ n rest, s.host = .drainSink n :: rest) ∧
    (∃ s, Inv s ∧ s.busy = true ∧ ∃ bytes rest, s.host = .placeSource bytes :: rest) :=
  ⟨⟨_, twoLeaf_busy_inv [], ends_true (by decide +kernel)⟩,
    ⟨_, twoLeaf_busy_inv [.drainSink 1], rfl, 1, [], rfl⟩, ⟨_, twoLeaf_busy_inv [.placeSource [1]], rfl, [1], [], rfl⟩⟩

theorem witness_StepRunsTheDecodedCommand :
    ∃ (s : State) (w : Byte) (i : Instr) (rest : List HostAction), s.host = .command w :: rest ∧ decode [w] = .ok (i, []) :=
  ⟨{ twoLeaf with host := [.command 0x81, .letRun] }, 0x81, .decompress, [.letRun], rfl, by decide⟩

theorem witness_UnguardedTableWordsAreUnobservable :
    ∃ s u t : State, Inv s ∧ Inv u ∧ SameButStale s u ∧ u ≠ s ∧ step s = .next t := by
  obtain ⟨t, ht⟩ : ∃ t, step { sourced [0x05] twoLeaf with srcPos := 0, host := [.command 0x60] } = .next t :=
    ends_true (by decide +kernel)
  refine ⟨_, { sourced [0x05] twoLeaf with srcPos := 0, host := [.command 0x60], hist := Vector.replicate 256 1 }, t,
    twoLeaf_idle_inv [0x05] 0 [.command 0x60],
    twoLeaf_inv rfl (idle_sequencer rfl rfl rfl rfl rfl rfl) (Memory.ofBytes_wf [0x05]),
    ⟨rfl, fun h => (by cases h), fun _ => rfl, fun _ i _ => ⟨rfl, rfl, rfl, rfl⟩, fun _ => ⟨rfl, rfl⟩⟩, ?_, ht⟩
  intro h
  exact absurd (congrArg (fun s => histAt 0 s) h) (by decide +kernel)

theorem witness_idle : State.reset.busy = false ∧ twoLeaf.busy = false := by decide

theorem witness_IllegalOpcodeIsRecorded :
    ∃ (s u : State) (w : Byte), s.busy = false ∧ u.busy = false ∧ (∀ i : Instr, w ≠ i.opcode) ∧
      s.host = [.command w] ∧ u.host = [.write 0 (w.setWidth 40)] := by
  refine ⟨{ twoLeaf with host := [.command 0xFF] }, { twoLeaf with host := [.write 0 0xFF] }, 0xFF, rfl, rfl, ?_, rfl, rfl⟩
  intro i; cases i <;> decide

theorem witness_WritesWhileBusyAreIgnored :
    (running [.write 0 0x01]).busy = true ∧ (running [.write 3 5]).host = [.write 3 5] ∧
      (running [.command 0x01]).host = [.command 0x01] := by decide

theorem witness_FailedPreconditionChangesOnlyTheRecord :
    State.reset.busy = false ∧ State.reset.histV = false ∧ State.reset.entV = false ∧ State.reset.treeV = false ∧
      State.reset.codeV = false := by decide

theorem witness_EveryCommandEndsIdle : ∃ s, Inv s ∧ s.busy = false ∧ s.codeV = true :=
  ⟨_, twoLeaf_idle_inv [0x61] 0 [], rfl, rfl⟩

theorem witness_ErrInfoHoldsKindAndStage : ∃ s, Inv s ∧ s.err = false := ⟨_, twoLeaf_idle_inv [] 0 [], rfl⟩

theorem witness_BareWriteStartsTheCommandAndStagesFollow :
    (∀ w ∈ [(0x00 : Byte), 0x01, 0x10, 0x11, 0x20, 0x30, 0x40, 0x41, 0x50, 0x60, 0x80, 0x81], ∃ s : State,
      s.host = .write 0 (w.setWidth 40) :: [] ∧ s.busy = false) ∧
    (∃ s u : State, s.busy = true ∧ s.kind = .compress ∧ s.phase = .stage .hist ∧ runStage .hist s = .ok () u) ∧
    (∃ s u : State, s.busy = true ∧ s.kind = .single ∧ s.phase = .stage .rdhdr ∧ runStage .rdhdr s = .stop u) := by
  refine ⟨fun w _ => ⟨{ twoLeaf with host := [.write 0 (w.setWidth 40)] }, rfl, rfl⟩, ?_,
    ⟨{ State.reset with busy := true, phase := .stage .rdhdr }, _, rfl, rfl, rfl, rfl⟩⟩
  have h : (match runStage .hist { sourced aaab State.reset with busy := true, kind := .compress, phase := .stage .hist } with
      | .ok _ _ => true
      | .stop _ => false
      | .fault _ => false) = true := by decide +kernel
  split at h
  · rename_i u hu
    exact ⟨_, u, rfl, rfl, rfl, hu⟩
  · cases h
  · cases h

/-- The third clause: a drain of everything and of nothing, while DECODE runs and appends. -/
theorem witness_HostPlacesTheSourceAndDrainsTheSink :
    (∃ s : State, s.host = .placeSource [1, 2] :: [.letRun] ∧ s.busy = false ∧ s.srcLen.toNat = [(1 : Byte), 2].length) ∧
    (∃ s : State, s.host = .drainSink 3 :: [] ∧ s.busy = true) ∧
    ∀ n ≤ 2, ∃ s t : State, s.busy = true ∧ n ≤ s.snk.length ∧ advanceTimes 1 s = .next t ∧ t.snk = [7, 8, 0x62, 0x61, 0x62] := by
  refine ⟨⟨{ sourced [5, 6] State.reset with host := [.placeSource [1, 2], .letRun] }, by decide⟩,
    ⟨running [.drainSink 3], rfl, rfl⟩, fun n hn => ?_⟩
  have h : ends (advanceTimes 1 (sourced [0x05] { running [] with snk := [7, 8] })) (fun t =>
      decide (t.snk = [7, 8, 0x62, 0x61, 0x62])) = true := by decide +kernel
  obtain ⟨t, ht, hp⟩ := ends_next h
  exact ⟨sourced [0x05] { running [] with snk := [7, 8] }, t, rfl, hn, ht, of_decide_eq_true hp⟩

theorem witness_HostReadReturnsTheRegister :
    ∀ reg ∈ [0, 1, 2, 3, 4, 5, 6, 7, 8, 9], ∃ s : State, s.host = .read reg :: [] ∧ s.busy = false := by
  intro reg _; exact ⟨{ twoLeaf with host := [.read reg] }, rfl, rfl⟩

theorem witness_HostWriteSetsOnlySrcLen :
    ∀ reg ∈ [1, 2, 3, 4, 8, 9], ∃ s : State, s.host = .write reg 7 :: [] ∧ s.busy = false := by
  intro reg _; exact ⟨{ twoLeaf with host := [.write reg 7] }, rfl, rfl⟩

theorem witness_ResetPulseAbandonsTheCommand : ∃ s : State, s.host = .reset :: [.letRun] ∧ s.busy = true :=
  ⟨running [.reset, .letRun], rfl, rfl⟩

/-- The last byte of the longest source, and the end of it. -/
theorem witness_SrcGetReadsOneByte :
    (∃ s : State, s.srcPos < s.srcLen ∧ s.srcPos = 0xFFFFFFFE) ∧
    (∃ s : State, s.srcPos < s.srcLen ∧ s.src.read s.srcPos.toNat = some 0x61) ∧ (∃ s : State, ¬ s.srcPos < s.srcLen) :=
  ⟨⟨{ State.reset with srcLen := 0xFFFFFFFF, srcPos := 0xFFFFFFFE }, by decide, rfl⟩,
    ⟨sourced [0x61] State.reset, by decide +kernel⟩, ⟨State.reset, by decide⟩⟩

theorem witness_FieldsAreLittleEndian :
    (∃ (s : State) (v : Word32), s.srcPos.toNat + 4 ≤ s.srcLen.toNat ∧
      (List.range 4).map (fun j => sourceByte s (s.srcPos.toNat + j)) = le32 v) ∧
    (∃ s : State, s.srcPos ≤ s.srcLen ∧ s.srcLen.toNat = s.srcPos.toNat + 3) ∧
    (∃ s : State, s.srcPos ≤ s.srcLen ∧ s.srcLen = s.srcPos) :=
  ⟨⟨sourced [4, 3, 2, 1] State.reset, 0x01020304, by decide +kernel⟩,
    ⟨{ State.reset with srcLen := 3 }, by decide +kernel⟩, ⟨State.reset, by decide +kernel⟩⟩

theorem witness_CommandsOnlyAppendToTheSink : ∀ i : Instr, ∃ s t : State, s.srcPos ≤ s.srcLen ∧ exec i s = .next t := by
  intro i
  obtain ⟨t, ht⟩ : ∃ t, exec i (running []) = .next t := by cases i <;> exact ⟨_, rfl⟩
  exact ⟨_, t, by decide +kernel, ht⟩

/-- The same with a command that is not ignored and appends. -/
theorem witness_TablesHaveOneWriter : ∃ s t : State, exec .decode s = .next t ∧ t.snk ≠ s.snk := by
  have h : ends (exec .decode (sourced [0x05] twoLeaf)) (fun t => decide (t.snk ≠ [])) = true := by decide +kernel
  obtain ⟨t, ht, hp⟩ := ends_next h
  exact ⟨_, t, ht, of_decide_eq_true hp⟩

theorem witness_HistCountsTheSource : ∃ s : State, s.busy = false ∧ s.srcLen ≠ 0 :=
  ⟨sourced aaab State.reset, by decide +kernel⟩

theorem witness_EmptySourceIsRejected : State.reset.busy = false ∧ State.reset.srcLen = 0 := by decide

/-- One byte counted. -/
def counted : State :=
  { State.reset with histV := true, hist := (Vector.replicate 256 0).set 0xFF 1, totalIn := 1 }

theorem witness_AlphaListsTheAlphabet : counted.busy = false ∧ counted.histV = true ∧ State.reset.histV = false := by
  decide

theorem witness_AlphaMeetsTheHeaderInvariants : ∃ s, Inv s ∧ s.busy = false ∧ s.histV = true := by
  refine ⟨counted, ⟨idle_sequencer rfl rfl rfl rfl rfl rfl, by decide, fun _ => ?_, by decide, ?_, ?_, ?_, ?_, by decide,
    rfl⟩, rfl, rfl⟩
  · decide +kernel
  · intro h; cases h
  · intro h; cases h
  · refine ⟨by decide, fun n hn => ?_⟩
    have h : heapList counted = [] := rfl
    rw [h] at hn; cases hn
  · intro i _; exact BitVec.getLsbD_zero

/-- A heap of `n` references to node 0. -/
def flatHeap (n : Nat) : State := { State.reset with heapSize := BitVec.ofNat 9 n }

theorem flatHeap_ok (n : Nat) (h : n ≤ 256) : HeapOk (flatHeap n) := by
  have hs : (flatHeap n).heapSize.toNat = n := by
    show (BitVec.ofNat 9 n).toNat = n
    rw [BitVec.toNat_ofNat]; omega
  have hz : ∀ m ∈ heapList (flatHeap n), m = 0 := fun m hm => by
    have h : m ∈ (Vector.replicate 256 (0 : Ref)).toList := List.mem_of_mem_take hm
    rw [Vector.toList_replicate] at h
    exact List.eq_of_mem_replicate h
  refine ⟨by rw [hs]; exact h, fun m hm => by rw [hz m hm]; decide, fun i hi _ => ?_⟩
  rw [hz _ (List.getElem_mem hi), hz _ (List.getElem_mem (by omega))]

/-- Four nodes with the keys 1, 3, 2, 9. -/
def steepHeap : State :=
  { State.reset with
    nodeFreq := ((((Vector.replicate 511 0).set 0 1).set 1 3).set 2 2).set 3 9
    heap := (((Vector.replicate 256 0).set 1 1).set 2 2).set 3 3
    heapSize := 4
    nodeCnt := 4 }

theorem steepHeap_ok : HeapOk steepHeap where
  size := by decide
  refs := by decide +kernel
  order i h h0 := by
    have h4 : i < 4 := h
    obtain rfl | rfl | rfl : i = 1 ∨ i = 2 ∨ i = 3 := by omega
    all_goals revert h; decide +kernel

theorem witness_InsertKeepsTheHeap :
    (∃ s, HeapOk s ∧ s.heapSize.toNat = 0 ∧ (510 : Ref).toNat < 511) ∧
    (∃ s, HeapOk s ∧ s.heapSize.toNat = 255 ∧ ∃ m n : Ref, (heapList s)[254]? = some m ∧ (heapList s)[(255 - 1) / 2]? = some m ∧
      keyOf s m = keyOf s n) :=
  ⟨⟨_, flatHeap_ok 0 (by decide), by decide⟩, ⟨_, flatHeap_ok 255 (by decide), by decide, 0, 510, by decide +kernel⟩⟩

theorem witness_ExtractReturnsTheMinimum :
    (∃ s, HeapOk s ∧ s.heapSize.toNat = 1) ∧
    (∃ s, HeapOk s ∧ s.heapSize.toNat = 256 ∧ ∃ m last l r : Ref, (heapList s)[254]? = some m ∧
      (heapList s).getLast? = some last ∧ keyOf s last = keyOf s m ∧ (heapList s)[2 * 126 + 1]? = some l ∧
      (heapList s)[2 * 126 + 2]? = some r ∧ keyOf s l = keyOf s r) ∧
    (∃ s, HeapOk s ∧ ∃ l r : Ref, 2 * 0 + 3 < (heapList s).length ∧ (heapList s)[2 * 0 + 1]? = some l ∧
      (heapList s)[2 * 0 + 2]? = some r ∧ keyOf s r < keyOf s l) :=
  ⟨⟨_, flatHeap_ok 1 (by decide), by decide⟩,
    ⟨_, flatHeap_ok 256 (by decide), by decide, 0, 0, 0, 0, by decide +kernel⟩, ⟨_, steepHeap_ok, 1, 2, by decide +kernel⟩⟩

theorem witness_QueueErrorsAreInvariantViolations :
    (flatHeap 256).heapSize = 256 ∧ (flatHeap 0).heapSize = 0 := by decide

/-- An entry list of 1 and one of 256 entries. -/
theorem witness_BuildMakesTheTree :
    (∃ s : State, s.busy = false ∧ s.entV = true ∧ s.k.toNat = 1) ∧
    (∃ s : State, s.busy = false ∧ s.entV = true ∧ s.k.toNat = 256) :=
  ⟨⟨{ State.reset with entV := true, k := 1 }, by decide⟩, ⟨{ State.reset with entV := true, k := 256 }, by decide⟩⟩

theorem witness_BuildMergesMinimumPairs :
    (∃ s, HeapOk s ∧ 2 ≤ s.heapSize.toNat ∧ s.nodeCnt.toNat < 511) ∧ ∃ (s t : State) (i : Nat) (l r n : Ref), s.busy = false ∧ s.entV = true ∧ 1 ≤ s.k.toNat ∧ s.k.toNat ≤ 256 ∧
      exec .build s = .next t ∧ t.k.toNat ≤ i ∧ i < t.nodeCnt.toNat ∧ t.nodeLeft[i]? = some l ∧
      t.nodeRight[i]? = some r ∧ n.toNat < i ∧
      ∀ j, t.k.toNat ≤ j → j ≤ i → t.nodeLeft[j]? ≠ some n ∧ t.nodeRight[j]? ≠ some n := by
  have h : ends (exec .build (listed [(1, 1), (2, 2), (3, 3)] State.reset)) (fun t =>
      decide (t.k = 3 ∧ t.nodeCnt = 5 ∧ t.nodeLeft[3]? = some 0 ∧ t.nodeRight[3]? = some 1)) = true := by
    decide +kernel
  obtain ⟨t, ht, hp⟩ := ends_next h
  obtain ⟨hk, hc, hl, hr⟩ := of_decide_eq_true hp
  refine ⟨⟨_, steepHeap_ok, by decide⟩, _, t, 3, 0, 1, 2, by decide +kernel, by decide +kernel, by decide +kernel, by decide +kernel, ht,
    by rw [hk]; decide, by rw [hc]; decide, hl, hr, by decide, fun j h1 h2 => ?_⟩
  rw [hk] at h1
  have h1 : 3 ≤ j := h1
  obtain rfl : j = 3 := by omega
  rw [hl, hr]; decide

theorem witness_RootFrequencyIsTheTotal : ∃ s, Inv s ∧ s.treeV = true := ⟨_, twoLeaf_idle_inv [] 0 [], rfl⟩

theorem witness_OneEntryGivesASingleLeaf : ∃ s : State, s.busy = false ∧ s.entV = true ∧ s.k = 1 :=
  ⟨oneLeaf, by decide⟩

theorem witness_BuildDependsOnTheEntriesOnly :
    ∃ s u : State, s.busy = false ∧ u.busy = false ∧ s.entV = true ∧ u.entV = true ∧ 1 ≤ s.k.toNat ∧ s.k.toNat ≤ 256 ∧
      u.k = s.k ∧ entryList u = entryList s ∧ u.nodeLeft ≠ s.nodeLeft :=
  ⟨twoLeaf, { twoLeaf with nodeLeft := Vector.replicate 511 0 }, rfl, rfl, rfl, rfl, by decide, by decide, rfl, rfl,
    fun h => absurd (congrArg (·[0]) h) (by decide +kernel)⟩

theorem witness_CodegenFillsTheCodeTable :
    (twoLeaf.busy = false ∧ twoLeaf.treeV = true ∧ TreeOk twoLeaf ∧ leafNode twoLeaf twoLeaf.root = false) ∧
    (oneLeaf.busy = false ∧ oneLeaf.treeV = true ∧ TreeOk oneLeaf ∧ leafNode oneLeaf oneLeaf.root = true) :=
  ⟨⟨rfl, rfl, twoLeaf_tree, by decide +kernel⟩, ⟨rfl, rfl, oneLeaf_tree, by decide +kernel⟩⟩

theorem witness_CodesArePrefixFree :
    ∃ s, Inv s ∧ s.codeV = true ∧ 2 ≤ s.k.toNat ∧ codeOf 0x61 s ≠ [] ∧ codeOf 0x62 s ≠ [] :=
  ⟨_, twoLeaf_idle_inv [] 0 [], rfl, by decide, by decide +kernel, by decide +kernel⟩

theorem witness_WrhdrAppendsTheHeader :
    (State.reset.busy = false ∧ State.reset.entV = false) ∧
    (∃ s : State, s.busy = false ∧ s.entV = true ∧ s.k.toNat = 256) :=
  ⟨by decide, ⟨{ State.reset with entV := true, k := 256 }, by decide⟩⟩

theorem witness_PutBitFillsTheByte :
    (∃ s : State, s.bitCnt = 7 ∧ s.bitBuf = 0x41) ∧ (∃ s : State, s.bitCnt ≠ 7 ∧ s.bitCnt.toNat = 6) :=
  ⟨⟨{ State.reset with bitCnt := 7, bitBuf := 0x41 }, rfl, rfl⟩, ⟨{ State.reset with bitCnt := 6 }, by decide⟩⟩

theorem witness_FlushWritesThePartialByte : (∃ s : State, s.bitCnt ≠ 0) ∧ (∃ s : State, s.bitCnt = 0) :=
  ⟨⟨{ State.reset with bitCnt := 7 }, by decide⟩, ⟨State.reset, rfl⟩⟩

theorem witness_EveryLeafHasOnePath : TreeOk twoLeaf ∧ TreeOk oneLeaf ∧ follow twoLeaf twoLeaf.root [true] = some 1 :=
  ⟨twoLeaf_tree, oneLeaf_tree, by decide +kernel⟩

theorem witness_PackAppendsTheCodes :
    ∃ s : State, s.busy = false ∧ s.codeV = true ∧ sourceBytes s ≠ [] ∧ ∀ b ∈ sourceBytes s, codeOf b s ≠ [] :=
  ⟨sourced [0x61, 0x62, 0x61] twoLeaf, by decide +kernel⟩

theorem witness_PackStopsAtAByteWithoutCode :
    ∃ (s : State) (done : List Byte) (bad : Byte) (rest : List Byte), s.busy = false ∧ s.codeV = true ∧ done ≠ [] ∧
      sourceBytes s = done ++ bad :: rest ∧ (∀ b ∈ done, codeOf b s ≠ []) ∧ codeOf bad s = [] :=
  ⟨sourced [0x61, 0x62, 0x63, 0x61] twoLeaf, [0x61, 0x62], 0x63, [0x61], by decide +kernel⟩

/-- Headers of 1 and of 256 entries. -/
theorem witness_RdhdrReadsTheHeader :
    ∀ n, n = 1 ∨ n = 256 → ∃ (s : State) (es : List (Byte × Word32)), s.busy = false ∧ es.length = n ∧
      headerBytes es <+: sourceBytes s := by
  intro n hn
  let es : List (Byte × Word32) := List.replicate n (0x61, 1)
  refine ⟨sourced (headerBytes es) State.reset, es, rfl, List.length_replicate .., ?_⟩
  rw [sourceBytes_placed (bytes := headerBytes es) rfl ?_]
  · show (BitVec.ofNat 32 (headerBytes es).length).toNat = _
    rw [headerBytes_length, List.length_replicate, BitVec.toNat_ofNat]; omega

theorem witness_RdhdrRejectsCorruptHeaders :
    (∃ s : State, s.busy = false ∧ s.srcLen.toNat = 3) ∧
    (∃ s : State, s.busy = false ∧ le32 0 <+: sourceBytes s) ∧
    (∃ s : State, s.busy = false ∧ le32 257 <+: sourceBytes s) ∧
    (∃ s : State, s.busy = false ∧ le32 256 <+: sourceBytes s ∧ s.srcLen.toNat < 4 + 5 * 256) ∧
    (∃ s : State, s.busy = false ∧ le32 1 <+: sourceBytes s ∧ s.srcLen.toNat = 4 + 5 * 1 - 1) :=
  ⟨⟨sourced [1, 0, 0] State.reset, by decide +kernel⟩, ⟨sourced [0, 0, 0, 0] State.reset, by decide +kernel⟩,
    ⟨sourced [1, 1, 0, 0] State.reset, by decide +kernel⟩, ⟨sourced [0, 1, 0, 0] State.reset, by decide +kernel⟩,
    ⟨sourced [1, 0, 0, 0, 0x7A, 9, 0, 0] State.reset, by decide +kernel⟩⟩

/-- The stream bits 1, 0, 1 and five more. -/
theorem witness_DecodeEmitsTheSymbols :
    ∃ (s : State) (paths : List (List Bool)) (syms : List Byte) (rest : List Bool), s.busy = false ∧ s.entV = true ∧
      s.treeV = true ∧ TreeOk s ∧ leafNode s s.root = false ∧ List.Forall₂ (LeafPath s) paths syms ∧
      syms.length = freqSum (entryList s) ∧ streamBits s = paths.flatten ++ rest := by
  have same : SameTree twoLeaf (sourced [0xF5] twoLeaf) := ⟨rfl, rfl, rfl, rfl, rfl, rfl, rfl, rfl, rfl⟩
  refine ⟨sourced [0xF5] twoLeaf, [[true], [false], [true]], [0x62, 0x61, 0x62], [false, true, true, true, true], rfl, rfl,
    rfl, twoLeaf_tree.congr same, by decide +kernel, ?_, by decide +kernel, by decide +kernel⟩
  refine .cons ?_ (.cons ?_ (.cons ?_ .nil)) <;> rw [same.leafPath, twoLeaf_path] <;> decide

/-- A stream of no byte at all. -/
theorem witness_DecodeRunsOutOfInput :
    ∃ (s : State) (paths : List (List Bool)) (syms : List Byte) (part : List Bool) (n : Ref), s.busy = false ∧
      s.entV = true ∧ s.treeV = true ∧ TreeOk s ∧ leafNode s s.root = false ∧ List.Forall₂ (LeafPath s) paths syms ∧
      syms.length < freqSum (entryList s) ∧ streamBits s = paths.flatten ++ part ∧ follow s s.root part = some n ∧
      leafNode s n = false :=
  ⟨twoLeaf, [], [], [], 2, rfl, rfl, rfl, twoLeaf_tree, by decide +kernel, .nil, by decide +kernel, by decide +kernel, rfl,
    by decide +kernel⟩

/-- The one-symbol streams: long enough, with a 1 in the last examined place, too short. -/
theorem witness_DecodeOfASingleLeaf :
    (∀ bytes, TreeOk (sourced bytes oneLeaf)) ∧
    (∃ rest, streamBits (sourced [0, 0] oneLeaf) = List.replicate 9 false ++ rest) ∧
    (∃ rest, streamBits (sourced [0, 1] oneLeaf) = List.replicate 8 false ++ true :: rest) ∧
    streamBits (sourced [0] oneLeaf) = List.replicate 8 false ∧ freqSum (entryList oneLeaf) = 9 ∧
    leafNode oneLeaf oneLeaf.root = true ∧ oneLeaf.nodeSym[oneLeaf.root.toNat]? = some 0x7A ∧ oneLeaf.busy = false ∧
    oneLeaf.entV = true ∧ oneLeaf.treeV = true :=
  ⟨fun _ => TreeOk.congr (s := oneLeaf) ⟨rfl, rfl, rfl, rfl, rfl, rfl, rfl, rfl, rfl⟩ oneLeaf_tree,
    ⟨List.replicate 7 false, by decide +kernel⟩, ⟨List.replicate 7 false, by decide +kernel⟩, by decide +kernel⟩

theorem witness_DecodeOfNoSymbolsReadsNothing :
    ∃ s : State, s.busy = false ∧ s.entV = true ∧ s.treeV = true ∧ s.k.toNat ≤ 256 ∧ freqSum (entryList s) = 0 :=
  ⟨{ oneLeaf with entFreq := Vector.replicate 256 0 }, by decide +kernel⟩

/-- The sum of the frequencies is 3, so three stream bits are enough. -/
theorem witness_DecompressAcceptsEveryLongStream :
    ∃ (s : State) (es : List (Byte × Word32)), s.busy = false ∧ 2 ≤ es.length ∧ es.length ≤ 256 ∧
      headerBytes es <+: sourceBytes s ∧
      (es.length - 1) * freqSum es ≤ 8 * (s.srcLen.toNat - (4 + 5 * es.length)) :=
  ⟨sourced artifact State.reset, [(0x61, 3), (0x62, 1)], by decide +kernel⟩

/-! ### The evaluations that take longest -/

/-- V-AL-3: byte values 0 and 255, the ends of the scan. -/
theorem test_alpha :
    ends (exec .alpha { State.reset with
        histV := true, hist := ((Vector.replicate 256 0).set 0 2).set 255 1, totalIn := 3 }) (fun t =>
      sees 0x0302 0x00 t && decide (entryList t = [(0x00, 2), (0xFF, 1)])) = true := by decide +kernel

/-- V-SEQ-7. -/
theorem test_compress :
    ends (exec .compress (sourced aaab State.reset)) (fun t =>
      sees 0x0F02 0x00 t && decide (t.snk = artifact)) = true := by decide +kernel

theorem witness_RoundTripRestoresTheSource :
    ∃ s t u : State, s.busy = false ∧ s.srcLen ≠ 0 ∧ exec .compress s = .next t ∧ t.snk = s.snk ++ artifact ∧
      u.busy = false ∧ artifact.length ≤ u.srcLen.toNat ∧
      (∀ i, i < 4 + 5 * t.k.toNat → artifact[i]? = some (sourceByte u i)) ∧
      (∀ n b, n < (((sourceBytes s).flatMap fun b => codeOf b t).length) →
        artifact[4 + 5 * t.k.toNat + n / 8]? = some b →
        (sourceByte u (4 + 5 * t.k.toNat + n / 8)).getLsbD (n % 8) = b.getLsbD (n % 8)) := by
  have h : ends (exec .compress (sourced aaab State.reset)) (fun t =>
      decide (t.snk = artifact ∧ t.k = 2 ∧
        ((sourceBytes (sourced aaab State.reset)).flatMap fun b => codeOf b t).length = 4)) = true := by decide +kernel
  obtain ⟨t, ht, hp⟩ := ends_next h
  obtain ⟨hs, hk, hb⟩ := of_decide_eq_true hp
  have hk' : t.k.toNat = 2 := by rw [hk]; rfl
  refine ⟨_, t, sourced artifact State.reset, rfl, by decide +kernel, ht, hs, rfl, by decide +kernel, ?_, ?_⟩
  · rw [hk']; decide +kernel
  · rw [hk', hb]
    intro n b hn hb'
    have e : 4 + 5 * 2 + n / 8 = 14 := by omega
    rw [e] at hb' ⊢
    obtain rfl : b = 7 := by simpa [artifact] using hb'.symm
    have : sourceByte (sourced artifact State.reset) 14 = 7 := by decide +kernel
    rw [this]

end Sys2Proof.Tests
end

/-! Proofs about the scope of the model (00_scope.md): how many stages a command has, that no step faults but on the
host's breach of 20_memory.md R73, and that a command taken as one step ends as its stages do one by one. -/

namespace Sys2Proof.Machine

/-! ### The stages a command still has (40_sequencer.md R122) -/

/-- PHASE comes to IDLE when Next(MACRO, ·) is applied to it at most `n` times. -/
def reachesIdle (kind : CommandKind) : Nat → Phase → Bool
  | _, .idle => true
  | 0, .stage _ => false
  | n + 1, .stage st => (nextStage kind st).any (reachesIdle kind n)

theorem reachesIdle_stage {kind : CommandKind} {n : Nat} {st : Stage} (h : reachesIdle kind (n + 1) (.stage st) = true) :
    ∃ p, nextStage kind st = some p ∧ reachesIdle kind n p = true :=
  (Option.any_eq_true ..).mp h

/-- The longest command has six stages (40_sequencer.md R127). -/
theorem reachesIdle_six {kind : CommandKind} {st : Stage} (h : (nextStage kind st).isSome = true) :
    reachesIdle kind 6 (.stage st) = true := by
  revert h; cases kind <;> cases st <;> decide

/-- A running command has at most six stages to go, and an idle HFC none. -/
theorem SequencerOk.phase_reachesIdle {s : State} (h : SequencerOk s) : reachesIdle s.kind 6 s.phase = true := by
  cases hb : s.busy with
  | false => rw [(h.idle hb).1]; rfl
  | true =>
    obtain ⟨-, -, st, hp, hn, -⟩ := h.running hb
    rw [hp]; exact reachesIdle_six hn

/-! ### One turn, the loop, and one stage a step -/

/-- Where Next is defined, a turn is the stage and the move of PHASE. -/
theorem stageTurn_eq {st : Stage} {s : State} {p : Phase} (hn : nextStage s.kind st = some p) :
    stageTurn st s = (runStage st s).bind fun _ t => .ok () { t with phase := p } := by
  unfold stageTurn
  cases hr : runStage st s with
  | ok a t =>
    obtain ⟨-, hk, -⟩ := runStage_keeps hr
    simp only [Res.bind_ok, hk, hn]
  | stop t => rfl
  | fault f => rfl

/-- A stage that raises ends the command. -/
theorem runStage_stop_busy {st : Stage} {s t : State} (h : runStage st s = .stop t) : t.busy = false := by
  have hends : (runStage st s).Holds (fun _ _ => True) (fun t => t.busy = false) (fun _ => True) := by
    unfold runStage
    split
    · exact Res.Holds.bind (Res.Holds.mono (body_ends st (st.cascade s)) (fun _ _ _ => trivial)
        (fun _ ⟨_, _, _, _, he⟩ => by rw [he, errorEntry_busy]) (fun _ _ => trivial))
    · rfl
  rw [h] at hends
  exact hends

theorem commandLoop_idle {s : State} (n : Nat) (hp : s.phase = .idle) : commandLoop n s = .ok () (complete s) := by
  cases n <;> simp only [commandLoop, hp]

theorem commandLoop_stage {s : State} {st : Stage} (n : Nat) (hp : s.phase = .stage st) :
    commandLoop (n + 1) s = (stageTurn st s).bind fun _ t => commandLoop n t := by
  simp only [commandLoop, hp]

/-- An idle HFC waits. -/
theorem advance_idle {s : State} (hb : s.busy = false) : advance s = .next s := by
  simp [advance, hb]

/-- A running command goes on by one turn, and by Complete() where that was the last. -/
theorem advance_stage {s : State} {st : Stage} {p : Phase} (hb : s.busy = true) (hp : s.phase = .stage st)
    (hn : nextStage s.kind st = some p) :
    advance s = ((runStage st s).bind fun _ t =>
      .ok () (if p = .idle then complete t else { t with phase := p })).toOutcome := by
  unfold advance stageStep
  rw [if_pos hb, hp]
  dsimp only
  rw [stageTurn_eq hn, Res.bind_assoc]
  cases p <;> rfl

theorem advanceTimes_idle {s : State} (n : Nat) (hb : s.busy = false) : advanceTimes n s = .next s := by
  induction n with
  | zero => rfl
  | succ n ih => simp only [advanceTimes, advance_idle hb, ih]

/-- The loop of Accept, one turn a step: while turns enough are left, both granularities end alike. -/
theorem advanceTimes_eq_commandLoop {n : Nat} {s : State} {st : Stage} (hb : s.busy = true) (hp : s.phase = .stage st)
    (hr : reachesIdle s.kind n (.stage st) = true) : advanceTimes n s = (commandLoop n s).toOutcome := by
  induction n generalizing s st with
  | zero => cases hr
  | succ n ih =>
    obtain ⟨p, hn, hrest⟩ := reachesIdle_stage hr
    unfold advanceTimes
    rw [advance_stage hb hp hn, commandLoop_stage n hp, stageTurn_eq hn]
    cases hrun : runStage st s with
    | ok a t =>
      obtain ⟨-, hk, hb'⟩ := runStage_keeps hrun
      cases p with
      | idle =>
        show advanceTimes n (complete t) = (commandLoop n { t with phase := .idle }).toOutcome
        rw [advanceTimes_idle n rfl, commandLoop_idle n rfl]; rfl
      | stage next => exact ih (s := { t with phase := .stage next }) (hb'.trans hb) rfl (hk ▸ hrest)
    | stop t => exact advanceTimes_idle n (runStage_stop_busy hrun)
    | fault f => rfl

/-! ### What a command is -/

/-- A command has its whole effect at the write (NOP, CLEAR), or it runs stages after it. -/
theorem command_cases (i : Instr) :
    ((∀ s, exec i s = if s.busy then .next s else .next (startCommand i s)) ∧
      ∀ s, s.busy = false → (startCommand i s).busy = false) ∨
    ∃ kind first, reachesIdle kind 6 (.stage first) = true ∧ (∀ s, startCommand i s = accept kind first s) ∧
      ∀ s, exec i s = runCommand kind first s := by
  cases i with
  | nop => exact .inl ⟨fun _ => rfl, fun _ hb => hb⟩
  | clear => exact .inl ⟨fun _ => rfl, fun _ _ => rfl⟩
  | hist | alpha | build | codegen | wrhdr | pack | rdhdr | decode | compress | decompress =>
    exact .inr ⟨_, _, by decide, fun _ => rfl, fun _ => rfl⟩

theorem decodeOpcode_opcode (i : Instr) : decodeOpcode i.opcode = .ok i := by
  cases i <;> rfl

/-- A bare write of a command's opcode to an idle HFC starts the command. -/
theorem hostWrite_opcode (i : Instr) {s : State} (hb : s.busy = false) :
    hostWrite 0 (i.opcode.setWidth 40) s = startCommand i s := by
  have hw : (i.opcode.setWidth 40).setWidth 8 = i.opcode := BitVec.setWidth_setWidth_of_le _ (by decide)
  simp [hostWrite, writeCmd, hb, hw, decodeOpcode_opcode]

/-- Settles O17, by the cases of a command: NOP and CLEAR are over at the write, the others run the same turns. -/
theorem commandIsItsStageSteps : Obligations.CommandIsItsStageSteps := by
  intro i s hb
  rw [hostWrite_opcode i hb]
  obtain ⟨hexec, hidle⟩ | ⟨kind, first, hr, hstart, hexec⟩ := command_cases i
  · rw [hexec, advanceTimes_idle 6 (hidle s hb), hb]; rfl
  · rw [hstart, hexec, advanceTimes_eq_commandLoop (st := first) rfl rfl hr, runCommand, hb]; rfl

/-! ### No command faults (20_memory.md R67, 00_scope.md R6) -/

/-- While turns enough are left, the loop of Accept does not fault and keeps the tables in order. -/
theorem commandLoop_tables {n : Nat} {s : State} (h : Tables s) (hr : reachesIdle s.kind n s.phase = true) :
    (commandLoop n s).Holds (fun _ t => Tables t) Tables (fun _ => False) := by
  induction n generalizing s with
  | zero =>
    cases hp : s.phase with
    | idle => rw [commandLoop_idle 0 hp]; exact h.congr rfl
    | stage st => rw [hp] at hr; cases hr
  | succ n ih =>
    cases hp : s.phase with
    | idle => rw [commandLoop_idle _ hp]; exact h.congr rfl
    | stage st =>
      rw [hp] at hr
      obtain ⟨p, hn, hrest⟩ := reachesIdle_stage hr
      have hrun := runStage_tables st h
      rw [commandLoop_stage n hp, stageTurn_eq hn]
      cases he : runStage st s with
      | ok a t =>
        obtain ⟨-, hk, -⟩ := runStage_keeps he
        rw [he] at hrun
        exact ih (s := { t with phase := p }) (hrun.congr rfl) (hk ▸ hrest)
      | stop t => rw [he] at hrun; exact hrun
      | fault f => rw [he] at hrun; exact hrun.elim

theorem exec_next (i : Instr) {s : State} (h : Tables s) : ∃ t, exec i s = .next t := by
  obtain ⟨hexec, -⟩ | ⟨kind, first, hr, -, hexec⟩ := command_cases i
  · rw [hexec]; split <;> exact ⟨_, rfl⟩
  · rw [hexec, runCommand]
    split
    · exact ⟨s, rfl⟩
    · obtain ⟨t, ht, -⟩ := (commandLoop_tables (n := 6) (s := accept kind first s) (h.congr rfl) hr).next
      exact ⟨t, ht⟩

theorem hostCommand_next (w : Byte) {s : State} (h : Tables s) : ∃ t, hostCommand w s = .next t := by
  unfold hostCommand
  split
  · exact exec_next _ h
  · split <;> exact ⟨_, rfl⟩

theorem advance_next {s : State} (h : Tables s) (hr : reachesIdle s.kind 6 s.phase = true) :
    ∃ t, advance s = .next t := by
  cases hb : s.busy with
  | false => exact ⟨s, advance_idle hb⟩
  | true =>
    cases hp : s.phase with
    | idle => exact ⟨complete s, by simp [advance, stageStep, hb, hp]⟩
    | stage st =>
      rw [hp] at hr
      obtain ⟨p, hn, -⟩ := reachesIdle_stage hr
      have hrun := runStage_tables st h
      rw [advance_stage hb hp hn]
      cases he : runStage st s with
      | ok a t => exact ⟨_, rfl⟩
      | stop t => exact ⟨t, rfl⟩
      | fault f => rw [he] at hrun; exact hrun.elim

/-- A host action answers a next state, unless it replaces SRC while BUSY is 1. -/
theorem perform_cases (a : HostAction) {s : State} (h : Tables s) (hr : reachesIdle s.kind 6 s.phase = true) :
    (∃ t, perform a s = .next t) ∨
    (s.busy = true ∧ ∃ bytes, a = .placeSource bytes ∧ perform a s = .fault .sourceReplacedWhileBusy) := by
  cases a with
  | command w => exact .inl (hostCommand_next w h)
  | letRun => exact .inl (advance_next h hr)
  | write | read | drainSink | reset => exact .inl ⟨_, rfl⟩
  | placeSource bytes =>
    cases hb : s.busy with
    | true => exact .inr ⟨rfl, bytes, rfl, if_pos hb⟩
    | false => exact .inl ⟨_, if_neg (by simp [hb])⟩

/-- Settles O7, by the host's next action: no stage faults from tables in order, and a command has at most six. -/
theorem stepFaultsOnlyOnAHostBreach : Obligations.StepFaultsOnlyOnAHostBreach := by
  intro s hinv
  obtain ⟨hseq, htab⟩ := (inv_iff s).mp hinv
  have hr := hseq.phase_reachesIdle
  unfold step hostTurn
  split
  · exact .inl (advance_next htab hr)
  · next a rest hhost =>
    obtain hnext | ⟨hb, bytes, rfl, hfault⟩ := perform_cases a (s := { s with host := rest }) (htab.congr rfl) hr
    · exact .inl hnext
    · exact .inr ⟨hb, bytes, rest, hhost, hfault⟩

end Sys2Proof.Machine

/-! Proofs about the state (10_state.md): the invariant and what keeps it, how commands end, what they may change, and the
host's view of the registers. -/

namespace Sys2Proof.Machine

/-! ### How one stage ends (40_sequencer.md R121) -/

/-- The errors a body may raise are those 60_exceptions.md R225 records with its stage. -/
theorem Stage.Raises.allowed {st : Stage} {e : ErrKind} (h : st.Raises e) : errorAllowed e (.stage st) = true := by
  cases st with
  | hist | build | pack | rdhdr => cases h; rfl
  | alpha | codegen | wrhdr => exact h.elim
  | decode => rcases h with rfl | rfl <;> rfl

/-- HIST and RDHDR have no precondition; for every other stage its failure is recorded as InvariantViolation. -/
theorem Stage.pre_false_allowed {st : Stage} {s : State} (h : st.pre s = false) :
    errorAllowed .invariantViolation (.stage st) = true := by
  cases st with
  | hist | rdhdr => cases h
  | alpha | build | codegen | wrhdr | pack | decode => rfl

/-- A stage completes with its body's changes and its flag set, or ends the command with an error that R225 records with
it, or the model stops. -/
theorem runStage_cases (st : Stage) (s : State) :
    (∃ u, runStage st s = .ok () (st.produce u) ∧ st.Change (st.cascade s) u) ∨
    (∃ e w, runStage st s = .stop (errorEntry e w) ∧ errorAllowed e (.stage st) = true ∧ w.phase = s.phase) ∨
    ∃ f, runStage st s = .fault f := by
  have hbody := body_ends st (st.cascade s)
  unfold runStage
  cases hpre : st.pre s with
  | false => exact .inr (.inl ⟨.invariantViolation, s, rfl, Stage.pre_false_allowed hpre, rfl⟩)
  | true =>
    rw [if_pos rfl]
    cases hr : st.body (st.cascade s) with
    | ok a u => rw [hr] at hbody; exact .inl ⟨u, rfl, hbody⟩
    | stop t =>
      rw [hr] at hbody
      obtain ⟨e, w, he, hw, rfl⟩ := hbody
      exact .inr (.inl ⟨e, w, rfl, he.allowed, hw.keeps.1.trans (cascade_phase st s)⟩)
    | fault f => exact .inr (.inr ⟨f, rfl⟩)

/-- The status flags and the error record are the sequencer's: the flags of a stage leave them. -/
theorem cascade_record (st : Stage) (s : State) :
    (st.cascade s).done = s.done ∧ (st.cascade s).err = s.err ∧ (st.cascade s).errKind = s.errKind ∧
      (st.cascade s).errStage = s.errStage := by
  cases st <;> exact ⟨rfl, rfl, rfl, rfl⟩

theorem produce_record (st : Stage) (s : State) :
    (st.produce s).done = s.done ∧ (st.produce s).err = s.err ∧ (st.produce s).errKind = s.errKind ∧
      (st.produce s).errStage = s.errStage := by
  cases st <;> exact ⟨rfl, rfl, rfl, rfl⟩

/-- What a stage that completes leaves of the sequencer, and the valid flags it sets. -/
structure StageDone (st : Stage) (s t : State) : Prop where
  busy : t.busy = s.busy
  kind : t.kind = s.kind
  done : t.done = s.done
  err : t.err = s.err
  errKind : t.errKind = s.errKind
  errStage : t.errStage = s.errStage
  histV : t.histV = (st.produce (st.cascade s)).histV
  entV : t.entV = (st.produce (st.cascade s)).entV
  treeV : t.treeV = (st.produce (st.cascade s)).treeV
  codeV : t.codeV = (st.produce (st.cascade s)).codeV

theorem Stage.Change.stageDone {st : Stage} {s u : State} (h : st.Change (st.cascade s) u) :
    StageDone st s (st.produce u) := by
  obtain ⟨-, hk, hb, hd, he, hek, hes, -, -, -, -, -, -, hh, hen, ht, hc⟩ := h.keeps
  obtain ⟨cd, ce, cek, ces⟩ := cascade_record st s
  obtain ⟨pd, pe, pek, pes⟩ := produce_record st u
  have hflags : (st.produce u).histV = (st.produce (st.cascade s)).histV ∧
      (st.produce u).entV = (st.produce (st.cascade s)).entV ∧
      (st.produce u).treeV = (st.produce (st.cascade s)).treeV ∧
      (st.produce u).codeV = (st.produce (st.cascade s)).codeV := by
    cases st <;> simp [Stage.produce, hh, hen, ht, hc]
  obtain ⟨fh, fe, ft, fc⟩ := hflags
  exact ⟨by simp [hb], by simp [hk], pd.trans (hd.trans cd), pe.trans (he.trans ce), pek.trans (hek.trans cek),
    pes.trans (hes.trans ces), fh, fe, ft, fc⟩

/-- Inside a command of several stages a completed stage leaves what the next one needs (60_exceptions.md R231). -/
theorem StageDone.pre_next {st next : Stage} {s t : State} (hd : StageDone st s t)
    (hchain : s.treeV = true → s.entV = true) (hpre : s.kind ≠ .single → st.pre s = true)
    (hcode : s.kind = .compress → st = .wrhdr → s.codeV = true) (hn : nextStage s.kind st = some (.stage next)) :
    (nextStage s.kind next).isSome = true ∧ next.pre t = true ∧
      (s.kind = .compress → next = .wrhdr → t.codeV = true) := by
  obtain ⟨-, -, -, -, -, -, hh, hen, ht, hc⟩ := hd
  cases hk : s.kind with
  | single => rw [hk] at hn; cases hn
  | compress =>
    rw [hk] at hn hpre hcode
    cases st with
    | hist => cases hn; exact ⟨rfl, hh, nofun⟩
    | alpha => cases hn; exact ⟨rfl, hen, nofun⟩
    | build => cases hn; exact ⟨rfl, ht, nofun⟩
    | codegen => cases hn; exact ⟨rfl, hen.trans (hchain (hpre nofun)), fun _ _ => hc⟩
    | wrhdr => cases hn; exact ⟨rfl, hc.trans (hcode rfl rfl), nofun⟩
    | pack | rdhdr | decode => cases hn
  | decompress =>
    rw [hk] at hn hpre
    cases st with
    | rdhdr => cases hn; exact ⟨rfl, hen, nofun⟩
    | build => cases hn; exact ⟨rfl, Bool.and_eq_true_iff.mpr ⟨hen.trans (hpre nofun), ht⟩, nofun⟩
    | hist | alpha | codegen | wrhdr | pack | decode => cases hn

/-- Where a stage that completes leaves HFC: at the next stage, or at the end of the command (40_sequencer.md R120, R123). -/
def afterStage (p : Phase) (t : State) : State := if p = .idle then complete t else { t with phase := p }

theorem afterStage_tables {t : State} (p : Phase) (h : Tables t) : Tables (afterStage p t) := by
  unfold afterStage
  split
  · exact h.congr rfl
  · exact h.congr rfl

/-- A completed stage keeps the sequencer's part of the invariant. -/
theorem StageDone.sequencer {st : Stage} {s t : State} {p : Phase} (hd : StageDone st s t) (h : SequencerOk s)
    (hchain : s.treeV = true → s.entV = true) (hb : s.busy = true) (hp : s.phase = .stage st)
    (hn : nextStage s.kind st = some p) : SequencerOk (afterStage p t) := by
  obtain ⟨hdone, herr, st', hst, -, hpre, hcode⟩ := h.running hb
  obtain rfl : st = st' := Phase.stage.inj (hp.symm.trans hst)
  have hrec : errorAllowed t.errKind t.errStage = true := by rw [hd.errKind, hd.errStage]; exact h.record
  have hflag : t.err = true ↔ t.errKind ≠ .none := by rw [hd.err, hd.errKind]; exact h.errFlag
  cases p with
  | idle => exact ⟨fun _ => ⟨rfl, rfl⟩, nofun, hrec, hflag, fun _ => rfl⟩
  | stage next =>
    obtain ⟨hsome, hpre', hcode'⟩ := hd.pre_next hchain hpre hcode hn
    rw [← hd.kind] at hsome hcode'
    refine ⟨fun hno => ?_, fun _ => ⟨hd.done.trans hdone, hd.err.trans herr, next, rfl, hsome, fun _ => ?_, hcode'⟩, hrec, hflag,
      fun he => ?_⟩
    · exact absurd (hno.symm.trans (hd.busy.trans hb)) nofun
    · cases next <;> exact hpre'
    · exact absurd (he.symm.trans (hd.err.trans herr)) nofun

/-- Error entry ends the command, with its error recorded. -/
theorem errorEntry_sequencer {e : ErrKind} {s : State} {st : Stage} (hp : s.phase = .stage st)
    (h : errorAllowed e (.stage st) = true) : SequencerOk (errorEntry e s) where
  idle _ := ⟨rfl, rfl⟩
  running := nofun
  record := by rw [errorEntry_errKind, errorEntry_errStage, hp]; exact h
  errFlag := ⟨fun _ he => (by rw [show e = .none from he] at h; cases h), fun _ => rfl⟩
  ended _ := rfl

/-- A stage of a running command keeps the invariant, however it ends, and does not fault. -/
theorem runStage_inv {st : Stage} {s : State} {p : Phase} (h : Inv s) (hb : s.busy = true) (hp : s.phase = .stage st)
    (hn : nextStage s.kind st = some p) :
    (runStage st s).Holds (fun _ t => Inv (afterStage p t) ∧ t.busy = true) (fun t => Inv t ∧ t.busy = false ∧ t.done = true)
      (fun _ => False) := by
  have htab := runStage_tables st ((inv_iff s).mp h).2
  obtain ⟨u, hr, hu⟩ | ⟨e, w, hr, he, hw⟩ | ⟨f, hr⟩ := runStage_cases st s <;> rw [hr] at htab ⊢
  · have hd := hu.stageDone
    exact ⟨(inv_iff _).mpr ⟨hd.sequencer h.sequencer h.chain.2 hb hp hn, afterStage_tables p htab⟩, hd.busy.trans hb⟩
  · exact ⟨(inv_iff _).mpr ⟨errorEntry_sequencer (hw.trans hp) he, htab⟩, rfl, rfl⟩
  · exact htab

/-! ### Commands keep the invariant -/

/-- One stage of the running command, as a step (40_sequencer.md R120, R123). -/
theorem advance_inv {s t : State} (h : Inv s) (ht : advance s = .next t) : Inv t := by
  cases hb : s.busy with
  | false => rw [advance_idle hb] at ht; cases ht; exact h
  | true =>
    obtain ⟨-, -, st, hp, hn, -⟩ := h.sequencer.running hb
    obtain ⟨p, hn⟩ := Option.isSome_iff_exists.mp hn
    have hrun := runStage_inv h hb hp hn
    rw [advance_stage hb hp hn] at ht
    cases hr : runStage st s with
    | ok a u => rw [hr] at hrun ht; cases ht; exact hrun.1
    | stop u => rw [hr] at hrun ht; cases ht; exact hrun.1
    | fault f => rw [hr] at ht; cases ht

/-- The loop of Accept ends with BUSY 0 and DONE 1, and keeps the invariant. -/
theorem commandLoop_inv {n : Nat} {s : State} (h : Inv s) (hb : s.busy = true) :
    (commandLoop n s).Holds (fun _ t => Inv t ∧ t.busy = false ∧ t.done = true)
      (fun t => Inv t ∧ t.busy = false ∧ t.done = true) (fun _ => True) := by
  induction n generalizing s with
  | zero =>
    obtain ⟨-, -, st, hp, -⟩ := h.sequencer.running hb
    simp only [commandLoop, hp, Res.holds_fault]
  | succ n ih =>
    obtain ⟨-, -, st, hp, hn, -⟩ := h.sequencer.running hb
    obtain ⟨p, hn⟩ := Option.isSome_iff_exists.mp hn
    have hrun := runStage_inv h hb hp hn
    rw [commandLoop_stage n hp, stageTurn_eq hn]
    cases hr : runStage st s with
    | ok a t =>
      rw [hr] at hrun
      cases p with
      | idle =>
        show (commandLoop n { t with phase := .idle }).Holds _ _ _
        rw [commandLoop_idle n rfl]
        exact ⟨hrun.1, rfl, rfl⟩
      | stage next => exact ih (s := { t with phase := .stage next }) hrun.1 hrun.2
    | stop t => rw [hr] at hrun; exact hrun
    | fault f => trivial

/-- A command of stages accepted by an idle HFC starts with the invariant. -/
theorem accept_inv {kind : CommandKind} {first : Stage} {s : State} (h : Inv s)
    (hn : (nextStage kind first).isSome = true) (hpre : kind ≠ .single → first.pre s = true)
    (hcode : kind = .compress → first ≠ .wrhdr) : Inv (accept kind first s) := by
  refine (inv_iff _).mpr ⟨⟨nofun, fun _ => ⟨rfl, rfl, first, rfl, hn, fun hk => ?_, fun hk hf => absurd hf (hcode hk)⟩, rfl,
    ⟨nofun, fun he => absurd rfl he⟩, nofun⟩, ((inv_iff s).mp h).2.congr rfl⟩
  rw [pre_accept]; exact hpre hk

theorem resetRegisters_inv {s : State} (h : Memory.wf s.src = true) : Inv (resetRegisters s) where
  sequencer := ⟨fun _ => ⟨rfl, rfl⟩, nofun, rfl, ⟨nofun, fun he => absurd rfl he⟩, nofun⟩
  chain := ⟨nofun, nofun⟩
  histogram := nofun
  kRange := ⟨Nat.zero_le _, nofun⟩
  tree := nofun
  code := nofun
  heap := ⟨Nat.zero_le _, fun n hn => by cases hn⟩
  packer _ _ := BitVec.getLsbD_zero
  counts := Nat.le_refl _
  source := h

/-- Settles O5: reset is what the reset input makes of any state. -/
theorem resetMeetsTheInvariant : Obligations.ResetMeetsTheInvariant :=
  resetRegisters_inv (s := State.reset) reset_source_wf

/-- What an idle HFC does at a write of CMD keeps the invariant. -/
theorem startCommand_inv (i : Instr) {s : State} (h : Inv s) (hb : s.busy = false) : Inv (startCommand i s) := by
  cases i with
  | nop =>
    obtain ⟨hseq, htab⟩ := (inv_iff s).mp h
    exact (inv_iff _).mpr ⟨⟨hseq.idle, fun hy => absurd (hb.symm.trans hy) nofun, rfl, ⟨nofun, fun he => absurd rfl he⟩, nofun⟩,
      htab.congr rfl⟩
  | clear => exact resetRegisters_inv (s := clearRecord s) h.source
  | hist | alpha | build | codegen | wrhdr | pack | rdhdr | decode => exact accept_inv h rfl (absurd rfl) nofun
  | compress | decompress => exact accept_inv h rfl (fun _ => rfl) nofun

theorem illegalEffect_inv {s : State} (h : Inv s) (hb : s.busy = false) : Inv (illegalEffect s) := by
  obtain ⟨hseq, htab⟩ := (inv_iff s).mp h
  exact (inv_iff _).mpr ⟨⟨hseq.idle, fun hy => absurd (hb.symm.trans hy) nofun, rfl, ⟨fun _ => nofun, fun _ => rfl⟩,
    fun _ => rfl⟩, htab.congr rfl⟩

/-- A command while BUSY is 1 is ignored (10_state.md R28). -/
theorem exec_busy (i : Instr) {s : State} (hb : s.busy = true) : exec i s = .next s := by
  obtain ⟨hexec, -⟩ | ⟨kind, first, -, -, hexec⟩ := command_cases i
  · rw [hexec, if_pos hb]
  · rw [hexec, runCommand, if_pos hb]

/-- A command accepted by an idle HFC keeps the invariant and ends with BUSY 0, and with DONE 1 unless it is CLEAR. -/
theorem exec_idle_inv {i : Instr} {s t : State} (h : Inv s) (hb : s.busy = false) (ht : exec i s = .next t) :
    Inv t ∧ t.busy = false ∧ (i ≠ .clear → t.done = true) := by
  have hstart := startCommand_inv i h hb
  obtain ⟨hexec, hidle⟩ | ⟨kind, first, -, haccept, hexec⟩ := command_cases i
  · rw [hexec, hb] at ht
    cases ht
    refine ⟨hstart, hidle s hb, fun hi => ?_⟩
    cases i with
    | nop => rfl
    | clear => exact absurd rfl hi
    | hist | alpha | build | codegen | wrhdr | pack | rdhdr | decode | compress | decompress => exact absurd (hidle s hb) nofun
  · rw [haccept] at hstart
    have hloop := commandLoop_inv (n := 6) hstart rfl
    rw [hexec, runCommand, hb, if_neg nofun] at ht
    cases hr : commandLoop 6 (accept kind first s) with
    | ok a u => rw [hr] at hloop ht; cases ht; exact ⟨hloop.1, hloop.2.1, fun _ => hloop.2.2⟩
    | stop u => rw [hr] at hloop ht; cases ht; exact ⟨hloop.1, hloop.2.1, fun _ => hloop.2.2⟩
    | fault f => rw [hr] at ht; cases ht

theorem exec_inv {i : Instr} {s t : State} (h : Inv s) (ht : exec i s = .next t) : Inv t := by
  cases hb : s.busy with
  | false => exact (exec_idle_inv h hb ht).1
  | true => rw [exec_busy i hb] at ht; cases ht; exact h

/-! ### The host keeps the invariant -/

/-- A change of what the sequencer does not depend on. -/
theorem SequencerOk.congr {s t : State} (h : SequencerOk s)
    (e : t = { s with
      srcLen := t.srcLen, srcPos := t.srcPos, src := t.src, snk := t.snk, host := t.host, rdata := t.rdata
      freeReads := t.freeReads, srcEpoch := t.srcEpoch }) : SequencerOk t := by
  obtain ⟨hidle, hrun, hrec, hflag, hended⟩ := h
  rw [e]
  refine ⟨hidle, fun hb => ?_, hrec, hflag, hended⟩
  obtain ⟨hdone, herr, st, hp, hn, hpre, hcode⟩ := hrun hb
  exact ⟨hdone, herr, st, hp, hn, fun hk => by rw [← hpre hk]; cases st <;> rfl, hcode⟩

/-- A change of what neither the sequencer nor the tables depend on. -/
theorem Inv.congr {s t : State} (h : Inv s)
    (e : t = { s with
      srcLen := t.srcLen, srcPos := t.srcPos, snk := t.snk, host := t.host, rdata := t.rdata
      freeReads := t.freeReads, srcEpoch := t.srcEpoch }) : Inv t :=
  (inv_iff t).mpr ⟨h.sequencer.congr (e.trans (by rw [e])), ((inv_iff s).mp h).2.congr (e.trans (by rw [e]))⟩

/-- Any source in canonical form will do. -/
theorem Inv.withSource {s : State} (h : Inv s) {m : Memory} (hm : Memory.wf m = true) (n : Nat) :
    Inv { s with src := m, srcEpoch := n } where
  sequencer := h.sequencer.congr rfl
  chain := h.chain
  histogram := h.histogram
  kRange := h.kRange
  tree x := TreeOk.congr (s := s) ⟨rfl, rfl, rfl, rfl, rfl, rfl, rfl, rfl, rfl⟩ (h.tree x)
  code x := CodeTableOk.congr (s := s) ⟨rfl, rfl, rfl, rfl, rfl, rfl, rfl, rfl, rfl⟩ rfl rfl (h.code x)
  heap := h.heap
  packer := h.packer
  counts := h.counts
  source := hm

theorem writeCmd_inv (w : Byte) {s : State} (h : Inv s) : Inv (writeCmd w s) := by
  unfold writeCmd
  cases hb : s.busy with
  | true => exact h
  | false =>
    rw [if_neg nofun]
    split
    · exact startCommand_inv _ h hb
    · exact illegalEffect_inv h hb

theorem hostWrite_inv (reg : Nat) (v : BusWord) {s : State} (h : Inv s) : Inv (hostWrite reg v s) := by
  unfold hostWrite
  split
  · exact writeCmd_inv _ h
  · split
    · split
      · exact h
      · exact h.congr rfl
    · exact h

theorem hostRead_inv (reg : Nat) {s : State} (h : Inv s) : Inv (hostRead reg s) := by
  unfold hostRead
  split
  · exact h.congr rfl
  · exact h.congr rfl

theorem hostCommand_inv {w : Byte} {s t : State} (h : Inv s) (ht : hostCommand w s = .next t) : Inv t := by
  unfold hostCommand at ht
  split at ht
  · exact exec_inv h ht
  · split at ht
    · cases ht; exact h
    · next hb => cases ht; exact illegalEffect_inv h (Bool.eq_false_iff.mpr hb)

theorem hostPlaceSource_inv {bytes : List Byte} {s t : State} (h : Inv s) (ht : hostPlaceSource bytes s = .next t) :
    Inv t := by
  unfold hostPlaceSource at ht
  split at ht
  · cases ht
  · cases ht; exact h.withSource (Memory.ofBytes_wf bytes) _

/-- Every host action keeps the invariant. -/
theorem perform_inv {a : HostAction} {s t : State} (h : Inv s) (ht : perform a s = .next t) : Inv t := by
  cases a with
  | command w => exact hostCommand_inv h ht
  | write reg v => cases ht; exact hostWrite_inv reg v h
  | read reg => cases ht; exact hostRead_inv reg h
  | placeSource bytes => exact hostPlaceSource_inv h ht
  | drainSink n => cases ht; exact h.congr rfl
  | reset => cases ht; exact resetRegisters_inv h.source
  | letRun => exact advance_inv h ht

/-- Settles O6, by the host's next action. -/
theorem stepKeepsTheInvariant : Obligations.StepKeepsTheInvariant := by
  intro s t hinv ht
  unfold step hostTurn at ht
  split at ht
  · exact advance_inv hinv ht
  · next a rest hhost => exact perform_inv (s := { s with host := rest }) (hinv.congr rfl) ht

/-- Settles O15: no stage faults in a state that meets the invariant, and the loop ends idle. -/
theorem everyCommandEndsIdle : Obligations.EveryCommandEndsIdle := by
  intro i s hinv hb
  obtain ⟨t, ht⟩ := exec_next i ((inv_iff s).mp hinv).2
  obtain ⟨hinv', hb', hdone⟩ := exec_idle_inv hinv hb ht
  obtain ⟨hp, hk⟩ := hinv'.sequencer.idle hb'
  exact ⟨t, ht, hb', hp, hk, hdone, hinv'.sequencer.record, hinv'.sequencer.errFlag⟩

end Sys2Proof.Machine

/-! Proofs about what a command may change (10_state.md R20, R30, R41): a relation that every stage of the command keeps, and
the sequencer too, holds between the state a command starts in and the state it ends in. -/

namespace Sys2Proof.Machine

/-! ### The stages of a command (40_sequencer.md R122) -/

/-- The stages a running command still has, when Next(MACRO, ·) is applied to PHASE at most `n` times. -/
def stagesFrom (kind : CommandKind) : Nat → Phase → List Stage
  | _, .idle => []
  | 0, .stage _ => []
  | n + 1, .stage st => st :: (nextStage kind st).elim [] (stagesFrom kind n)

/-- The stages of a command (40_sequencer.md R127, R128). -/
def commandStages : Instr → List Stage
  | .nop | .clear => []
  | .hist => [.hist]
  | .alpha => [.alpha]
  | .build => [.build]
  | .codegen => [.codegen]
  | .wrhdr => [.wrhdr]
  | .pack => [.pack]
  | .rdhdr => [.rdhdr]
  | .decode => [.decode]
  | .compress => [.hist, .alpha, .build, .codegen, .wrhdr, .pack]
  | .decompress => [.rdhdr, .build, .decode]

/-- The commands a stage is part of. -/
def stageCommands : Stage → List Instr
  | .hist => [.hist, .compress]
  | .alpha => [.alpha, .compress]
  | .build => [.build, .compress, .decompress]
  | .codegen => [.codegen, .compress]
  | .wrhdr => [.wrhdr, .compress]
  | .pack => [.pack, .compress]
  | .rdhdr => [.rdhdr, .decompress]
  | .decode => [.decode, .decompress]

theorem mem_stageCommands {st : Stage} {i : Instr} (h : st ∈ commandStages i) : i ∈ stageCommands st := by
  revert h; cases st <;> cases i <;> decide

/-- A command is NOP, CLEAR, or the run of its stages. -/
theorem command_stages (i : Instr) :
    i = .nop ∨ i = .clear ∨
    ∃ kind first, commandStages i = stagesFrom kind 6 (.stage first) ∧ ∀ s, exec i s = runCommand kind first s := by
  cases i with
  | nop => exact .inl rfl
  | clear => exact .inr (.inl rfl)
  | hist | alpha | build | codegen | wrhdr | pack | rdhdr | decode | compress | decompress =>
    exact .inr (.inr ⟨_, _, rfl, fun _ => rfl⟩)

/-! ### From the bodies to the command -/

/-- A change of the sequencer's registers and of the flags. -/
def SequencerChange (s t : State) : Prop :=
  t = { s with
    phase := t.phase, kind := t.kind, busy := t.busy, done := t.done, err := t.err, errKind := t.errKind
    errStage := t.errStage, histV := t.histV, entV := t.entV, treeV := t.treeV, codeV := t.codeV }

/-- The relation allows what the sequencer does, and what the bodies of these stages do. -/
structure Permits (R : State → State → Prop) (stages : List Stage) : Prop where
  change : Change R
  sequencer : ∀ s t, SequencerChange s t → R s t
  body : ∀ st ∈ stages, ∀ s, Ends R (fun _ => True) s (st.body s)

section
variable {R : State → State → Prop}

theorem Permits.runStage {stages : List Stage} (h : Permits R stages) {st : Stage} (hst : st ∈ stages) (s : State) :
    (runStage st s).Holds (fun _ t => R s t) (R s) (fun _ => True) := by
  have hcasc : R s (st.cascade s) := h.sequencer _ _ (by cases st <;> rfl)
  unfold Machine.runStage
  split
  · refine Res.Holds.bind (Res.Holds.mono (h.body st hst (st.cascade s)) (fun _ t ht => ?_) (fun u hu => ?_) (fun _ _ => trivial))
    · exact h.change.trans _ _ _ hcasc (h.change.trans _ _ _ ht (h.sequencer _ _ (by cases st <;> rfl)))
    · obtain ⟨e, w, -, hw, rfl⟩ := hu
      exact h.change.trans _ _ _ hcasc (h.change.trans _ _ _ hw (h.sequencer _ _ rfl))
  · exact h.sequencer _ _ rfl

theorem Permits.commandLoop {n : Nat} {s : State} (h : Permits R (stagesFrom s.kind n s.phase)) :
    (commandLoop n s).Holds (fun _ t => R s t) (R s) (fun _ => True) := by
  induction n generalizing s with
  | zero =>
    cases hp : s.phase with
    | idle => rw [commandLoop_idle 0 hp]; exact h.sequencer _ _ rfl
    | stage st => simp only [Machine.commandLoop, hp, Res.holds_fault]
  | succ n ih =>
    cases hp : s.phase with
    | idle => rw [commandLoop_idle _ hp]; exact h.sequencer _ _ rfl
    | stage st =>
      rw [hp] at h
      have hrun := h.runStage (List.mem_cons_self ..) s
      rw [commandLoop_stage n hp]
      unfold stageTurn
      cases hr : Machine.runStage st s with
      | ok a t =>
        rw [hr] at hrun
        rw [Res.bind_ok]
        cases hn : nextStage t.kind st with
        | none => trivial
        | some p =>
          have hrest : Permits R (stagesFrom t.kind n p) := ⟨h.change, h.sequencer, fun st' hst' =>
            h.body st' (List.mem_cons_of_mem _ (by rw [← (runStage_keeps hr).2.1, hn]; exact hst'))⟩
          have hmove : R s { t with phase := p } := h.change.trans _ _ _ hrun (h.sequencer _ _ rfl)
          exact Res.Holds.mono (ih (s := { t with phase := p }) hrest) (fun _ _ hu => h.change.trans _ _ _ hmove hu)
            (fun _ hu => h.change.trans _ _ _ hmove hu) (fun _ hf => hf)
      | stop t => rw [hr] at hrun; exact hrun
      | fault f => trivial

/-- What the sequencer and the stages of a command may do holds of the whole command. CLEAR is no command of stages. -/
theorem Permits.exec {i : Instr} {s t : State} (h : Permits R (commandStages i)) (hi : i ≠ .clear)
    (ht : exec i s = .next t) : R s t := by
  cases hb : s.busy with
  | true => rw [exec_busy i hb] at ht; cases ht; exact h.change.refl s
  | false =>
    obtain rfl | rfl | ⟨kind, first, hstages, hexec⟩ := command_stages i
    · rw [show Machine.exec .nop s = .next (nopEffect s) by simp only [Machine.exec, execNop, hb]; rfl] at ht
      cases ht
      exact h.sequencer _ _ rfl
    · exact absurd rfl hi
    · rw [hstages] at h
      have hloop := Permits.commandLoop (s := accept kind first s) h
      have haccept : R s (accept kind first s) := h.sequencer _ _ rfl
      rw [hexec, runCommand, hb, if_neg nofun] at ht
      cases hr : Machine.commandLoop 6 (accept kind first s) with
      | ok a u => rw [hr] at hloop ht; cases ht; exact h.change.trans _ _ _ haccept hloop
      | stop u => rw [hr] at hloop ht; cases ht; exact h.change.trans _ _ _ haccept hloop
      | fault f => rw [hr] at ht; cases ht

end

/-- CLEAR is ignored or resets the registers. -/
theorem execClear_cases {s t : State} (ht : exec .clear s = .next t) : t = s ∨ t = clearEffect s := by
  cases hb : s.busy with
  | true => rw [exec_busy _ hb] at ht; cases ht; exact .inl rfl
  | false => 
    rw [show exec .clear s = .next (clearEffect s) by simp only [exec, execClear, hb]; rfl] at ht
    cases ht; exact .inr rfl

/-! ### Who writes what (10_state.md R20) -/

/-- What is left by a change in which only these stages took part. -/
structure Frame (took : Stage → Prop) (s t : State) : Prop where
  hist : ¬ took .hist → (t.hist, t.totalIn) = (s.hist, s.totalIn)
  entries : ¬ took .alpha → ¬ took .rdhdr → (t.entSym, t.entFreq, t.k) = (s.entSym, s.entFreq, s.k)
  nodes : ¬ took .build → (t.nodeFreq, t.nodeSym, t.nodeLeft, t.nodeRight, t.heap, t.nodeCnt, t.root, t.heapSize) =
    (s.nodeFreq, s.nodeSym, s.nodeLeft, s.nodeRight, s.heap, s.nodeCnt, s.root, s.heapSize)
  code : ¬ took .codegen → (t.codeLen, t.codeBits) = (s.codeLen, s.codeBits)
  packer : ¬ took .pack → (t.bitBuf, t.bitCnt) = (s.bitBuf, s.bitCnt)
  decoder : ¬ took .decode → (t.totalSym, t.decCnt, t.cursor) = (s.totalSym, s.decCnt, s.cursor)
  sink : ¬ took .wrhdr → ¬ took .pack → ¬ took .decode → t.snk = s.snk
  grows : s.snk <+: t.snk
  source : (t.srcLen, t.src, t.srcEpoch) = (s.srcLen, s.src, s.srcEpoch)

theorem frame_change (took : Stage → Prop) : Change (Frame took) where
  refl _ := ⟨fun _ => rfl, fun _ _ => rfl, fun _ => rfl, fun _ => rfl, fun _ => rfl, fun _ => rfl, fun _ _ _ => rfl,
    List.prefix_rfl, rfl⟩
  trans _ _ _ h h' := ⟨fun n => (h'.hist n).trans (h.hist n), fun n m => (h'.entries n m).trans (h.entries n m),
    fun n => (h'.nodes n).trans (h.nodes n), fun n => (h'.code n).trans (h.code n),
    fun n => (h'.packer n).trans (h.packer n), fun n => (h'.decoder n).trans (h.decoder n),
    fun n m o => (h'.sink n m o).trans (h.sink n m o), h.grows.trans h'.grows, h'.source.trans h.source⟩

/-- A body writes what its stage is the writer of. -/
theorem Stage.Change.frame {st : Stage} {took : Stage → Prop} {s t : State} (h : st.Change s t) (hst : took st) :
    Frame took s t := by
  cases st with
  | hist | alpha | build | codegen | rdhdr => rw [h]; constructor <;> simp [hst]
  | wrhdr | pack | decode => obtain ⟨out, h⟩ := h; rw [h]; constructor <;> simp [hst]

theorem commandStages_permits (i : Instr) : Permits (Frame (· ∈ commandStages i)) (commandStages i) where
  change := frame_change _
  sequencer s t h := by
    rw [h]
    exact ⟨fun _ => rfl, fun _ _ => rfl, fun _ => rfl, fun _ => rfl, fun _ => rfl, fun _ => rfl, fun _ _ _ => rfl, List.prefix_rfl, rfl⟩
  body st hst s := (body_ends st s).mono (fun _ _ h => h.frame hst) fun _ _ => trivial

/-- Every command but CLEAR leaves what none of its stages writes. -/
theorem exec_frame {i : Instr} {s t : State} (hi : i ≠ .clear) (ht : exec i s = .next t) :
    Frame (· ∈ commandStages i) s t :=
  (commandStages_permits i).exec hi ht

theorem not_mem_commandStages {st : Stage} {i : Instr} (h : i ∉ stageCommands st) : st ∉ commandStages i :=
  mt mem_stageCommands h

/-- Settles O27: CLEAR leaves the tables, and every other command leaves what none of its stages writes. -/
theorem tablesHaveOneWriter : Obligations.TablesHaveOneWriter := by
  intro i s t ht
  by_cases hi : i = .clear
  · subst hi
    obtain rfl | rfl := execClear_cases ht <;>
      exact ⟨fun _ _ => ⟨rfl, absurd rfl⟩, fun _ _ _ _ => ⟨rfl, rfl, absurd rfl⟩,
        fun _ _ _ => ⟨rfl, rfl, rfl, rfl, rfl, absurd rfl⟩, fun _ _ => ⟨rfl, rfl⟩, fun _ _ => absurd rfl, fun _ _ => absurd rfl,
        absurd rfl⟩
  · obtain ⟨hhist, hent, hnode, hcode, hpack, hdec, -, -, hsrc⟩ := exec_frame hi ht
    simp only [Prod.mk.injEq] at hhist hent hnode hcode hpack hdec hsrc
    refine ⟨fun h1 h2 => ?_, fun h1 h2 h3 h4 => ?_, fun h1 h2 h3 => ?_, fun h1 h2 => ?_, fun h1 h2 _ => ?_, fun h1 h2 _ => ?_,
      fun _ => hsrc.1⟩
    · obtain ⟨e1, e2⟩ := hhist (not_mem_commandStages (by simp [stageCommands, h1, h2]))
      exact ⟨e1, fun _ => e2⟩
    · obtain ⟨e1, e2, e3⟩ := hent (not_mem_commandStages (by simp [stageCommands, h1, h3]))
        (not_mem_commandStages (by simp [stageCommands, h2, h4]))
      exact ⟨e1, e2, fun _ => e3⟩
    · obtain ⟨e1, e2, e3, e4, e5, e6⟩ := hnode (not_mem_commandStages (by simp [stageCommands, h1, h2, h3]))
      exact ⟨e1, e2, e3, e4, e5, fun _ => e6⟩
    · exact hcode (not_mem_commandStages (by simp [stageCommands, h1, h2]))
    · exact hpack (not_mem_commandStages (by simp [stageCommands, h1, h2]))
    · exact hdec (not_mem_commandStages (by simp [stageCommands, h1, h2]))

/-- Settles O25: no stage writes SRC, and only WRHDR, PACK and DECODE append to SNK. -/
theorem commandsOnlyAppendToTheSink : Obligations.CommandsOnlyAppendToTheSink := by
  intro i s t ht
  by_cases hi : i = .clear
  · subst hi
    obtain rfl | rfl := execClear_cases ht <;> exact ⟨fun _ => rfl, rfl, fun _ _ => rfl, Nat.le_refl _, fun _ => rfl⟩
  · obtain ⟨-, -, -, -, -, -, hsink, ⟨out, hout⟩, hsrc⟩ := exec_frame hi ht
    simp only [Prod.mk.injEq] at hsrc
    obtain ⟨-, hsrc, hepoch⟩ := hsrc
    refine ⟨sourceByte_congr hsrc hepoch, hsrc, fun a ha => ?_, ?_, fun hno => ?_⟩
    · rw [← hout, List.getElem?_append_left ha]
    · rw [← hout, List.length_append]; exact Nat.le_add_right _ _
    · refine hsink ?_ ?_ ?_ <;> rcases hno with rfl | rfl | rfl | rfl | rfl | rfl | rfl <;> decide

/-! ### SRC_POS (10_state.md R30) -/

/-- SRC_POS does not come to exceed SRC_LEN. -/
def KeepsWithin (s t : State) : Prop := s.srcPos ≤ s.srcLen → t.srcPos ≤ t.srcLen

theorem keepsWithin_change : Change KeepsWithin := ⟨fun _ h => h, fun _ _ _ h h' hs => h' (h hs)⟩

theorem keepsWithin_same {s t : State} (hp : t.srcPos = s.srcPos) (hl : t.srcLen = s.srcLen) : KeepsWithin s t := by
  unfold KeepsWithin; rw [hp, hl]; exact id

theorem srcGet_within {s t : State} {o : Option Byte} (hg : srcGet s = (o, t)) : KeepsWithin s t := by
  intro h
  obtain ⟨hlt, he⟩ | ⟨-, he⟩ := srcGet_cases s <;> rw [he] at hg <;> cases hg
  · show s.srcPos + 1 ≤ s.srcLen
    rw [BitVec.le_def, srcPos_succ hlt]
    exact BitVec.lt_def.mp hlt
  · exact h

theorem srcGet32_within {s t : State} {o : Option Word32} (hg : srcGet32 s = (o, t)) : KeepsWithin s t := by
  have next : ∀ {u v w : State} {o : Option Byte}, KeepsWithin u v → srcGet v = (o, w) → KeepsWithin u w := fun h hg =>
    keepsWithin_change.trans _ _ _ h (srcGet_within hg)
  unfold srcGet32 at hg
  rcases h0 : srcGet s with ⟨_ | b0, s0⟩ <;> rw [h0] at hg
  · cases hg; exact srcGet_within h0
  rcases h1 : srcGet s0 with ⟨_ | b1, s1⟩ <;> dsimp only at hg <;> rw [h1] at hg
  · cases hg; exact next (srcGet_within h0) h1
  rcases h2 : srcGet s1 with ⟨_ | b2, s2⟩ <;> dsimp only at hg <;> rw [h2] at hg
  · cases hg; exact next (next (srcGet_within h0) h1) h2
  rcases h3 : srcGet s2 with ⟨_ | b3, s3⟩ <;> dsimp only at hg <;> rw [h3] at hg <;> cases hg <;>
    exact next (next (next (srcGet_within h0) h1) h2) h3

/-- Any end of a piece, errors of any kind. -/
abbrev EndsWithin {α : Type} (s : State) (r : Res α) : Prop := Ends KeepsWithin (fun _ => True) s r

theorem rewind_within {s t : State} (h : t.srcPos = 0) : KeepsWithin s t := by
  intro _; rw [h, BitVec.le_def]; exact Nat.zero_le _

theorem histTurn_within (s : State) : EndsWithin s (histTurn s) := by
  unfold histTurn
  rcases hg : srcGet s with ⟨_ | b, t⟩ <;> have h := srcGet_within hg
  · exact Ends.ok () h
  · exact Ends.ok () h

theorem bodyHist_within (s : State) : EndsWithin s (bodyHist s) := by
  unfold bodyHist
  split
  · exact Ends.raise trivial id
  · exact Ends.after keepsWithin_change (rewind_within rfl)
      (Ends.whileLoop keepsWithin_change histTurn_within _
        (srcRewind { s with hist := Vector.replicate 256 0, totalIn := 0 }))

theorem putBit_within (v : Bool) (s : State) : KeepsWithin s (putBit v s) := by
  unfold putBit
  dsimp only
  split
  · exact id
  · exact id

theorem packTurn_within (s : State) : EndsWithin s (packTurn s) := by
  unfold packTurn
  rcases hg : srcGet s with ⟨_ | b, t⟩ <;> have h := srcGet_within hg
  · exact Ends.ok () h
  · dsimp only
    split
    · exact Ends.raise trivial h
    · exact Ends.after keepsWithin_change h
        (Ends.forEach keepsWithin_change (fun _ _ => Ends.ok () (putBit_within _ _)) _ _)

theorem flushBits_within (s : State) : KeepsWithin s (flushBits s) := by
  unfold flushBits
  split
  · exact id
  · exact id

theorem bodyPack_within (s : State) : EndsWithin s (bodyPack s) :=
  Ends.bind keepsWithin_change
    (Ends.after keepsWithin_change (rewind_within rfl)
      (Ends.whileLoop keepsWithin_change packTurn_within _ (srcRewind { s with bitBuf := 0, bitCnt := 0 })))
    fun _ t => Ends.ok () (flushBits_within t)

theorem entryTurn_within (i : Nat) (s : State) : EndsWithin s (entryTurn i s) := by
  unfold entryTurn
  rcases hg : srcGet s with ⟨_ | sym, t⟩ <;> have h := srcGet_within hg
  · exact Ends.raise trivial h
  · dsimp only
    rcases hg' : srcGet32 t with ⟨_ | freq, u⟩ <;> have h' := keepsWithin_change.trans _ _ _ h (srcGet32_within hg')
    · exact Ends.raise trivial h'
    · exact Ends.after keepsWithin_change h' ((putEntry_ends i sym freq u).mono
        (fun _ _ hc => by rw [hc]; exact id) fun _ _ => trivial)

theorem bodyRdhdr_within (s : State) : EndsWithin s (bodyRdhdr s) := by
  unfold bodyRdhdr
  rcases hg : srcGet32 (srcRewind s) with ⟨_ | k, t⟩ <;>
    have h := keepsWithin_change.trans s _ _ (rewind_within rfl) (srcGet32_within hg)
  · exact Ends.raise trivial h
  · dsimp only
    split
    · exact Ends.raise trivial h
    · exact Ends.after keepsWithin_change h
        (Ends.forEach keepsWithin_change entryTurn_within _ { t with k := k.extractLsb' 0 9 })

/-- A stream bit leaves SRC_POS: with SRC_POS replaced by itself the run is the same. -/
theorem runBit_within (v : Bool) (s : State) : EndsWithin s (runBit v s) := by
  have hpos : runBit v s = (runBit v s).withPos s.srcPos := runBit_pos v s
  have hends : Ends DecodeChange (· = .corruptStream) s (runBit v s) := by
    unfold runBit
    split
    · exact Ends.ok () (decodeChange.refl s)
    · exact bitStep_ends v s
  cases hr : runBit v s with
  | ok a t =>
    rw [hr] at hpos hends
    obtain ⟨_, hc⟩ := hends
    have hp : t.srcPos = s.srcPos := (congrArg State.srcPos (Res.ok.inj hpos).2 :)
    exact keepsWithin_same hp (by rw [hc])
  | stop u =>
    rw [hr] at hpos hends
    obtain ⟨e, w, -, ⟨_, hc⟩, rfl⟩ := hends
    have hp : w.srcPos = s.srcPos := (congrArg State.srcPos (Res.stop.inj hpos) :)
    exact ⟨e, w, trivial, keepsWithin_same hp (by rw [hc]), rfl⟩
  | fault f => trivial

theorem decodeTurn_within (s : State) : EndsWithin s (decodeTurn s) := by
  unfold decodeTurn
  rcases hg : srcGet s with ⟨_ | b, t⟩ <;> have h := srcGet_within hg
  · exact Ends.raise trivial h
  · dsimp only
    rw [byteTurn_eq]
    exact Ends.after keepsWithin_change h (Ends.forEach keepsWithin_change runBit_within _ _)

theorem bodyDecode_within (s : State) : EndsWithin s (bodyDecode s) := by
  refine Ends.bind keepsWithin_change (Ends.forEach keepsWithin_change (fun i t => ?_) _ { s with totalSym := 0 }) fun _ t =>
    Ends.whileLoop keepsWithin_change decodeTurn_within _ { t with decCnt := 0, cursor := t.root }
  exact Ends.bind keepsWithin_change (Ends.fetchWord keepsWithin_change _ _ _ _) fun _ _ => Ends.ok () id

theorem body_within (st : Stage) (s : State) : EndsWithin s (st.body s) := by
  cases st with
  | hist => exact bodyHist_within s
  | alpha => exact (bodyAlpha_ends s).mono (fun _ _ h => by rw [h]; exact id) fun _ _ => trivial
  | build => exact (bodyBuild_ends s).mono (fun _ _ h => by rw [h]; exact id) fun _ _ => trivial
  | codegen => exact (bodyCodegen_ends s).mono (fun _ _ h => by rw [h]; exact id) fun _ _ => trivial
  | wrhdr => exact (bodyWrhdr_ends s).mono (fun _ _ ⟨_, h⟩ => by rw [h]; exact id) fun _ _ => trivial
  | pack => exact bodyPack_within s
  | rdhdr => exact bodyRdhdr_within s
  | decode => exact bodyDecode_within s

/-- Settles O26: SRC_POS advances below SRC_LEN only, and no stage writes SRC_LEN. -/
theorem commandsKeepSrcPosWithinSrcLen : Obligations.CommandsKeepSrcPosWithinSrcLen := by
  intro i s t hs ht
  by_cases hi : i = .clear
  · subst hi
    obtain rfl | rfl := execClear_cases ht
    · exact hs
    · exact rewind_within (s := s) rfl hs
  · exact Permits.exec (R := KeepsWithin) ⟨keepsWithin_change, fun _ _ h => by rw [h]; exact id, fun st _ => body_within st⟩
      hi ht hs

end Sys2Proof.Machine

/-! Proofs about the host's actions (10_state.md R25 to R31, R41, R43; 20_memory.md R61, R69, R70), and about the stages a bare
write of CMD starts (40_sequencer.md R120 to R124). -/

namespace Sys2Proof.Machine

/-- A step with a host action to come performs it. -/
theorem step_perform {s : State} {a : HostAction} {rest : List HostAction} (h : s.host = a :: rest) :
    step s = perform a { s with host := rest } := by
  simp only [step, hostTurn, h]

/-! ### A bare write of CMD, and the stages after it -/

/-- A bare write of a command's opcode to an idle HFC starts the command. -/
theorem step_writeOpcode (i : Instr) {s : State} {rest : List HostAction}
    (h : s.host = .write 0 (i.opcode.setWidth 40) :: rest) (hb : s.busy = false) :
    step s = .next (startCommand i { s with host := rest }) := by
  rw [step_perform h]
  exact congrArg _ (hostWrite_opcode i (s := { s with host := rest }) hb)

/-- Settles O58. -/
theorem bareWriteStartsTheCommandAndStagesFollow : Obligations.BareWriteStartsTheCommandAndStagesFollow := by
  refine ⟨fun s w rest hhost hb => ⟨fun kind first hm => ?_, ?_, ?_⟩, fun s hhost => ?_, fun s rest hhost => step_perform hhost,
    fun s hb => advance_idle hb, fun s u st hb hp hr => ?_, fun s u st hb hp hr => ?_⟩
  · simp only [List.mem_cons, Prod.mk.injEq, List.not_mem_nil, or_false] at hm
    rcases hm with ⟨rfl, rfl, rfl⟩ | ⟨rfl, rfl, rfl⟩ | ⟨rfl, rfl, rfl⟩ | ⟨rfl, rfl, rfl⟩ | ⟨rfl, rfl, rfl⟩ | ⟨rfl, rfl, rfl⟩ |
      ⟨rfl, rfl, rfl⟩ | ⟨rfl, rfl, rfl⟩ | ⟨rfl, rfl, rfl⟩ | ⟨rfl, rfl, rfl⟩
    exacts [step_writeOpcode .hist hhost hb, step_writeOpcode .alpha hhost hb, step_writeOpcode .build hhost hb,
      step_writeOpcode .codegen hhost hb, step_writeOpcode .wrhdr hhost hb, step_writeOpcode .pack hhost hb,
      step_writeOpcode .rdhdr hhost hb, step_writeOpcode .decode hhost hb, step_writeOpcode .compress hhost hb,
      step_writeOpcode .decompress hhost hb]
  · rintro rfl
    rw [step_writeOpcode .nop hhost hb]
    exact (if_neg (by simp [hb])).symm
  · rintro rfl
    rw [step_writeOpcode .clear hhost hb]
    exact (if_neg (by simp [hb])).symm
  · simp only [step, hostTurn, hhost]
  · obtain ⟨-, hk, hbu⟩ := runStage_keeps hr
    refine ⟨hbu.trans hb, hk, fun next hm => ?_, fun hlast => ?_⟩
    · have hn : nextStage s.kind st = some (.stage next) :=
        (show ∀ e ∈ _, nextStage e.1 e.2.1 = some (.stage e.2.2) by decide) _ hm
      rw [advance_stage hb hp hn, hr]; rfl
    · have hn : nextStage s.kind st = some .idle := by
        simp only [Prod.mk.injEq] at hlast
        rcases hlast with hk | ⟨hk, rfl⟩ | ⟨hk, rfl⟩ <;> rw [hk] <;> rfl
      rw [advance_stage hb hp hn, hr]; rfl
  · obtain ⟨v, h, -⟩ | ⟨e, w, h, -, hw⟩ | ⟨f, h⟩ := runStage_cases st s <;> rw [h] at hr <;> cases hr
    refine ⟨?_, rfl, rfl, rfl, hw.trans hp, rfl, rfl⟩
    simp only [advance, stageStep, stageTurn, hb, hp, h, if_true, Res.bind_stop, Res.toOutcome_stop]

/-! ### SRC and SNK (10_state.md R41) -/

/-- A step of a running command behind other bytes of SNK is that step, behind those bytes. -/
theorem advance_of_behind {bytes : List Byte} {s t : State} (h : advance (behind bytes s) = .next t) :
    ∃ u, advance s = .next u ∧ t = behind bytes u := by
  cases hb : s.busy with
  | false =>
    rw [advance_idle (s := behind bytes s) hb] at h
    cases h
    exact ⟨s, advance_idle hb, rfl⟩
  | true =>
    unfold advance at h ⊢
    rw [if_pos hb]
    rw [show (behind bytes s).busy = s.busy from rfl, if_pos hb, stageStep_behind] at h
    cases hr : stageStep s with
    | ok a u => rw [hr] at h; cases h; exact ⟨u, rfl, rfl⟩
    | stop u => rw [hr] at h; cases h; exact ⟨u, rfl, rfl⟩
    | fault f => rw [hr] at h; cases h

theorem advanceTimes_of_behind {bytes : List Byte} {stages : Nat} {s t : State}
    (h : advanceTimes stages (behind bytes s) = .next t) : ∃ u, advanceTimes stages s = .next u ∧ t = behind bytes u := by
  induction stages generalizing s with
  | zero => cases h; exact ⟨s, rfl, rfl⟩
  | succ n ih =>
    simp only [advanceTimes] at h ⊢
    cases hx : advance (behind bytes s) with
    | next v =>
      obtain ⟨u, hu, rfl⟩ := advance_of_behind hx
      rw [hx] at h
      rw [hu]
      exact ih h
    | fault f => rw [hx] at h; cases h
    | refused r => rw [hx] at h; cases h

/-- Settles O59: HFC never looks at SNK, so the bytes taken stand in front of what the command goes on to append. -/
theorem hostPlacesTheSourceAndDrainsTheSink : Obligations.HostPlacesTheSourceAndDrainsTheSink := by
  refine ⟨fun s bytes rest hhost hb => ?_, fun s n rest hhost => step_perform hhost, fun s t n stages hn ht => ?_⟩
  · refine ⟨_, (step_perform hhost).trans (if_neg (by simp [hb])), rfl, Memory.ofBytes_read bytes,
      fun hlen => sourceBytes_placed rfl hlen⟩
  · have hs : s = behind (s.snk.take n) { s with snk := s.snk.drop n } := by
      unfold behind; simp only [List.take_append_drop]
    rw [hs] at ht
    obtain ⟨u, hu, rfl⟩ := advanceTimes_of_behind ht
    have hdrop : (s.snk.take n ++ u.snk).drop n = u.snk := List.drop_left' (by rw [List.length_take, Nat.min_eq_left hn])
    refine ⟨List.prefix_append _ _, hu.trans ?_⟩
    show _ = Host.Outcome.next { u with snk := (s.snk.take n ++ u.snk).drop n }
    rw [hdrop]

/-! ### Registers (10_state.md R25 to R31, R43) -/

/-- Settles O4. -/
theorem resetLeavesTheRegistersOfTheTable : Obligations.ResetLeavesTheRegistersOfTheTable := by
  unfold Obligations.ResetLeavesTheRegistersOfTheTable
  decide

/-- Settles O13: a command, a write of CMD and a write of SRC_LEN ask for BUSY 0. -/
theorem writesWhileBusyAreIgnored : Obligations.WritesWhileBusyAreIgnored := by
  intro s hb
  refine ⟨fun i => exec_busy i hb, fun reg v rest hhost => ?_, fun w rest hhost => ?_⟩
  · rw [step_perform hhost]
    simp [perform, hostWrite, writeCmd, hb]
  · rw [step_perform hhost]
    show hostCommand w { s with host := rest } = _
    unfold hostCommand
    split
    · exact exec_busy _ hb
    · exact if_pos hb

/-- Settles O21. -/
theorem hostWriteSetsOnlySrcLen : Obligations.HostWriteSetsOnlySrcLen := by
  intro s reg v rest hhost hb
  rw [step_perform hhost]
  refine ⟨fun h3 => ?_, fun h0 h3 => ?_⟩
  · simp [perform, hostWrite, h3, hb]
  · simp [perform, hostWrite, h0, h3]

/-- A host read changes what the read returned, and the count of free reads. -/
theorem hostRead_change (reg : Nat) (s : State) :
    hostRead reg s = { s with rdata := (hostRead reg s).rdata, freeReads := (hostRead reg s).freeReads } := by
  unfold hostRead
  split <;> rfl

/-- It returns the register's value, but for the registers R43 leaves open while BUSY is 1. -/
theorem hostRead_rdata {reg : Nat} {s : State} (h : s.busy = false ∨ openWhileBusy reg = false) :
    (hostRead reg s).rdata = regValue reg s := by
  unfold hostRead
  rw [if_neg (by rcases h with h | h <;> simp [h])]

/-- Settles O20. -/
theorem hostReadReturnsTheRegister : Obligations.HostReadReturnsTheRegister := by
  intro s reg rest hhost
  refine ⟨hostRead reg { s with host := rest }, step_perform hhost, hostRead_change reg { s with host := rest }, ?_, ?_, ?_, ?_,
    fun h9 => ?_, fun hb => ⟨?_, ?_, ?_, ?_, ?_⟩⟩
  case refine_5 =>
    rw [hostRead_rdata (.inr (by simp [openWhileBusy]; omega))]
    simp (disch := omega) only [regValue, if_neg]
  all_goals rintro rfl
  · exact hostRead_rdata (.inr rfl)
  · exact hostRead_rdata (.inr rfl)
  · exact hostRead_rdata (.inr rfl)
  · exact hostRead_rdata (.inr rfl)
  all_goals exact hostRead_rdata (.inl hb)

/-! ### STATUS and ERRINFO (10_state.md R22, R23, R26, R27; 60_exceptions.md R225) -/

theorem Phase.code_injective {p q : Phase} : p.code = q.code → p = q := by
  cases p with
  | idle =>
    cases q with
    | idle => exact fun _ => rfl
    | stage st => cases st <;> decide
  | stage st =>
    cases q with
    | idle => cases st <;> decide
    | stage st' => cases st <;> cases st' <;> decide

theorem CommandKind.code_injective {k k' : CommandKind} : k.code = k'.code → k = k' := by
  cases k <;> cases k' <;> decide

theorem ErrKind.code_injective {e e' : ErrKind} : e.code = e'.code → e = e' := by
  cases e <;> cases e' <;> decide

/-- With an injective code, a table of codes tells what a field that holds the code says. -/
theorem eq_iff_field {α : Type} {n : Nat} {code : α → BitVec n} (hinj : ∀ {a b : α}, code a = code b → a = b) {x : α}
    {field : BitVec n} (hf : field = code x) {table : List (α × BitVec n)} (ht : ∀ e ∈ table, code e.1 = e.2) {a : α}
    {c : BitVec n} (hm : (a, c) ∈ table) : x = a ↔ field = c := by
  rw [hf, show c = code a from (ht _ hm).symm]
  exact ⟨congrArg code, hinj⟩

theorem bit_getLsbD (b : Bool) (i : Nat) : (bit b).getLsbD i = (decide (i = 0) && b) := by
  simp [bit]

theorem extractLsb'_eq_of_bits {w n : Nat} {x : BitVec w} {start : Nat} {y : BitVec n}
    (h : ∀ i, i < n → x.getLsbD (start + i) = y.getLsbD i) : x.extractLsb' start n = y := by
  apply BitVec.eq_of_getLsbD_eq
  intro i hi
  rw [BitVec.getLsbD_extractLsb', decide_eq_true hi, Bool.true_and, h i hi]

/-- STATUS bit by bit, its width written as the sum of its fields' widths. -/
theorem statusWord_getLsbD (s : State) (i : Nat) :
    (statusWord s).getLsbD i = @BitVec.getLsbD (2 + 2 + 1 + 1 + 1 + 1 + 4 + 1 + 1 + 1 + 1)
      (0#2 ++ s.kind.code ++ bit s.codeV ++ bit s.treeV ++ bit s.entV ++ bit s.histV ++ s.phase.code ++ 0#1 ++ bit s.err ++
        bit s.done ++ bit s.busy) i := rfl

theorem statusWord_phase (s : State) : (statusWord s).extractLsb' 4 4 = s.phase.code := by
  refine extractLsb'_eq_of_bits fun i hi => ?_
  rw [statusWord_getLsbD]
  simp (disch := omega) only [BitVec.getLsbD_append, if_neg, if_pos]
  congr 1; omega

theorem statusWord_kind (s : State) : (statusWord s).extractLsb' 12 2 = s.kind.code := by
  refine extractLsb'_eq_of_bits fun i hi => ?_
  rw [statusWord_getLsbD]
  simp (disch := omega) only [BitVec.getLsbD_append, if_neg, if_pos]
  congr 1; omega

theorem statusWord_top (s : State) : (statusWord s).extractLsb' 14 2 = 0 := by
  refine extractLsb'_eq_of_bits fun i hi => ?_
  rw [statusWord_getLsbD]
  simp (disch := omega) only [BitVec.getLsbD_append, if_neg]
  exact BitVec.getLsbD_zero.trans BitVec.getLsbD_zero.symm

/-- ERRINFO bit by bit. -/
theorem errInfoWord_getLsbD (s : State) (i : Nat) :
    (errInfoWord s).getLsbD i = @BitVec.getLsbD (4 + 1 + 3) (s.errStage.code ++ 0#1 ++ s.errKind.code) i := rfl

theorem errInfoWord_kind (s : State) : (errInfoWord s).extractLsb' 0 3 = s.errKind.code := by
  refine extractLsb'_eq_of_bits fun i hi => ?_
  rw [errInfoWord_getLsbD]
  simp (disch := omega) only [BitVec.getLsbD_append, if_pos]
  congr 1; omega

theorem errInfoWord_stage (s : State) : (errInfoWord s).extractLsb' 4 4 = s.errStage.code := by
  refine extractLsb'_eq_of_bits fun i hi => ?_
  rw [errInfoWord_getLsbD]
  simp (disch := omega) only [BitVec.getLsbD_append, if_neg]
  congr 1; omega

/-- Settles O18, bit by bit; the codes are injective. -/
theorem statusHoldsItsFields : Obligations.StatusHoldsItsFields := by
  intro s
  refine ⟨?_, ?_, ?_, ?_, statusWord_phase s, ?_, ?_, ?_, ?_, statusWord_kind s, statusWord_top s, fun p n hm => ?_,
    fun k n hm => ?_⟩
  case refine_9 => exact eq_iff_field Phase.code_injective (statusWord_phase s) (by decide) hm
  case refine_10 => exact eq_iff_field CommandKind.code_injective (statusWord_kind s) (by decide) hm
  all_goals
    simp only [statusWord_getLsbD, BitVec.getLsbD_append, bit_getLsbD]
    simp

/-- Where ERR is 0 the record is empty (10_state.md R27, R44). -/
theorem SequencerOk.no_record {s : State} (h : SequencerOk s) (he : s.err = false) :
    s.errKind = .none ∧ s.errStage = .idle := by
  have hk : s.errKind = .none := by
    by_contra hne
    exact absurd (he.symm.trans (h.errFlag.mpr hne)) nofun
  have hrec := h.record
  rw [hk] at hrec
  cases hs : s.errStage with
  | idle => exact ⟨hk, rfl⟩
  | stage st => rw [hs] at hrec; cases hrec

/-- Settles O19. -/
theorem errInfoHoldsKindAndStage : Obligations.ErrInfoHoldsKindAndStage := by
  intro s
  refine ⟨errInfoWord_kind s, ?_, errInfoWord_stage s, fun hinv he => ?_, fun k n hm => ?_, fun p n hm => ?_⟩
  · simp only [errInfoWord_getLsbD, BitVec.getLsbD_append]
    simp
  · obtain ⟨hk, hs⟩ := hinv.sequencer.no_record he
    unfold errInfoWord
    rw [hk, hs]; rfl
  · exact eq_iff_field ErrKind.code_injective (errInfoWord_kind s) (by decide) hm
  · exact eq_iff_field Phase.code_injective (errInfoWord_stage s) (by decide) hm

end Sys2Proof.Machine

/-! Proofs that the words of the table memories no valid flag guards reach nothing (10_state.md R42, 93_implementation_defined.md
U11, U12): two runs side by side, from states that differ in such words only. -/

namespace Sys2Proof.Machine

/-! ### Two pieces side by side -/

/-- Two pieces end alike: both normally with one result and states `P` relates, both with an error and states `Q` relates, or
both in one fault. -/
def Res.Alike {α : Type} (P Q : State → State → Prop) : Res α → Res α → Prop
  | .ok a t, .ok b v => a = b ∧ P t v
  | .stop t, .stop v => Q t v
  | .fault f, .fault g => f = g
  | _, _ => False

section
variable {α β : Type} {P P' Q Q' : State → State → Prop}

theorem Res.Alike.mono {r r' : Res α} (h : r.Alike P Q r') (hP : ∀ t v, P t v → P' t v) (hQ : ∀ t v, Q t v → Q' t v) :
    r.Alike P' Q' r' := by
  cases r <;> cases r'
  case ok.ok => exact ⟨h.1, hP _ _ h.2⟩
  case stop.stop => exact hQ _ _ h
  case fault.fault => exact h
  all_goals exact h.elim

theorem Res.Alike.bind {r r' : Res α} {f f' : α → State → Res β} (h : r.Alike P Q r')
    (hf : ∀ a t v, P t v → (f a t).Alike P' Q (f' a v)) : (r.bind f).Alike P' Q (r'.bind f') := by
  cases r <;> cases r'
  case ok.ok a t b v => obtain ⟨rfl, h⟩ := h; exact hf a t v h
  case stop.stop => exact h
  case fault.fault => exact h
  all_goals exact h.elim

theorem Res.Alike.withPos {q : Word32} {r r' : Res α} (h : r.Alike (fun t v => P (setPos q t) (setPos q v))
    (fun t v => Q (setPos q t) (setPos q v)) r') : (r.withPos q).Alike P Q (r'.withPos q) := by
  cases r <;> cases r'
  case ok.ok => exact h
  case stop.stop => exact h
  case fault.fault => exact h
  all_goals exact h.elim

theorem forEach_alike {turn : α → State → Res Unit} (h : ∀ a t v, P t v → (turn a t).Alike P Q (turn a v)) (xs : List α) :
    ∀ t v, P t v → (forEach turn xs t).Alike P Q (forEach turn xs v) := by
  induction xs with
  | nil => exact fun _ _ hp => ⟨rfl, hp⟩
  | cons x xs ih => exact fun t v hp => (h x t v hp).bind fun _ t v hp => ih t v hp

theorem whileLoop_alike {cond : State → Bool} {turn : State → Res Unit} (hc : ∀ t v, P t v → cond v = cond t)
    (h : ∀ t v, P t v → (turn t).Alike P Q (turn v)) (n : Nat) :
    ∀ t v, P t v → (whileLoop cond turn n t).Alike P Q (whileLoop cond turn n v) := by
  induction n with
  | zero =>
    intro t v hp
    unfold whileLoop
    rw [hc t v hp]
    split
    · rfl
    · exact ⟨rfl, hp⟩
  | succ n ih =>
    intro t v hp
    unfold whileLoop
    rw [hc t v hp]
    split
    · exact (h t v hp).bind fun _ t v hp => ih t v hp
    · exact ⟨rfl, hp⟩

/-- Two pieces that end alike, each with what holds of its own end. -/
theorem Res.Alike.and {A B : State → Prop} {F G : Fault → Prop} {r r' : Res α} (h : r.Alike P Q r')
    (hl : r.Holds (fun _ t => A t) A F) (hr : r'.Holds (fun _ v => B v) B G) :
    r.Alike (fun t v => P t v ∧ A t ∧ B v) (fun t v => Q t v ∧ A t ∧ B v) r' := by
  cases r <;> cases r'
  case ok.ok => exact ⟨h.1, h.2, hl, hr⟩
  case stop.stop => exact ⟨h, hl, hr⟩
  case fault.fault => exact h
  all_goals exact h.elim

end

/-! ### Changes of the registers keep the relation -/

section
variable {s u : State}

theorem SameButStale.error (h : SameButStale s u) (e : ErrKind) : SameButStale (errorEntry e s) (errorEntry e u) :=
  ⟨by rw [h.registers]; rfl, h.hist, h.entries, h.tree, h.code⟩

theorem SameButStale.complete (h : SameButStale s u) : SameButStale (complete s) (complete u) :=
  ⟨by rw [h.registers]; rfl, h.hist, h.entries, h.tree, h.code⟩

theorem SameButStale.withPhase (h : SameButStale s u) (p : Phase) : SameButStale { s with phase := p } { u with phase := p } :=
  ⟨by rw [h.registers], h.hist, h.entries, h.tree, h.code⟩

theorem SameButStale.accept (h : SameButStale s u) (kind : CommandKind) (first : Stage) :
    SameButStale (accept kind first s) (accept kind first u) :=
  ⟨by rw [h.registers]; rfl, h.hist, h.entries, h.tree, h.code⟩

theorem SameButStale.nop (h : SameButStale s u) : SameButStale (nopEffect s) (nopEffect u) :=
  ⟨by rw [h.registers]; rfl, h.hist, h.entries, h.tree, h.code⟩

theorem SameButStale.illegal (h : SameButStale s u) : SameButStale (illegalEffect s) (illegalEffect u) :=
  ⟨by rw [h.registers]; rfl, h.hist, h.entries, h.tree, h.code⟩

/-- No flag guards anything after a reset. -/
theorem SameButStale.resetRegisters (h : SameButStale s u) : SameButStale (resetRegisters s) (resetRegisters u) :=
  ⟨by rw [h.registers]; rfl, nofun, nofun, nofun, nofun⟩

/-- Fewer flags guard fewer words. -/
theorem SameButStale.cascade (h : SameButStale s u) (st : Stage) : SameButStale (st.cascade s) (st.cascade u) := by
  have hreg := h.registers
  cases st with
  | hist => exact ⟨by rw [hreg]; rfl, nofun, nofun, nofun, nofun⟩
  | alpha => exact ⟨by rw [hreg]; rfl, h.hist, nofun, nofun, nofun⟩
  | build => exact ⟨by rw [hreg]; rfl, h.hist, h.entries, nofun, nofun⟩
  | codegen => exact ⟨by rw [hreg]; rfl, h.hist, h.entries, h.tree, nofun⟩
  | rdhdr => exact ⟨by rw [hreg]; rfl, h.hist, nofun, nofun, nofun⟩
  | wrhdr | pack | decode => exact h

theorem SameButStale.pre (h : SameButStale s u) (st : Stage) : st.pre u = st.pre s := by
  rw [h.registers]; cases st <;> rfl

theorem SameButStale.sourceByte (h : SameButStale s u) (a : Nat) : sourceByte u a = sourceByte s a := by
  rw [h.registers]; rfl

theorem SameButStale.sourceBytes (h : SameButStale s u) : sourceBytes u = sourceBytes s := by
  rw [h.registers]; rfl

end

/-- A table over the byte values. -/
theorem byteTable_ext {α : Type} {v w : Vector α 256} (h : ∀ b : Byte, v[b.toNat]'b.isLt = w[b.toNat]'b.isLt) : v = w := by
  refine Vector.ext fun i hi => ?_
  have hb : (BitVec.ofNat 8 i).toNat = i := by rw [BitVec.toNat_ofNat]; omega
  have := h (BitVec.ofNat 8 i)
  simp only [hb] at this
  exact this

/-! ### HIST and ALPHA -/

section
variable {s u : State}

theorem hist_alike (h : SameButStale s u) :
    (runStage .hist s).Alike SameButStale SameButStale (runStage .hist u) := by
  have hc := h.cascade .hist
  have hlen : u.srcLen = s.srcLen := by rw [h.registers]
  rw [runStage_pre (st := .hist) rfl, runStage_pre (st := .hist) rfl]
  change Res.Alike _ _ ((bodyHist (Stage.hist.cascade s)).bind _) ((bodyHist (Stage.hist.cascade u)).bind _)
  by_cases h0 : s.srcLen = 0
  · rw [show bodyHist (Stage.hist.cascade s) = raise .emptyInput (Stage.hist.cascade s) from if_pos h0,
      show bodyHist (Stage.hist.cascade u) = raise .emptyInput (Stage.hist.cascade u) from if_pos (hlen.trans h0)]
    exact hc.error _
  · obtain ⟨t, et, ct, pt, nt, ht⟩ := bodyHist_spec (Stage.hist.cascade s) h0
    obtain ⟨v, ev, cv, pv, nv, hv⟩ := bodyHist_spec (Stage.hist.cascade u) (fun e => h0 (hlen.symm.trans e))
    unfold HistChange at ct cv
    rw [pt, nt] at ct
    rw [pv, nv] at cv
    have hhist : v.hist = t.hist := byteTable_ext fun b => BitVec.eq_of_toNat_eq (by
      have := hc.sourceBytes
      exact (hv b).trans ((by rw [this]; exact (ht b).symm)))
    rw [et, ev]
    exact ⟨rfl, by rw [cv, ct, h.registers]; rfl, fun _ => hhist, by rw [ct]; exact nofun, by rw [ct]; exact nofun,
      by rw [ct]; exact nofun⟩

theorem countedEntries_congr (h : u.hist = s.hist) (bs : List Byte) : countedEntries u bs = countedEntries s bs := by
  have hb : ∀ b, histAt b u = histAt b s := fun b => by unfold histAt; simp only [h]
  unfold countedEntries
  simp only [hb]

theorem alpha_alike (h : SameButStale s u) (hp : s.histV = true) :
    (runStage .alpha s).Alike SameButStale SameButStale (runStage .alpha u) := by
  rw [runStage_pre (st := .alpha) hp, runStage_pre (st := .alpha) ((h.pre .alpha).trans hp)]
  change Res.Alike _ _ ((bodyAlpha (Stage.alpha.cascade s)).bind _) ((bodyAlpha (Stage.alpha.cascade u)).bind _)
  obtain ⟨t, et, ct, ht⟩ := bodyAlpha_spec (Stage.alpha.cascade s)
  obtain ⟨v, ev, cv, hv⟩ := bodyAlpha_spec (Stage.alpha.cascade u)
  rw [countedEntries_congr (s := Stage.alpha.cascade s) (u := Stage.alpha.cascade u) (h.hist hp)] at hv
  have hk : v.k = t.k := BitVec.eq_of_toNat_eq (hv.count.trans ht.count.symm)
  unfold AlphaChange at ct cv
  rw [hk] at cv
  rw [et, ev]
  exact ⟨rfl, by rw [cv, ct, h.registers]; rfl, by rw [cv, ct]; exact h.hist, fun _ => hv.entryList.trans ht.entryList.symm,
    by rw [ct]; exact nofun, by rw [ct]; exact nofun⟩

end

end Sys2Proof.Machine

namespace Sys2Proof.Machine

/-! The stages side by side: each writes its table memories before it reads them, or reads what a flag guards. -/

/-! ### Two trees with the same words -/

/-- Two built trees over the same nodes. The words from NODE_CNT on may differ. -/
structure TreeTwin (s u : State) : Prop where
  tree : TreeOk s
  twin : TreeOk u
  root : u.root = s.root
  words : Agree s u (2 * s.k.toNat - 1)

section
variable {s u : State}

theorem SameButStale.treeTwin (h : SameButStale s u) (hs : Tables s) (hu : Tables u) (ht : s.treeV = true) : TreeTwin s u := by
  have htu : u.treeV = true := by rw [h.registers]; exact ht
  have hcnt := (hs.tree ht).count
  have words := fun i hi => h.tree ht i (hcnt ▸ hi)
  exact ⟨hs.tree ht, hu.tree htu, by rw [h.registers], by rw [h.registers], fun i hi => (words i hi).1,
    fun i hi => (words i hi).2.1, fun i hi => (words i hi).2.2.1, fun i hi => (words i hi).2.2.2⟩

theorem TreeTwin.congr {t v : State} (h : TreeTwin s u) (hs : SameTree s t) (hu : SameTree u v) : TreeTwin t v := by
  obtain ⟨htree, htwin, hroot, ⟨hcnt, hfreq, hsym, hleft, hright⟩⟩ := h
  refine ⟨htree.congr hs, htwin.congr hu, by rw [hs.root, hu.root, hroot], ?_⟩
  rw [hs.k]
  exact ⟨by rw [hs.nodeCnt, hu.nodeCnt, hcnt], by rw [hs.nodeFreq, hu.nodeFreq]; exact hfreq,
    by rw [hs.nodeSym, hu.nodeSym]; exact hsym, by rw [hs.nodeLeft, hu.nodeLeft]; exact hleft,
    by rw [hs.nodeRight, hu.nodeRight]; exact hright⟩

theorem TreeTwin.leafNode (h : TreeTwin s u) {n : Ref} (hn : n.toNat < 2 * s.k.toNat - 1) :
    leafNode u n = leafNode s n := by
  unfold Machine.leafNode
  rw [h.words.left _ hn, h.words.right _ hn]

theorem TreeTwin.leafRoot (h : TreeTwin s u) : Machine.leafNode u u.root = Machine.leafNode s s.root := by
  rw [h.root]; exact h.leafNode h.tree.root_lt

theorem TreeTwin.childAt (h : TreeTwin s u) {n : Ref} (hn : n.toNat < 2 * s.k.toNat - 1) (b : Bool) :
    childAt u n b = childAt s n b := by
  unfold Machine.childAt
  rw [h.words.left _ hn, h.words.right _ hn]

theorem TreeTwin.follow (h : TreeTwin s u) (p : List Bool) : ∀ n : Ref, n.toNat < 2 * s.k.toNat - 1 →
    follow u n p = follow s n p := by
  induction p with
  | nil => intro n _; rfl
  | cons b p ih =>
    intro n hn
    cases hl : Machine.leafNode s n with
    | true => rw [follow_leaf hl, follow_leaf ((h.leafNode hn).trans hl)]
    | false =>
      have hk : s.k.toNat ≤ n.toNat := by
        by_contra hk
        exact absurd (hl.symm.trans ((h.tree.leaf_iff hn).mpr (by omega))) nofun
      obtain ⟨c, hc, hlt, hne⟩ := h.tree.child hk hn b
      rw [follow_cons_some hc hne, follow_cons_some ((h.childAt hn b).trans hc) hne, ih c (by omega)]

theorem TreeTwin.leafPath (h : TreeTwin s u) (p : List Bool) (b : Byte) : LeafPath u p b ↔ LeafPath s p b := by
  unfold LeafPath
  rw [h.root, h.follow p s.root h.tree.root_lt]
  refine exists_congr fun n => and_congr_right fun hf => ?_
  obtain ⟨hn, -⟩ := h.tree.follow_bound p _ _ h.tree.root_lt hf
  rw [h.leafNode hn, h.words.sym _ hn]

theorem leftOf_asymm {p q : List Bool} (h : leftOf p q = true) : leftOf q p = false := by
  induction p generalizing q with
  | nil => cases h
  | cons b p ih =>
    match b, q with
    | false, false :: q => exact ih h
    | true, true :: q => exact ih h
    | false, true :: q => rfl

/-- The table of 44_code_table.md R186 is one only. -/
theorem TreeTwin.codes (h : TreeTwin s u) (hs : CodeTableOk s) (hu : CodeTableOk u) (b : Byte) : codeOf b u = codeOf b s := by
  cases hr : Machine.leafNode s s.root with
  | true => rw [hs.single hr b, hu.single (h.leafRoot.trans hr) b, h.root, h.words.sym _ h.tree.root_lt]
  | false =>
    obtain ⟨es, ns⟩ | ⟨ps, ms⟩ := hs.paths hr b <;> obtain ⟨eu, nu⟩ | ⟨pu, mu⟩ := hu.paths (h.leafRoot.trans hr) b
    · rw [es, eu]
    · exact absurd ((h.leafPath _ b).mp pu) (ns _)
    · exact absurd ((h.leafPath _ b).mpr ps) (nu _)
    · rcases ms _ ((h.leafPath _ b).mp pu) with e | l
      · exact e
      · rcases mu _ ((h.leafPath _ b).mpr ps) with e | l'
        · exact e.symm
        · rw [leftOf_asymm l] at l'; cases l'

/-- The CODE words are given by the codes. -/
theorem CodeTableOk.words (hs : CodeTableOk s) (hu : CodeTableOk u) (h : ∀ b, codeOf b u = codeOf b s) :
    u.codeLen = s.codeLen ∧ u.codeBits = s.codeBits := by
  have hlen : ∀ b, codeLenAt b u = codeLenAt b s := fun b => BitVec.eq_of_toNat_eq (by
    have := congrArg List.length (h b)
    simpa [codeOf] using this)
  refine ⟨byteTable_ext hlen, byteTable_ext fun b => BitVec.eq_of_getLsbD_eq fun i _ => ?_⟩
  show (codeBitsAt b u).getLsbD i = (codeBitsAt b s).getLsbD i
  by_cases hi : i < (codeLenAt b s).toNat
  · have := congrArg (·[i]?) (h b)
    simpa [codeOf, hlen b, hi] using this
  · rw [hs.above b i (by omega), hu.above b i (by rw [hlen b]; omega)]

/-! ### BUILD and CODEGEN -/

theorem build_alike (h : SameButStale s u) (hs : Tables s) (hp : s.entV = true) :
    (runStage .build s).Alike SameButStale SameButStale (runStage .build u) := by
  rw [runStage_pre (st := .build) hp, runStage_pre (st := .build) ((h.pre .build).trans hp)]
  change Res.Alike _ _ ((bodyBuild (Stage.build.cascade s)).bind _) ((bodyBuild (Stage.build.cascade u)).bind _)
  obtain ⟨x, y, t, w, et, ew, fx, ht, fy, hw, agree⟩ := bodyBuild_agree (s := Stage.build.cascade s)
    (s' := Stage.build.cascade u) (hs.kRange.2 hp) hs.kRange.1 (by rw [h.registers]; rfl) (h.entries hp)
  have hsize : w.heapSize = t.heapSize := BitVec.eq_of_toNat_eq (by
    rw [hw, ht]; exact fy.heap.size.trans fx.heap.size.symm)
  have hroot : w.root = t.root := by rw [hw]
  have hcnt : t.nodeCnt.toNat = 2 * s.k.toNat - 1 := by rw [ht]; exact fx.count
  have ct : BuildChange (Stage.build.cascade s) t := buildChange.trans _ _ _ fx.change (by rw [ht]; rfl)
  have cw : BuildChange (Stage.build.cascade u) w := buildChange.trans _ _ _ fy.change (by rw [hw]; rfl)
  unfold BuildChange at ct cw
  rw [agree.count, hroot, hsize] at cw
  rw [et, ew]
  refine ⟨rfl, by rw [cw, ct, h.registers]; rfl, by rw [cw, ct]; exact h.hist, by rw [cw, ct]; exact h.entries,
    fun _ i hi => ?_, by rw [ct]; exact nofun⟩
  have hi : i < 2 * s.k.toNat - 1 := hcnt ▸ hi
  exact ⟨agree.freq i hi, agree.sym i hi, agree.left i hi, agree.right i hi⟩

theorem codegen_alike (h : SameButStale s u) (hs : Tables s) (hu : Tables u) (hp : s.treeV = true) :
    (runStage .codegen s).Alike SameButStale SameButStale (runStage .codegen u) := by
  rw [runStage_pre (st := .codegen) hp, runStage_pre (st := .codegen) ((h.pre .codegen).trans hp)]
  change Res.Alike _ _ ((bodyCodegen (Stage.codegen.cascade s)).bind _) ((bodyCodegen (Stage.codegen.cascade u)).bind _)
  have twin := h.treeTwin hs hu hp
  obtain ⟨t, et, ct, kt⟩ := bodyCodegen_spec (s := Stage.codegen.cascade s)
    (TreeOk.congr (s := s) ⟨rfl, rfl, rfl, rfl, rfl, rfl, rfl, rfl, rfl⟩ twin.tree)
  obtain ⟨v, ev, cv, kv⟩ := bodyCodegen_spec (s := Stage.codegen.cascade u)
    (TreeOk.congr (s := u) ⟨rfl, rfl, rfl, rfl, rfl, rfl, rfl, rfl, rfl⟩ twin.twin)
  have twin' : TreeTwin t v := twin.congr (by rw [ct]; exact ⟨rfl, rfl, rfl, rfl, rfl, rfl, rfl, rfl, rfl⟩)
    (by rw [cv]; exact ⟨rfl, rfl, rfl, rfl, rfl, rfl, rfl, rfl, rfl⟩)
  obtain ⟨hlen, hbits⟩ := kt.words kv (twin'.codes kt kv)
  rw [et, ev]
  exact ⟨rfl, by rw [cv, ct, h.registers]; rfl, by rw [cv, ct]; exact h.hist, by rw [cv, ct]; exact h.entries,
    by rw [cv, ct]; exact h.tree, fun _ => ⟨hlen, hbits⟩⟩

/-! ### WRHDR and PACK -/

theorem wrhdr_alike (h : SameButStale s u) (hs : Tables s) (hu : Tables u) (hp : s.entV = true) :
    (runStage .wrhdr s).Alike SameButStale SameButStale (runStage .wrhdr u) := by
  rw [runStage_pre (st := .wrhdr) hp, runStage_pre (st := .wrhdr) ((h.pre .wrhdr).trans hp)]
  change Res.Alike _ _ ((bodyWrhdr s).bind _) ((bodyWrhdr u).bind _)
  rw [bodyWrhdr_spec s hs.kRange.1, bodyWrhdr_spec u hu.kRange.1, h.entries hp]
  exact ⟨rfl, by rw [h.registers]; rfl, h.hist, h.entries, h.tree, h.code⟩

theorem pack_alike (h : SameButStale s u) (hp : s.codeV = true) :
    (runStage .pack s).Alike SameButStale SameButStale (runStage .pack u) := by
  rw [runStage_pre (st := .pack) hp, runStage_pre (st := .pack) ((h.pre .pack).trans hp)]
  change Res.Alike _ _ ((bodyPack s).bind _) ((bodyPack u).bind _)
  obtain ⟨hl, hb⟩ := h.code hp
  have hcode : ∀ b, codeOf b u = codeOf b s := codeOf_congr hl hb
  have hbits : ∀ bs, codeBits u bs = codeBits s bs := fun bs => by unfold codeBits; simp only [hcode]
  by_cases hall : ∀ b ∈ sourceBytes s, codeOf b s ≠ []
  · rw [bodyPack_coded s hall, bodyPack_coded u (by simpa only [h.sourceBytes, hcode] using hall), hbits, h.sourceBytes]
    exact ⟨rfl, by rw [h.registers]; rfl, h.hist, h.entries, h.tree, h.code⟩
  · have hex : ∃ p, p < s.srcLen.toNat ∧ codeOf (sourceByte s p) s = [] := by
      push Not at hall
      obtain ⟨b, hb, hc⟩ := hall
      obtain ⟨p, hp, rfl⟩ := List.mem_map.mp hb
      exact ⟨p, List.mem_range.mp hp, hc⟩
    classical
    obtain ⟨hlt, hbad⟩ := Nat.find_spec hex
    have hgood : ∀ i, i < Nat.find hex → codeOf (sourceByte s i) s ≠ [] := fun i hi hc =>
      Nat.find_min hex hi ⟨by omega, hc⟩
    have htake : sourceTake u (Nat.find hex) = sourceTake s (Nat.find hex) := List.map_congr_left fun a _ => h.sourceByte a
    rw [bodyPack_uncoded s hlt hgood hbad, bodyPack_uncoded u (p := Nat.find hex) (by rw [h.registers]; exact hlt)
      (fun i hi => by rw [h.sourceByte, hcode]; exact hgood i hi) (by rw [h.sourceByte, hcode]; exact hbad), hbits, htake]
    refine SameButStale.error (s := packed (codeBits s (sourceTake s (Nat.find hex)))
      { s with srcPos := BitVec.ofNat 32 (Nat.find hex + 1), bitBuf := 0, bitCnt := 0 }) ?_ _
    exact ⟨by rw [h.registers]; rfl, h.hist, h.entries, h.tree, h.code⟩

/-! ### RDHDR -/

/-- No flag guards the table memories that RDHDR and what follows it write. -/
def NothingGuarded (s : State) : Prop := s.entV = false ∧ s.treeV = false ∧ s.codeV = false

/-- The two states of one RDHDR, whatever it put into K, the entry list and SRC_POS. -/
theorem RdhdrChange.sameButStale {t v : State} (h : SameButStale s u) (hs : NothingGuarded s) (ct : RdhdrChange s t)
    (cv : RdhdrChange u v) (hk : v.k = t.k) (hp : v.srcPos = t.srcPos) : SameButStale t v := by
  obtain ⟨hent, htree, hcode⟩ := hs
  unfold RdhdrChange at ct cv
  rw [hk, hp] at cv
  refine ⟨by rw [cv, ct, h.registers], by rw [cv, ct]; exact h.hist, fun e => ?_, fun e => ?_, fun e => ?_⟩
  · rw [ct] at e; exact nomatch hent.symm.trans e
  · rw [ct] at e; exact nomatch htree.symm.trans e
  · rw [ct] at e; exact nomatch hcode.symm.trans e

theorem SameButStale.headerCount (h : SameButStale s u) : headerCount u = headerCount s := by
  unfold Machine.headerCount; simp only [h.sourceByte]

theorem SameButStale.headerEntry (h : SameButStale s u) : headerEntry u = headerEntry s := funext fun i => by
  unfold Machine.headerEntry; simp only [h.sourceByte]

/-- Two states with one entry list. -/
def SameEntries (t v : State) : Prop := SameButStale t v ∧ entryList v = entryList t

theorem rdhdrEntries_alike (h : SameButStale s u) (hs : NothingGuarded s) (h4 : 4 ≤ s.srcLen.toNat)
    (h1 : 1 ≤ (headerCount s).toNat) (h256 : (headerCount s).toNat ≤ 256) :
    (bodyRdhdr s).Alike SameEntries SameButStale (bodyRdhdr u) := by
  have hlen : u.srcLen = s.srcLen := by rw [h.registers]
  have hcount := h.headerCount
  obtain ⟨fullS, shortS⟩ := bodyRdhdr_entries h4 h1 h256
  obtain ⟨fullU, shortU⟩ := bodyRdhdr_entries (s := u) (by rw [hlen]; exact h4) (by rw [hcount]; exact h1)
    (by rw [hcount]; exact h256)
  rw [hcount, hlen] at fullU shortU
  by_cases hfit : 4 + 5 * (headerCount s).toNat ≤ s.srcLen.toNat
  · obtain ⟨t, et, ct, pt, kt⟩ := fullS hfit
    obtain ⟨v, ev, cv, pv, kv⟩ := fullU hfit
    rw [h.headerEntry] at kv
    rw [et, ev]
    exact ⟨rfl, ct.sameButStale h hs cv (BitVec.eq_of_toNat_eq (kv.count.trans kt.count.symm))
      (BitVec.eq_of_toNat_eq (pv.trans pt.symm)), kv.entryList.trans kt.entryList.symm⟩
  · obtain ⟨t, -, et, ct, pt, -, kt, -⟩ := shortS (by omega)
    obtain ⟨v, -, ev, cv, pv, -, kv, -⟩ := shortU (by omega)
    rw [et, ev]
    exact (ct.sameButStale h hs cv (BitVec.eq_of_toNat_eq (kv.trans kt.symm)) (pv.trans pt.symm)).error _

theorem bodyRdhdr_alike (h : SameButStale s u) (hs : NothingGuarded s) :
    (bodyRdhdr s).Alike SameEntries SameButStale (bodyRdhdr u) := by
  have hlen : u.srcLen = s.srcLen := by rw [h.registers]
  have hcount := h.headerCount
  have moved : ∀ p q : Word32, q = p → SameButStale { s with srcPos := p } { u with srcPos := q } := fun p q e =>
    ⟨by rw [e, h.registers], h.hist, h.entries, h.tree, h.code⟩
  by_cases h4 : s.srcLen.toNat < 4
  · rw [bodyRdhdr_tiny h4, bodyRdhdr_tiny (by rw [hlen]; exact h4)]
    exact (moved s.srcLen u.srcLen hlen).error .corruptHeader
  by_cases hk : headerCount s = 0 ∨ 256 < (headerCount s).toNat
  · rw [bodyRdhdr_count (by omega) hk, bodyRdhdr_count (by rw [hlen]; omega) (by rw [hcount]; exact hk)]
    exact (moved 4 4 rfl).error .corruptHeader
  · push Not at hk
    obtain ⟨h0, h256⟩ := hk
    exact rdhdrEntries_alike h hs (by omega) (Nat.one_le_iff_ne_zero.mpr fun z => h0 (BitVec.eq_of_toNat_eq z)) h256

theorem rdhdr_alike (h : SameButStale s u) :
    (runStage .rdhdr s).Alike SameButStale SameButStale (runStage .rdhdr u) := by
  rw [runStage_pre (st := .rdhdr) rfl, runStage_pre (st := .rdhdr) rfl]
  refine (bodyRdhdr_alike (h.cascade .rdhdr) ⟨rfl, rfl, rfl⟩).bind fun _ t v ⟨hreg, hent⟩ => ?_
  exact ⟨rfl, by rw [hreg.registers]; rfl, hreg.hist, fun _ => hent, hreg.tree, hreg.code⟩

/-! ### DECODE -/

/-- Both decoders are at the same node, have emitted the same symbols and read the same bytes. -/
def BothDecoding (s u x y : State) : Prop :=
  ∃ n out p, x = setPos p (decoding s (freqSum (entryList s)) n out) ∧
    y = setPos p (decoding u (freqSum (entryList s)) n out) ∧ out.length ≤ freqSum (entryList s) ∧
    n.toNat < 2 * s.k.toNat - 1 ∧ leafNode s n = leafNode s s.root

theorem BothDecoding.stale {x y : State} (h : SameButStale s u) (hd : BothDecoding s u x y) : SameButStale x y := by
  obtain ⟨n, out, p, rfl, rfl, -⟩ := hd
  exact ⟨by rw [h.registers]; rfl, h.hist, h.entries, h.tree, h.code⟩

/-- Both states take one BitStep to the same node of the tree and the same symbols, or both meet a 1 bit at a single leaf
(46_deserializer.md R208, R209). -/
def SameBitStep (s u : State) (total : Nat) (n : Ref) (out : List Byte) (v : Bool) : Prop :=
  (∃ m out', bitStep v (decoding s total n out) = .ok () (decoding s total m out') ∧
    bitStep v (decoding u total n out) = .ok () (decoding u total m out') ∧ out'.length ≤ total ∧
    m.toNat < 2 * s.k.toNat - 1 ∧ leafNode s m = leafNode s s.root) ∨
  (bitStep v (decoding s total n out) = raise .corruptStream (decoding s total n out) ∧
    bitStep v (decoding u total n out) = raise .corruptStream (decoding u total n out))

section
variable {total : Nat} {n : Ref} {out : List Byte}

theorem TreeTwin.symAt (h : TreeTwin s u) {m : Ref} (hm : m.toNat < 2 * s.k.toNat - 1) :
    ∃ sym, s.nodeSym[m.toNat]? = some sym ∧ u.nodeSym[m.toNat]? = some sym :=
  ⟨_, Vector.getElem?_eq_getElem (h.tree.lt511 hm),
    (h.words.sym _ hm).trans (Vector.getElem?_eq_getElem (h.tree.lt511 hm))⟩

theorem TreeTwin.count (h : TreeTwin s u) : u.k.toNat = s.k.toNat := by
  have := h.tree.root
  have := h.twin.root
  have := h.tree.kRange
  have := h.twin.kRange
  have := congrArg BitVec.toNat h.root
  omega

/-- A leaf that is the root is the only node. -/
theorem leafRoot_unique (ht : TreeOk s) (hn : n.toNat < 2 * s.k.toNat - 1) (hl : leafNode s n = true)
    (hr : leafNode s s.root = true) : n = s.root := by
  have := (ht.leaf_iff hn).mp hl
  have := (ht.leaf_iff ht.root_lt).mp hr
  have := ht.root
  have := ht.kRange
  exact BitVec.eq_of_toNat_eq (by omega)

theorem TreeTwin.bitStep_leaf (h : TreeTwin s u) (ho : out.length < total) (hr : Machine.leafNode s s.root = true) (v : Bool) :
    SameBitStep s u total s.root out v := by
  obtain ⟨sym, hs, hu⟩ := h.symAt h.tree.root_lt
  obtain ⟨s0, s1⟩ := Machine.bitStep_leaf h.tree hr hs total out
  obtain ⟨u0, u1⟩ := Machine.bitStep_leaf h.twin (h.leafRoot.trans hr) (h.root.symm ▸ hu) total out
  rw [h.root] at u0 u1
  cases v with
  | false => exact .inl ⟨s.root, out ++ [sym], s0, u0, by rw [List.length_append]; exact ho, h.tree.root_lt, rfl⟩
  | true => exact .inr ⟨s1, u1⟩

theorem TreeTwin.bitStep_inner (h : TreeTwin s u) (ho : out.length < total) (hr : Machine.leafNode s s.root = false)
    (hn : n.toNat < 2 * s.k.toNat - 1) (hl : Machine.leafNode s n = false) (v : Bool) : SameBitStep s u total n out v := by
  have ht := h.tree
  have hkn : s.k.toNat ≤ n.toNat := by
    by_contra hkn
    exact absurd (hl.symm.trans ((ht.leaf_iff hn).mpr (by omega))) nofun
  obtain ⟨c, hc, hcn, hne⟩ := ht.child hkn hn v
  have hcl : c.toNat < 2 * s.k.toNat - 1 := by omega
  unfold SameBitStep
  rw [Machine.bitStep_inner ht hr hn hc hne hcn, Machine.bitStep_inner h.twin (h.leafRoot.trans hr) (by rw [h.count]; exact hn)
    ((h.childAt hn v).trans hc) hne hcn, h.leafNode hcl]
  cases hlc : Machine.leafNode s c with
  | true =>
    obtain ⟨sym, hs, hu⟩ := h.symAt hcl
    rw [if_pos rfl, if_pos rfl, emitLeaf_ok hs, emitLeaf_ok hu, h.root]
    exact .inl ⟨s.root, out ++ [sym], rfl, rfl, by rw [List.length_append]; exact ho, ht.root_lt, rfl⟩
  | false => exact .inl ⟨c, out, rfl, rfl, by omega, hcl, hlc.trans hr.symm⟩

/-- BitStep below the last symbol does the same on both trees. -/
theorem TreeTwin.bitStep (h : TreeTwin s u) (ho : out.length < total) (hn : n.toNat < 2 * s.k.toNat - 1)
    (hl : Machine.leafNode s n = Machine.leafNode s s.root) (v : Bool) : SameBitStep s u total n out v := by
  cases hr : Machine.leafNode s s.root with
  | true =>
    obtain rfl := leafRoot_unique h.tree hn (hl.trans hr) hr
    exact h.bitStep_leaf ho hr v
  | false => exact h.bitStep_inner ho hr hn (hl.trans hr) v

end

theorem runBit_alike (h : SameButStale s u) (twin : TreeTwin s u) (hlt : freqSum (entryList s) < 2 ^ 40) (v : Bool)
    {x y : State} (hd : BothDecoding s u x y) : (runBit v x).Alike (BothDecoding s u) SameButStale (runBit v y) := by
  obtain ⟨n, out, p, rfl, rfl, ho, hn, hl⟩ := hd
  rw [runBit_pos, runBit_pos]
  apply Res.Alike.withPos
  by_cases hfull : out.length = freqSum (entryList s)
  · unfold runBit
    rw [if_pos (decoding_done s _ n hfull), if_pos (decoding_done u _ n hfull)]
    exact ⟨rfl, n, out, p, rfl, rfl, ho, hn, hl⟩
  · have hlt' : out.length < freqSum (entryList s) := by omega
    rw [runBit_open v (decoding_open hlt hlt'), runBit_open v (decoding_open hlt hlt')]
    obtain ⟨m, out', es, eu, ho', hm, hl'⟩ | ⟨es, eu⟩ := twin.bitStep hlt' hn hl v
    · rw [es, eu]
      exact ⟨rfl, m, out', p, rfl, rfl, ho', hm, hl'⟩
    · rw [es, eu]
      exact (BothDecoding.stale h ⟨n, out, p, rfl, rfl, ho, hn, hl⟩).error .corruptStream

theorem decodeTurn_alike (h : SameButStale s u) (twin : TreeTwin s u) (hlt : freqSum (entryList s) < 2 ^ 40)
    {x y : State} (hd : BothDecoding s u x y) : (decodeTurn x).Alike (BothDecoding s u) SameButStale (decodeTurn y) := by
  have hst := hd.stale h
  have hpos : y.srcPos = x.srcPos := by rw [hst.registers]
  have hlen : y.srcLen = x.srcLen := by rw [hst.registers]
  unfold decodeTurn srcGet
  by_cases hlt' : x.srcPos < x.srcLen
  · rw [if_pos hlt', if_pos (by rw [hpos, hlen]; exact hlt'), hpos]
    dsimp only
    rw [hst.sourceByte, byteTurn_eq, byteTurn_eq]
    refine forEach_alike (fun v _ _ hd => runBit_alike h twin hlt v hd) _ _ _ ?_
    obtain ⟨n, out, p, rfl, rfl, rest⟩ := hd
    exact ⟨n, out, p + 1, rfl, rfl, rest⟩
  · rw [if_neg hlt', if_neg (by rw [hpos, hlen]; exact hlt')]
    exact hst.error .unexpectedEOF

theorem decode_alike (h : SameButStale s u) (hs : Tables s) (hu : Tables u) (hp : s.entV = true ∧ s.treeV = true) :
    (runStage .decode s).Alike SameButStale SameButStale (runStage .decode u) := by
  have twin := h.treeTwin hs hu hp.2
  have hpre : Stage.decode.pre s = true := Bool.and_eq_true_iff.mpr hp
  rw [runStage_pre hpre, runStage_pre ((h.pre .decode).trans hpre)]
  change Res.Alike _ _ ((bodyDecode s).bind _) ((bodyDecode u).bind _)
  have hleft : bytesLeft u = bytesLeft s := by rw [h.registers]; rfl
  rw [bodyDecode_loop s hs.kRange.1, bodyDecode_loop u hu.kRange.1, h.entries hp.1, hleft, twin.root]
  have hloop := whileLoop_alike (P := BothDecoding s u) (Q := SameButStale) (cond := fun s => decide (s.decCnt < s.totalSym))
    (fun x y hd => by rw [(hd.stale h).registers]) (fun x y hd => decodeTurn_alike h twin (freqSum_entries s hs.kRange.1) hd)
    ((bytesLeft s).length + 1) (decoding s (freqSum (entryList s)) s.root []) (decoding u (freqSum (entryList s)) s.root [])
    ⟨s.root, [], s.srcPos, rfl, by rw [h.registers]; rfl, Nat.zero_le _, twin.tree.root_lt, rfl⟩
  exact Res.Alike.bind hloop fun _ t v hd => ⟨rfl, hd.stale h⟩

/-! ### Every stage -/

/-- A stage does the same in both states, and its results differ only so. -/
theorem runStage_alike (st : Stage) (h : SameButStale s u) (hs : Tables s) (hu : Tables u) :
    (runStage st s).Alike SameButStale SameButStale (runStage st u) := by
  by_cases hp : st.pre s = true
  · cases st with
    | hist => exact hist_alike h
    | alpha => exact alpha_alike h hp
    | build => exact build_alike h hs hp
    | codegen => exact codegen_alike h hs hu hp
    | wrhdr => exact wrhdr_alike h hs hu hp
    | pack => exact pack_alike h hp
    | rdhdr => exact rdhdr_alike h
    | decode => exact decode_alike h hs hu (Bool.and_eq_true_iff.mp hp)
  · unfold runStage
    rw [if_neg hp, if_neg (by rw [h.pre]; exact hp)]
    exact h.error _

end

end Sys2Proof.Machine

namespace Sys2Proof.Machine

/-! ### Commands and host actions side by side -/

/-- Two states that differ in unguarded words only, both with tables in order. -/
structure StaleTwin (s u : State) : Prop where
  same : SameButStale s u
  left : Tables s
  right : Tables u

section
variable {s u : State}

theorem StaleTwin.phase (h : StaleTwin s u) : u.phase = s.phase := by rw [h.same.registers]
theorem StaleTwin.kind (h : StaleTwin s u) : u.kind = s.kind := by rw [h.same.registers]
theorem StaleTwin.busy (h : StaleTwin s u) : u.busy = s.busy := by rw [h.same.registers]

theorem StaleTwin.withPhase (h : StaleTwin s u) (p : Phase) : StaleTwin { s with phase := p } { u with phase := p } :=
  ⟨h.same.withPhase p, h.left.congr rfl, h.right.congr rfl⟩

theorem StaleTwin.complete (h : StaleTwin s u) : StaleTwin (complete s) (complete u) :=
  ⟨h.same.complete, h.left.congr rfl, h.right.congr rfl⟩

theorem StaleTwin.accept (h : StaleTwin s u) (kind : CommandKind) (first : Stage) :
    StaleTwin (accept kind first s) (accept kind first u) :=
  ⟨h.same.accept kind first, h.left.congr rfl, h.right.congr rfl⟩

theorem StaleTwin.runStage (h : StaleTwin s u) (st : Stage) :
    (runStage st s).Alike StaleTwin StaleTwin (runStage st u) :=
  ((runStage_alike st h.same h.left h.right).and (runStage_tables st h.left) (runStage_tables st h.right)).mono
    (fun _ _ ⟨hs, hl, hr⟩ => ⟨hs, hl, hr⟩) (fun _ _ ⟨hs, hl, hr⟩ => ⟨hs, hl, hr⟩)

theorem StaleTwin.stageTurn (h : StaleTwin s u) (st : Stage) :
    (stageTurn st s).Alike StaleTwin StaleTwin (stageTurn st u) := by
  refine (h.runStage st).bind fun _ t v htv => ?_
  rw [htv.kind]
  cases nextStage t.kind st with
  | none => rfl
  | some p => exact ⟨rfl, by simpa only [htv.kind] using htv.withPhase p⟩

theorem StaleTwin.stageStep (h : StaleTwin s u) : (stageStep s).Alike StaleTwin StaleTwin (stageStep u) := by
  unfold Machine.stageStep
  rw [h.phase]
  cases s.phase with
  | idle => exact ⟨rfl, h.complete⟩
  | stage st =>
    refine (h.stageTurn st).bind fun _ t v htv => ?_
    rw [htv.phase]
    cases t.phase with
    | idle => exact ⟨rfl, htv.complete⟩
    | stage _ => exact ⟨rfl, htv⟩

theorem StaleTwin.commandLoop (n : Nat) (h : StaleTwin s u) :
    (commandLoop n s).Alike StaleTwin StaleTwin (commandLoop n u) := by
  induction n generalizing s u with
  | zero =>
    unfold Machine.commandLoop
    rw [h.phase]
    cases s.phase with
    | idle => exact ⟨rfl, h.complete⟩
    | stage st => rfl
  | succ n ih =>
    unfold Machine.commandLoop
    rw [h.phase]
    cases s.phase with
    | idle => exact ⟨rfl, h.complete⟩
    | stage st => exact (h.stageTurn st).bind fun _ _ _ htv => ih htv

end

/-- Where the first outcome is a next state, the second is one that differs from it in unguarded words only. -/
def Follows (o o' : Host.Outcome State Fault Refusal) : Prop := ∀ t, o = .next t → ∃ v, o' = .next v ∧ SameButStale t v

theorem Follows.next {t v : State} (h : SameButStale t v) : Follows (.next t) (.next v) := by
  rintro _ ⟨⟩; exact ⟨v, rfl, h⟩

theorem Res.Alike.follows {r r' : Res Unit} (h : r.Alike StaleTwin StaleTwin r') : Follows r.toOutcome r'.toOutcome := by
  cases r <;> cases r'
  case ok.ok => exact .next h.2.same
  case stop.stop => exact .next h.same
  case fault.fault => exact fun _ ht => by cases ht
  all_goals exact h.elim

section
variable {s u : State}

theorem SameButStale.busy (h : SameButStale s u) : u.busy = s.busy := by rw [h.registers]

theorem StaleTwin.advance (h : StaleTwin s u) : Follows (advance s) (advance u) := by
  unfold Machine.advance
  rw [h.busy]
  split
  · exact h.stageStep.follows
  · exact .next h.same

theorem StaleTwin.runCommand (h : StaleTwin s u) (kind : CommandKind) (first : Stage) :
    Follows (runCommand kind first s) (runCommand kind first u) := by
  unfold Machine.runCommand
  rw [h.busy]
  split
  · exact .next h.same
  · exact ((h.accept kind first).commandLoop 6).follows

theorem SameButStale.startCommand (h : SameButStale s u) (i : Instr) : SameButStale (startCommand i s) (startCommand i u) := by
  cases i with
  | nop => exact h.nop
  | clear => exact ⟨by rw [h.registers]; rfl, nofun, nofun, nofun, nofun⟩
  | hist | alpha | build | codegen | wrhdr | pack | rdhdr | decode | compress | decompress => exact h.accept _ _

theorem StaleTwin.exec (h : StaleTwin s u) (i : Instr) : Follows (exec i s) (exec i u) := by
  obtain ⟨hexec, -⟩ | ⟨kind, first, -, -, hexec⟩ := command_cases i
  · rw [hexec, hexec, h.busy]
    split
    · exact .next h.same
    · exact .next (h.same.startCommand i)
  · rw [hexec, hexec]
    exact h.runCommand kind first

theorem StaleTwin.hostCommand (h : StaleTwin s u) (w : Byte) : Follows (hostCommand w s) (hostCommand w u) := by
  unfold Machine.hostCommand
  split
  · exact h.exec _
  · rw [h.busy]
    split
    · exact .next h.same
    · exact .next h.same.illegal

theorem SameButStale.writeCmd (h : SameButStale s u) (w : Byte) : SameButStale (writeCmd w s) (writeCmd w u) := by
  unfold Machine.writeCmd
  rw [h.busy]
  split
  · exact h
  · split
    · exact h.startCommand _
    · exact h.illegal

theorem SameButStale.hostWrite (h : SameButStale s u) (reg : Nat) (v : BusWord) :
    SameButStale (hostWrite reg v s) (hostWrite reg v u) := by
  unfold Machine.hostWrite
  split
  · exact h.writeCmd _
  · split
    · rw [h.busy]
      split
      · exact h
      · exact ⟨by rw [h.registers], h.hist, h.entries, h.tree, h.code⟩
    · exact h

/-- No host register shows a word of a table memory. -/
theorem SameButStale.regValue (h : SameButStale s u) (reg : Nat) : regValue reg u = regValue reg s := by
  rw [h.registers]; rfl

theorem SameButStale.hostRead (h : SameButStale s u) (reg : Nat) : SameButStale (hostRead reg s) (hostRead reg u) := by
  unfold Machine.hostRead
  rw [h.busy, h.regValue]
  split
  · exact ⟨by rw [h.registers], h.hist, h.entries, h.tree, h.code⟩
  · exact ⟨by rw [h.registers], h.hist, h.entries, h.tree, h.code⟩

theorem SameButStale.hostPlaceSource (h : SameButStale s u) (bytes : List Byte) :
    Follows (hostPlaceSource bytes s) (hostPlaceSource bytes u) := by
  unfold Machine.hostPlaceSource
  rw [h.busy]
  split
  · exact fun _ ht => by cases ht
  · exact .next ⟨by rw [h.registers], h.hist, h.entries, h.tree, h.code⟩

/-- Every host action does the same in both states. -/
theorem StaleTwin.perform (h : StaleTwin s u) (a : HostAction) : Follows (perform a s) (perform a u) := by
  cases a with
  | command w => exact h.hostCommand w
  | write reg v => exact .next (h.same.hostWrite reg v)
  | read reg => exact .next (h.same.hostRead reg)
  | placeSource bytes => exact h.same.hostPlaceSource bytes
  | drainSink n => exact .next ⟨by rw [h.same.registers]; rfl, h.same.hist, h.same.entries, h.same.tree, h.same.code⟩
  | reset => exact .next h.same.resetRegisters
  | letRun => exact h.advance

end

/-- Settles O9, by the host's next action: a stage reads only words that it has written or a flag guards. -/
theorem unguardedTableWordsAreUnobservable : Obligations.UnguardedTableWordsAreUnobservable := by
  intro s u t hs hu hsame
  have h : StaleTwin s u := ⟨hsame, ((inv_iff s).mp hs).2, ((inv_iff u).mp hu).2⟩
  have hhost : u.host = s.host := by rw [hsame.registers]
  show step s = .next t → ∃ v, step u = .next v ∧ SameButStale t v
  revert t
  show Follows (step s) (step u)
  unfold step hostTurn
  rw [hhost]
  cases s.host with
  | nil => exact h.advance
  | cons a rest =>
    have hrest : StaleTwin { s with host := rest } { u with host := rest } :=
      ⟨⟨by rw [hsame.registers], hsame.hist, hsame.entries, hsame.tree, hsame.code⟩, h.left.congr rfl, h.right.congr rfl⟩
    exact hrest.perform a

end Sys2Proof.Machine

/-! Proofs about the streams (20_memory.md R61, R64), about the commands that arrive through CMD (R71), and about what PACK
appends (45_serializer.md R193, R195). -/

namespace Sys2Proof.Machine

/-! ### Streams -/

/-- Settles O23, by the two outcomes of SrcGet. -/
theorem srcGetReadsOneByte : Obligations.SrcGetReadsOneByte := by
  intro s
  obtain ⟨hlt, hget⟩ | ⟨hend, hget⟩ := srcGet_cases s
  · refine ⟨fun _ => ⟨hget, srcPos_succ hlt, fun b hplaced => ?_⟩, fun hend => absurd hlt hend⟩
    rw [sourceByte, hplaced, Option.getD_some]
  · exact ⟨fun hlt => absurd hlt hend, fun _ => hget⟩

/-- Settles O24: no two words have the same four bytes, so the bytes read fix the field. -/
theorem fieldsAreLittleEndian : Obligations.FieldsAreLittleEndian := by
  intro s v
  refine ⟨snkPut32_append v s, fun hfour hbytes => ?_, fun hle hshort => srcGet32_none s hle hshort⟩
  obtain ⟨w, hget, -, hw⟩ := srcGet32_some s hfour
  rw [hget, le32_inj (hw.trans hbytes)]

/-! ### Commands -/

/-- The command read from a list of bytes is the one its first byte is the opcode of. -/
theorem decodeOpcode_of_decode {w : Byte} {i : Instr} {bytes rest : List Byte} (h : decode (w :: bytes) = .ok (i, rest)) :
    decodeOpcode w = .ok i := by
  cases hw : decodeOpcode w with
  | ok j => simp only [decode, hw] at h; cases h; rfl
  | error e => simp only [decode, hw] at h; cases h

/-- A step with a command word to come runs the command. -/
theorem step_command {s : State} {w : Byte} {i : Instr} {rest : List HostAction} (h : s.host = .command w :: rest)
    (hw : decodeOpcode w = .ok i) : step s = exec i { s with host := rest } := by
  rw [step_perform h]
  simp only [perform, hostCommand, hw]

/-- Settles O8. -/
theorem stepRunsTheDecodedCommand : Obligations.StepRunsTheDecodedCommand := by
  refine ⟨fun s w i rest hhost hdecode => step_command hhost (decodeOpcode_of_decode hdecode), fun s i => ?_⟩
  have hhost : (s.withFetchWord 8 i.opcode.toNat).host = .command i.opcode :: s.host := by
    simp [State.withFetchWord, placeCommand]
  exact step_command hhost (decodeOpcode_opcode i)

/-! ### PACK -/

/-- Settles O46: where every source byte has a code the body of PACK runs to its end. -/
theorem packAppendsTheCodes : Obligations.PackAppendsTheCodes := by
  intro s hb hv hcoded
  have hbody := bodyPack_coded (accept .single .pack s) hcoded
  exact runCommand_ok (st := .pack) hb hv hbody

end Sys2Proof.Machine

/-! Proofs about the command word (30_encoding.md R90 to R92, R101). -/

namespace Sys2Proof.Machine

/-- Settles O1, by reading the map for each of the twelve words. -/
theorem opcodeMapWordsDecode : Obligations.OpcodeMapWordsDecode :=
  ⟨rfl, rfl, rfl, rfl, rfl, rfl, rfl, rfl, rfl, rfl, rfl, rfl⟩

/-- Settles O2: the decoder reads each command back from its word, and leaves the bytes after it. -/
theorem decodeOfEncodeIsTheCommand : Obligations.DecodeOfEncodeIsTheCommand := by
  intro i rest
  show decode (i.opcode :: rest) = .ok (i, rest)
  simp only [decode, decodeOpcode_opcode]

/-- A word that is no command's opcode is none of the map's (30_encoding.md R92). -/
theorem decodeOpcode_illegal {w : Byte} (h : ∀ i : Instr, w ≠ i.opcode) : decodeOpcode w = .error (.illegalOpcode w) :=
  (if_neg (h .nop)).trans <| (if_neg (h .clear)).trans <| (if_neg (h .hist)).trans <| (if_neg (h .alpha)).trans <|
    (if_neg (h .build)).trans <| (if_neg (h .codegen)).trans <| (if_neg (h .wrhdr)).trans <| (if_neg (h .pack)).trans <|
    (if_neg (h .rdhdr)).trans <| (if_neg (h .decode)).trans <| (if_neg (h .compress)).trans <| if_neg (h .decompress)

/-- Settles O3: a word that decodes is some command's opcode, and decodes to that command. -/
theorem onlyOpcodesDecode : Obligations.OnlyOpcodesDecode := by
  refine fun w => ⟨fun i hi => ?_, decodeOpcode_illegal⟩
  by_contra hne
  have hno : ∀ j : Instr, w ≠ j.opcode := fun j hj => by
    rw [hj, decodeOpcode_opcode] at hi
    exact hne (hj.trans (congrArg Instr.opcode (Except.ok.inj hi)))
  rw [decodeOpcode_illegal hno] at hi
  cases hi

end Sys2Proof.Machine

/-! Proofs about COMPRESS and DECOMPRESS (30_encoding.md R99, 40_sequencer.md R127, R128): no stage looks at MACRO,
so their stages run as the single stage commands do. -/

namespace Sys2Proof.Machine

/-! ### No stage looks at MACRO (10_state.md R23) -/

/-- MACRO alone replaced. -/
def setKind (c : CommandKind) (s : State) : State := { s with kind := c }

/-- The states differ at most in MACRO. -/
def SameButKind (s u : State) : Prop := ∃ c, u = setKind c s

/-- Two pieces end alike up to MACRO. After an error, which sets MACRO to 0, they end in one state. -/
abbrev Res.AlikeButKind {α : Type} (r r' : Res α) : Prop := r.Alike SameButKind Eq r'

section
variable {α : Type} {s u : State}

/-- Two choices made alike, with related branches. -/
theorem ite_related {R : α → α → Prop} {p p' : Prop} [Decidable p] [Decidable p'] {x y x' y' : α} (hp : p' ↔ p)
    (hx : R x x') (hy : R y y') : R (if p then x else y) (if p' then x' else y') := by
  by_cases h : p
  · rw [if_pos h, if_pos (hp.mpr h)]; exact hx
  · rw [if_neg h, if_neg (mt hp.mp h)]; exact hy

/-! Table accesses. -/

theorem fetchWord_kind {n : Nat} {m : TableMem} {read : State → Vector α n} (hread : ∀ c s, read (setKind c s) = read s)
    (i : Nat) : SameButKind s u → (fetchWord m (read s) i s).AlikeButKind (fetchWord m (read u) i u) := by
  rintro ⟨c, rfl⟩
  rw [hread]
  unfold fetchWord
  split
  · exact ⟨rfl, c, rfl⟩
  · rfl

theorem entSymAt_kind (i : Nat) (h : SameButKind s u) : (entSymAt i s).AlikeButKind (entSymAt i u) :=
  fetchWord_kind (read := State.entSym) (fun _ _ => rfl) i h

theorem entFreqAt_kind (i : Nat) (h : SameButKind s u) : (entFreqAt i s).AlikeButKind (entFreqAt i u) :=
  fetchWord_kind (read := State.entFreq) (fun _ _ => rfl) i h

theorem heapAt_kind (i : Nat) (h : SameButKind s u) : (heapAt i s).AlikeButKind (heapAt i u) :=
  fetchWord_kind (read := State.heap) (fun _ _ => rfl) i h

theorem nodeFreqAt_kind (n : Ref) (h : SameButKind s u) : (nodeFreqAt n s).AlikeButKind (nodeFreqAt n u) :=
  fetchWord_kind (read := State.nodeFreq) (fun _ _ => rfl) n.toNat h

theorem nodeSymAt_kind (n : Ref) (h : SameButKind s u) : (nodeSymAt n s).AlikeButKind (nodeSymAt n u) :=
  fetchWord_kind (read := State.nodeSym) (fun _ _ => rfl) n.toNat h

theorem nodeLeftAt_kind (n : Ref) (h : SameButKind s u) : (nodeLeftAt n s).AlikeButKind (nodeLeftAt n u) :=
  fetchWord_kind (read := State.nodeLeft) (fun _ _ => rfl) n.toNat h

theorem nodeRightAt_kind (n : Ref) (h : SameButKind s u) : (nodeRightAt n s).AlikeButKind (nodeRightAt n u) :=
  fetchWord_kind (read := State.nodeRight) (fun _ _ => rfl) n.toNat h

theorem isLeaf_kind (n : Ref) (h : SameButKind s u) : (isLeaf n s).AlikeButKind (isLeaf n u) :=
  (nodeLeftAt_kind n h).bind fun _ _ _ h => (nodeRightAt_kind n h).bind fun _ _ _ h => ⟨rfl, h⟩

/-! Streams. -/

theorem srcGet_kind (c : CommandKind) (s : State) :
    srcGet (setKind c s) = ((srcGet s).1, setKind c (srcGet s).2) := by
  obtain ⟨h, e⟩ | ⟨h, e⟩ := srcGet_cases s <;> rw [e]
  · exact if_pos h
  · exact if_neg h

theorem srcGet32_kind (c : CommandKind) (s : State) :
    srcGet32 (setKind c s) = ((srcGet32 s).1, setKind c (srcGet32 s).2) := by
  unfold srcGet32
  rw [srcGet_kind]
  obtain ⟨_ | b0, s0⟩ := srcGet s
  · rfl
  dsimp only
  rw [srcGet_kind]
  obtain ⟨_ | b1, s1⟩ := srcGet s0
  · rfl
  dsimp only
  rw [srcGet_kind]
  obtain ⟨_ | b2, s2⟩ := srcGet s1
  · rfl
  dsimp only
  rw [srcGet_kind]
  obtain ⟨_ | b3, s3⟩ := srcGet s2 <;> rfl

/-- A piece that ends like one that ran to its end has the same result. -/
theorem Res.AlikeButKind.of_ok {a : α} {r : Res α} (h : (Res.ok a s).AlikeButKind r) : ∃ c, r = .ok a (setKind c s) := by
  cases r with
  | ok b u => obtain ⟨rfl, c, rfl⟩ := h; exact ⟨c, rfl⟩
  | stop u => exact h.elim
  | fault f => exact h.elim

theorem Res.AlikeButKind.of_stop {r : Res α} (h : (Res.stop s).AlikeButKind r) : r = .stop s := by
  cases r with
  | ok b u => exact h.elim
  | stop u => exact congrArg Res.stop h.symm
  | fault f => exact h.elim

theorem Res.AlikeButKind.of_fault {f : Fault} {r : Res α} (h : (Res.fault f).AlikeButKind r) : r = .fault f := by
  cases r with
  | ok b u => exact h.elim
  | stop u => exact h.elim
  | fault g => exact congrArg Res.fault h.symm

/-! ### HIST and ALPHA -/

theorem bodyHist_kind : SameButKind s u → (bodyHist s).AlikeButKind (bodyHist u) := by
  rintro ⟨c, rfl⟩
  refine ite_related Iff.rfl rfl (whileLoop_alike (P := SameButKind) (fun _ _ ⟨_, h⟩ => by rw [h]; rfl) ?_ _ _ _ ⟨c, rfl⟩)
  rintro s _ ⟨c, rfl⟩
  unfold histTurn
  rw [srcGet_kind]
  obtain ⟨_ | b, t⟩ := srcGet s <;> exact ⟨rfl, c, rfl⟩

theorem putEntry_kind (i : Nat) (sym : Byte) (freq : Word32) :
    SameButKind s u → (putEntry i sym freq s).AlikeButKind (putEntry i sym freq u) := by
  rintro ⟨c, rfl⟩
  unfold putEntry
  split
  · exact ⟨rfl, c, rfl⟩
  · rfl

theorem bodyAlpha_kind : SameButKind s u → (bodyAlpha s).AlikeButKind (bodyAlpha u) := by
  rintro ⟨c, rfl⟩
  refine forEach_alike (P := SameButKind) (fun b s u => ?_) _ _ _ ⟨c, rfl⟩
  rintro ⟨c, rfl⟩
  unfold alphaTurn
  exact ite_related Iff.rfl ((putEntry_kind _ _ _ ⟨c, rfl⟩).bind fun _ _ _ ⟨c, h⟩ => ⟨rfl, c, by rw [h]; rfl⟩) ⟨rfl, c, rfl⟩

/-! ### BUILD -/

theorem putHeap_kind (i : Nat) (n : Ref) : SameButKind s u → (putHeap i n s).AlikeButKind (putHeap i n u) := by
  rintro ⟨c, rfl⟩
  unfold putHeap
  split
  · exact ⟨rfl, c, rfl⟩
  · rfl

theorem keyAt_kind (i : Nat) (h : SameButKind s u) : (keyAt i s).AlikeButKind (keyAt i u) :=
  (heapAt_kind i h).bind fun n _ _ h => nodeFreqAt_kind n h

theorem swapHeap_kind (i j : Nat) (h : SameButKind s u) : (swapHeap i j s).AlikeButKind (swapHeap i j u) :=
  (heapAt_kind i h).bind fun a _ _ h => (heapAt_kind j h).bind fun b _ _ h => (putHeap_kind i b h).bind fun _ _ _ h =>
    putHeap_kind j a h

theorem siftUp_kind (n : Nat) :
    ∀ (i : Nat) {s u : State}, SameButKind s u → (siftUp n i s).AlikeButKind (siftUp n i u) := by
  induction n with
  | zero => intro i s u _; rfl
  | succ n ih =>
    intro i s u h
    exact ite_related Iff.rfl ⟨rfl, h⟩ ((keyAt_kind _ h).bind fun _ _ _ h => (keyAt_kind _ h).bind fun _ _ _ h =>
      ite_related Iff.rfl ((swapHeap_kind _ _ h).bind fun _ _ _ h => ih _ h) ⟨rfl, h⟩)

theorem pqInsert_kind (n : Ref) : SameButKind s u → (pqInsert n s).AlikeButKind (pqInsert n u) := by
  rintro ⟨c, rfl⟩
  refine ite_related Iff.rfl rfl ((putHeap_kind _ _ ⟨c, rfl⟩).bind ?_)
  rintro _ s _ ⟨c, rfl⟩
  exact siftUp_kind _ _ ⟨c, rfl⟩

theorem smallerSlot_kind (i m : Nat) : SameButKind s u → (smallerSlot i m s).AlikeButKind (smallerSlot i m u) := by
  rintro ⟨c, rfl⟩
  exact ite_related Iff.rfl ((keyAt_kind _ ⟨c, rfl⟩).bind fun _ _ _ h => (keyAt_kind _ h).bind fun _ _ _ h => ⟨rfl, h⟩)
    ⟨rfl, c, rfl⟩

theorem siftDown_kind (n : Nat) :
    ∀ (i : Nat) {s u : State}, SameButKind s u → (siftDown n i s).AlikeButKind (siftDown n i u) := by
  induction n with
  | zero => intro i s u _; rfl
  | succ n ih =>
    intro i s u h
    exact (smallerSlot_kind _ _ h).bind fun _ _ _ h => (smallerSlot_kind _ _ h).bind fun _ _ _ h =>
      ite_related Iff.rfl ⟨rfl, h⟩ ((swapHeap_kind _ _ h).bind fun _ _ _ h => ih _ h)

theorem pqExtractMin_kind : SameButKind s u → (pqExtractMin s).AlikeButKind (pqExtractMin u) := by
  rintro ⟨c, rfl⟩
  refine ite_related Iff.rfl rfl ((heapAt_kind 0 ⟨c, rfl⟩).bind ?_)
  rintro r s _ ⟨c, rfl⟩
  refine ite_related Iff.rfl ⟨rfl, c, rfl⟩ ((heapAt_kind _ ⟨c, rfl⟩).bind fun _ _ _ h => (putHeap_kind _ _ h).bind ?_)
  rintro _ s _ ⟨c, rfl⟩
  exact (siftDown_kind _ _ ⟨c, rfl⟩).bind fun _ _ _ h => ⟨rfl, h⟩

theorem putNode_kind (n : Nat) (freq : Freq) (sym : Byte) (l r : Ref) : SameButKind s u →
    (putNode n freq sym l r s).AlikeButKind (putNode n freq sym l r u) := by
  rintro ⟨c, rfl⟩
  unfold putNode
  split
  · exact ⟨rfl, c, rfl⟩
  · rfl

theorem nodeNewLeaf_kind (sym : Byte) (freq : Word32) :
    SameButKind s u → (nodeNewLeaf sym freq s).AlikeButKind (nodeNewLeaf sym freq u) := by
  rintro ⟨c, rfl⟩
  refine (putNode_kind _ _ _ _ _ ⟨c, rfl⟩).bind ?_
  rintro _ s _ ⟨c, rfl⟩
  exact ⟨rfl, c, rfl⟩

theorem nodeMerge_kind (a b : Ref) (h : SameButKind s u) : (nodeMerge a b s).AlikeButKind (nodeMerge a b u) := by
  refine (nodeFreqAt_kind a h).bind fun fa _ _ h => (nodeFreqAt_kind b h).bind ?_
  rintro fb s _ ⟨c, rfl⟩
  refine (putNode_kind _ _ _ _ _ ⟨c, rfl⟩).bind ?_
  rintro _ s _ ⟨c, rfl⟩
  exact ⟨rfl, c, rfl⟩

theorem loadTurn_kind (i : Nat) (h : SameButKind s u) : (loadTurn i s).AlikeButKind (loadTurn i u) :=
  (entSymAt_kind i h).bind fun sym _ _ h => (entFreqAt_kind i h).bind fun freq _ _ h =>
    (nodeNewLeaf_kind sym freq h).bind fun n _ _ h => pqInsert_kind n h

theorem mergeTurn_kind (h : SameButKind s u) : (mergeTurn s).AlikeButKind (mergeTurn u) :=
  (pqExtractMin_kind h).bind fun a _ _ h => (pqExtractMin_kind h).bind fun b _ _ h =>
    (nodeMerge_kind a b h).bind fun m _ _ h => pqInsert_kind m h

theorem bodyBuild_kind : SameButKind s u → (bodyBuild s).AlikeButKind (bodyBuild u) := by
  rintro ⟨c, rfl⟩
  refine (forEach_alike (P := SameButKind) (fun i _ _ h => loadTurn_kind i h) _ _ _ ⟨c, rfl⟩).bind fun _ _ _ h => ?_
  refine (whileLoop_alike (P := SameButKind) (fun _ _ ⟨_, h⟩ => by rw [h]; rfl) (fun _ _ h => mergeTurn_kind h) _ _ _
    h).bind fun _ _ _ h => (heapAt_kind 0 h).bind ?_
  rintro r s _ ⟨c, rfl⟩
  exact ⟨rfl, c, rfl⟩

/-! ### CODEGEN -/

theorem setLeafCode_kind (n : Ref) (path : List Bool) (h : SameButKind s u) :
    ((nodeSymAt n s).bind fun sym s => Res.ok () (setCode sym path s)).AlikeButKind
      ((nodeSymAt n u).bind fun sym u => .ok () (setCode sym path u)) :=
  (nodeSymAt_kind n h).bind fun _ _ _ ⟨c, h⟩ => ⟨rfl, c, by rw [h]; rfl⟩

theorem walk_kind (n : Nat) : ∀ (r : Ref) (path : List Bool) {s u : State}, SameButKind s u →
    (walk n r path s).AlikeButKind (walk n r path u) := by
  induction n with
  | zero => intro r path s u _; rfl
  | succ n ih =>
    intro r path s u h
    exact (isLeaf_kind r h).bind fun _ _ _ h => ite_related Iff.rfl (setLeafCode_kind r path h)
      ((nodeLeftAt_kind r h).bind fun _ _ _ h => (ih _ _ h).bind fun _ _ _ h => (nodeRightAt_kind r h).bind fun _ _ _ h =>
        ih _ _ h)

theorem bodyCodegen_kind : SameButKind s u → (bodyCodegen s).AlikeButKind (bodyCodegen u) := by
  rintro ⟨c, rfl⟩
  refine (isLeaf_kind _ ⟨c, rfl⟩).bind ?_
  rintro leaf s _ ⟨c, rfl⟩
  exact ite_related Iff.rfl (setLeafCode_kind _ _ ⟨c, rfl⟩) (walk_kind _ _ _ ⟨c, rfl⟩)

/-! ### WRHDR and PACK -/

theorem headerTurn_kind (i : Nat) (h : SameButKind s u) : (headerTurn i s).AlikeButKind (headerTurn i u) :=
  (entSymAt_kind i h).bind fun _ _ _ h => (entFreqAt_kind i h).bind fun _ _ _ ⟨c, h⟩ => ⟨rfl, c, by rw [h]; rfl⟩

theorem bodyWrhdr_kind : SameButKind s u → (bodyWrhdr s).AlikeButKind (bodyWrhdr u) := by
  rintro ⟨c, rfl⟩
  exact forEach_alike (P := SameButKind) (fun i _ _ h => headerTurn_kind i h) _ _ _ ⟨c, rfl⟩

theorem putBit_kind (v : Bool) : SameButKind s u → SameButKind (putBit v s) (putBit v u) := by
  rintro ⟨c, rfl⟩
  exact ite_related Iff.rfl ⟨c, rfl⟩ ⟨c, rfl⟩

theorem flushBits_kind : SameButKind s u → SameButKind (flushBits s) (flushBits u) := by
  rintro ⟨c, rfl⟩
  exact ite_related Iff.rfl ⟨c, rfl⟩ ⟨c, rfl⟩

theorem packTurn_kind : SameButKind s u → (packTurn s).AlikeButKind (packTurn u) := by
  rintro ⟨c, rfl⟩
  unfold packTurn
  rw [srcGet_kind]
  obtain ⟨_ | b, t⟩ := srcGet s
  · exact ⟨rfl, c, rfl⟩
  · exact ite_related Iff.rfl rfl (forEach_alike (P := SameButKind) (fun i s u => by
      rintro ⟨c, rfl⟩
      exact ⟨rfl, putBit_kind _ ⟨c, rfl⟩⟩) _ _ _ ⟨c, rfl⟩)

theorem bodyPack_kind : SameButKind s u → (bodyPack s).AlikeButKind (bodyPack u) := by
  rintro ⟨c, rfl⟩
  exact (whileLoop_alike (P := SameButKind) (fun _ _ ⟨_, h⟩ => by rw [h]; rfl) (fun _ _ h => packTurn_kind h) _ _ _
    ⟨c, rfl⟩).bind fun _ _ _ h => ⟨rfl, flushBits_kind h⟩

/-! ### RDHDR and DECODE -/

theorem entryTurn_kind (i : Nat) : SameButKind s u → (entryTurn i s).AlikeButKind (entryTurn i u) := by
  rintro ⟨c, rfl⟩
  unfold entryTurn
  rw [srcGet_kind]
  obtain ⟨_ | sym, t⟩ := srcGet s
  · rfl
  dsimp only
  rw [srcGet32_kind]
  obtain ⟨_ | freq, v⟩ := srcGet32 t
  · rfl
  · exact putEntry_kind _ _ _ ⟨c, rfl⟩

theorem bodyRdhdr_kind : SameButKind s u → (bodyRdhdr s).AlikeButKind (bodyRdhdr u) := by
  rintro ⟨c, rfl⟩
  unfold bodyRdhdr
  rw [show srcRewind (setKind c s) = setKind c (srcRewind s) from rfl, srcGet32_kind]
  obtain ⟨_ | k, t⟩ := srcGet32 (srcRewind s)
  · rfl
  · exact ite_related Iff.rfl rfl (forEach_alike (P := SameButKind) (fun i _ _ h => entryTurn_kind i h) _ _ _ ⟨c, rfl⟩)

theorem emitLeaf_kind (n : Ref) (h : SameButKind s u) : (emitLeaf n s).AlikeButKind (emitLeaf n u) :=
  (nodeSymAt_kind n h).bind fun _ _ _ ⟨c, h⟩ => ⟨rfl, c, by rw [h]; rfl⟩

theorem bitStep_kind (v : Bool) : SameButKind s u → (bitStep v s).AlikeButKind (bitStep v u) := by
  rintro ⟨c, rfl⟩
  refine (isLeaf_kind _ ⟨c, rfl⟩).bind ?_
  rintro leaf s _ ⟨c, rfl⟩
  refine ite_related Iff.rfl ?_ ?_
  · exact ite_related Iff.rfl rfl ((nodeSymAt_kind _ ⟨c, rfl⟩).bind fun _ _ _ ⟨c, h⟩ => ⟨rfl, c, by rw [h]; rfl⟩)
  · refine (ite_related Iff.rfl (nodeRightAt_kind _ ⟨c, rfl⟩) (nodeLeftAt_kind _ ⟨c, rfl⟩)).bind ?_
    rintro child s _ ⟨c, rfl⟩
    exact ite_related Iff.rfl rfl ((isLeaf_kind child (s := { s with cursor := child }) ⟨c, rfl⟩).bind fun _ _ _ h =>
      ite_related Iff.rfl (emitLeaf_kind child h) ⟨rfl, h⟩)

theorem decodeTurn_kind : SameButKind s u → (decodeTurn s).AlikeButKind (decodeTurn u) := by
  rintro ⟨c, rfl⟩
  unfold decodeTurn
  rw [srcGet_kind]
  obtain ⟨_ | b, t⟩ := srcGet s
  · rfl
  · refine forEach_alike (P := SameButKind) (fun j s u => ?_) _ _ _ ⟨c, rfl⟩
    rintro ⟨c, rfl⟩
    exact ite_related Iff.rfl ⟨rfl, c, rfl⟩ (bitStep_kind _ ⟨c, rfl⟩)

theorem sumTurn_kind (i : Nat) (h : SameButKind s u) : (sumTurn i s).AlikeButKind (sumTurn i u) :=
  (entFreqAt_kind i h).bind fun _ _ _ ⟨c, h⟩ => ⟨rfl, c, by rw [h]; rfl⟩

theorem bodyDecode_kind : SameButKind s u → (bodyDecode s).AlikeButKind (bodyDecode u) := by
  rintro ⟨c, rfl⟩
  refine (forEach_alike (P := SameButKind) (fun i _ _ h => sumTurn_kind i h) _ _ _ ⟨c, rfl⟩).bind ?_
  rintro _ s _ ⟨c, rfl⟩
  exact whileLoop_alike (P := SameButKind) (fun _ _ ⟨_, h⟩ => by rw [h]; rfl) (fun _ _ h => decodeTurn_kind h) _ _ _
    ⟨c, rfl⟩

/-- A stage does the same whatever stands in MACRO. -/
theorem runStage_kind (st : Stage) : SameButKind s u → (runStage st s).AlikeButKind (runStage st u) := by
  rintro ⟨c, rfl⟩
  refine ite_related (by cases st <;> rfl) (Res.Alike.bind (P := SameButKind) ?_ ?_) rfl
  · have h : SameButKind (st.cascade s) (st.cascade (setKind c s)) := ⟨c, by cases st <;> rfl⟩
    cases st with
    | hist => exact bodyHist_kind h
    | alpha => exact bodyAlpha_kind h
    | build => exact bodyBuild_kind h
    | codegen => exact bodyCodegen_kind h
    | wrhdr => exact bodyWrhdr_kind h
    | pack => exact bodyPack_kind h
    | rdhdr => exact bodyRdhdr_kind h
    | decode => exact bodyDecode_kind h
  · rintro _ s _ ⟨c, rfl⟩
    exact ⟨rfl, c, by cases st <;> rfl⟩

end

/-! ### The stages of a command, issued one by one -/

/-- The command that runs one stage (30_encoding.md R91). -/
def stageCommand : Stage → Instr
  | .hist => .hist
  | .alpha => .alpha
  | .build => .build
  | .codegen => .codegen
  | .wrhdr => .wrhdr
  | .pack => .pack
  | .rdhdr => .rdhdr
  | .decode => .decode

theorem exec_stageCommand (st : Stage) (s : State) : exec (stageCommand st) s = runCommand .single st s := by
  cases st <;> rfl

/-- A single stage command is its stage, then Complete() (40_sequencer.md R120, R123). -/
theorem runCommand_single_runStage (st : Stage) {s : State} (hb : s.busy = false) :
    runCommand .single st s = ((runStage st (accept .single st s)).bind fun _ t => .ok () (complete t)).toOutcome := by
  rw [runCommand, hb, if_neg nofun, commandLoop_stage 5 rfl, stageTurn_eq (p := .idle) rfl]
  cases runStage st (accept .single st s) with
  | ok a t => exact congrArg Res.toOutcome (commandLoop_idle (s := { t with phase := .idle }) 5 rfl)
  | stop t => rfl
  | fault f => rfl

theorem issueAll_next {i : Instr} {s t : State} (rest : List Instr) (h : exec i s = .next t) :
    issueAll (i :: rest) s = if t.err then .next t else issueAll rest t := by
  simp only [issueAll, h]

theorem issueAll_cons {i : Instr} {rest : List Instr} {s t : State} (h : exec i s = .next t) (he : t.err = false) :
    issueAll (i :: rest) s = issueAll rest t := by
  rw [issueAll_next rest h, he, if_neg nofun]

theorem issueAll_fault {i : Instr} {s : State} {f : Fault} (rest : List Instr) (h : exec i s = .fault f) :
    issueAll (i :: rest) s = .fault f := by
  simp only [issueAll, h]

/-- After a stage of an accepted command, moving on to the next stage leaves what accepting the command at that stage does. -/
theorem StageDone.accept_next {c : CommandKind} {st : Stage} {s t : State} (h : StageDone st (accept c st s) t)
    (next : Stage) : accept c next (complete t) = { t with phase := .stage next } := by
  obtain ⟨hb, hk, hd, he, hek, hes, -⟩ := h
  simp only [accept_busy, accept_kind, accept_done, accept_err, accept_errKind, accept_errStage] at hb hk hd he hek hes
  simp [accept, clearRecord, complete, hb, hk, hd, he, hek, hes]

/-- The stages that follow `st` in a command end alike, run by the loop of Accept or issued as commands. -/
theorem issueAll_stages {n : Nat} {c : CommandKind} {st : Stage} {s : State} (hb : s.busy = false)
    (hr : reachesIdle c n (.stage st) = true) :
    issueAll ((stagesFrom c n (.stage st)).map stageCommand) s = (commandLoop n (accept c st s)).toOutcome := by
  induction n generalizing st s with
  | zero => cases hr
  | succ n ih =>
    obtain ⟨p, hn, hrest⟩ := reachesIdle_stage hr
    have hexec := (exec_stageCommand st s).trans (runCommand_single_runStage st hb)
    have halike : (runStage st (accept c st s)).AlikeButKind (runStage st (accept .single st s)) :=
      runStage_kind st ⟨.single, rfl⟩
    rw [commandLoop_stage n rfl, stageTurn_eq hn]
    simp only [stagesFrom, hn, Option.elim_some, List.map_cons]
    obtain ⟨u, hrun, hu⟩ | ⟨e, w, hrun, -⟩ | ⟨f, hrun⟩ := runStage_cases st (accept c st s) <;> rw [hrun] at halike ⊢
    · obtain ⟨k, hsingle⟩ := halike.of_ok
      rw [hsingle] at hexec
      have hdone := hu.stageDone
      rw [issueAll_next _ hexec, show (complete (setKind k (st.produce u))).err = false from hdone.err, if_neg nofun,
        Res.bind_ok, Res.bind_ok]
      cases p with
      | idle => rw [commandLoop_idle n rfl]; cases n <;> rfl
      | stage next => rw [← hdone.accept_next next]; exact ih rfl hrest
    · rw [halike.of_stop] at hexec
      exact issueAll_next _ hexec
    · rw [halike.of_fault] at hexec
      exact issueAll_fault _ hexec

/-- A command of stages ends as its stage commands issued one after the other (30_encoding.md R99). -/
theorem runCommand_eq_issueAll {c : CommandKind} {st : Stage} {s : State} (hb : s.busy = false)
    (hr : reachesIdle c 6 (.stage st) = true) :
    runCommand c st s = issueAll ((stagesFrom c 6 (.stage st)).map stageCommand) s := by
  rw [issueAll_stages hb hr, runCommand, hb, if_neg nofun]

/-- Settles O16: the commands issued are those of the stages the loop of Accept runs. -/
theorem macroCommandsAreTheirStageCommands : Obligations.MacroCommandsAreTheirStageCommands :=
  fun _ hb => ⟨runCommand_eq_issueAll (c := .compress) (st := .hist) hb rfl,
    runCommand_eq_issueAll (c := .decompress) (st := .rdhdr) hb rfl⟩

end Sys2Proof.Machine

/-! Proofs about RDHDR on a complete header (46_deserializer.md R205, R206). -/

namespace Sys2Proof.Machine

/-- RDHDR body on a complete header (46_deserializer.md R205). -/
theorem bodyRdhdr_header {s : State} {es : List (Byte × Word32)} (h1 : 1 ≤ es.length) (h256 : es.length ≤ 256)
    (h : headerBytes es <+: sourceBytes s) :
    ∃ t, bodyRdhdr s = .ok () t ∧ RdhdrChange s t ∧ t.srcPos.toNat = 4 + 5 * es.length ∧ Entries s t es := by
  obtain ⟨hcount, hfit, hentries⟩ := header_in_source h256 h
  have hbody := (bodyRdhdr_entries (s := s) (by omega) (by omega) (by omega)).1
  rw [hcount, hentries] at hbody
  exact hbody hfit

/-- Settles O48, by what the body of RDHDR reads. -/
theorem rdhdrReadsTheHeader : Obligations.RdhdrReadsTheHeader := by
  intro s es hb h1 h256 h
  obtain ⟨t, hbody, hchange, hpos, hentries⟩ :=
    bodyRdhdr_header (s := Stage.rdhdr.cascade (accept .single .rdhdr s)) h1 h256 h
  refine ⟨complete (Stage.rdhdr.produce t), runCommand_ok (st := .rdhdr) hb rfl hbody, hentries.entryList,
    hentries.count, hpos, hentries.stale, ?_⟩
  rw [hchange]
  rfl

end Sys2Proof.Machine

/-! Proofs about COMPRESS (40_sequencer.md R127): how each of its stage commands completes, and the artifact they append
together (30_encoding.md R94, 45_serializer.md R195). -/

namespace Sys2Proof.Machine

/-! ### Stage commands that complete -/

/-- HIST on a source that is not empty (41_frequency_counter.md R140, R143). -/
theorem exec_hist_counts {s : State} (hb : s.busy = false) (h0 : s.srcLen ≠ 0) :
    ∃ t, exec .hist s = .next t ∧ (∀ b, (histAt b t).toNat = (sourceBytes s).count b) ∧
      t = { settled s with
        histV := true, entV := false, treeV := false, codeV := false
        hist := t.hist, totalIn := s.srcLen, srcPos := s.srcLen } := by
  obtain ⟨t, hbody, hchange, hpos, htotal, hcounts⟩ := bodyHist_spec (Stage.hist.cascade (accept .single .hist s)) h0
  refine ⟨_, runCommand_ok (st := .hist) hb rfl hbody, hcounts, ?_⟩
  unfold HistChange at hchange
  rw [hpos, htotal] at hchange
  rw [hchange]
  rfl

/-- ALPHA on a finished histogram (41_frequency_counter.md R141). -/
theorem exec_alpha_lists {s : State} (hb : s.busy = false) (hv : s.histV = true) :
    ∃ t, exec .alpha s = .next t ∧ Entries s t (countedEntries s allBytes) ∧
      t = { settled s with
        entV := true, treeV := false, codeV := false, k := t.k, entSym := t.entSym, entFreq := t.entFreq } := by
  obtain ⟨t, hbody, hchange, hcount, hlisted, hstale⟩ := bodyAlpha_spec (Stage.alpha.cascade (accept .single .alpha s))
  refine ⟨_, runCommand_ok (st := .alpha) hb hv hbody, ⟨hcount, hlisted, hstale⟩, ?_⟩
  rw [hchange]
  rfl

/-- BUILD on a valid entry list (43_tree_builder.md R167, R170). -/
theorem exec_build_tree {s : State} (hb : s.busy = false) (hv : s.entV = true) (h1 : 1 ≤ s.k.toNat)
    (h256 : s.k.toNat ≤ 256) :
    ∃ t, exec .build s = .next t ∧ TreeOk t ∧
      t = { settled s with
        treeV := true, codeV := false
        nodeFreq := t.nodeFreq, nodeSym := t.nodeSym, nodeLeft := t.nodeLeft, nodeRight := t.nodeRight
        nodeCnt := t.nodeCnt, root := t.root, heap := t.heap, heapSize := 1 } := by
  obtain ⟨u, t, hbody, hforest, ht⟩ := bodyBuild_spec (Stage.build.cascade (accept .single .build s)) h1 h256
  have htree := forest_tree (s := Stage.build.cascade (accept .single .build s)) h1 h256 hforest ht
  have hsize : t.heapSize = 1 := BitVec.eq_of_toNat_eq (by rw [ht]; exact hforest.heap.size)
  refine ⟨_, runCommand_ok (st := .build) hb hv hbody,
    htree.congr (s := t) ⟨rfl, rfl, rfl, rfl, rfl, rfl, rfl, rfl, rfl⟩, ?_⟩
  rw [← hsize, ht, hforest.change]
  rfl

/-- CODEGEN on a valid tree (44_code_table.md R180). -/
theorem exec_codegen_table {s : State} (hb : s.busy = false) (hv : s.treeV = true) (htree : TreeOk s) :
    ∃ t, exec .codegen s = .next t ∧ CodeTableOk t ∧
      t = { settled s with codeV := true, codeLen := t.codeLen, codeBits := t.codeBits } := by
  obtain ⟨t, hbody, hchange, htable⟩ := bodyCodegen_spec (s := Stage.codegen.cascade (accept .single .codegen s))
    (htree.congr (s := s) ⟨rfl, rfl, rfl, rfl, rfl, rfl, rfl, rfl, rfl⟩)
  refine ⟨_, runCommand_ok (st := .codegen) hb hv hbody,
    htable.congr (s := t) ⟨rfl, rfl, rfl, rfl, rfl, rfl, rfl, rfl, rfl⟩ rfl rfl, ?_⟩
  rw [hchange]
  rfl

/-- WRHDR on a valid entry list (45_serializer.md R190). -/
theorem exec_wrhdr_header {s : State} (hb : s.busy = false) (hv : s.entV = true) (h256 : s.k.toNat ≤ 256) :
    exec .wrhdr s = .next { settled s with snk := s.snk ++ headerBytes (entryList s) } :=
  runCommand_ok (st := .wrhdr) hb hv (bodyWrhdr_spec (accept .single .wrhdr s) h256)

/-! ### Which bytes have a code (44_code_table.md R184) -/

/-- Every symbol of the entry list has a leaf. -/
theorem TreeOk.entry_leafPath {s : State} (h : TreeOk s) {b : Byte} (hb : b ∈ (entryList s).map Prod.fst) :
    ∃ p, LeafPath s p b := by
  obtain ⟨e, he, rfl⟩ := List.mem_map.mp hb
  obtain ⟨i, hi, rfl⟩ := List.getElem_of_mem he
  obtain ⟨h256, hentry⟩ := entryList_getElem s i hi
  rw [entryList_length s h.kRange.2] at hi
  have hn : (BitVec.ofNat 9 i).toNat = i := by rw [BitVec.toNat_ofNat]; omega
  obtain ⟨p, hp, -⟩ := h.leaf_path (m := BitVec.ofNat 9 i) (by rw [hn]; exact hi)
  refine ⟨p, (h.leafPath_iff p _).mpr ⟨_, by rw [hn]; exact hi, hp, ?_⟩⟩
  rw [hn, hentry]
  exact Vector.getElem?_eq_getElem h256

/-- Every symbol of the entry list has a code. -/
theorem CodeTableOk.codeOf_ne_nil {s : State} (hc : CodeTableOk s) (ht : TreeOk s) {b : Byte}
    (hb : b ∈ (entryList s).map Prod.fst) : codeOf b s ≠ [] := by
  obtain ⟨p, hp⟩ := ht.entry_leafPath hb
  cases hroot : leafNode s s.root with
  | true =>
    obtain ⟨n, hn, -, hsym⟩ := hp
    cases p with
    | nil => cases hn; rw [hc.single hroot, if_pos hsym]; exact List.cons_ne_nil _ _
    | cons v p => rw [follow_leaf hroot] at hn; cases hn
  | false =>
    obtain ⟨-, hno⟩ | ⟨⟨n, hn, hleaf, -⟩, -⟩ := hc.paths hroot b
    · exact absurd hp (hno p)
    · intro hnil
      rw [hnil] at hn
      cases hn
      exact absurd (hroot.symm.trans hleaf) nofun

/-! ### The entry list of a source (41_frequency_counter.md R141, R145) -/

/-- The byte values that occur in the source, each with its count. -/
def sourceEntries (s : State) : List (Byte × Word32) :=
  (allBytes.filter fun b => decide ((sourceBytes s).count b ≠ 0)).map
    fun b => (b, BitVec.ofNat 32 ((sourceBytes s).count b))

/-- The counters that are not 0 are those of the byte values that occur. -/
theorem countedEntries_eq_sourceEntries {s t : State} (h : ∀ b, (histAt b t).toNat = (sourceBytes s).count b) :
    countedEntries t allBytes = sourceEntries s := by
  have hzero : ∀ b, histAt b t ≠ 0 ↔ (sourceBytes s).count b ≠ 0 := fun b => by
    rw [← h b, ne_eq, ne_eq, ← BitVec.toNat_inj]; rfl
  unfold countedEntries sourceEntries
  simp only [hzero, ← h, BitVec.ofNat_toNat, BitVec.setWidth_eq]

theorem mem_sourceEntries {s : State} {b : Byte} (hb : b ∈ sourceBytes s) : b ∈ (sourceEntries s).map Prod.fst := by
  have hcount : (sourceBytes s).count b ≠ 0 := (List.count_pos_iff.mpr hb).ne'
  exact List.mem_map.mpr ⟨_, List.mem_map.mpr ⟨b, List.mem_filter.mpr ⟨mem_allBytes b, decide_eq_true hcount⟩, rfl⟩, rfl⟩

theorem sourceEntries_pos {s : State} (h0 : s.srcLen ≠ 0) : 0 < (sourceEntries s).length := by
  have hlen : 0 < (sourceBytes s).length := by
    rw [sourceBytes_length]
    exact Nat.pos_of_ne_zero fun e => h0 (BitVec.eq_of_toNat_eq e)
  simpa using List.length_pos_of_mem (mem_sourceEntries (List.getElem_mem hlen))

/-! ### The artifact -/

/-- HIST, ALPHA, BUILD and CODEGEN make the tables of the source, and leave SNK. -/
theorem issueAll_tables {s : State} (hb : s.busy = false) (h0 : s.srcLen ≠ 0) (rest : List Instr) :
    ∃ t, issueAll (.hist :: .alpha :: .build :: .codegen :: rest) s = issueAll rest t ∧
      entryList t = sourceEntries s ∧ t.k.toNat = (sourceEntries s).length ∧ TreeOk t ∧ CodeTableOk t ∧
      t = { settled s with
        histV := true, entV := true, treeV := true, codeV := true
        hist := t.hist, totalIn := s.srcLen, srcPos := s.srcLen
        k := t.k, entSym := t.entSym, entFreq := t.entFreq
        nodeFreq := t.nodeFreq, nodeSym := t.nodeSym, nodeLeft := t.nodeLeft, nodeRight := t.nodeRight
        nodeCnt := t.nodeCnt, root := t.root, heap := t.heap, heapSize := 1
        codeLen := t.codeLen, codeBits := t.codeBits } := by
  obtain ⟨s1, x1, hcounts, e1⟩ := exec_hist_counts hb h0
  obtain ⟨s2, x2, hentries, e2⟩ := exec_alpha_lists (s := s1) (by rw [e1]; rfl) (by rw [e1])
  rw [countedEntries_eq_sourceEntries hcounts] at hentries
  obtain ⟨s3, x3, htree, e3⟩ := exec_build_tree (s := s2) (by rw [e2]; rfl) (by rw [e2])
    (by rw [hentries.count]; exact sourceEntries_pos h0) (by rw [hentries.count]; exact hentries.length_le)
  obtain ⟨s4, x4, htable, e4⟩ := exec_codegen_table (s := s3) (by rw [e3]; rfl) (by rw [e3]) htree
  refine ⟨s4, ?_, by rw [e4, e3]; exact hentries.entryList, by rw [e4, e3]; exact hentries.count,
    htree.congr (by rw [e4]; exact ⟨rfl, rfl, rfl, rfl, rfl, rfl, rfl, rfl, rfl⟩), htable, ?_⟩
  · rw [issueAll_cons x1 (by rw [e1]; rfl), issueAll_cons x2 (by rw [e2]; rfl), issueAll_cons x3 (by rw [e3]; rfl),
      issueAll_cons x4 (by rw [e4]; rfl)]
  · rw [e4, e3, e2, e1]; rfl

/-- WRHDR and PACK append the header and the packed codes, where every byte of the source has a code. -/
theorem issueAll_artifact {s : State} (hb : s.busy = false) (he : s.entV = true) (hc : s.codeV = true)
    (h256 : s.k.toNat ≤ 256) (hcoded : ∀ b ∈ sourceBytes s, codeOf b s ≠ []) :
    issueAll [.wrhdr, .pack] s = .next { settled s with
      srcPos := s.srcLen
      bitBuf := 0
      bitCnt := 0
      snk := s.snk ++ headerBytes (entryList s) ++ packBytes ((sourceBytes s).flatMap fun b => codeOf b s) } := by
  have hpack := packAppendsTheCodes { settled s with snk := s.snk ++ headerBytes (entryList s) } rfl hc hcoded
  rw [issueAll_cons (exec_wrhdr_header hb he h256) rfl, issueAll_cons hpack rfl]
  rfl

/-- Settles O54: the first four stage commands make the tables, the last two append the artifact. -/
theorem compressAppendsOneArtifact : Obligations.CompressAppendsOneArtifact := by
  intro s hb h0
  obtain ⟨t, htables, hentries, hk, htree, htable, ht⟩ := issueAll_tables hb h0 [.wrhdr, .pack]
  have hsource : sourceBytes t = sourceBytes s := by rw [ht]; rfl
  have hcoded : ∀ b ∈ sourceBytes t, codeOf b t ≠ [] := fun b hmem => htable.codeOf_ne_nil htree (by
    rw [hentries]; exact mem_sourceEntries (hsource ▸ hmem))
  have hartifact := issueAll_artifact (by rw [ht]; rfl) (by rw [ht]) (by rw [ht]) htree.kRange.2 hcoded
  refine ⟨_, (macroCommandsAreTheirStageCommands s hb).1.trans (htables.trans hartifact), hentries, ?_,
    htree.congr (s := t) ⟨rfl, rfl, rfl, rfl, rfl, rfl, rfl, rfl, rfl⟩,
    htable.congr (s := t) ⟨rfl, rfl, rfl, rfl, rfl, rfl, rfl, rfl, rfl⟩ rfl rfl, ?_, ?_⟩
  · exact hk.trans (congrArg List.length hentries.symm)
  · rw [← hsource, show s.snk = t.snk by rw [ht]; rfl]; rfl
  · rw [ht]; rfl

end Sys2Proof.Machine

/-! Proofs about the housekeeping effects of the sequencer (40_sequencer.md R125, R126, R129) and about stage commands whose
precondition fails (R121; 60_exceptions.md R231, R242). -/

namespace Sys2Proof.Machine

/-- Settles O10: NOP clears the record, as the first line of Accept does, and sets DONE. -/
theorem nopAcknowledges : Obligations.NopAcknowledges :=
  fun s hb => show execNop s = _ from if_neg (Bool.eq_false_iff.mp hb)

/-- Settles O11: the registers CLEAR resets are all but the table memories and the environment. -/
theorem clearResetsTheRegisters : Obligations.ClearResetsTheRegisters :=
  fun s hb => show execClear s = _ from if_neg (Bool.eq_false_iff.mp hb)

/-- A command line with an illegal opcode, to an idle HFC. -/
theorem hostCommand_illegal {s : State} {w : Byte} (hb : s.busy = false) (hw : ∀ i : Instr, w ≠ i.opcode) :
    hostCommand w s = .next (illegalEffect s) := by
  simp only [hostCommand, decodeOpcode_illegal hw]
  exact if_neg (Bool.eq_false_iff.mp hb)

/-- A bare write of an illegal opcode to the CMD register of an idle HFC. -/
theorem hostWrite_illegal {s : State} {w : Byte} (hb : s.busy = false) (hw : ∀ i : Instr, w ≠ i.opcode) :
    hostWrite 0 (w.setWidth 40) s = illegalEffect s := by
  have hlow : (w.setWidth 40).setWidth 8 = w := BitVec.setWidth_setWidth_of_le w (by decide)
  simp [hostWrite, writeCmd, hb, hlow, decodeOpcode_illegal hw]

/-- Settles O12, by the two ways the word can come. -/
theorem illegalOpcodeIsRecorded : Obligations.IllegalOpcodeIsRecorded := by
  rintro s w rest hb hw (hhost | hhost)
  · exact (step_perform hhost).trans (hostCommand_illegal (s := { s with host := rest }) hb hw)
  · exact (step_perform hhost).trans (congrArg _ (hostWrite_illegal (s := { s with host := rest }) hb hw))

/-- Settles O14: each of the six stages is not run when its precondition fails. -/
theorem failedPreconditionChangesOnlyTheRecord : Obligations.FailedPreconditionChangesOnlyTheRecord := by
  intro s hb
  have refused (st : Stage) (hpre : st.pre s = false) :
      runCommand .single st s = .next (aborted .invariantViolation (.stage st) s) := runCommand_pre_false hb hpre
  exact ⟨refused .alpha, refused .build, refused .codegen, refused .wrhdr, refused .pack,
    fun h => refused .decode (Bool.and_eq_false_iff.mpr h)⟩

end Sys2Proof.Machine

/-! Proofs about DECOMPRESS on a stream that is long enough (46_deserializer.md R211): in a built tree every node but a leaf
has two children, so any bits lead from ROOT to a leaf, within K − 1 of them. -/

namespace Sys2Proof.Machine

/-! ### Any bits are paths to leaves -/

/-- A tree of two or more entries has an internal root (43_tree_builder.md R168, R170). -/
theorem TreeOk.root_inner {s : State} (h : TreeOk s) (h2 : 2 ≤ s.k.toNat) : leafNode s s.root = false := by
  have hroot := h.root
  exact Bool.eq_false_iff.mpr fun hleaf => by have := (h.leaf_iff h.root_lt).mp hleaf; omega

/-- From a node of the tree, as many bits as there are internal nodes up to it begin with a path to a leaf. -/
theorem TreeOk.follow_to_leaf {s : State} (h : TreeOk s) (bits : List Bool) : ∀ n : Ref, n.toNat < 2 * s.k.toNat - 1 →
    n.toNat + 1 - s.k.toNat ≤ bits.length →
    ∃ p m, p <+: bits ∧ follow s n p = some m ∧ m.toNat < s.k.toNat := by
  induction bits with
  | nil =>
    intro n _ hlen
    rw [List.length_nil] at hlen
    exact ⟨[], n, List.prefix_rfl, rfl, by omega⟩
  | cons b bits ih =>
    intro n hn hlen
    rw [List.length_cons] at hlen
    by_cases hk : n.toNat < s.k.toNat
    · exact ⟨[], n, List.nil_prefix, rfl, hk⟩
    · obtain ⟨c, hc, hlt, hne⟩ := h.child (by omega) hn b
      obtain ⟨p, m, hp, hm, hleaf⟩ := ih c (by omega) (by omega)
      exact ⟨b :: p, m, List.cons_prefix_cons.mpr ⟨rfl, hp⟩, (follow_cons_some hc hne).trans hm, hleaf⟩

/-- The symbols of the leaves are those of the entry list. -/
theorem TreeOk.leafPath_mem {s : State} (h : TreeOk s) {p : List Bool} {b : Byte} (hp : LeafPath s p b) :
    b ∈ (entryList s).map Prod.fst := by
  obtain ⟨m, hm, -, hsym⟩ := (h.leafPath_iff p b).mp hp
  have hlt : m.toNat < (entryList s).length := by rw [entryList_length s h.kRange.2]; exact hm
  obtain ⟨h256, hentry⟩ := entryList_getElem s m.toNat hlt
  rw [Vector.getElem?_eq_getElem h256] at hsym
  exact List.mem_map.mpr ⟨_, List.getElem_mem hlt, by rw [hentry]; exact Option.some.inj hsym⟩

/-- K − 1 bits begin with the path of a leaf. -/
theorem TreeOk.leafPath_of_bits {s : State} (h : TreeOk s) {bits : List Bool} (hlen : s.k.toNat - 1 ≤ bits.length) :
    ∃ p b rest, LeafPath s p b ∧ p.length ≤ s.k.toNat - 1 ∧ bits = p ++ rest := by
  have hroot := h.root
  have hk := h.kRange
  obtain ⟨p, m, ⟨rest, hrest⟩, hm, hleaf⟩ := h.follow_to_leaf bits s.root h.root_lt (by omega)
  have hbound := h.follow_bound p _ _ h.root_lt hm
  exact ⟨p, s.entSym[m.toNat], rest, (h.leafPath_iff p _).mpr ⟨m, hleaf, hm, Vector.getElem?_eq_getElem (by omega)⟩,
    by omega, hrest.symm⟩

/-- n · (K − 1) bits begin with the paths of n leaves. -/
theorem TreeOk.leafPaths_of_bits {s : State} (h : TreeOk s) (n : Nat) : ∀ bits : List Bool,
    (s.k.toNat - 1) * n ≤ bits.length →
    ∃ paths syms rest, List.Forall₂ (LeafPath s) paths syms ∧ syms.length = n ∧ bits = paths.flatten ++ rest := by
  induction n with
  | zero => exact fun bits _ => ⟨[], [], bits, .nil, rfl, rfl⟩
  | succ n ih =>
    intro bits hlen
    rw [Nat.mul_succ] at hlen
    obtain ⟨p, b, rest, hp, hshort, rfl⟩ := h.leafPath_of_bits (bits := bits) (by omega)
    rw [List.length_append] at hlen
    obtain ⟨paths, syms, rest, hpaths, rfl, rfl⟩ := ih rest (by omega)
    exact ⟨p :: paths, b :: syms, rest, .cons hp hpaths, rfl, by rw [List.flatten_cons, List.append_assoc]⟩

theorem TreeOk.leafPaths_mem {s : State} (h : TreeOk s) {paths : List (List Bool)} {syms : List Byte}
    (hp : List.Forall₂ (LeafPath s) paths syms) : ∀ b ∈ syms, b ∈ (entryList s).map Prod.fst := by
  induction hp with
  | nil => nofun
  | cons hp _ ih => exact List.forall_mem_cons.mpr ⟨h.leafPath_mem hp, ih⟩

/-! ### The command -/

theorem streamBits_length (s : State) : (streamBits s).length = 8 * (s.srcLen.toNat - s.srcPos.toNat) := by
  simp [streamBits, List.length_flatMap, Nat.mul_comm]

/-- DECODE on a stream that begins with the paths of as many leaves as the frequencies sum to (46_deserializer.md R207). -/
theorem exec_decode_paths {s : State} (hb : s.busy = false) (he : s.entV = true) (hv : s.treeV = true) (h : TreeOk s)
    (hr : leafNode s s.root = false) {paths : List (List Bool)} {syms : List Byte} {rest : List Bool}
    (hp : List.Forall₂ (LeafPath s) paths syms) (hlen : syms.length = freqSum (entryList s))
    (hbits : streamBits s = paths.flatten ++ rest) :
    exec .decode s = .next { settled s with
      totalSym := BitVec.ofNat 40 (freqSum (entryList s))
      decCnt := BitVec.ofNat 40 syms.length
      cursor := s.root
      srcPos := s.srcPos + BitVec.ofNat 32 ((paths.flatten.length + 7) / 8)
      snk := s.snk ++ syms } := by
  have hsame : SameTree s (accept .single .decode s) := ⟨rfl, rfl, rfl, rfl, rfl, rfl, rfl, rfl, rfl⟩
  exact runCommand_ok (st := .decode) hb (Bool.and_eq_true_iff.mpr ⟨he, hv⟩) (bodyDecode_paths
    (h.congr hsame) hr (hp.imp fun p b => (hsame.leafPath p b).mpr) hlen hbits)

/-- Settles O55: RDHDR reads the entries, BUILD makes their tree, and a long stream is paths of its leaves. -/
theorem decompressAcceptsEveryLongStream : Obligations.DecompressAcceptsEveryLongStream := by
  intro s es hb h2 h256 hheader hlong
  obtain ⟨s1, x1, hentries1, hk1, hpos1, -, e1⟩ := rdhdrReadsTheHeader s es hb (by omega) h256 hheader
  obtain ⟨s2, x2, htree, e2⟩ := exec_build_tree (s := s1) (by rw [e1]; rfl) (by rw [e1]) (by omega) (by omega)
  have hk2 : s2.k.toNat = es.length := by rw [e2]; exact hk1
  have hentries2 : entryList s2 = es := by rw [e2]; exact hentries1
  have hlen2 : (streamBits s2).length = 8 * (s.srcLen.toNat - (4 + 5 * es.length)) := by
    rw [streamBits_length, ← hpos1, e2, e1]; rfl
  obtain ⟨paths, syms, rest, hpaths, hsyms, hbits⟩ :=
    htree.leafPaths_of_bits (freqSum es) (streamBits s2) (by rw [hk2, hlen2]; exact hlong)
  have x3 := exec_decode_paths (by rw [e2]; rfl) (by rw [e2, e1]; rfl) (by rw [e2]) htree (htree.root_inner (by omega))
    hpaths (by rw [hentries2, hsyms]) hbits
  have hexec := (macroCommandsAreTheirStageCommands s hb).2.trans ((issueAll_cons x1 (by rw [e1]; rfl)).trans
    ((issueAll_cons x2 (by rw [e2]; rfl)).trans (issueAll_cons x3 rfl)))
  refine ⟨_, syms, hexec, hsyms, ?_, hentries2,
    htree.congr (s := s2) ⟨rfl, rfl, rfl, rfl, rfl, rfl, rfl, rfl, rfl⟩, ?_⟩
  · exact hentries2 ▸ htree.leafPaths_mem hpaths
  · rw [hentries2, hsyms, e2, e1]; rfl

end Sys2Proof.Machine

/-! Proofs about the frequency counter (41_frequency_counter.md R140 to R145): HIST counts the source, and ALPHA makes the
entry list of the counters that are not 0. -/

namespace Sys2Proof.Machine

/-! ### HIST (41_frequency_counter.md R140, R142, R143) -/

/-- Settles O28, by what HIST counts: every byte of the source stands in one counter, so the counters sum to SRC_LEN. -/
theorem histCountsTheSource : Obligations.HistCountsTheSource := by
  intro s hb h0
  obtain ⟨t, hexec, hcounts, hchange⟩ := exec_hist_counts hb h0
  exact ⟨t, hexec, hcounts, (hist_sum hcounts).trans (sourceBytes_length s), hchange⟩

/-- Settles O29: the body of HIST raises before it counts, and COMPRESS ends where its first stage command does. -/
theorem emptySourceIsRejected : Obligations.EmptySourceIsRejected := by
  intro s hb h0
  have hbody : bodyHist (Stage.hist.cascade (accept .single .hist s)) = raise .emptyInput _ := if_pos h0
  have hhist : exec .hist s = .next { aborted .emptyInput (.stage .hist) s with
      histV := false, entV := false, treeV := false, codeV := false } := runCommand_stop (st := .hist) hb rfl hbody
  exact ⟨hhist, (macroCommandsAreTheirStageCommands s hb).1.trans (issueAll_next _ hhist)⟩

/-! ### ALPHA (41_frequency_counter.md R141, R145) -/

/-- Settles O30, by what ALPHA lists. -/
theorem alphaListsTheAlphabet : Obligations.AlphaListsTheAlphabet := by
  intro s hb
  refine ⟨fun hv => runCommand_pre_false (st := .alpha) hb hv, fun hv => ?_⟩
  obtain ⟨t, hexec, hentries, hchange⟩ := exec_alpha_lists hb hv
  have hk : t.k.toNat = (allBytes.filter fun b => decide (histAt b s ≠ 0)).length :=
    hentries.count.trans (List.length_map _)
  exact ⟨t, hexec, hentries.entryList, hk, fun i hi => hentries.stale i (hentries.count ▸ hi), hchange⟩

theorem allBytes_getElem_toNat (i : Nat) (h : i < allBytes.length) : allBytes[i].toNat = i := by
  rw [allBytes_length] at h
  rw [allBytes_getElem, BitVec.toNat_ofNat]
  exact Nat.mod_eq_of_lt h

theorem allBytes_map_toNat : allBytes.map BitVec.toNat = List.range 256 :=
  List.ext_getElem (by simp) fun i _ _ => by simp [allBytes_getElem_toNat]

/-- The counters in the order of the alphabet scan are the words of HIST. -/
theorem allBytes_map_histAt (s : State) : allBytes.map (fun b => histAt b s) = s.hist.toList :=
  List.ext_getElem (by simp) fun i _ _ => by simp [histAt, allBytes_getElem_toNat]

/-- The byte values stand in the alphabet scan in ascending order, and ALPHA leaves some of them out. -/
theorem countedEntries_ascending (s : State) :
    ((countedEntries s allBytes).map fun e => e.1.toNat).Pairwise (· < ·) := by
  have hsub : ((countedEntries s allBytes).map fun e => e.1.toNat).Sublist (List.range 256) := by
    rw [countedEntries, List.map_map, ← allBytes_map_toNat]
    exact List.filter_sublist.map _
  exact List.pairwise_lt_range.sublist hsub

theorem countedEntries_freq_pos {s : State} {bs : List Byte} {e : Byte × Word32} (he : e ∈ countedEntries s bs) :
    1 ≤ e.2.toNat := by
  obtain ⟨b, hb, rfl⟩ := List.mem_map.mp he
  have hne : histAt b s ≠ 0 := of_decide_eq_true (List.mem_filter.mp hb).2
  exact Nat.pos_of_ne_zero fun hz => hne (BitVec.eq_of_toNat_eq hz)

/-- The counters ALPHA leaves out are 0, so the entries sum to what all counters do. -/
theorem freqSum_countedEntries (s : State) (bs : List Byte) :
    freqSum (countedEntries s bs) = (bs.map fun b => (histAt b s).toNat).sum := by
  have hzero : ((bs.filter fun b => ¬ histAt b s ≠ 0).map fun b => (histAt b s).toNat).sum = 0 := by
    refine List.sum_eq_zero fun x hx => ?_
    obtain ⟨b, hb, rfl⟩ := List.mem_map.mp hx
    rw [not_not.mp (of_decide_eq_true (List.mem_filter.mp hb).2)]
    rfl
  rw [← List.sum_map_filter_add_sum_map_filter_not (fun b => histAt b s ≠ 0), hzero, Nat.add_zero, freqSum, countedEntries,
    List.map_map]
  rfl

theorem freqSum_countedEntries_allBytes (s : State) :
    freqSum (countedEntries s allBytes) = (s.hist.toList.map BitVec.toNat).sum := by
  rw [freqSum_countedEntries, ← allBytes_map_histAt, List.map_map]
  rfl

/-- Settles O31: ALPHA lists the counters that are not 0, and a finished histogram sums to TOTAL_IN ≥ 1, so one of them is
not 0. -/
theorem alphaMeetsTheHeaderInvariants : Obligations.AlphaMeetsTheHeaderInvariants := by
  intro s hinv hb hv
  obtain ⟨hsum, hpos⟩ := hinv.histogram hv
  obtain ⟨t, hexec, hentries, hchange⟩ := exec_alpha_lists hb hv
  have htotal : t.totalIn = s.totalIn := by rw [hchange]; rfl
  have hfreq : freqSum (countedEntries s allBytes) = t.totalIn.toNat := by
    rw [htotal, ← hsum]; exact freqSum_countedEntries_allBytes s
  have hne : countedEntries s allBytes ≠ [] := fun hnil => by
    rw [hnil, htotal] at hfreq
    exact absurd hfreq (Nat.ne_of_lt hpos)
  refine ⟨t, hexec, ?_, ?_, ?_, ?_, ?_, htotal ▸ hpos⟩
  · rw [hentries.count]; exact List.length_pos_of_ne_nil hne
  · rw [hentries.count]; exact hentries.length_le
  · rw [hentries.entryList]; exact countedEntries_ascending s
  · rw [hentries.entryList]; exact fun e he => countedEntries_freq_pos he
  · rw [hentries.entryList]; exact hfreq

end Sys2Proof.Machine

/-! Proofs about the priority queue (42_priority_queue.md R150 to R155) and the pairs BUILD merges by it
(43_tree_builder.md R166, R167). -/

namespace Sys2Proof.Machine

/-! ### Slots and the heap of a step -/

theorem getElem?_eq_some_iff_slotL {l : List Ref} {i : Nat} {m : Ref} :
    l[i]? = some m ↔ i < l.length ∧ slotL l i = m := by
  rw [List.getElem?_eq_some_iff]
  exact ⟨fun ⟨hi, e⟩ => ⟨hi, (slotL_eq hi).trans e⟩, fun ⟨hi, e⟩ => ⟨hi, (slotL_eq hi).symm.trans e⟩⟩

theorem slotL_of_getLast? {l : List Ref} {m : Ref} (h : l.getLast? = some m) : slotL l (l.length - 1) = m := by
  rw [List.getLast?_eq_getElem?] at h
  exact (getElem?_eq_some_iff_slotL.mp h).2

/-- The queue reads the keys only, so an ordered list is an ordered heap after the step. -/
theorem QueueStep.heapOk {s t : State} {l : List Ref} (h : QueueStep s t l) (ho : OrderL (keyOf s) l) : HeapOk t := by
  refine (heapOk_iff t).mpr ?_
  rw [h.holds.list, h.key]
  exact ⟨h.holds, ho⟩

theorem HeapOk.length_heapList {s : State} (h : HeapOk s) : (heapList s).length = s.heapSize.toNat := heapList_length h.size

/-! ### The unit operations (42_priority_queue.md R151, R152, R154, R155) -/

/-- Settles O32: PQ_INSERT is `insertL`, which keeps the order, adds the node and leaves entries of at most its key. -/
theorem insertKeepsTheHeap : Obligations.InsertKeepsTheHeap := by
  intro s n hok hroom hn
  obtain ⟨hheap, horder⟩ := (heapOk_iff s).mp hok
  have hlen := hok.length_heapList
  obtain ⟨t, hrun, hstep⟩ := pqInsert_ok hheap (by omega) hn
  have hlist := hstep.holds.list
  have hperm := insertL_perm (keyOf s) (heapList s) n
  have hgrown : (insertL (keyOf s) (heapList s) n).length = (heapList s).length + 1 := hperm.length_eq
  refine ⟨t, hrun, hstep.heapOk (insertL_order horder n), hlist ▸ hperm, ?_, hstep.change, fun j m hj hkey => ?_,
    fun hparent => ?_⟩
  · rw [hstep.holds.size, hgrown, hlen]
  · obtain ⟨hslot, rfl⟩ := getElem?_eq_some_iff_slotL.mp hj
    rw [hlist]
    exact getElem?_eq_some_iff_slotL.mpr ⟨by omega, insertL_stays _ _ _ hslot hkey⟩
  · rw [hlist]
    exact insertL_last _ _ _ fun h0 => hparent _ (getElem?_eq_some_iff_slotL.mpr ⟨by omega, rfl⟩)

/-- Settles O33: PQ_EXTRACT_MIN returns slot 0, the least key of an ordered list, and leaves `extractL`, in which the
greater of two siblings, or the right one of two equal, keeps its slot. -/
theorem extractReturnsTheMinimum : Obligations.ExtractReturnsTheMinimum := by
  intro s hok h0
  obtain ⟨hheap, horder⟩ := (heapOk_iff s).mp hok
  have hlen := hok.length_heapList
  obtain ⟨t, hrun, hstep⟩ := pqExtractMin_ok hheap (by omega)
  have hlist := hstep.holds.list
  have hshrunk := extractL_length (keyOf s) (l := heapList s) (by omega)
  have hstays : ∀ {c : Nat}, c + 1 < (heapList s).length →
      slotL (extractL (keyOf s) (heapList s)) c = slotL (heapList s) c → (heapList t)[c]? = some (slotL (heapList s) c) :=
    fun hc hslot => by
      rw [hlist]
      exact getElem?_eq_some_iff_slotL.mpr ⟨by omega, hslot⟩
  refine ⟨slotL (heapList s) 0, t, hrun, hstep.heapOk (extractL_order horder), ?_, fun m hm => orderL_min_mem horder hm,
    ?_, hstep.change, getElem?_eq_some_iff_slotL.mpr ⟨by omega, rfl⟩, fun j m last hj0 hj hm hlast hkey => ?_,
    fun j l r hj hl hr => ?_⟩
  · rw [hlist]
    exact extractL_perm _ (by omega)
  · rw [hstep.holds.size, hshrunk, hlen]
  · obtain ⟨-, rfl⟩ := getElem?_eq_some_iff_slotL.mp hm
    obtain rfl := slotL_of_getLast? hlast
    exact hstays hj (extractL_stays _ _ hj0 hj (.inl hkey))
  · obtain ⟨-, rfl⟩ := getElem?_eq_some_iff_slotL.mp hl
    obtain ⟨-, rfl⟩ := getElem?_eq_some_iff_slotL.mp hr
    refine ⟨fun hkey => ?_, fun hkey => ?_⟩
    · exact hstays hj (extractL_stays _ _ (by omega) hj (.inr (.inl ⟨j, rfl, hkey⟩)))
    · have hc : 2 * j + 1 + 1 < (heapList s).length := by omega
      exact hstays hc (extractL_stays _ _ (by omega) hc (.inr (.inr ⟨j, rfl, hj, hkey⟩)))

/-- Error entry (60_exceptions.md R232). -/
theorem raise_eq_stop_aborted {α : Type} (k : ErrKind) (s : State) :
    (raise k s : Res α) = .stop (aborted k s.phase s) := rfl

theorem pqInsert_full {s : State} (h : s.heapSize = 256#9) (n : Ref) : pqInsert n s = raise .invariantViolation s :=
  if_pos h

theorem pqExtractMin_empty {s : State} (h : s.heapSize = 0#9) : pqExtractMin s = raise .invariantViolation s := if_pos h

/-- Settles O34: both operations test HEAP_SIZE before they touch the heap. -/
theorem queueErrorsAreInvariantViolations : Obligations.QueueErrorsAreInvariantViolations :=
  fun s n => ⟨fun hfull => (pqInsert_full hfull n).trans (raise_eq_stop_aborted _ s),
    fun hempty => (pqExtractMin_empty hempty).trans (raise_eq_stop_aborted _ s)⟩

/-! ### The pairs of BUILD (43_tree_builder.md R166, R167) -/

/-- The two extractions of a merge. -/
theorem pqExtractMin_twice {s : State} {l : List Ref} (h : HeapIs s l) (h2 : 2 ≤ l.length) :
    ∃ u v, pqExtractMin s = .ok (firstMin l) u ∧ pqExtractMin u = .ok (secondMin (keyOf s) l) v ∧
      HeapIs v (restMin (keyOf s) l) := by
  have hlen := extractL_length (keyOf s) (l := l) (by omega)
  obtain ⟨u, hfirst, hu⟩ := pqExtractMin_ok h (by omega)
  obtain ⟨v, hsecond, hv⟩ := pqExtractMin_ok hu.holds (by omega)
  exact ⟨u, v, hfirst, hsecond, hu.key ▸ hv.holds⟩

theorem Joins.congr {s t : State} {first i : Nat} {l r : Ref} (h : Joins s first i l r)
    (hfreq : t.nodeFreq = s.nodeFreq) (hsym : t.nodeSym = s.nodeSym) (hleft : t.nodeLeft = s.nodeLeft)
    (hright : t.nodeRight = s.nodeRight) : Joins t first i l r where
  left := hleft ▸ h.left
  right := hright ▸ h.right
  leftLt := h.leftLt
  rightLt := h.rightLt
  differ := h.differ
  sym := hsym ▸ h.sym
  freq := by rw [hfreq, keyOf_congr hfreq]; exact h.freq
  order := by rw [keyOf_congr hfreq]; exact h.order
  least n hn hno := by
    rw [keyOf_congr hfreq]
    exact h.least n hn fun j h1 h2 => mt (childOf_congr hleft hright n j).mpr (hno j h1 h2)

/-- A finished forest joins a minimum pair in every node above the leaves. -/
theorem forest_joins {s u t : State} (hf : Forest s u s.k.toNat (2 * s.k.toNat - 1) [t.root])
    (ht : t = { u with root := t.root }) (i : Nat) (hi : t.k.toNat ≤ i) (hi' : i < t.nodeCnt.toNat) :
    ∃ l r, Joins t t.k.toNat i l r := by
  have hk : t.k = s.k := by rw [ht, hf.change]
  have hcnt : t.nodeCnt = u.nodeCnt := by rw [ht]
  rw [hk] at hi ⊢
  rw [hcnt, hf.count] at hi'
  obtain ⟨l, r, hjoins⟩ := hf.inner i hi hi'
  exact ⟨l, r, hjoins.congr (by rw [ht]) (by rw [ht]) (by rw [ht]) (by rw [ht])⟩

/-- BUILD joins a minimum pair in every node above the leaves. -/
theorem exec_build_joins {s : State} (hb : s.busy = false) (hv : s.entV = true) (h1 : 1 ≤ s.k.toNat)
    (h256 : s.k.toNat ≤ 256) :
    ∃ t, exec .build s = .next t ∧
      ∀ i, t.k.toNat ≤ i → i < t.nodeCnt.toNat → ∃ l r, Joins t t.k.toNat i l r := by
  obtain ⟨u, t, hbody, hforest, ht⟩ := bodyBuild_spec (Stage.build.cascade (accept .single .build s)) h1 h256
  refine ⟨_, runCommand_ok (st := .build) hb hv hbody, fun i hi hi' => ?_⟩
  obtain ⟨l, r, hjoins⟩ := forest_joins hforest ht i hi hi'
  exact ⟨l, r, hjoins.congr rfl rfl rfl rfl⟩

/-- Settles O36: the node of a turn has the first extracted on the left and the second on the right; that every node joins a
minimum pair is part of the invariant of BUILD's loops (`Forest.inner`), and the finished forest is BUILD's tree. -/
theorem buildMergesMinimumPairs : Obligations.BuildMergesMinimumPairs := by
  refine ⟨fun s hok h2 hcnt => ?_, fun s t hb hv h1 h256 hexec i l r hi hi' hl hr => ?_⟩
  · have hheap := ((heapOk_iff s).mp hok).1
    have hlen := hok.length_heapList
    obtain ⟨u, v, hfirst, hsecond, hrest⟩ := pqExtractMin_twice hheap (by omega)
    obtain ⟨w, t, hw, ha, hb, hqueue, hmerge, hinsert⟩ := mergeTurn_ok hheap (by omega) hcnt
    obtain ⟨hfreq, hsym, hleft, hright, hnext⟩ := queue_change_nodes hinsert.change
    have hsame : w.nodeCnt = s.nodeCnt := (queue_change_nodes hqueue.change).2.2.2.2
    refine ⟨_, u, _, v, t, _, _, hfirst, hsecond, hmerge, Vector.getElem?_eq_getElem ha, Vector.getElem?_eq_getElem hb,
      ?_, ?_, ?_, ?_, ?_, ?_⟩
    · rw [hleft, withNode_left, hsame, if_pos rfl]
    · rw [hright, withNode_right, hsame, if_pos rfl]
    · rw [hfreq, withNode_freq, hsame, if_pos rfl]
    · rw [hsym, withNode_sym, hsame, if_pos rfl]
    · rw [hnext, withNode_cnt, hsame]
    · rw [hinsert.holds.list, hrest.list, hsame]
      exact insertL_perm _ _ _
  · obtain ⟨t', hexec', hjoins⟩ := exec_build_joins hb hv h1 h256
    obtain rfl : t = t' := Host.Outcome.next.inj (hexec.symm.trans hexec')
    obtain ⟨l', r', hpair⟩ := hjoins i hi hi'
    obtain rfl : l' = l := Option.some.inj (hpair.left.symm.trans hl)
    obtain rfl : r' = r := Option.some.inj (hpair.right.symm.trans hr)
    exact ⟨hpair.order, fun n hn hno => hpair.least n hn fun j h1 h2 => not_or.mpr (hno j h1 h2)⟩

end Sys2Proof.Machine

/-! Proofs about the tree builder (43_tree_builder.md R165 to R173): what BUILD makes of an entry list, that it depends on
nothing else, and what its tree is like. -/

namespace Sys2Proof.Machine

/-! ### BUILD depends on the entry list alone (R169, R173) -/

/-- Settles O40: the bodies of the two runs keep in step turn by turn (`bodyBuild_agree`). -/
theorem buildDependsOnTheEntriesOnly : Obligations.BuildDependsOnTheEntriesOnly := by
  intro s u hbs hbu hvs hvu h1 h256 hk hentries
  obtain ⟨_, _, t, v, hbody, hbody', hforest, ht, -, hv, hagree⟩ :=
    bodyBuild_agree (s := Stage.build.cascade (accept .single .build s))
      (s' := Stage.build.cascade (accept .single .build u)) h1 h256 hk hentries
  have hcount : t.nodeCnt.toNat = 2 * s.k.toNat - 1 := by rw [ht]; exact hforest.count
  have hroot : v.root = t.root := by rw [hv]
  refine ⟨complete (Stage.build.produce t), complete (Stage.build.produce v), runCommand_ok (st := .build) hbs hvs hbody,
    runCommand_ok (st := .build) hbu hvu hbody', hagree.count, hroot, fun i hi => ?_⟩
  have hi : i < 2 * s.k.toNat - 1 := hcount ▸ hi
  exact ⟨hagree.freq i hi, hagree.sym i hi, hagree.left i hi, hagree.right i hi⟩

/-! ### The tree that BUILD makes (R167, R168, R170 to R172) -/

/-- BUILD leaves the root alone in the heap, and the NODE words at and above NODE_CNT as they were. -/
theorem exec_build_rest {s : State} (hb : s.busy = false) (hv : s.entV = true) (h1 : 1 ≤ s.k.toNat)
    (h256 : s.k.toNat ≤ 256) :
    ∃ t, exec .build s = .next t ∧ t.heap[0]? = some t.root ∧
      ∀ i, t.nodeCnt.toNat ≤ i → t.nodeFreq[i]? = s.nodeFreq[i]? ∧ t.nodeSym[i]? = s.nodeSym[i]? ∧
        t.nodeLeft[i]? = s.nodeLeft[i]? ∧ t.nodeRight[i]? = s.nodeRight[i]? := by
  obtain ⟨u, t, hbody, hforest, ht⟩ := bodyBuild_spec (Stage.build.cascade (accept .single .build s)) h1 h256
  obtain ⟨h0, hslot⟩ := heapIs_slot hforest.heap (i := 0) Nat.zero_lt_one
  have hcount : t.nodeCnt.toNat = 2 * s.k.toNat - 1 := by rw [ht]; exact hforest.count
  refine ⟨complete (Stage.build.produce t), runCommand_ok (st := .build) hb hv hbody, ?_, fun i hi => ?_⟩
  · show t.heap[0]? = some t.root
    rw [Vector.getElem?_eq_getElem h0, show t.heap = u.heap by rw [ht], hslot]
    rfl
  · have hi : 2 * s.k.toNat - 1 ≤ i := hcount ▸ hi
    show t.nodeFreq[i]? = _ ∧ t.nodeSym[i]? = _ ∧ t.nodeLeft[i]? = _ ∧ t.nodeRight[i]? = _
    rw [ht]
    exact hforest.stale i hi

/-- Settles O35, by the finished forest of BUILD's loops. -/
theorem buildMakesTheTree : Obligations.BuildMakesTheTree := by
  intro s hb hv h1 h256
  obtain ⟨t, hexec, htree, hchange⟩ := exec_build_tree hb hv h1 h256
  obtain ⟨t', hexec', hheap, hstale⟩ := exec_build_rest hb hv h1 h256
  obtain rfl : t = t' := Host.Outcome.next.inj (hexec.symm.trans hexec')
  have hsize : t.heapSize = 1 := by rw [hchange]
  refine ⟨t, hexec, htree, hsize, hheap, hstale, ?_⟩
  rw [hsize]
  exact hchange

/-- Settles O39: the tree of one entry has one node, which is node 0, a leaf. -/
theorem oneEntryGivesASingleLeaf : Obligations.OneEntryGivesASingleLeaf := by
  intro s hb hv hk
  obtain ⟨t, hexec, htree, hchange⟩ := exec_build_tree hb hv (by rw [hk]; decide) (by rw [hk]; decide)
  have hone : t.k.toNat = 1 := by rw [hchange]; exact congrArg BitVec.toNat hk
  have hcount := htree.count
  have hroot := htree.root
  rw [hone] at hcount hroot
  obtain ⟨-, hsym, -⟩ := htree.leaves 0 (by omega)
  refine ⟨t, hexec, BitVec.eq_of_toNat_eq hcount, BitVec.eq_of_toNat_eq hroot,
    (htree.leaf_iff htree.root_lt).mpr (by omega), hsym.trans ?_⟩
  rw [hchange]
  rfl

/-! ### Paths and frequencies of a built tree (R170) -/

/-- Settles O37: one path leads to each leaf, and a path ends at a node of the tree. -/
theorem everyLeafHasOnePath : Obligations.EveryLeafHasOnePath :=
  fun s htree => ⟨fun _ hi => htree.leaf_path hi, fun q n hq =>
    htree.leaf_iff (htree.follow_bound q s.root n htree.root_lt hq).1⟩

/-- The key of node `i` by its index. -/
def nodeKey (s : State) (i : Nat) : Nat := (s.nodeFreq[i]?.getD 0).toNat

theorem keyOf_eq_nodeKey (s : State) (n : Ref) : keyOf s n = nodeKey s n.toNat := rfl

/-- The leaves carry the frequencies of the entries. -/
theorem TreeOk.sum_leaves {s : State} (h : TreeOk s) :
    ∑ i ∈ Finset.range s.k.toNat, nodeKey s i = freqSum (entryList s) := by
  have hlen := entryList_length s h.kRange.2
  have hkeys : (List.range s.k.toNat).map (nodeKey s) = (entryList s).map fun e => e.2.toNat := by
    refine List.ext_getElem (by simp [hlen]) fun i hi _ => ?_
    have hi : i < s.k.toNat := by simpa using hi
    obtain ⟨h256, hentry⟩ := entryList_getElem s i (by omega)
    obtain ⟨hfreq, -⟩ := h.leaves i hi
    rw [Vector.getElem?_eq_getElem h256] at hfreq
    rw [List.getElem_map, List.getElem_map, List.getElem_range, hentry, nodeKey, hfreq]
    exact BitVec.toNat_setWidth_of_le (by decide)
  rw [freqSum, ← hkeys]
  rfl

/-- The two children of node `i` by their indices. -/
def childIndices (s : State) (i : Nat) : Finset Nat :=
  {(s.nodeLeft[i]?.getD 0).toNat, (s.nodeRight[i]?.getD 0).toNat}

section
variable {s : State} {i : Nat}

theorem TreeOk.mem_childIndices (h : TreeOk s) (hi : s.k.toNat ≤ i) (hi' : i < 2 * s.k.toNat - 1) (c : Ref) :
    c.toNat ∈ childIndices s i ↔ ChildOf s c i := by
  obtain ⟨l, r, -, -, -, hl, hr, -⟩ := h.inner i hi hi'
  simp [childIndices, ChildOf, hl, hr, BitVec.toNat_inj, eq_comm (a := c)]

theorem TreeOk.childIndices_lt (h : TreeOk s) (hi : s.k.toNat ≤ i) (hi' : i < 2 * s.k.toNat - 1) {c : Nat}
    (hc : c ∈ childIndices s i) : c < i := by
  obtain ⟨l, r, -, -, -, hl, hr, hli, hri, -⟩ := h.inner i hi hi'
  simp only [childIndices, hl, hr, Option.getD_some, Finset.mem_insert, Finset.mem_singleton] at hc
  obtain rfl | rfl := hc
  · exact hli
  · exact hri

/-- The keys of the two children of an internal node sum to its own. -/
theorem TreeOk.sum_childIndices (h : TreeOk s) (hi : s.k.toNat ≤ i) (hi' : i < 2 * s.k.toNat - 1) :
    ∑ c ∈ childIndices s i, nodeKey s c = nodeKey s i := by
  obtain ⟨l, r, fl, fr, fi, hl, hr, -, -, hne, -, hfl, hfr, hfi, hsum⟩ := h.inner i hi hi'
  rw [childIndices, hl, hr, Option.getD_some, Option.getD_some,
    Finset.sum_pair fun e => hne (BitVec.eq_of_toNat_eq e)]
  simp only [nodeKey, hfl, hfr, hfi, Option.getD_some, hsum]

/-- A node other than the root is a child of one internal node. -/
theorem TreeOk.exists_mem_childIndices (h : TreeOk s) {c : Nat} (hc : c < 2 * s.k.toNat - 2) :
    ∃ i, s.k.toNat ≤ i ∧ i < 2 * s.k.toNat - 1 ∧ c ∈ childIndices s i ∧
      ∀ j, s.k.toNat ≤ j → j < 2 * s.k.toNat - 1 → c ∈ childIndices s j → j = i := by
  have hk := h.kRange
  obtain ⟨n, rfl⟩ : ∃ n : Ref, n.toNat = c := ⟨BitVec.ofNat 9 c, by rw [BitVec.toNat_ofNat]; omega⟩
  obtain ⟨i, hi', hchild, huniq⟩ := h.parent n hc
  have hi : s.k.toNat ≤ i := by
    by_contra hleaf
    obtain ⟨-, -, hl, hr⟩ := h.leaves i (by omega)
    exact not_childOf_nil hl hr (by omega) hchild
  exact ⟨i, hi, hi', (h.mem_childIndices hi hi' n).mpr hchild,
    fun j hj hj' hmem => huniq j hj' ((h.mem_childIndices hj hj' n).mp hmem)⟩

/-- The internal nodes share out the nodes but the root among them as their children. -/
theorem TreeOk.biUnion_childIndices (h : TreeOk s) :
    (Finset.Ico s.k.toNat (2 * s.k.toNat - 1)).biUnion (childIndices s) = Finset.range (2 * s.k.toNat - 2) := by
  ext c
  simp only [Finset.mem_biUnion, Finset.mem_Ico, Finset.mem_range]
  constructor
  · rintro ⟨i, ⟨hi, hi'⟩, hc⟩
    have := h.childIndices_lt hi hi' hc
    omega
  · intro hc
    obtain ⟨i, hi, hi', hmem, -⟩ := h.exists_mem_childIndices hc
    exact ⟨i, ⟨hi, hi'⟩, hmem⟩

theorem TreeOk.disjoint_childIndices (h : TreeOk s) :
    Set.PairwiseDisjoint (Finset.Ico s.k.toNat (2 * s.k.toNat - 1) : Set Nat) (childIndices s) := by
  intro i hi j hj hne
  rw [Finset.mem_coe, Finset.mem_Ico] at hi hj
  refine Finset.disjoint_left.mpr fun c hci hcj => hne ?_
  have hlt := h.childIndices_lt hi.1 hi.2 hci
  obtain ⟨p, -, -, -, huniq⟩ := h.exists_mem_childIndices (c := c) (by omega)
  rw [huniq i hi.1 hi.2 hci, huniq j hj.1 hj.2 hcj]

end

/-- The internal nodes have together the keys of all nodes but the root. -/
theorem TreeOk.sum_inner {s : State} (h : TreeOk s) :
    ∑ i ∈ Finset.Ico s.k.toNat (2 * s.k.toNat - 1), nodeKey s i =
      ∑ c ∈ Finset.range (2 * s.k.toNat - 2), nodeKey s c := by
  rw [← h.biUnion_childIndices, Finset.sum_biUnion h.disjoint_childIndices]
  refine Finset.sum_congr rfl fun i hi => ?_
  rw [Finset.mem_Ico] at hi
  exact (h.sum_childIndices hi.1 hi.2).symm

/-- Leaves and internal nodes together are the nodes below the root and the root, so the leaves have the root's key. -/
theorem TreeOk.key_root {s : State} (h : TreeOk s) : keyOf s s.root = freqSum (entryList s) := by
  have hk := h.kRange
  have hlast : 2 * s.k.toNat - 1 = 2 * s.k.toNat - 2 + 1 := by omega
  have hall := Finset.sum_range_add_sum_Ico (nodeKey s) (show s.k.toNat ≤ 2 * s.k.toNat - 1 by omega)
  rw [h.sum_leaves, h.sum_inner, hlast, Finset.sum_range_succ] at hall
  rw [keyOf_eq_nodeKey, h.root]
  omega

/-- Settles O38: with TREE_V set, the invariant says that NODE holds the tree of the entry list. -/
theorem rootFrequencyIsTheTotal : Obligations.RootFrequencyIsTheTotal :=
  fun _ hinv hv => (hinv.tree hv).key_root

end Sys2Proof.Machine

/-! Proofs about the code table (44_code_table.md R180 to R186): the command CODEGEN, and what a valid table holds when the
root is internal, where every code is the path of a leaf. -/

namespace Sys2Proof.Machine

/-! ### Codes are leaf paths (R181, R183, R184) -/

/-- The path of a leaf has at most K − 1 edges (43_tree_builder.md R170). -/
theorem TreeOk.leafPath_length_le {s : State} (h : TreeOk s) {p : List Bool} {b : Byte} (hp : LeafPath s p b) :
    p.length ≤ s.k.toNat - 1 := by
  obtain ⟨m, hm, hfollow, -⟩ := (h.leafPath_iff p b).mp hp
  obtain ⟨p', hp', hlen, -⟩ := h.leaf_path hm
  rwa [h.path_unique _ p p' m rfl hfollow hp']

/-- A path leads to one symbol at most. -/
theorem LeafPath.sym_unique {s : State} {p : List Bool} {b c : Byte} (hb : LeafPath s p b) (hc : LeafPath s p c) :
    b = c := by
  obtain ⟨n, hn, -, hsym⟩ := hb
  obtain ⟨m, hm, -, hsym'⟩ := hc
  obtain rfl : n = m := Option.some.inj (hn.symm.trans hm)
  exact Option.some.inj (hsym.symm.trans hsym')

/-- The leaf paths of two symbols: neither begins the other. -/
theorem LeafPath.not_prefix {s : State} {p q : List Bool} {b c : Byte} (hp : LeafPath s p b) (hq : LeafPath s q c)
    (hne : b ≠ c) : ¬ p <+: q := fun hprefix => by
  obtain rfl := leafPath_prefix hp hq hprefix
  exact hne (hp.sym_unique hq)

/-- Below an internal root, the code of a symbol that has one is the path of a leaf that carries the symbol. -/
theorem CodeTableOk.leafPath_codeOf {s : State} (h : CodeTableOk s) (hroot : leafNode s s.root = false) {b : Byte}
    (hb : codeOf b s ≠ []) : LeafPath s (codeOf b s) b := by
  obtain ⟨hnil, -⟩ | ⟨hpath, -⟩ := h.paths hroot b
  · exact absurd hnil hb
  · exact hpath

/-- A code has at most K − 1 bits (R183). -/
theorem CodeTableOk.codeOf_length_le {s : State} (h : CodeTableOk s) (htree : TreeOk s)
    (hroot : leafNode s s.root = false) (b : Byte) : (codeOf b s).length ≤ s.k.toNat - 1 := by
  by_cases hb : codeOf b s = []
  · simp [hb]
  · exact htree.leafPath_length_le (h.leafPath_codeOf hroot hb)

/-- Settles O42: with CODE_V set, the invariant says that CODE holds the table of a built tree; its root is internal, so
the codes are paths of leaves, and the leaves carry the symbols of the entry list. -/
theorem codesArePrefixFree : Obligations.CodesArePrefixFree := by
  intro s hinv hcode h2
  have htable := hinv.code hcode
  have htree := hinv.tree (hinv.chain.1 hcode)
  have hroot := htree.root_inner h2
  refine ⟨fun b => ⟨fun hb => htree.leafPath_mem (htable.leafPath_codeOf hroot hb), htable.codeOf_ne_nil htree⟩,
    htable.codeOf_length_le htree hroot, fun b c hne hb hc => ?_⟩
  exact (htable.leafPath_codeOf hroot hb).not_prefix (htable.leafPath_codeOf hroot hc) hne

/-! ### CODEGEN (R180 to R182, R186) -/

/-- Settles O41: the walk of the current tree leaves its code table (`bodyCodegen_spec`). -/
theorem codegenFillsTheCodeTable : Obligations.CodegenFillsTheCodeTable :=
  fun _ hbusy hv htree => exec_codegen_table hbusy hv htree

end Sys2Proof.Machine

/-! Proofs about the serializer (45_serializer.md R190 to R193): the header WRHDR appends, one bit and one byte at a time, and
where PACK stops. -/

namespace Sys2Proof.Machine

/-! ### WRHDR (R190) -/

/-- Settles O43: without a valid entry list WRHDR is not run, with one its body appends the header. -/
theorem wrhdrAppendsTheHeader : Obligations.WrhdrAppendsTheHeader := by
  refine fun s hb => ⟨fun hv => runCommand_pre_false (st := .wrhdr) hb hv, fun hv h256 => ?_⟩
  exact ⟨exec_wrhdr_header hb hv h256, by rw [headerBytes_length, entryList_length s h256]⟩

/-! ### PUTBIT and FLUSH (R191, R192) -/

/-- Settles O44: the byte is the buffer with the bit at BITCNT replaced. -/
theorem putBitFillsTheByte : Obligations.PutBitFillsTheByte := by
  refine fun s v => ⟨setBit s.bitBuf s.bitCnt.toNat v, fun i hi => setBit_getLsbD _ _ _ v s.bitCnt.isLt hi,
    fun hfull => if_pos hfull, fun hroom => ⟨if_neg hroom, ?_⟩⟩
  bv_omega

/-- Settles O45, by whether a bit is pending. -/
theorem flushWritesThePartialByte : Obligations.FlushWritesThePartialByte :=
  fun _ => ⟨fun hpending => if_pos hpending, fun hnone => if_neg (not_not_intro hnone)⟩

/-! ### PACK (R193) -/

/-- A byte of the source stands at the place where the bytes before it end. -/
theorem sourceBytes_split {s : State} {before after : List Byte} {b : Byte}
    (h : sourceBytes s = before ++ b :: after) :
    before.length < s.srcLen.toNat ∧ sourceTake s before.length = before ∧ sourceByte s before.length = b := by
  have hprefix : before ++ [b] <+: (sourceBytes s).drop 0 := ⟨after, by simp [h]⟩
  obtain ⟨hfit, hbytes⟩ := sourceBytes_drop_prefix hprefix (Nat.zero_le _)
  simp only [Nat.zero_add, List.length_append, List.length_singleton] at hfit hbytes
  have htake : sourceTake s before.length ++ [sourceByte s before.length] = before ++ [b] :=
    (sourceTake_succ s _).symm.trans hbytes
  obtain ⟨hbefore, hb⟩ := List.append_inj' htake rfl
  exact ⟨hfit, hbefore, List.head_eq_of_cons_eq hb⟩

/-- Settles O47: the bytes before the first one without a code are packed, and there the body raises. -/
theorem packStopsAtAByteWithoutCode : Obligations.PackStopsAtAByteWithoutCode := by
  intro s done bad rest hb hv hsource hcoded hbad
  obtain ⟨hlt, htake, hbyte⟩ := sourceBytes_split (s := accept .single .pack s) hsource
  have hcodes (i : Nat) (hi : i < done.length) : codeOf (sourceByte s i) s ≠ [] :=
    hcoded _ (htake ▸ List.mem_map_of_mem (List.mem_range.mpr hi))
  have hbody := bodyPack_uncoded (accept .single .pack s) hlt hcodes (hbyte.symm ▸ hbad)
  rw [htake] at hbody
  refine (runCommand_stop (st := .pack) hb hv hbody).trans ?_
  rw [packBytes_take]
  rfl

end Sys2Proof.Machine

/-! Proofs about the deserializer (46_deserializer.md R205 to R214): where RDHDR raises, and how DECODE ends on the paths of
leaves, on a stream that ends early and on a tree of one leaf. -/

namespace Sys2Proof.Machine

/-! ### RDHDR on a corrupt header (R205) -/

/-- RDHDR whose body raises. -/
theorem exec_rdhdr_raise {s t : State} (hb : s.busy = false)
    (h : bodyRdhdr (Stage.rdhdr.cascade (accept .single .rdhdr s)) = raise .corruptHeader t) :
    exec .rdhdr s = .next (errorEntry .corruptHeader t) :=
  runCommand_stop (st := .rdhdr) hb rfl h

/-- Settles O49, by the place where the body of RDHDR raises. -/
theorem rdhdrRejectsCorruptHeaders : Obligations.RdhdrRejectsCorruptHeaders := by
  intro s hb failed
  refine ⟨fun hlen => exec_rdhdr_raise hb (bodyRdhdr_tiny hlen), fun k hk hrange => ?_, fun k hk h1 h256 hshort => ?_⟩
  · obtain ⟨hcount, hfit⟩ := headerCount_of (s := Stage.rdhdr.cascade (accept .single .rdhdr s)) hk
    exact exec_rdhdr_raise hb (bodyRdhdr_count hfit (hcount.symm ▸ hrange))
  · obtain ⟨hcount, hfit⟩ := headerCount_of (s := Stage.rdhdr.cascade (accept .single .rdhdr s)) hk
    obtain ⟨-, hentries⟩ := bodyRdhdr_entries hfit (hcount.symm ▸ h1) (hcount.symm ▸ h256)
    obtain ⟨t, n, hbody, hchange, hpos, rfl, hk', hread, hstale⟩ := hentries (hcount.symm ▸ hshort)
    refine ⟨_, exec_rdhdr_raise hb hbody, hk'.trans (congrArg _ hcount), hstale, fun i hi => ?_, ?_⟩
    · have hi : i < (s.srcLen.toNat - 4) / 5 := hi
      exact ⟨_, _, (hread i hi).1, (hread i hi).2, headerEntry_bytes (s := s) (by omega)⟩
    · unfold RdhdrChange at hchange
      rw [hpos] at hchange
      rw [hchange]
      rfl

/-! ### DECODE (R207 to R214) -/

/-- DECODE whose body runs to its end. -/
theorem exec_decode_ok {s t : State} (hb : s.busy = false) (he : s.entV = true) (hv : s.treeV = true)
    (h : bodyDecode (accept .single .decode s) = .ok () t) : exec .decode s = .next (complete t) :=
  runCommand_ok (st := .decode) hb (Bool.and_eq_true_iff.mpr ⟨he, hv⟩) h

/-- DECODE whose body raises. -/
theorem exec_decode_raise {s t : State} {kind : ErrKind} (hb : s.busy = false) (he : s.entV = true)
    (hv : s.treeV = true) (h : bodyDecode (accept .single .decode s) = raise kind t) :
    exec .decode s = .next (errorEntry kind t) :=
  runCommand_stop (st := .decode) hb (Bool.and_eq_true_iff.mpr ⟨he, hv⟩) h

/-- Accepting a command leaves the tree. -/
theorem accept_sameTree (kind : CommandKind) (first : Stage) (s : State) : SameTree s (accept kind first s) :=
  ⟨rfl, rfl, rfl, rfl, rfl, rfl, rfl, rfl, rfl⟩

theorem accept_leafPaths {kind : CommandKind} {first : Stage} {s : State} {paths : List (List Bool)} {syms : List Byte}
    (h : List.Forall₂ (LeafPath s) paths syms) : List.Forall₂ (LeafPath (accept kind first s)) paths syms :=
  h.imp fun p b => ((accept_sameTree kind first s).leafPath p b).mpr

/-- SRC_POS after `n` bytes more. -/
theorem pos_add_ofNat (p : Word32) (n : Nat) : p + BitVec.ofNat 32 n = BitVec.ofNat 32 (p.toNat + n) := by
  rw [BitVec.ofNat_add, BitVec.ofNat_toNat, BitVec.setWidth_eq]

/-- Settles O50: the body runs the paths one after the other and stops at the count. -/
theorem decodeEmitsTheSymbols : Obligations.DecodeEmitsTheSymbols := by
  intro s paths syms rest hb he hv htree hroot hpaths hlen hbits
  rw [exec_decode_paths hb he hv htree hroot hpaths hlen hbits, pos_add_ofNat, hlen]

/-- Settles O51: the body runs the whole paths, then the bits of the partial one, and the next byte is missing. -/
theorem decodeRunsOutOfInput : Obligations.DecodeRunsOutOfInput := by
  intro s paths syms part n hb he hv htree hroot hpaths hlen hbits hpart hn
  have hsame := accept_sameTree .single .decode s
  exact exec_decode_raise hb he hv (bodyDecode_short (htree.congr hsame) hroot (accept_leafPaths hpaths) hlen hbits
    ((follow_congr hsame.nodeLeft hsame.nodeRight _ _).trans hpart) hn)

/-- Settles O52, by the three streams of `bodyDecode_leaf`. -/
theorem decodeOfASingleLeaf : Obligations.DecodeOfASingleLeaf := by
  intro s sym total hb he hv htree hroot hsym htotal
  obtain ⟨hzeros, hone, hshort⟩ := bodyDecode_leaf (htree.congr (accept_sameTree .single .decode s)) hroot hsym
  subst htotal
  refine ⟨fun rest hbits => ?_, fun zeros rest hlt hbits => ?_, fun zeros hlt hbits => ?_⟩
  · rw [exec_decode_ok hb he hv (hzeros rest hbits), accept_srcPos, pos_add_ofNat]
    unfold decoding
    rw [List.length_replicate]
    rfl
  · rw [exec_decode_raise hb he hv (hone zeros rest hlt hbits), accept_srcPos, pos_add_ofNat]
    unfold decoding
    rw [List.length_replicate]
    rfl
  · rw [exec_decode_raise hb he hv (hshort zeros hlt hbits)]
    unfold decoding
    rw [List.length_replicate]
    rfl

/-- Settles O53: the loop of the body does not start. -/
theorem decodeOfNoSymbolsReadsNothing : Obligations.DecodeOfNoSymbolsReadsNothing := by
  intro s hb he hv hk hsum
  rw [exec_decode_ok hb he hv (bodyDecode_none (accept .single .decode s) hk hsum)]
  unfold decoding
  rw [List.append_nil]
  rfl

end Sys2Proof.Machine

/-! Proofs about DECOMPRESS (46_deserializer.md R215, R216): the four ways it ends on any source, and the round trip. -/

namespace Sys2Proof.Machine

/-! ### How RDHDR ends on any source (R205) -/

/-- The body of RDHDR raises CorruptHeader, or reads an entry list of 1 to 256 entries that ends within the source. -/
theorem bodyRdhdr_cases (s : State) :
    (∃ t, bodyRdhdr s = raise .corruptHeader t ∧ RdhdrChange s t) ∨
    ∃ t, bodyRdhdr s = .ok () t ∧ RdhdrChange s t ∧ 1 ≤ t.k.toNat ∧ t.k.toNat ≤ 256 ∧ t.srcPos ≤ t.srcLen := by
  by_cases h4 : s.srcLen.toNat < 4
  · exact .inl ⟨_, bodyRdhdr_tiny h4, rfl⟩
  have h4 : 4 ≤ s.srcLen.toNat := Nat.le_of_not_lt h4
  by_cases hrange : headerCount s = 0 ∨ 256 < (headerCount s).toNat
  · exact .inl ⟨_, bodyRdhdr_count h4 hrange, rfl⟩
  obtain ⟨hne, hle⟩ := not_or.mp hrange
  have hle : (headerCount s).toNat ≤ 256 := Nat.le_of_not_lt hle
  have hpos : 1 ≤ (headerCount s).toNat := Nat.pos_of_ne_zero fun hz => hne (BitVec.eq_of_toNat_eq hz)
  obtain ⟨hfull, hshort⟩ := bodyRdhdr_entries h4 hpos hle
  by_cases hfit : 4 + 5 * (headerCount s).toNat ≤ s.srcLen.toNat
  · obtain ⟨t, hbody, hchange, hend, hentries⟩ := hfull hfit
    have hk : t.k.toNat = (headerCount s).toNat := by simpa using hentries.count
    have hlen : t.srcLen = s.srcLen := by rw [hchange]
    exact .inr ⟨t, hbody, hchange, hk ▸ hpos, hk ▸ hle, BitVec.le_def.mpr (by rw [hend, hlen]; exact hfit)⟩
  · obtain ⟨t, -, hbody, hchange, -⟩ := hshort (Nat.lt_of_not_le hfit)
    exact .inl ⟨t, hbody, hchange⟩

/-- Where UnexpectedEOF leaves an SRC_POS that is not above SRC_LEN. -/
theorem srcEnd_of_le {p n : Word32} (h : p ≤ n) : (if p < n then n else p) = n := by
  split
  · rfl
  · next hlt => exact BitVec.le_antisymm h (BitVec.not_lt.mp hlt)

/-! ### How DECODE ends on any stream (R211, R212) -/

/-- From a node of the tree, any bits begin with a path to a leaf, or are a path to an internal node. -/
theorem TreeOk.follow_bits {s : State} (h : TreeOk s) (bits : List Bool) : ∀ n : Ref, n.toNat < 2 * s.k.toNat - 1 →
    (∃ p m rest, bits = p ++ rest ∧ follow s n p = some m ∧ m.toNat < s.k.toNat) ∨
    ∃ m, follow s n bits = some m ∧ leafNode s m = false := by
  induction bits with
  | nil =>
    intro n hn
    by_cases hk : n.toNat < s.k.toNat
    · exact .inl ⟨[], n, [], rfl, rfl, hk⟩
    · exact .inr ⟨n, rfl, Bool.eq_false_iff.mpr fun hl => hk ((h.leaf_iff hn).mp hl)⟩
  | cons b bits ih =>
    intro n hn
    by_cases hk : n.toNat < s.k.toNat
    · exact .inl ⟨[], n, b :: bits, rfl, rfl, hk⟩
    · obtain ⟨c, hc, hlt, hne⟩ := h.child (by omega) hn b
      have hstep := fun p => follow_cons_some (p := p) hc hne
      obtain ⟨p, m, rest, rfl, hm, hleaf⟩ | ⟨m, hm, hinner⟩ := ih c (by omega)
      · exact .inl ⟨b :: p, m, rest, rfl, (hstep p).trans hm, hleaf⟩
      · exact .inr ⟨m, (hstep bits).trans hm, hinner⟩

/-- Any bits begin with the paths of `n` leaves, or are the paths of fewer and a path to an internal node. -/
theorem TreeOk.leafPaths_or_part {s : State} (h : TreeOk s) (n : Nat) : ∀ bits : List Bool,
    (∃ paths syms rest, List.Forall₂ (LeafPath s) paths syms ∧ syms.length = n ∧ bits = paths.flatten ++ rest) ∨
    ∃ paths syms part m, List.Forall₂ (LeafPath s) paths syms ∧ syms.length < n ∧ bits = paths.flatten ++ part ∧
      follow s s.root part = some m ∧ leafNode s m = false := by
  induction n with
  | zero => exact fun bits => .inl ⟨[], [], bits, .nil, rfl, rfl⟩
  | succ n ih =>
    intro bits
    obtain ⟨p, m, rest, rfl, hm, hleaf⟩ | ⟨m, hm, hinner⟩ := h.follow_bits bits s.root h.root_lt
    · have hk := h.kRange
      have hp : LeafPath s p s.entSym[m.toNat] :=
        (h.leafPath_iff p _).mpr ⟨m, hleaf, hm, Vector.getElem?_eq_getElem (by omega)⟩
      obtain ⟨paths, syms, rest, hpaths, rfl, rfl⟩ | ⟨paths, syms, part, m', hpaths, hlt, rfl, hm', hinner⟩ := ih rest
      · exact .inl ⟨p :: paths, _ :: syms, rest, .cons hp hpaths, rfl, (List.append_assoc ..).symm⟩
      · exact .inr ⟨p :: paths, _ :: syms, part, m', .cons hp hpaths, Nat.succ_lt_succ hlt,
          (List.append_assoc ..).symm, hm', hinner⟩
    · exact .inr ⟨[], [], bits, m, .nil, Nat.succ_pos n, rfl, hm, hinner⟩

/-- Any bits begin with `n` zeros, or have a 1 after fewer, or are fewer zeros. -/
theorem zeros_cases (n : Nat) : ∀ bits : List Bool,
    (∃ rest, bits = List.replicate n false ++ rest) ∨
    (∃ zeros rest, zeros < n ∧ bits = List.replicate zeros false ++ true :: rest) ∨
    ∃ zeros, zeros < n ∧ bits = List.replicate zeros false := by
  induction n with
  | zero => exact fun bits => .inl ⟨bits, rfl⟩
  | succ n ih =>
    intro bits
    match bits with
    | [] => exact .inr (.inr ⟨0, Nat.succ_pos n, rfl⟩)
    | true :: rest => exact .inr (.inl ⟨0, rest, Nat.succ_pos n, rfl⟩)
    | false :: bits =>
      obtain ⟨rest, rfl⟩ | ⟨zeros, rest, hlt, rfl⟩ | ⟨zeros, hlt, rfl⟩ := ih bits
      · exact .inl ⟨rest, rfl⟩
      · exact .inr (.inl ⟨zeros + 1, rest, Nat.succ_lt_succ hlt, rfl⟩)
      · exact .inr (.inr ⟨zeros + 1, Nat.succ_lt_succ hlt, rfl⟩)

/-- The body of DECODE on a valid tree reaches its count, or raises CorruptStream, with one entry only, or
UnexpectedEOF. -/
theorem TreeOk.bodyDecode_cases {s : State} (h : TreeOk s) :
    (∃ p n out, out.length = freqSum (entryList s) ∧
      bodyDecode s = .ok () (setPos p (decoding s (freqSum (entryList s)) n out))) ∨
    (s.k = 1 ∧ ∃ p n out, bodyDecode s = raise .corruptStream (setPos p (decoding s (freqSum (entryList s)) n out))) ∨
    ∃ n out, bodyDecode s = raise .unexpectedEOF
      (setPos (if s.srcPos < s.srcLen then s.srcLen else s.srcPos) (decoding s (freqSum (entryList s)) n out)) := by
  cases hroot : leafNode s s.root with
  | false =>
    obtain ⟨paths, syms, rest, hpaths, hlen, hbits⟩ | ⟨paths, syms, part, m, hpaths, hlt, hbits, hm, hinner⟩ :=
      h.leafPaths_or_part (freqSum (entryList s)) (streamBits s)
    · exact .inl ⟨_, _, syms, hlen, bodyDecode_paths h hroot hpaths hlen hbits⟩
    · exact .inr (.inr ⟨m, syms, bodyDecode_short h hroot hpaths hlt hbits hm hinner⟩)
  | true =>
    have hlt := h.root_lt
    have hone : s.k = 1 := BitVec.eq_of_toNat_eq (show s.k.toNat = 1 by
      have := (h.leaf_iff hlt).mp hroot
      have := h.root
      have := h.kRange
      omega)
    obtain ⟨hzeros, hbad, hshort⟩ := bodyDecode_leaf h hroot (Vector.getElem?_eq_getElem (h.lt511 hlt))
    obtain ⟨rest, hbits⟩ | ⟨zeros, rest, hz, hbits⟩ | ⟨zeros, hz, hbits⟩ :=
      zeros_cases (freqSum (entryList s)) (streamBits s)
    · exact .inl ⟨_, _, _, List.length_replicate, hzeros rest hbits⟩
    · exact .inr (.inl ⟨hone, _, _, _, hbad zeros rest hz hbits⟩)
    · exact .inr (.inr ⟨_, _, hshort zeros hz hbits⟩)

/-! ### Totality (R216) -/

/-- DECOMPRESS whose first two stage commands complete ends as its third (40_sequencer.md R128). -/
theorem exec_decompress_of_stages {s t u v : State} (hb : s.busy = false) (x1 : exec .rdhdr s = .next t)
    (h1 : t.err = false) (x2 : exec .build t = .next u) (h2 : u.err = false) (x3 : exec .decode u = .next v) :
    exec .decompress s = .next v := by
  rw [(macroCommandsAreTheirStageCommands s hb).2, issueAll_cons x1 h1, issueAll_cons x2 h2, issueAll_next _ x3]
  exact ite_self _

/-- Settles O56: RDHDR raises, or BUILD makes a tree of what it read and DECODE ends in one of its three ways. -/
theorem decompressIsTotal : Obligations.DecompressIsTotal := by
  intro s hb
  obtain ⟨t, hbody, hchange⟩ | ⟨t, hbody, hchange, h1, h256, hpos⟩ :=
    bodyRdhdr_cases (Stage.rdhdr.cascade (accept .single .rdhdr s))
  · have hexec := (macroCommandsAreTheirStageCommands s hb).2.trans (issueAll_next _ (exec_rdhdr_raise hb hbody))
    refine ⟨_, hexec, rfl, rfl, rfl, rfl, ?_, .inr (.inl ?_)⟩
    · rw [hchange]; rfl
    · rw [hchange]; exact ⟨rfl, rfl, rfl, rfl, rfl, rfl, rfl⟩
  · obtain ⟨u, x2, htree, e2⟩ := exec_build_tree (s := complete (Stage.rdhdr.produce t)) rfl rfl h1 h256
    have hexec (v : State) : exec .decode u = .next v → exec .decompress s = .next v :=
      exec_decompress_of_stages hb (runCommand_ok (st := .rdhdr) hb rfl hbody) (by rw [hchange]; rfl) x2 (by rw [e2]; rfl)
    have hb2 : u.busy = false := by rw [e2]; rfl
    have he2 : u.entV = true := by rw [e2]; rfl
    have hv2 : u.treeV = true := by rw [e2]
    have hc2 : u.codeV = false := by rw [e2]
    have hhist : u.histV = s.histV := by rw [e2, hchange]; rfl
    have hpos2 : u.srcPos ≤ u.srcLen := by rw [e2]; exact hpos
    obtain ⟨p, n, out, hlen, hdec⟩ | ⟨hone, p, n, out, hdec⟩ | ⟨n, out, hdec⟩ :=
      (htree.congr (accept_sameTree .single .decode u)).bodyDecode_cases
    · exact ⟨_, hexec _ (exec_decode_ok hb2 he2 hv2 hdec), rfl, rfl, rfl, rfl, hhist,
        .inl ⟨rfl, rfl, rfl, he2, hv2, hc2, decoding_done (accept .single .decode u) _ n hlen⟩⟩
    · exact ⟨_, hexec _ (exec_decode_raise hb2 he2 hv2 hdec), rfl, rfl, rfl, rfl, hhist,
        .inr (.inr (.inl ⟨rfl, rfl, rfl, hone⟩))⟩
    · exact ⟨_, hexec _ (exec_decode_raise hb2 he2 hv2 hdec), rfl, rfl, rfl, rfl, hhist,
        .inr (.inr (.inr ⟨rfl, rfl, rfl, srcEnd_of_le hpos2⟩))⟩

end Sys2Proof.Machine

/-! Proofs about the round trip (46_deserializer.md R215): the decoder's tree is the encoder's, and the stream it reads is the
codes of the source. -/

namespace Sys2Proof.Machine

/-! ### The bits of a packed stream (45_serializer.md R195) -/

/-- Bit `n` of a byte list is bit `n % 8` of byte `n / 8`. -/
theorem flatMap_byteBits_getElem? (bs : List Byte) : ∀ n : Nat,
    (bs.flatMap byteBits)[n]? = bs[n / 8]?.map fun b => b.getLsbD (n % 8) := by
  induction bs with
  | nil => exact fun n => rfl
  | cons b bs ih =>
    intro n
    rw [List.flatMap_cons]
    by_cases h : n < 8
    · rw [List.getElem?_append_left (by simpa using h), Nat.div_eq_of_lt h, Nat.mod_eq_of_lt h]
      simp [byteBits, h]
    · rw [List.getElem?_append_right (by simpa using h), byteBits_length, ih,
        show n / 8 = (n - 8) / 8 + 1 by omega, show n % 8 = (n - 8) % 8 by omega, List.getElem?_cons_succ]

/-- The stream of the decoder begins with the bits its source bytes hold. -/
theorem streamBits_prefix_of_getElem {s : State} {bits : List Bool}
    (hlen : s.srcPos.toNat + (bits.length + 7) / 8 ≤ s.srcLen.toNat)
    (h : ∀ n (hn : n < bits.length), (sourceByte s (s.srcPos.toNat + n / 8)).getLsbD (n % 8) = bits[n]) :
    bits <+: streamBits s := by
  refine List.prefix_iff_getElem?.mpr fun n hn => ?_
  have hsource : (sourceBytes s)[s.srcPos.toNat + n / 8]? = some (sourceByte s (s.srcPos.toNat + n / 8)) := by
    simp [sourceBytes, show s.srcPos.toNat + n / 8 < s.srcLen.toNat by omega]
  rw [streamBits, flatMap_byteBits_getElem?, List.getElem?_drop, hsource, Option.map_some, h n hn]

/-- Bit `n` of a packed bit string stands in byte `n / 8` (30_encoding.md R95). -/
theorem packBytes_getElem? {bits : List Bool} {n : Nat} (hn : n < bits.length) :
    ∃ b, (packBytes bits)[n / 8]? = some b ∧ b.getLsbD (n % 8) = bits[n] := by
  refine ⟨byteOfBits (bits.drop (8 * (n / 8))), ?_, ?_⟩
  · simp [packBytes, show n / 8 < (bits.length + 7) / 8 by omega]
  · rw [byteOfBits_getLsbD, decide_eq_true (Nat.mod_lt n (by decide)), Bool.true_and, List.getD_eq_getElem?_getD,
      List.getElem?_drop, Nat.div_add_mod, List.getElem?_eq_getElem hn, Option.getD_some]

theorem packBytes_length (bits : List Bool) : (packBytes bits).length = (bits.length + 7) / 8 := by
  simp [packBytes]

/-- A source that holds these bytes at its first addresses begins with them. -/
theorem sourceBytes_prefix_of_getElem {s : State} {bs : List Byte} (hlen : bs.length ≤ s.srcLen.toNat)
    (h : ∀ i (hi : i < bs.length), sourceByte s i = bs[i]) : bs <+: sourceBytes s := by
  refine List.prefix_iff_getElem?.mpr fun i hi => ?_
  simp [sourceBytes, show i < s.srcLen.toNat by omega, h i hi]

/-! ### The encoder's tree (43_tree_builder.md R173) -/

/-- A command issued first, of commands that end without an error. -/
theorem issueAll_cons_next {i : Instr} {rest : List Instr} {s t : State} (h : issueAll (i :: rest) s = .next t)
    (ht : t.err = false) : ∃ u, exec i s = .next u ∧ issueAll rest u = .next t := by
  cases hexec : exec i s with
  | next u =>
    rw [issueAll_next rest hexec] at h
    split at h
    · next hu => cases h; exact absurd (hu.symm.trans ht) nofun
    · exact ⟨u, rfl, h⟩
  | fault f => rw [issueAll_fault rest hexec] at h; cases h
  | refused r => simp only [issueAll, hexec] at h; cases h

/-- The commands that leave the entry list and the tree: none of their stages writes them (10_state.md R20). -/
theorem exec_sameTree {i : Instr} {s t : State} (hi : i = .codegen ∨ i = .wrhdr ∨ i = .pack) (h : exec i s = .next t) :
    SameTree s t := by
  obtain ⟨hclear, halpha, hrdhdr, hbuild⟩ : i ≠ .clear ∧ Stage.alpha ∉ commandStages i ∧ Stage.rdhdr ∉ commandStages i ∧
      Stage.build ∉ commandStages i := by
    rcases hi with rfl | rfl | rfl <;> decide
  have hframe := exec_frame hclear h
  have hentries := hframe.entries halpha hrdhdr
  have hnodes := hframe.nodes hbuild
  simp only [Prod.mk.injEq] at hentries hnodes
  obtain ⟨hsym, hfreq, hk⟩ := hentries
  obtain ⟨hnf, hns, hnl, hnr, -, hcnt, hroot, -⟩ := hnodes
  exact ⟨hk, hsym, hfreq, hnf, hns, hnl, hnr, hcnt, hroot⟩

theorem SameTree.trans {s t u : State} (h : SameTree s t) (h' : SameTree t u) : SameTree s u :=
  ⟨h'.k.trans h.k, h'.entSym.trans h.entSym, h'.entFreq.trans h.entFreq, h'.nodeFreq.trans h.nodeFreq,
    h'.nodeSym.trans h.nodeSym, h'.nodeLeft.trans h.nodeLeft, h'.nodeRight.trans h.nodeRight, h'.nodeCnt.trans h.nodeCnt,
    h'.root.trans h.root⟩

/-- The tree COMPRESS leaves is the one its BUILD made, of the entry list it leaves. -/
theorem compress_build {s t : State} (hb : s.busy = false) (h0 : s.srcLen ≠ 0) (h : exec .compress s = .next t)
    (ht : t.err = false) :
    ∃ a b, a.busy = false ∧ a.entV = true ∧ exec .build a = .next b ∧ a.k = t.k ∧ entryList a = entryList t ∧
      SameTree b t := by
  rw [(macroCommandsAreTheirStageCommands s hb).1] at h
  obtain ⟨s1, x1, h⟩ := issueAll_cons_next h ht
  obtain ⟨s2, x2, h⟩ := issueAll_cons_next h ht
  obtain ⟨s3, x3, h⟩ := issueAll_cons_next h ht
  obtain ⟨s4, x4, h⟩ := issueAll_cons_next h ht
  obtain ⟨s5, x5, h⟩ := issueAll_cons_next h ht
  obtain ⟨_, x6, h⟩ := issueAll_cons_next h ht
  obtain rfl := Host.Outcome.next.inj h
  obtain ⟨_, x, -, e1⟩ := exec_hist_counts hb h0
  cases x1.symm.trans x
  obtain ⟨_, x, -, e2⟩ := exec_alpha_lists (s := s1) (by rw [e1]; rfl) (by rw [e1])
  cases x2.symm.trans x
  have htree : SameTree s3 _ := ((exec_sameTree (.inl rfl) x4).trans (exec_sameTree (.inr (.inl rfl)) x5)).trans
    (exec_sameTree (.inr (.inr rfl)) x6)
  have hentries := (exec_frame (i := .build) nofun x3).entries (by decide) (by decide)
  simp only [Prod.mk.injEq] at hentries
  obtain ⟨hsym, hfreq, hk⟩ := hentries
  refine ⟨s2, s3, by rw [e2]; rfl, by rw [e2], x3, (htree.k.trans hk).symm, ?_, htree⟩
  unfold entryList
  rw [htree.k, htree.entSym, htree.entFreq, hk, hsym, hfreq]

/-- BUILD on the entry list COMPRESS left makes the tree COMPRESS left (43_tree_builder.md R173). -/
theorem compress_build_twin {s t u v : State} (hb : s.busy = false) (h0 : s.srcLen ≠ 0) (h : exec .compress s = .next t)
    (ht : t.err = false) (htree : TreeOk t) (hbu : u.busy = false) (heu : u.entV = true) (hk : u.k = t.k)
    (hentries : entryList u = entryList t) (hbuild : exec .build u = .next v) (htreev : TreeOk v) : TreeTwin t v := by
  obtain ⟨a, b, hba, hea, xa, hka, hentriesa, hsame⟩ := compress_build hb h0 h ht
  have hrange : 1 ≤ a.k.toNat ∧ a.k.toNat ≤ 256 := hka ▸ htree.kRange
  obtain ⟨_, _, xa', xu, hcnt, hroot, hwords⟩ := buildDependsOnTheEntriesOnly a u hba hbu hea heu hrange.1 hrange.2
    (hk.trans hka.symm) (hentries.trans hentriesa.symm)
  cases xa.symm.trans xa'
  cases hbuild.symm.trans xu
  have hcount : b.nodeCnt.toNat = 2 * t.k.toNat - 1 := by rw [← hsame.nodeCnt]; exact htree.count
  rw [hcount] at hwords
  simp only [← hsame.nodeFreq, ← hsame.nodeSym, ← hsame.nodeLeft, ← hsame.nodeRight] at hwords
  exact ⟨htree, htreev, hroot.trans hsame.root.symm, hcnt.trans hsame.nodeCnt.symm, fun i hi => (hwords i hi).1,
    fun i hi => (hwords i hi).2.1, fun i hi => (hwords i hi).2.2.1, fun i hi => (hwords i hi).2.2.2⟩

/-! ### The walk inverts the codes (R207 to R209) -/

/-- With a single leaf, the bytes that have a code are all the leaf's symbol, and each has the code 0. -/
theorem CodeTableOk.codes_of_leaf {s : State} (h : CodeTableOk s) (hroot : leafNode s s.root = true) {sym : Byte}
    (hsym : s.nodeSym[s.root.toNat]? = some sym) {bs : List Byte} (hcoded : ∀ b ∈ bs, codeOf b s ≠ []) :
    bs = List.replicate bs.length sym ∧ (bs.flatMap fun b => codeOf b s) = List.replicate bs.length false := by
  have hone (b : Byte) (hb : b ∈ bs) : b = sym := by
    by_contra hne
    exact hcoded b hb ((h.single hroot b).trans (if_neg fun e => hne (Option.some.inj (e.symm.trans hsym))))
  have hbs : bs = List.replicate bs.length sym := List.eq_replicate_iff.mpr ⟨rfl, hone⟩
  refine ⟨hbs, ?_⟩
  have hcode : codeOf sym s = [false] := (h.single hroot sym).trans (if_pos hsym)
  conv_lhs => rw [hbs]
  generalize bs.length = n
  induction n with
  | zero => rfl
  | succ n ih => rw [List.replicate_succ, List.flatMap_cons, ih, hcode]; rfl

/-- DECODE turns the codes of as many bytes as the frequencies sum to back into these bytes. -/
theorem exec_decode_codes {t u : State} (twin : TreeTwin t u) (htable : CodeTableOk t) (hb : u.busy = false)
    (he : u.entV = true) (hv : u.treeV = true) {bs : List Byte} (hcoded : ∀ b ∈ bs, codeOf b t ≠ [])
    (hlen : bs.length = freqSum (entryList u)) (hbits : (bs.flatMap fun b => codeOf b t) <+: streamBits u) :
    ∃ v, exec .decode u = .next v ∧ v.err = false ∧ v.snk = u.snk ++ bs := by
  obtain ⟨rest, hrest⟩ := hbits
  cases hroot : leafNode t t.root with
  | false =>
    have hpaths : List.Forall₂ (LeafPath u) (bs.map fun b => codeOf b t) bs :=
      List.forall₂_map_left_iff.mpr (List.forall₂_same.mpr fun b hmem =>
        (twin.leafPath _ b).mpr (htable.leafPath_codeOf hroot (hcoded b hmem)))
    exact ⟨_, exec_decode_paths hb he hv twin.twin (twin.leafRoot.trans hroot) hpaths hlen hrest.symm, rfl, rfl⟩
  | true =>
    obtain ⟨sym, hsym⟩ : ∃ sym, t.nodeSym[t.root.toNat]? = some sym :=
      ⟨_, Vector.getElem?_eq_getElem (twin.tree.lt511 twin.tree.root_lt)⟩
    obtain ⟨hbs, hcodes⟩ := htable.codes_of_leaf hroot hsym hcoded
    have hsymu : u.nodeSym[u.root.toNat]? = some sym := by
      rw [twin.root, twin.words.sym _ twin.tree.root_lt]; exact hsym
    obtain ⟨hzeros, -⟩ := decodeOfASingleLeaf u _ _ hb he hv twin.twin (twin.leafRoot.trans hroot) hsymu hlen
    refine ⟨_, hzeros rest (by rw [← hcodes, hrest]), rfl, ?_⟩
    exact congrArg (u.snk ++ ·) hbs.symm

/-! ### The round trip (R215) -/

/-- The counts of the byte values sum to the length of the source (41_frequency_counter.md R145). -/
theorem freqSum_sourceEntries {s : State} (hb : s.busy = false) (h0 : s.srcLen ≠ 0) :
    freqSum (sourceEntries s) = (sourceBytes s).length := by
  obtain ⟨t, -, hcounts, -⟩ := exec_hist_counts hb h0
  rw [← countedEntries_eq_sourceEntries hcounts, freqSum_countedEntries_allBytes, hist_sum hcounts]

/-- On a source that begins with the header COMPRESS appended, DECOMPRESS comes to its DECODE with COMPRESS's entry list and
tree, and SRC_POS behind the header. -/
theorem decompress_tree {s t u : State} (hb : s.busy = false) (h0 : s.srcLen ≠ 0) (h : exec .compress s = .next t)
    (ht : t.err = false) (htree : TreeOk t) (hbu : u.busy = false) (hheader : headerBytes (entryList t) <+: sourceBytes u) :
    ∃ v, (∀ x, exec .decode v = .next x → exec .decompress u = .next x) ∧ TreeTwin t v ∧ entryList v = entryList t ∧
      v.srcPos.toNat = 4 + 5 * t.k.toNat ∧
      v = { settled u with
        entV := true, treeV := true, codeV := false
        srcPos := v.srcPos, k := v.k, entSym := v.entSym, entFreq := v.entFreq
        nodeFreq := v.nodeFreq, nodeSym := v.nodeSym, nodeLeft := v.nodeLeft, nodeRight := v.nodeRight
        nodeCnt := v.nodeCnt, root := v.root, heap := v.heap, heapSize := 1 } := by
  obtain ⟨h1, h256⟩ := htree.kRange
  have hlen := entryList_length t h256
  obtain ⟨a, x1, hentries, hk, hpos, -, e1⟩ := rdhdrReadsTheHeader u (entryList t) hbu (by omega) (by omega) hheader
  have he : a.entV = true := by rw [e1]
  have hba : a.busy = false := by rw [e1]; rfl
  obtain ⟨v, x2, htreev, e2⟩ := exec_build_tree (s := a) hba he (by omega) (by omega)
  refine ⟨v, fun x => exec_decompress_of_stages hbu x1 (by rw [e1]; rfl) x2 (by rw [e2]; rfl),
    compress_build_twin hb h0 h ht htree hba he (BitVec.eq_of_toNat_eq (hk.trans hlen)) hentries x2 htreev, ?_, ?_, ?_⟩
  · rw [e2]; exact hentries
  · rw [e2, ← hlen]; exact hpos
  · rw [e2, e1]; rfl

/-- Settles O57: DECOMPRESS comes to its DECODE with the encoder's tree, and DECODE walks it along the codes of the
source. -/
theorem roundTripRestoresTheSource : Obligations.RoundTripRestoresTheSource := by
  intro s hb h0
  obtain ⟨t, hexec, hentries, hk, htree, htable, hsnk, hchange⟩ := compressAppendsOneArtifact s hb h0
  have herr : t.err = false := by rw [hchange]; rfl
  have hheader := headerBytes_length (entryList t)
  rw [← hk] at hheader
  refine ⟨t, _, hexec, herr, hsnk.trans (List.append_assoc ..), fun u hbu hlen hfront hstream => ?_⟩
  rw [List.length_append, hheader, packBytes_length] at hlen
  have hprefix : headerBytes (entryList t) <+: sourceBytes u := sourceBytes_prefix_of_getElem (by omega) fun i hi => by
    have hbyte := hfront i (by omega)
    rw [List.getElem?_append_left hi, List.getElem?_eq_getElem hi] at hbyte
    exact (Option.some.inj hbyte).symm
  obtain ⟨v, hdecompress, twin, hentriesv, hpos, hv⟩ := decompress_tree hb h0 hexec herr htree hbu hprefix
  have hlenv : v.srcLen = u.srcLen := by rw [hv]; rfl
  have hbits : ((sourceBytes s).flatMap fun b => codeOf b t) <+: streamBits v := by
    refine streamBits_prefix_of_getElem (by rw [hpos, hlenv]; omega) fun n hn => ?_
    obtain ⟨b, hbyte, hbit⟩ := packBytes_getElem? hn
    rw [hpos, ← hbit, sourceByte_congr (s := u) (by rw [hv]; rfl) (by rw [hv]; rfl)]
    refine hstream n b hn ?_
    rw [List.getElem?_append_right (by omega), hheader, Nat.add_sub_cancel_left, hbyte]
  have hsum : (sourceBytes s).length = freqSum (entryList v) := by
    rw [hentriesv, hentries]; exact (freqSum_sourceEntries hb h0).symm
  have hcoded : ∀ b ∈ sourceBytes s, codeOf b t ≠ [] := fun b hmem =>
    htable.codeOf_ne_nil htree (by rw [hentries]; exact mem_sourceEntries hmem)
  obtain ⟨x, hdecode, herrx, hsnkx⟩ :=
    exec_decode_codes twin htable (by rw [hv]; rfl) (by rw [hv]) (by rw [hv]) hcoded hsum hbits
  refine ⟨x, hdecompress x hdecode, herrx, hsnkx.trans ?_⟩
  rw [hv]
  rfl

end Sys2Proof.Machine

/-! Proofs about the level outputs (60_exceptions.md R236) and the reset input (70_reset_and_hazards.md R255). -/

namespace Sys2Proof.Machine

/-- Settles O60: the outputs are the flags by definition, and STATUS holds the flags in bits 0 to 2. -/
theorem statusOutputsAreTheFlags : Obligations.StatusOutputsAreTheFlags := by
  intro s
  obtain ⟨hbusy, hdone, herr, -⟩ := statusHoldsItsFields s
  rw [hbusy, hdone, herr]
  exact ⟨rfl, rfl⟩

/-- A pulse on the reset input resets the registers, whatever HFC is doing. -/
theorem step_reset {s : State} {rest : List HostAction} (h : s.host = .reset :: rest) :
    step s = .next (resetRegisters { s with host := rest }) :=
  step_perform h

/-- Settles O22: the reset input asks for nothing of the state, and the registers it resets are all but the table memories
and the environment. -/
theorem resetPulseAbandonsTheCommand : Obligations.ResetPulseAbandonsTheCommand :=
  fun _ _ h => step_reset h

end Sys2Proof.Machine
